-- ==== Sys2Proof/Word.lean ====
section
/-! DEFINITION. The word types of the OBRANT DK-7: a byte as every port carries it, and a station ID. -/

namespace Sys2Proof

/-- One byte of a port's frame; every byte is sent most significant bit first (12_layouts_and_pins.md). -/
abbrev Byte := BitVec 8

/-- A station ID, 0 to 15; arithmetic on IDs is modulo 16 (00_scope.md section 6.5). -/
abbrev StationId := BitVec 4

end Sys2Proof
end

