-- ==== Sys2Proof/Syntax.lean ====
section
/-! DEFINITION. The commands of the DK-7, one constructor per row of spec/opcode_table.json, with their operands:
a station-port request carries its tag and its argument body as R211 lays it out, a kettle-line frame its source ID,
frame sequence number and payload as R210 lays it out, a drive response its number and detail byte (R212), a converter
transfer its status byte and raw count (R212). -/

namespace Sys2Proof

/-- A command: one row of the table of operations and events. -/
inductive Instr where
  /-- RESETn held low, or the supply monitor (R209). -/
  | powerOnReset
  /-- The bytes of a partial request frame stopped for more than 5 ms (R194). -/
  | requestFrameTimeout
  /-- A complete request frame whose CRC does not match (R194). -/
  | requestCheckFail
  /-- A request whose code names no request (R196). -/
  | unknownRequest (tag code : Byte) (body : List Byte)
  | setParam (tag : Byte) (body : List Byte)
  | sealRequest (tag : Byte) (body : List Byte)
  | readParam (tag : Byte) (body : List Byte)
  | readStatus (tag : Byte) (body : List Byte)
  | readEvent (tag : Byte) (body : List Byte)
  | ackGroup (tag : Byte) (body : List Byte)
  | setEnable (tag : Byte) (body : List Byte)
  | powerInfo (tag : Byte) (body : List Byte)
  | loadProgram (tag : Byte) (body : List Byte)
  | readProgram (tag : Byte) (body : List Byte)
  | lotOpen (tag : Byte) (body : List Byte)
  | lotFix (tag : Byte) (body : List Byte)
  | lotFreeClass (tag : Byte) (body : List Byte)
  | readLots (tag : Byte) (body : List Byte)
  | startDip (tag : Byte) (body : List Byte)
  | abortDip (tag : Byte) (body : List Byte)
  | confirmClear (tag : Byte) (body : List Byte)
  | ingot (tag : Byte) (body : List Byte)
  | setBalance (tag : Byte) (body : List Byte)
  | readRecord (tag : Byte) (body : List Byte)
  | peekRecord (tag : Byte) (body : List Byte)
  | clearPeer (tag : Byte) (body : List Byte)
  | readPeers (tag : Byte) (body : List Byte)
  | readSpans (tag : Byte) (body : List Byte)
  | readHeat (tag : Byte) (body : List Byte)
  | stationReset (tag : Byte) (body : List Byte)
  /-- A received kettle-line frame failed a check of R5. -/
  | lineFrameDiscarded
  | beaconFrame (src : StationId) (seq : Byte) (payload : List Byte)
  | intentFrame (src : StationId) (seq : Byte) (payload : List Byte)
  | holdFrame (src : StationId) (seq : Byte) (payload : List Byte)
  | yieldFrame (src : StationId) (seq : Byte) (payload : List Byte)
  | freeFrame (src : StationId) (seq : Byte) (payload : List Byte)
  | entryFrame (src : StationId) (seq : Byte) (payload : List Byte)
  | pickupFrame (src : StationId) (seq : Byte) (payload : List Byte)
  | ingotFrame (src : StationId) (seq : Byte) (payload : List Byte)
  /-- The line has been idle for the idle gap and no backoff runs (R11). -/
  | attemptStart
  /-- A recessive bit of the attempt reads back dominant (R12). -/
  | collision
  /-- The current frame deferred for more than 1,024 slots (R11). -/
  | deferTimeout
  /-- The backoff wait of the current frame ends (R13). -/
  | backoffExpiry
  /-- The last CRC bit of the attempt reads back equal (R14). -/
  | sendSuccess
  | beaconTimerExpiry
  | joinTimerExpiry
  | clashTimerExpiry
  | peerSilenceExpiry (peer : StationId)
  | claimWindowExpiry
  | guardExpiry
  | retryDelayExpiry
  | blockedLong
  | intentLapse (holder : StationId)
  /-- `place` chooses among the records of the oldest arrival (R71: "either may be taken first"). -/
  | entryExpiry (place : Nat)
  | dwellExpiry
  | abortDrainExpiry
  | motionRequestSent
  | motionAccept (number : Byte)
  | motionDone (number cell : Byte)
  | motionFail (number detail : Byte)
  | motionFrameDiscarded
  | acceptTimeout
  | doneTimeout
  | stopAcceptTimeout
  | pollTimer
  | sampleTaken (status : Byte) (raw : BitVec 24)
  | settleTimeout
  | drainMinimum
  | drainMaximum
  deriving DecidableEq, Repr

end Sys2Proof
end

