-- ==== Sys2Proof/Decode.lean ====
section
/-! DEFINITION. The command a word spells by the table's bits. Every row of spec/opcode_table.json has "fields": []
and no fixed bits, so no word spells a command: the commands arrive as frames and events at four ports, whose layouts
(R210 to R212) are read in Machine/Operands.lean. -/

namespace Sys2Proof

/-- The command that the table's bits give a word: none, since no row of the table gives bits. -/
def decodeTableWord (_nbits _w : Nat) : Option Instr := none

end Sys2Proof
end

