-- ==== Sys2Proof/Config.lean ====
section
/-! DEFINITION. What the part fixes (identity codes, fixed lengths) and the one free value of the model. -/

namespace Sys2Proof.Config

/-- The one free value: whether, of two timers that fall due in the same millisecond, the one drawn for stands
before the next one in the queue. The spec says of such pairs that "either may be taken first" (R30, R61, R71).
Drawn with a fresh counter each time; it has no body, so nothing can be proved of its values. Log 3. -/
opaque dueFirst : Nat → Bool

/-- Vendor code of POWER_INFO (R202). -/
def vendorCode : Nat := 58

/-- Part code of POWER_INFO (R202). -/
def partCode : Nat := 3335

/-- Revision number of POWER_INFO (R202). -/
def revision : Nat := 1

/-- Places of the transmit queue (R17). -/
def queuePlaces : Nat := 8

/-- Failed attempts after which a frame is discarded (R15). -/
def maxAttempts : Nat := 16

/-- Health score at which an ACTIVE line degrades (R10). -/
def degradeScore : Nat := 64

/-- Health score at which a DEGRADED line is restored (R10). -/
def restoreScore : Nat := 16

/-- Records of the heat window (R68). -/
def windowPlaces : Nat := 24

/-- Records of the dip record ring (R189). -/
def ringPlaces : Nat := 32

/-- Entries of the lot table (R170). -/
def lotPlaces : Nat := 8

/-- Blocks of the weigh history (R147). -/
def historyPlaces : Nat := 16

/-- Largest chain depth (R94). -/
def chainLimit : Nat := 4

/-- Accept timer of a motion request, in ms (R132). -/
def acceptTimeout : Nat := 500

/-- Poll period of the converter, in ms (R142). -/
def pollPeriod : Nat := 20

end Sys2Proof.Config
end

