-- ==== Sys2Proof/Machine/State.lean ====
section
/-! DEFINITION. The state of the DK-7 as plain data: one structure per block of 00_scope.md section 4.1, holding the
state that section and the block's chapter name, and the machine right after power-on reset. A timer is the local time
at which it reaches its end, absent while it is stopped. -/

namespace Sys2Proof.Machine

/-- Reasons for which the machine stops with a fault. There are none: the spec never stops the part; what it calls a
fault (MOTION_FAULT, PROGRAM_FAULT, the line state FAULT) is state of the running part. Nothing raises one (log 30). -/
inductive Fault where
  deriving DecidableEq, Repr

/-- Reasons for which a command has no meaning. -/
inductive Refusal where
  /-- Raised by an arm of exec whose command has no meaning yet; a safe stop. No arm raises it now. -/
  | notModelled (mnemonic : String)
  deriving DecidableEq, Repr

/-! ### Kettle line (01_kettle_line.md) -/

/-- The five steel reactivity classes (00_scope.md section 6.8). -/
inductive SteelClass where
  | r2 | r3 | r4 | r5 | r6
  deriving DecidableEq, Repr

/-- A span of kettle cells with the whole flag beside them, as INTENT, HOLD and BEACON carry it (R4). "Span S means the
same cells and the same whole flag" (R63). -/
structure Span where
  first : Nat
  last : Nat
  whole : Bool
  deriving DecidableEq, Repr

/-- Line states (section 1.3). -/
inductive LineState where
  | off | joining | active | degraded | fault
  deriving DecidableEq, Repr

/-- A frame of the own station in the transmit queue, with what its builder gave it. A BEACON's payload is composed at
each attempt (R23). An ENTRY and a PICKUP carry the dip serial of R191 beside their payload. -/
inductive TxFrame where
  | hold (span : Span) (claim : Byte)
  | free (claim : Byte)
  | yield (claim : Byte)
  | intent (span : Span) (age : Nat) (claim : Byte)
  | entry (mass index : Nat) (serial : BitVec 32)
  | pickup (seq : BitVec 16) (consumption : Nat) (cls : Option SteelClass) (serial : BitVec 32)
  | ingot (mass : Nat)
  | beacon
  deriving DecidableEq, Repr

/-- Where the current frame stands (R11 to R13). -/
inductive TxPhase where
  /-- Waits for the line to be idle for the idle gap. -/
  | deferring
  /-- Waits a backoff of so many slots of 256 µs. -/
  | backoff (slots : Nat)
  /-- An attempt is on the line, with the bytes it drives. -/
  | onLine (bytes : List Byte)
  deriving DecidableEq, Repr

/-- The current frame (R11). -/
structure Current where
  frame : TxFrame
  /-- Failed attempts so far. -/
  attempts : Nat
  phase : TxPhase
  /-- A withdrawal is held until the attempt on the line ends (R20). -/
  withdrawHeld : Bool
  /-- STATION_RESET was taken during the attempt: on failure the frame is removed (R25). -/
  removeOnFail : Bool
  deriving DecidableEq, Repr

/-- Line interface (R25). -/
structure Lif where
  line : LineState
  /-- Line health score (R6). -/
  score : Nat
  /-- Frame sequence counter (R3). -/
  seq : Byte
  /-- Waiting frames in queue order (R17). -/
  waiting : List TxFrame
  current : Option Current
  joinEnd : Option Nat
  beaconNext : Option Nat
  /-- The clash timer; the clash mark is set while it runs (R24). -/
  clashEnd : Option Nat
  deriving DecidableEq, Repr

/-! ### Peer presence (02_peer_presence.md) -/

/-- Station conditions a BEACON reports; UNKNOWN until the first BEACON (R26). -/
inductive Condition where
  | readyIdle | readyBusy | halted | parked | unknown
  deriving DecidableEq, Repr

/-- Presence of a peer (R26). -/
inductive Presence where
  | present | silent
  deriving DecidableEq, Repr

/-- A peer record (R26). -/
structure Peer where
  id : StationId
  presence : Presence
  lastArrival : Nat
  condition : Condition
  lastSeq : Byte
  /-- Expected pickup sequence, absent until the first PICKUP (R32). -/
  expected : Option (BitVec 16)
  silenceEnd : Option Nat
  deriving DecidableEq, Repr

/-- Peer table, in ascending peer ID. -/
structure Ptb where
  peers : List Peer
  deriving DecidableEq, Repr

/-! ### Kettle span claims (03_kettle_span_claims.md) -/

/-- States of a peer entry (R39). -/
inductive EntryState where
  | intent | held | stale
  deriving DecidableEq, Repr

/-- A peer entry of the span table (R39). -/
structure PeerEntry where
  holder : StationId
  state : EntryState
  span : Span
  claim : Option Byte
  age : Option Nat
  arrival : Nat
  lapseEnd : Option Nat
  lastEntry : Option StationId
  deriving DecidableEq, Repr

/-- Own claim states (section 3.3), CLAIMING in its two phases (R46). -/
inductive ClaimState where
  | none | blocked | pending | claimingWindow | claimingHoldQueued | retry | guard | firm | releasing
  deriving DecidableEq, Repr

/-- What the own entry holds beside the own ID, the own claim state and the wanted span (R38). -/
structure OwnEntry where
  claim : Byte
  age : Nat
  deriving DecidableEq, Repr

/-- A withdrawal of the INTENT whose answer is awaited: for a conflict or closed zinc admission (R45), or for a cancel
(R56). -/
inductive Withdrawal where
  | none | conflict | cancel
  deriving DecidableEq, Repr

/-- Span claim unit (R67). -/
structure Scu where
  /-- Peer entries in ascending holder ID. -/
  entries : List PeerEntry
  state : ClaimState
  /-- The wanted span; it stays the same for the whole claim and is the own entry's span (R38, R41). -/
  wanted : Option Span
  own : Option OwnEntry
  withdrawal : Withdrawal
  /-- The wanted span of a claim request held in RELEASING or under a cancel withdrawal (R42). -/
  held : Option Span
  nextClaim : Byte
  windowEnd : Option Nat
  guardEnd : Option Nat
  retryEnd : Option Nat
  /-- The moment the blocked timer started from 0, while it runs (R57). -/
  blockedSince : Option Nat
  /-- What the stopped blocked timer holds, in ms. -/
  blockedHeld : Nat
  blockedLongMark : Bool
  /-- The dip's span request time (R42). -/
  requestTime : Option Nat
  /-- Wait age of the last INTENT offered in the current claim (R66). -/
  lastAge : Option Nat
  /-- Last-entry ID (R64). -/
  lastEntry : StationId
  deriving DecidableEq, Repr

/-! ### Heat load window (04_heat_load_window.md) -/

/-- An entry record (R68). -/
structure HeatEntry where
  src : StationId
  mass : Nat
  arrival : Nat
  index : Nat
  merges : Nat
  deriving DecidableEq, Repr

/-- A waiting admission request. -/
structure HeatWaiting where
  mass : Nat
  index : Nat
  since : Nat
  deriving DecidableEq, Repr

/-- Request state of the admission stage (section 4.4). -/
inductive HeatRequest where
  | none
  | waitSum (r : HeatWaiting)
  | waitEmpty (r : HeatWaiting)
  deriving DecidableEq, Repr

/-- Heat window (R80). -/
structure Hwn where
  /-- Oldest first. -/
  entries : List HeatEntry
  /-- Window sum in kg (R72). -/
  sum : Nat
  request : HeatRequest
  deriving DecidableEq, Repr

/-! ### Dip programs (05_dip_programs.md) -/

/-- A step record (R82). -/
inductive DipStep where
  | weighDry (timeout : Nat)
  | travel (cell : Nat)
  | claim (length : Nat) (whole : Bool)
  | lower (depth speed fraction : Nat)
  | dwell (duration : Nat)
  | raise (speed : Nat)
  | drain (minimum maximum high low quiet : Nat)
  | vibrate (duration : Nat)
  | weighOut (timeout : Nat)
  | release
  | finish
  | chain (slot : Nat)
  deriving DecidableEq, Repr

/-- A dip program (R81). -/
structure Program where
  continuation : Bool
  defaultClass : SteelClass
  flux : Nat
  steps : List DipStep
  deriving DecidableEq, Repr

/-- Program store: a slot is EMPTY (`none`) or LOADED (R81). -/
structure Pgs where
  slots : Vector (Option Program) 16
  deriving DecidableEq, Repr

/-! ### Dip sequencer (06_dip_sequencer.md) -/

/-- Load position (R99). -/
inductive Position where
  | clear | below | above | unknown
  deriving DecidableEq, Repr

/-- What a LOWER step carries from its record to HWN and MPT (R83). -/
structure LowerArgs where
  depth : Nat
  speed : Nat
  fraction : Nat
  deriving DecidableEq, Repr

/-- What an abort being carried out waits for (R122, R123). -/
inductive AbortPhase where
  /-- The STOP acceptance that completes a quick abort. -/
  | quickStop
  /-- The STOP acceptance of the abort path; `ofLower` when the STOP ended a LOWER. -/
  | pathStop (ofLower : Bool)
  /-- The completion of the RAISE. -/
  | raising
  /-- The abort drain time. -/
  | draining
  /-- The result of the 30 s weigh-out. -/
  | weighing
  deriving DecidableEq, Repr

/-- DSQ states (R97). AWAIT_SPAN is held apart by the step that waits, ABORTING by what it waits for. -/
inductive DsqState where
  | idle
  | weighingDry
  | traveling
  | awaitClaim
  | awaitLower (p : LowerArgs)
  | awaitRelease
  | heatWait (p : LowerArgs)
  | lowering
  | dwelling
  | raising
  | draining
  | vibrating
  | weighingOut
  | aborting (phase : AbortPhase)
  | parked
  | halted
  deriving DecidableEq, Repr

/-- Quality flags of the dip context (R98). -/
structure QualityFlags where
  unsettled : Bool
  overMark : Bool
  weighLost : Bool
  noDry : Bool
  noWet : Bool
  drainTimeout : Bool
  drainAborted : Bool
  deriving DecidableEq, Repr

/-- The dip context (R98), with the dip serial of R191. -/
structure DipCtx where
  startSlot : Nat
  slot : Nat
  index : Nat
  depth : Nat
  lot : Nat
  nominal : Nat
  defaultClass : SteelClass
  flux : Nat
  dry : Option Int
  wet : Option Int
  immersions : Nat
  immersionTime : Nat
  drainTime : Nat
  quality : QualityFlags
  progressive : Bool
  heatOver : Bool
  txDropped : Bool
  abortMark : Bool
  serial : BitVec 32
  deriving DecidableEq, Repr

/-- Motion request kinds (R131). -/
inductive MotionKind where
  | move | lower | raise | vibrate | stop
  deriving DecidableEq, Repr

/-- Reasons of a motion fault (R140). -/
inductive MotionReason where
  | timeout | overload | limit | driveFault | refused | badCell
  deriving DecidableEq, Repr

/-- Reasons of a program fault (R94, R114). -/
inductive ProgramReason where
  | chainLimit | chainEmpty | chainHeld | loadBelow | immersionLimit | noSpan | spanOutside | claimHeld
  deriving DecidableEq, Repr

/-- A fault as DSQ takes it: a motion fault with its reason, request kind and whether the request was running, or a
program fault with its reason (R125, R140). -/
inductive DipFault where
  | motion (reason : MotionReason) (kind : MotionKind) (running : Bool)
  | program (reason : ProgramReason)
  deriving DecidableEq, Repr

/-- The halt cause (R125). -/
structure HaltCause where
  fault : DipFault
  slot : Nat
  index : Nat
  deriving DecidableEq, Repr

/-- Dip sequencer (R130). -/
structure Dsq where
  state : DsqState
  ctx : Option DipCtx
  position : Position
  cause : Option HaltCause
  dwellEnd : Option Nat
  /-- The moment the immersion timer started, while it runs (R110). -/
  immersionSince : Option Nat
  /-- The abort drain timer (R123). -/
  drainEnd : Option Nat
  deriving DecidableEq, Repr

/-! ### Motion line (07_motion_line.md) -/

/-- A MOVE, LOWER, RAISE or VIBRATE with its parameters (R131). -/
inductive MotionRequest where
  | move (cell : Nat)
  | lower (depth speed : Nat)
  | raise (speed : Nat)
  | vibrate (seconds : Nat)
  deriving DecidableEq, Repr

/-- MPT states with the outstanding request or the STOP and its number (R132). -/
inductive MptPhase where
  | idle
  | awaitAccept (req : MotionRequest) (number : Byte)
  | running (req : MotionRequest) (number : Byte)
  | stopping (number : Byte)
  deriving DecidableEq, Repr

/-- A motion request frame still leaving the station: its number and its bytes (R212). -/
structure MotionTx where
  number : Byte
  bytes : List Byte
  deriving DecidableEq, Repr

/-- Motion port (R141). -/
structure Mpt where
  phase : MptPhase
  counter : Byte
  cancelled : Option Byte
  lastStop : Option Byte
  acceptEnd : Option Nat
  doneEnd : Option Nat
  hook : Option Nat
  sending : List MotionTx
  deriving DecidableEq, Repr

/-! ### Weigh channel (08_weigh_channel.md) -/

/-- A valid sample as the scaler gives it: net mass and over mark (R143). -/
structure Sample where
  net : Int
  overMark : Bool
  deriving DecidableEq, Repr

/-- The last sample: its raw count and whether it was valid (R158). -/
structure RawSample where
  raw : BitVec 24
  valid : Bool
  deriving DecidableEq, Repr

/-- A block of the history (R147). -/
structure Block where
  value : Int
  overMark : Bool
  time : Nat
  deriving DecidableEq, Repr

/-- A settle wait (R149). -/
structure SettleTask where
  timeoutEnd : Nat
  stepCount : Nat
  runCount : Nat
  deriving DecidableEq, Repr

/-- A drain (R153); times in seconds but the start, a local time. -/
structure DrainTask where
  start : Nat
  minimum : Nat
  maximum : Nat
  high : Nat
  low : Nat
  quiet : Nat
  /-- The moment of the minimum has not been taken yet. -/
  minPending : Bool
  deriving DecidableEq, Repr

/-- The one task of WCH (R149). -/
inductive WchTask where
  | none
  | settle (t : SettleTask)
  | drain (t : DrainTask)
  deriving DecidableEq, Repr

/-- The drip slicer (R153). -/
structure Slicer where
  /-- QUIET when set, DRIPPING when clear. -/
  isQuiet : Bool
  quietRun : Nat
  /-- Blocks since the later of the drain's start and the last return of the channel. -/
  drip : Nat
  frozen : Bool
  lastDrip : Option Int
  deriving DecidableEq, Repr

/-- Weigh channel (R159). -/
structure Wch where
  pollNext : Nat
  transfer : Bool
  lastSample : Option RawSample
  lastValid : Option Sample
  /-- The channel is LOST when set, ACTIVE when clear (R144). -/
  lost : Bool
  invalidRun : Nat
  validRun : Nat
  forming : List Sample
  /-- Oldest first. -/
  history : List Block
  task : WchTask
  slicer : Slicer
  deriving DecidableEq, Repr

/-! ### Pickup and steel class (09_pickup_and_steel_class.md) -/

/-- Classifier states (R170). -/
inductive Classifier where
  | search
  | tentative (c : SteelClass) (n : Nat)
  | locked (c : SteelClass) (d : Nat)
  | fixed (c : SteelClass)
  deriving DecidableEq, Repr

/-- A lot entry (R170); bit n of the mask stands for the class R(n+2). -/
structure Lot where
  tag : Nat
  mask : BitVec 5
  classifier : Classifier
  dips : Nat
  inUse : Bool
  deriving DecidableEq, Repr

/-- Pickup unit: the lot table in last-use order, most recent first (R171). -/
structure Pku where
  lots : List Lot
  deriving DecidableEq, Repr

/-! ### Zinc balance and dip records (10_zinc_balance_and_dip_records.md) -/

/-- How a dip ended (R129). -/
inductive DipOutcome where
  | complete | aborted | faulted
  deriving DecidableEq, Repr

/-- The class a classified dip came out in (R166). -/
inductive DipClass where
  | cls (c : SteelClass)
  | noMatch
  deriving DecidableEq, Repr

/-- Flags of a dip record, in the order of R187. -/
structure RecordFlags where
  negPickup : Bool
  ratioSat : Bool
  noDry : Bool
  noWet : Bool
  unsettled : Bool
  overMark : Bool
  weighLost : Bool
  drainTimeout : Bool
  drainAborted : Bool
  progressive : Bool
  heatOver : Bool
  estimated : Bool
  txDropped : Bool
  smallDry : Bool
  deriving DecidableEq, Repr

/-- A dip record (R187), with the dip serial of R191. -/
structure DipRecord where
  number : BitVec 32
  outcome : DipOutcome
  slot : Nat
  lot : Nat
  dry : Option Int
  wet : Option Int
  pickup : Nat
  dross : Nat
  consumption : Nat
  ratio : Option Nat
  dipClass : Option DipClass
  drossClass : SteelClass
  immersionTime : Nat
  immersions : Nat
  drainTime : Nat
  flags : RecordFlags
  serial : BitVec 32
  deriving DecidableEq, Repr

/-- Zinc level states (R180). -/
inductive ZincLevel where
  | normal | low | stopped
  deriving DecidableEq, Repr

/-- Outcomes of the sequence checker (R182, R183). -/
inductive PickupOutcome where
  | first | applied | gap | repeated
  deriving DecidableEq, Repr

/-- The last PICKUP heard (R183). -/
structure HeardPickup where
  src : StationId
  seq : BitVec 16
  consumption : Nat
  cls : Option SteelClass
  outcome : PickupOutcome
  deriving DecidableEq, Repr

/-- The last INGOT heard (R183). -/
structure HeardIngot where
  src : StationId
  mass : Nat
  deriving DecidableEq, Repr

/-- Zinc balance and record ring (R193). -/
structure Zbr where
  z : Nat
  /-- The balance flag BALANCE_UNSET. -/
  unset : Bool
  /-- The balance flag BALANCE_GAP. -/
  gap : Bool
  level : ZincLevel
  lastPickup : Option HeardPickup
  lastIngot : Option HeardIngot
  /-- Oldest first. -/
  ring : List DipRecord
  nextNumber : BitVec 32
  ownSeq : BitVec 16
  serial : BitVec 32
  deriving DecidableEq, Repr

/-! ### Station port (11_station_port.md) -/

/-- One class's row of the class table (R198). -/
structure ClassRow where
  base : Nat
  slope : Nat
  dross : Nat
  cap : Nat
  deriving DecidableEq, Repr

/-- The commissioning set (R198). -/
structure Params where
  stationId : Option StationId
  cells : Option Nat
  margin : Nat
  beaconPeriod : Nat
  claimWindow : Nat
  guardTime : Nat
  blockedLimit : Nat
  window : Nat
  budget : Nat
  moveTimeout : Nat
  verticalTimeout : Nat
  abortDrain : Nat
  zero : Int
  gain : Nat
  tare : Nat
  settleBlocks : Nat
  settleBand : Nat
  deadband : Nat
  acceptBand : Nat
  lockCount : Nat
  mask : BitVec 5
  zMax : Nat
  zLow : Nat
  zStop : Nat
  /-- The class table, R2 first. -/
  classes : Vector ClassRow 5
  deriving DecidableEq, Repr

/-- The commissioning store of SPT with the station's mode (R197, R198, R209). -/
structure Cfg where
  /-- READY when set, SETUP when clear. -/
  ready : Bool
  isSealed : Bool
  params : Params
  deriving DecidableEq, Repr

/-- An event group: bit n − 1 of a set stands for the event at place n (R204, R205). -/
structure Group where
  flags : Byte
  enables : Byte
  inService : Bool
  deriving DecidableEq, Repr

/-- A response: the tag and request code it answers and its body from the response code on (R195, R211). -/
structure Response where
  tag : Byte
  code : Byte
  body : List Byte
  deriving DecidableEq, Repr

/-- Station port but for the commissioning store (R209). -/
structure Spt where
  g1 : Group
  g2 : Group
  g3 : Group
  g4 : Group
  /-- The repeat store: a response holds its tag and request code (R195). -/
  store : Option Response
  /-- Bytes of a partial request frame (R194). -/
  rxBytes : List Byte
  /-- Responses given to the serial line, in the order their requests were taken (R194). -/
  responses : List Response
  deriving DecidableEq, Repr

/-! ### The machine -/

/-- The station, and the queue of the commands that wait for it. -/
structure State where
  /-- Commands waiting, first in first out. -/
  pending : List Instr
  /-- Own time base in ms (00_scope.md section 6.2). -/
  now : Nat
  /-- Free values drawn so far: the model's own field (log 3). -/
  draws : Nat
  cfg : Cfg
  lif : Lif
  ptb : Ptb
  scu : Scu
  hwn : Hwn
  pgs : Pgs
  dsq : Dsq
  mpt : Mpt
  wch : Wch
  pku : Pku
  zbr : Zbr
  spt : Spt
  deriving DecidableEq, Repr

/-! ### Values after power-on reset -/

/-- R198. -/
def Params.reset : Params where
  stationId := none
  cells := none
  margin := 1
  beaconPeriod := 500
  claimWindow := 300
  guardTime := 100
  blockedLimit := 600
  window := 120
  budget := 12000
  moveTimeout := 120
  verticalTimeout := 90
  abortDrain := 30
  zero := 0
  gain := 4096
  tare := 0
  settleBlocks := 5
  settleBand := 5
  deadband := 2
  acceptBand := 25
  lockCount := 3
  mask := 0b11111#5
  zMax := 5000000
  zLow := 2000000
  zStop := 1500000
  classes := #v[⟨45, 3, 80, 600⟩, ⟨60, 9, 110, 300⟩, ⟨95, 18, 140, 180⟩, ⟨70, 6, 100, 480⟩, ⟨130, 25, 170, 120⟩]

/-- R209. -/
def Cfg.reset : Cfg where
  ready := false
  isSealed := false
  params := Params.reset

/-- R25. -/
def Lif.reset : Lif where
  line := .off
  score := 0
  seq := 0
  waiting := []
  current := none
  joinEnd := none
  beaconNext := none
  clashEnd := none

/-- R37. -/
def Ptb.reset : Ptb where
  peers := []

/-- R67; the stopped blocked timer's value and the wait age are log 14. -/
def Scu.reset : Scu where
  entries := []
  state := .none
  wanted := none
  own := none
  withdrawal := .none
  held := none
  nextClaim := 0
  windowEnd := none
  guardEnd := none
  retryEnd := none
  blockedSince := none
  blockedHeld := 0
  blockedLongMark := false
  requestTime := none
  lastAge := none
  lastEntry := 15

/-- R80. -/
def Hwn.reset : Hwn where
  entries := []
  sum := 0
  request := .none

/-- R96. -/
def Pgs.reset : Pgs where
  slots := Vector.replicate 16 none

/-- R130. -/
def Dsq.reset : Dsq where
  state := .idle
  ctx := none
  position := .clear
  cause := none
  dwellEnd := none
  immersionSince := none
  drainEnd := none

/-- R141. -/
def Mpt.reset : Mpt where
  phase := .idle
  counter := 0
  cancelled := none
  lastStop := none
  acceptEnd := none
  doneEnd := none
  hook := none
  sending := []

/-- R153, R159. -/
def Slicer.reset : Slicer where
  isQuiet := false
  quietRun := 0
  drip := 0
  frozen := false
  lastDrip := none

/-- R159; the first poll is log 20. -/
def Wch.reset : Wch where
  pollNext := Config.pollPeriod
  transfer := false
  lastSample := none
  lastValid := none
  lost := false
  invalidRun := 0
  validRun := 0
  forming := []
  history := []
  task := .none
  slicer := Slicer.reset

/-- R178. -/
def Pku.reset : Pku where
  lots := []

/-- R193. -/
def Zbr.reset : Zbr where
  z := 0
  unset := true
  gap := false
  level := .normal
  lastPickup := none
  lastIngot := none
  ring := []
  nextNumber := 1
  ownSeq := 0
  serial := 0

/-- Flags clear, enables set, mark clear (R209), for a group of `n` events. -/
def Group.reset (n : Nat) : Group where
  flags := 0
  enables := BitVec.ofNat 8 (2 ^ n - 1)
  inService := false

/-- R209. -/
def Spt.reset : Spt where
  g1 := Group.reset 8
  g2 := Group.reset 8
  g3 := Group.reset 8
  g4 := Group.reset 5
  store := none
  rxBytes := []
  responses := []

/-- The machine right after power-on reset: every block at the values of its own reset table, no command waiting. The
time base and the draw counter start at 0 (log 2, log 3). -/
def State.reset : State where
  pending := []
  now := 0
  draws := 0
  cfg := Cfg.reset
  lif := Lif.reset
  ptb := Ptb.reset
  scu := Scu.reset
  hwn := Hwn.reset
  pgs := Pgs.reset
  dsq := Dsq.reset
  mpt := Mpt.reset
  wch := Wch.reset
  pku := Pku.reset
  zbr := Zbr.reset
  spt := Spt.reset

end Sys2Proof.Machine
end

