-- ==== Sys2Proof/Machine/Operands.lean ====
section
/-! DEFINITION. Operand forms: rounding (R1), byte order (12_layouts_and_pins.md), the codes of the enumerations, the
argument bodies of the requests (R211), the step records (section 12.3), the payloads of the kettle-line frames (R4,
R210), and the fields answers are built of (R211). -/

namespace Sys2Proof.Machine

/-! ### Rounding (R1) -/

/-- `a ÷ b` rounded to the nearest integer, halves away from zero, for `a` not negative. -/
def roundNat (a b : Nat) : Nat := (2 * a + b) / (2 * b)

/-- `a ÷ b` rounded to the nearest integer, halves away from zero. -/
def roundInt (a : Int) (b : Nat) : Int :=
  if a < 0 then -(roundNat a.natAbs b : Int) else (roundNat a.natAbs b : Int)

/-- A negative mass counts as 0. -/
def nonNeg (a : Int) : Nat := a.toNat

/-! ### Bytes -/

/-- The number a list of bytes holds, most significant byte first. -/
def beNat (bs : List Byte) : Nat := bs.foldl (fun n b => n * 256 + b.toNat) 0

/-- The signed number four bytes hold, most significant first. -/
def beInt32 (bs : List Byte) : Int := (BitVec.ofNat 32 (beNat bs)).toInt

def u8 (n : Nat) : List Byte := [BitVec.ofNat 8 n]
def u16 (n : Nat) : List Byte := BitVec.ofNat 8 (n / 256) :: u8 n
def u24 (n : Nat) : List Byte := BitVec.ofNat 8 (n / 65536) :: u16 n
def u32 (n : Nat) : List Byte := BitVec.ofNat 8 (n / 16777216) :: u24 n

/-- Three bytes in two's complement. -/
def s24 (i : Int) : List Byte := u24 (BitVec.ofInt 24 i).toNat

/-- Four bytes in two's complement. -/
def s32 (i : Int) : List Byte := u32 (BitVec.ofInt 32 i).toNat

/-- A mark: 1 set, 0 clear (log 22). -/
def markByte (b : Bool) : List Byte := u8 (if b then 1 else 0)

/-- A field that may be absent: a presence byte, then the value bytes, zero when absent (R211). -/
def optField {α : Type} (width : Nat) (enc : α → List Byte) (o : Option α) : List Byte :=
  match o with
  | some a => u8 1 ++ enc a
  | none => u8 0 ++ List.replicate width 0

/-- `n`, stopping at `limit`. -/
def satNat (limit n : Nat) : Nat := min limit n

/-! ### Codes of the enumerations (R210 to R212) -/

/-- Place of a class among R2 to R6, from 0. -/
def SteelClass.index (c : SteelClass) : Fin 5 :=
  match c with
  | .r2 => 0
  | .r3 => 1
  | .r4 => 2
  | .r5 => 3
  | .r6 => 4

/-- Classes are coded 1 to 5 for R2 to R6 (R211). -/
def SteelClass.code (c : SteelClass) : Nat := c.index.val + 1

def SteelClass.ofCode (n : Nat) : Option SteelClass :=
  match n with
  | 1 => some .r2
  | 2 => some .r3
  | 3 => some .r4
  | 4 => some .r5
  | 5 => some .r6
  | _ => none

/-- The classes, lowest number first. -/
def SteelClass.all : List SteelClass := [.r2, .r3, .r4, .r5, .r6]

/-- A class belongs to a candidate mask. -/
def inMask (m : BitVec 5) (c : SteelClass) : Bool := m.getLsbD c.index.val

/-- The row of a class in the class table (R198). -/
def Params.row (p : Params) (c : SteelClass) : ClassRow := p.classes[c.index]

def DipClass.code (c : DipClass) : Nat :=
  match c with
  | .cls k => k.code
  | .noMatch => 6

def LineState.code (l : LineState) : Nat :=
  match l with
  | .off => 0
  | .joining => 1
  | .active => 2
  | .degraded => 3
  | .fault => 4

/-- UNKNOWN is a value of the last condition (R26), so it is coded as one, 4, with no presence byte (log 41). -/
def Condition.code (c : Condition) : Nat :=
  match c with
  | .readyIdle => 0
  | .readyBusy => 1
  | .halted => 2
  | .parked => 3
  | .unknown => 4

def Presence.code (p : Presence) : Nat :=
  match p with
  | .present => 0
  | .silent => 1

def EntryState.code (e : EntryState) : Nat :=
  match e with
  | .intent => 0
  | .held => 1
  | .stale => 2

/-- The own claim state in the order of section 3.3, CLAIMING once. -/
def ClaimState.code (c : ClaimState) : Nat :=
  match c with
  | .none => 0
  | .blocked => 1
  | .pending => 2
  | .claimingWindow => 3
  | .claimingHoldQueued => 3
  | .retry => 4
  | .guard => 5
  | .firm => 6
  | .releasing => 7

/-- The phase within CLAIMING (R46): 0 window running, 1 HOLD queued (log 49). -/
def ClaimState.phase (c : ClaimState) : Option Nat :=
  match c with
  | .claimingWindow => some 0
  | .claimingHoldQueued => some 1
  | _ => .none

def HeatRequest.code (r : HeatRequest) : Nat :=
  match r with
  | .none => 0
  | .waitSum _ => 1
  | .waitEmpty _ => 2

def HeatRequest.waiting (r : HeatRequest) : Option HeatWaiting :=
  match r with
  | .none => .none
  | .waitSum w => some w
  | .waitEmpty w => some w

def DsqState.code (d : DsqState) : Nat :=
  match d with
  | .idle => 0
  | .weighingDry => 1
  | .traveling => 2
  | .awaitClaim => 3
  | .awaitLower _ => 3
  | .awaitRelease => 3
  | .heatWait _ => 4
  | .lowering => 5
  | .dwelling => 6
  | .raising => 7
  | .draining => 8
  | .vibrating => 9
  | .weighingOut => 10
  | .aborting _ => 11
  | .parked => 12
  | .halted => 13

/-- The load position in an answer, from 0 in the order in which R99 names the four: no table lists them (log 49). -/
def Position.code (p : Position) : Nat :=
  match p with
  | .clear => 0
  | .below => 1
  | .above => 2
  | .unknown => 3

/-- Request kinds as the motion request frame codes them (R212). -/
def MotionKind.code (k : MotionKind) : Nat :=
  match k with
  | .move => 1
  | .lower => 2
  | .raise => 3
  | .vibrate => 4
  | .stop => 5

/-- Request kinds in an answer, from 0 in the order of R131's table, STOP last (R211, log 22). -/
def MotionKind.answerCode (k : MotionKind) : Nat :=
  match k with
  | .move => 0
  | .lower => 1
  | .raise => 2
  | .vibrate => 3
  | .stop => 4

/-- Reasons of a motion fault in an answer, in the order of R140 (log 22). -/
def MotionReason.code (r : MotionReason) : Nat :=
  match r with
  | .timeout => 0
  | .overload => 1
  | .limit => 2
  | .driveFault => 3
  | .refused => 4
  | .badCell => 5

/-- FAIL details (R212); another detail makes the frame one that is discarded. -/
def failReason (detail : Byte) : Option MotionReason :=
  match detail.toNat with
  | 1 => some .overload
  | 2 => some .limit
  | 3 => some .driveFault
  | 4 => some .refused
  | _ => none

/-- Reasons of a program fault in an answer: they stand in two tables, and are numbered through, those of R94 first and
then those of R114 (log 42). -/
def ProgramReason.code (r : ProgramReason) : Nat :=
  match r with
  | .chainLimit => 0
  | .chainEmpty => 1
  | .chainHeld => 2
  | .loadBelow => 3
  | .immersionLimit => 4
  | .noSpan => 5
  | .spanOutside => 6
  | .claimHeld => 7

def MptPhase.code (p : MptPhase) : Nat :=
  match p with
  | .idle => 0
  | .awaitAccept _ _ => 1
  | .running _ _ => 2
  | .stopping _ => 3

def WchTask.code (t : WchTask) : Nat :=
  match t with
  | .none => 0
  | .settle _ => 1
  | .drain _ => 2

def DipOutcome.code (o : DipOutcome) : Nat :=
  match o with
  | .complete => 0
  | .aborted => 1
  | .faulted => 2

def ZincLevel.code (z : ZincLevel) : Nat :=
  match z with
  | .normal => 0
  | .low => 1
  | .stopped => 2

/-- The outcome of the last PICKUP in an answer, from 0 in the order in which R183 names the four; the table of R182, which
gives the outcomes, stands in another order (log 49). -/
def PickupOutcome.code (o : PickupOutcome) : Nat :=
  match o with
  | .first => 0
  | .applied => 1
  | .gap => 2
  | .repeated => 3

/-! ### Request and response codes (R211) -/

/-- The codes of the requests, in the order of R211's table. -/
inductive Req where
  | setParam | sealSet | readParam | readStatus | readEvent | ackGroup | setEnable | powerInfo | loadProgram
  | readProgram | lotOpen | lotFix | lotFreeClass | readLots | startDip | abortDip | confirmClear | ingot | setBalance
  | readRecord | peekRecord | clearPeer | readPeers | readSpans | readHeat | stationReset
  deriving DecidableEq, Repr

def Req.code (r : Req) : Byte :=
  match r with
  | .setParam => 1
  | .sealSet => 2
  | .readParam => 3
  | .readStatus => 4
  | .readEvent => 5
  | .ackGroup => 6
  | .setEnable => 7
  | .powerInfo => 8
  | .loadProgram => 9
  | .readProgram => 10
  | .lotOpen => 11
  | .lotFix => 12
  | .lotFreeClass => 13
  | .readLots => 14
  | .startDip => 15
  | .abortDip => 16
  | .confirmClear => 17
  | .ingot => 18
  | .setBalance => 19
  | .readRecord => 20
  | .peekRecord => 21
  | .clearPeer => 22
  | .readPeers => 23
  | .readSpans => 24
  | .readHeat => 25
  | .stationReset => 26

/-- Response bodies from the response code on (section 6.6, R211). -/
def respOk (fields : List Byte) : List Byte := 0 :: fields
def respClamped (fields : List Byte) : List Byte := 1 :: fields
def respBusy : List Byte := [2]
def respRefused (reason : Nat) : List Byte := 3 :: u8 reason
def respBadArg : List Byte := [4]
/-- BAD_ARG of a refused LOAD_PROGRAM: step index (255 for HEADER) and check code. -/
def respBadProgram (index check : Nat) : List Byte := 4 :: (u8 index ++ u8 check)
def respBadState : List Byte := [5]

/-- REFUSED reason bytes (R211). -/
def reasonNoProgram : Nat := 1
def reasonNoDip : Nat := 2
def reasonNoPeer : Nat := 3
def reasonPeerPresent : Nat := 4
def reasonNoLot : Nat := 5
def reasonEmpty : Nat := 6

/-! ### Argument bodies: `none` where the frame's length does not agree with its code (R196 step 2) -/

def argsNone (body : List Byte) : Option Unit :=
  match body with
  | [] => some ()
  | _ => none

def argsByte (body : List Byte) : Option Nat :=
  match body with
  | [a] => some a.toNat
  | _ => none

/-- SET_ENABLE: group; enable mask. -/
def argsEnable (body : List Byte) : Option (Nat × Byte) :=
  match body with
  | [g, m] => some (g.toNat, m)
  | _ => none

/-- SET_PARAM: parameter number; value, 4 bytes signed. -/
def argsSetParam (body : List Byte) : Option (Nat × Int) :=
  match body with
  | [p, a, b, c, d] => some (p.toNat, beInt32 [a, b, c, d])
  | _ => none

/-- LOT_OPEN, LOT_FIX: tag, 2 bytes; mask or class. -/
def argsTagByte (body : List Byte) : Option (Nat × Byte) :=
  match body with
  | [a, b, c] => some (beNat [a, b], c)
  | _ => none

/-- LOT_FREE_CLASS: tag, 2 bytes. INGOT: mass, 2 bytes. -/
def argsWord (body : List Byte) : Option Nat :=
  match body with
  | [a, b] => some (beNat [a, b])
  | _ => none

/-- START_DIP: slot; tag, 2 bytes; nominal mass, 2 bytes. -/
def argsStart (body : List Byte) : Option (Nat × Nat × Nat) :=
  match body with
  | [s, a, b, c, d] => some (s.toNat, beNat [a, b], beNat [c, d])
  | _ => none

/-- SET_BALANCE: value, 4 bytes, not signed (log 31). -/
def argsLong (body : List Byte) : Option Nat :=
  match body with
  | [a, b, c, d] => some (beNat [a, b, c, d])
  | _ => none

/-! ### Step records (section 12.3) -/

/-- Size of a step record by its kind code; a code that names no kind counts as 1 byte. -/
def recordSize (kind : Byte) : Nat :=
  match kind.toNat with
  | 1 => 2
  | 2 => 2
  | 3 => 3
  | 4 => 6
  | 5 => 3
  | 6 => 2
  | 7 => 10
  | 8 => 2
  | 9 => 2
  | 10 => 1
  | 11 => 1
  | 12 => 2
  | _ => 1

/-- Cuts `bs` into `n` step records; `none` where the bytes do not agree with the count and the sizes. -/
def splitRecords (n : Nat) (bs : List Byte) : Option (List (List Byte)) :=
  match n, bs with
  | 0, [] => some []
  | 0, _ :: _ => none
  | _ + 1, [] => none
  | m + 1, k :: rest =>
    if rest.length < recordSize k - 1 then none
    else (splitRecords m (rest.drop (recordSize k - 1))).map (fun rs => (k :: rest.take (recordSize k - 1)) :: rs)

/-- The step a record holds; `none` where its kind code names no kind. -/
def decodeStep (r : List Byte) : Option DipStep :=
  match r with
  | [k, a] =>
    match k.toNat with
    | 1 => some (.weighDry a.toNat)
    | 2 => some (.travel a.toNat)
    | 6 => some (.raise a.toNat)
    | 8 => some (.vibrate a.toNat)
    | 9 => some (.weighOut a.toNat)
    | 12 => some (.chain a.toNat)
    | _ => none
  | [k] =>
    match k.toNat with
    | 10 => some .release
    | 11 => some .finish
    | _ => none
  | [k, a, b] =>
    match k.toNat with
    | 3 => some (.claim a.toNat (b.getLsbD 0))
    | 5 => some (.dwell (beNat [a, b]))
    | _ => none
  | [k, a, b, c, d, e] =>
    match k.toNat with
    | 4 => some (.lower (beNat [a, b]) c.toNat (beNat [d, e]))
    | _ => none
  | [k, a, b, c, d, e, f, g, h, q] =>
    match k.toNat with
    | 7 => some (.drain (beNat [a, b]) (beNat [c, d]) (beNat [e, f]) (beNat [g, h]) q.toNat)
    | _ => none
  | _ => none

/-- The record of a step, as READ_PROGRAM returns it (R95). Bits 7 to 1 of a CLAIM's flags byte are not read when it is
loaded and are returned as 0 (log 43). -/
def encodeStep (s : DipStep) : List Byte :=
  match s with
  | .weighDry t => u8 1 ++ u8 t
  | .travel c => u8 2 ++ u8 c
  | .claim l w => u8 3 ++ u8 l ++ markByte w
  | .lower d v f => u8 4 ++ u16 d ++ u8 v ++ u16 f
  | .dwell d => u8 5 ++ u16 d
  | .raise v => u8 6 ++ u8 v
  | .drain mn mx h l q => u8 7 ++ u16 mn ++ u16 mx ++ u16 h ++ u16 l ++ u8 q
  | .vibrate d => u8 8 ++ u8 d
  | .weighOut t => u8 9 ++ u8 t
  | .release => u8 10
  | .finish => u8 11
  | .chain t => u8 12 ++ u8 t

/-- LOAD_PROGRAM's arguments before any check of chapter 5: header bytes and the step records as bytes. -/
structure RawProgram where
  slot : Nat
  flags : Byte
  defaultClass : Nat
  flux : Nat
  count : Nat
  records : List (List Byte)
  deriving DecidableEq, Repr

/-- LOAD_PROGRAM: slot; flags; default class; flux factor; step count; step records. -/
def argsLoad (body : List Byte) : Option RawProgram :=
  match body with
  | sl :: fl :: cl :: fx :: n :: rest =>
    (splitRecords n.toNat rest).map (fun rs =>
      { slot := sl.toNat, flags := fl, defaultClass := cl.toNat, flux := fx.toNat, count := n.toNat, records := rs })
  | _ => none

/-! ### Payloads of the kettle-line frames (R4, R210): `none` is a length error or a content error -/

/-- First and last cell within the receiver's N, unless the whole flag is set. -/
def cellsOk (n first last : Nat) (whole : Bool) : Bool := whole || (decide (first ≤ last) && decide (last < n))

/-- Span states a BEACON reports (R4). -/
inductive BeaconSpan where
  | none | intent | held
  deriving DecidableEq, Repr

def BeaconSpan.code (b : BeaconSpan) : Nat :=
  match b with
  | .none => 0
  | .intent => 1
  | .held => 2

/-- What a BEACON carries. -/
structure BeaconInfo where
  condition : Condition
  spanState : BeaconSpan
  span : Span
  lastEntry : StationId
  clash : Bool
  deriving DecidableEq, Repr

/-- Condition codes of a BEACON that are no content error: SETUP (0) and 5 to 7 are (R4, R210). -/
def beaconCondition (code : Nat) : Option Condition :=
  match code with
  | 1 => some .readyIdle
  | 2 => some .readyBusy
  | 3 => some .halted
  | 4 => some .parked
  | _ => none

def beaconSpanState (code : Nat) : Option BeaconSpan :=
  match code with
  | 0 => some .none
  | 1 => some .intent
  | 2 => some .held
  | _ => none

/-- BEACON: condition byte; first cell; last cell; last-entry ID. Bit 3 of the condition byte is not read (log 12). -/
def decodeBeacon (n : Nat) (payload : List Byte) : Option BeaconInfo :=
  match payload with
  | [k, f, l, e] =>
    match beaconCondition (k.extractLsb' 0 3).toNat, beaconSpanState (k.extractLsb' 4 2).toNat with
    | some c, some sp =>
      if (sp = .none ∨ cellsOk n f.toNat l.toNat (k.getLsbD 6) = true) ∧ e.toNat < 16 then
        some { condition := c, spanState := sp, span := ⟨f.toNat, l.toNat, k.getLsbD 6⟩,
               lastEntry := e.extractLsb' 0 4, clash := k.getLsbD 7 }
      else none
    | _, _ => none
  | _ => none

/-- A flags byte: bit 0 whole, any other set bit a content error (R210). -/
def wholeFlag (flags : Byte) : Option Bool :=
  match flags.toNat with
  | 0 => some false
  | 1 => some true
  | _ => none

/-- What an INTENT carries; a HOLD carries all but the age. -/
structure ClaimInfo where
  span : Span
  age : Nat
  claim : Byte
  deriving DecidableEq, Repr

/-- INTENT: first cell; last cell; flags; wait age; claim number. -/
def decodeIntent (n : Nat) (payload : List Byte) : Option ClaimInfo :=
  match payload with
  | [f, l, g, a, c] =>
    match wholeFlag g with
    | some w => if cellsOk n f.toNat l.toNat w then some ⟨⟨f.toNat, l.toNat, w⟩, a.toNat, c⟩ else none
    | none => none
  | _ => none

/-- HOLD: first cell; last cell; flags; claim number. -/
def decodeHold (n : Nat) (payload : List Byte) : Option ClaimInfo :=
  match payload with
  | [f, l, g, c] =>
    match wholeFlag g with
    | some w => if cellsOk n f.toNat l.toNat w then some ⟨⟨f.toNat, l.toNat, w⟩, 0, c⟩ else none
    | none => none
  | _ => none

/-- YIELD, FREE: claim number. -/
def decodeClaimNo (payload : List Byte) : Option Byte :=
  match payload with
  | [c] => some c
  | _ => none

/-- What an ENTRY carries. -/
structure EntryInfo where
  mass : Nat
  index : Nat
  deriving DecidableEq, Repr

/-- ENTRY: entering mass, 0 to 8,000 kg; immersion index, 1 or 2. -/
def decodeEntry (payload : List Byte) : Option EntryInfo :=
  match payload with
  | [a, b, i] =>
    if beNat [a, b] ≤ 8000 ∧ (i.toNat = 1 ∨ i.toNat = 2) then some ⟨beNat [a, b], i.toNat⟩ else none
  | _ => none

/-- What a PICKUP carries. -/
structure PickupInfo where
  seq : BitVec 16
  consumption : Nat
  cls : Option SteelClass
  deriving DecidableEq, Repr

/-- PICKUP: pickup sequence; C, 0 to 131,070; class reported, 0 none or 1 to 5. -/
def decodePickup (payload : List Byte) : Option PickupInfo :=
  match payload with
  | [a, b, c, d, e, k] =>
    if beNat [c, d, e] ≤ 131070 ∧ k.toNat ≤ 5 then
      some ⟨BitVec.ofNat 16 (beNat [a, b]), beNat [c, d, e], SteelClass.ofCode k.toNat⟩
    else none
  | _ => none

/-- INGOT: ingot mass, 10 to 50,000. -/
def decodeIngot (payload : List Byte) : Option Nat :=
  match payload with
  | [a, b] => if 10 ≤ beNat [a, b] ∧ beNat [a, b] ≤ 50000 then some (beNat [a, b]) else none
  | _ => none

end Sys2Proof.Machine
end

