-- ==== Sys2Proof/Machine/Flags.lean ====
section
/-! DEFINITION. The event stage of SPT (section 11.5): the events and their groups, raising one, which are presentable,
and the event line. -/

namespace Sys2Proof.Machine

/-- The events, group by group in priority order (R204). -/
inductive Event where
  | haltedEv | motionFault | programFault | parkedEv | dipDone | blockedLongEv | heatOver | motionStray
  | spanConflict | idClash | spanLost | lineFault | lineDegraded | lineRestored | peerSilent | peerBack
  | weighLost | weighBack | drainTimeout | unsettled | recordReady | ringOverrun | classLocked | classLost
  | zStopEv | zLowEv | zRestored | balanceGap | ingotHeard
  deriving DecidableEq, Repr

/-- Group (1 to 4) and place (1 to 8) of an event (R204). -/
def Event.address (e : Event) : Nat × Nat :=
  match e with
  | .haltedEv => (1, 1)
  | .motionFault => (1, 2)
  | .programFault => (1, 3)
  | .parkedEv => (1, 4)
  | .dipDone => (1, 5)
  | .blockedLongEv => (1, 6)
  | .heatOver => (1, 7)
  | .motionStray => (1, 8)
  | .spanConflict => (2, 1)
  | .idClash => (2, 2)
  | .spanLost => (2, 3)
  | .lineFault => (2, 4)
  | .lineDegraded => (2, 5)
  | .lineRestored => (2, 6)
  | .peerSilent => (2, 7)
  | .peerBack => (2, 8)
  | .weighLost => (3, 1)
  | .weighBack => (3, 2)
  | .drainTimeout => (3, 3)
  | .unsettled => (3, 4)
  | .recordReady => (3, 5)
  | .ringOverrun => (3, 6)
  | .classLocked => (3, 7)
  | .classLost => (3, 8)
  | .zStopEv => (4, 1)
  | .zLowEv => (4, 2)
  | .zRestored => (4, 3)
  | .balanceGap => (4, 4)
  | .ingotHeard => (4, 5)

/-- Events of a group (R204). -/
def groupSize (g : Nat) : Nat := if g = 4 then 5 else 8

/-- The set that holds the one event at a place. -/
def placeBit (place : Nat) : Byte := BitVec.ofNat 8 (2 ^ (place - 1))

/-- A group of the event stage by its number. -/
def Spt.group (t : Spt) (g : Nat) : Group :=
  match g with
  | 1 => t.g1
  | 2 => t.g2
  | 3 => t.g3
  | _ => t.g4

/-- Replaces a group of the event stage. -/
def Spt.withGroup (t : Spt) (g : Nat) (x : Group) : Spt :=
  match g with
  | 1 => { t with g1 := x }
  | 2 => { t with g2 := x }
  | 3 => { t with g3 := x }
  | _ => { t with g4 := x }

/-- The event's flag is set, whatever its enable and the in-service mark (R205). -/
def Spt.raise (t : Spt) (e : Event) : Spt :=
  t.withGroup e.address.1
    { t.group e.address.1 with flags := (t.group e.address.1).flags ||| placeBit e.address.2 }

/-- The flag of an event. -/
def Spt.isRaised (t : Spt) (e : Event) : Bool := (t.group e.address.1).flags.getLsbD (e.address.2 - 1)

/-- The presentable events of a group: flag set, enable set, group not in service (R205). -/
def Group.presentable (g : Group) : Byte := if g.inService then 0 else g.flags &&& g.enables

/-- The first place of a set in the priority order (R206). -/
def firstPlace (set : Byte) : Option Nat := ((List.range 8).find? (fun i => set.getLsbD i)).map (· + 1)

/-- The event READ_EVENT finds: the lowest-numbered group with a presentable event and, in it, the first in priority
order (R206). -/
def Spt.nextEvent (t : Spt) : Option (Nat × Nat) :=
  match firstPlace t.g1.presentable, firstPlace t.g2.presentable, firstPlace t.g3.presentable,
    firstPlace t.g4.presentable with
  | some p, _, _, _ => some (1, p)
  | none, some p, _, _ => some (2, p)
  | none, none, some p, _ => some (3, p)
  | none, none, none, some p => some (4, p)
  | none, none, none, none => none

/-- The event line (EVTn): asserted while at least one event is presentable (R205). -/
def Spt.eventLine (t : Spt) : Bool := t.nextEvent.isSome

/-- Every flag and every in-service mark cleared, the enables kept (R208). -/
def Group.clear (g : Group) : Group := { g with flags := 0, inService := false }

def Spt.clearEvents (t : Spt) : Spt :=
  { t with g1 := t.g1.clear, g2 := t.g2.clear, g3 := t.g3.clear, g4 := t.g4.clear }

end Sys2Proof.Machine
end

