-- ==== Sys2Proof/Machine/Ops.lean ====
section
/-! DEFINITION. The named operations every block uses: replacing a block of the state, the commissioning values, the
time base, raising an event, and the frames the station composes for its ports (R210 to R212). -/

namespace Sys2Proof.Machine

/-! ### Replacing a block -/

def State.withPending (s : State) (x : List Instr) : State := { s with pending := x }
def State.withNow (s : State) (x : Nat) : State := { s with now := x }
def State.withDraws (s : State) (x : Nat) : State := { s with draws := x }
def State.withCfg (s : State) (x : Cfg) : State := { s with cfg := x }
def State.withLif (s : State) (x : Lif) : State := { s with lif := x }
def State.withPtb (s : State) (x : Ptb) : State := { s with ptb := x }
def State.withScu (s : State) (x : Scu) : State := { s with scu := x }
def State.withHwn (s : State) (x : Hwn) : State := { s with hwn := x }
def State.withPgs (s : State) (x : Pgs) : State := { s with pgs := x }
def State.withDsq (s : State) (x : Dsq) : State := { s with dsq := x }
def State.withMpt (s : State) (x : Mpt) : State := { s with mpt := x }
def State.withWch (s : State) (x : Wch) : State := { s with wch := x }
def State.withPku (s : State) (x : Pku) : State := { s with pku := x }
def State.withZbr (s : State) (x : Zbr) : State := { s with zbr := x }
def State.withSpt (s : State) (x : Spt) : State := { s with spt := x }

/-! ### Commissioning values (R198) -/

/-- The own station ID; set before SEAL can be taken (R201). -/
def State.ownId (s : State) : StationId := s.cfg.params.stationId.getD 0

/-- N, the number of kettle cells; set before SEAL can be taken (R201). -/
def State.cells (s : State) : Nat := s.cfg.params.cells.getD 0

/-- The silence limit of R28, 4 × P_b. -/
def State.silenceLimit (s : State) : Nat := 4 * s.cfg.params.beaconPeriod

/-- How long an INTENT entry stands before it lapses (R61). -/
def State.lapseTime (s : State) : Nat :=
  s.cfg.params.claimWindow + s.cfg.params.guardTime + 2 * s.cfg.params.beaconPeriod

/-- The retry delay of R54. -/
def State.retryDelay (s : State) : Nat := roundNat ((s.ownId.toNat + 1) * s.cfg.params.claimWindow) 4

/-! ### Time base -/

/-- The moment a timer ends is taken: the time base stands at least there (log 4). -/
def State.reach (s : State) (t : Nat) : State := s.withNow (max s.now t)

/-! ### Events -/

/-- Raises an event (R205). -/
def State.raise (s : State) (e : Event) : State := s.withSpt (s.spt.raise e)

/-! ### Frames the station composes -/

/-- One bit of the CRC of R210: polynomial x^16 + x^12 + x^5 + 1, most significant bit first. -/
def crcBit (c : BitVec 16) (b : Bool) : BitVec 16 :=
  if c.msb != b then (c <<< 1) ^^^ 0x1021#16 else c <<< 1

def crcByte (c : BitVec 16) (b : Byte) : BitVec 16 :=
  (List.range 8).foldl (fun c i => crcBit c (b.getLsbD (7 - i))) c

/-- The CRC-16 of R210: initial value all ones, no final inversion. -/
def crc16 (bs : List Byte) : BitVec 16 := bs.foldl crcByte 0xFFFF#16

/-- Bytes followed by their CRC, high byte first. -/
def withCrc (bs : List Byte) : List Byte := bs ++ u16 (crc16 bs).toNat

/-- Kinds of a frame in an answer, from 0 in the order of R4's table, which defines them (R211, log 22). -/
def TxFrame.answerCode (f : TxFrame) : Nat :=
  match f with
  | .beacon => 0
  | .intent _ _ _ => 1
  | .hold _ _ => 2
  | .yield _ => 3
  | .free _ => 4
  | .entry _ _ _ => 5
  | .pickup _ _ _ _ => 6
  | .ingot _ => 7

/-- Kind codes (R210). -/
def TxFrame.code (f : TxFrame) : Nat :=
  match f with
  | .hold _ _ => 1
  | .free _ => 2
  | .yield _ => 3
  | .intent _ _ _ => 4
  | .entry _ _ _ => 5
  | .pickup _ _ _ _ => 6
  | .ingot _ => 7
  | .beacon => 8

/-- The station condition a BEACON reports (R23). -/
def beaconCode (d : DsqState) : Nat :=
  match d with
  | .idle => 1
  | .parked => 4
  | .halted => 3
  | _ => 2

/-- The span state a BEACON reports for the own claim (R23). -/
def ClaimState.beacon (c : ClaimState) : BeaconSpan :=
  match c with
  | .claimingWindow => .intent
  | .claimingHoldQueued => .intent
  | .guard => .held
  | .firm => .held
  | .releasing => .held
  | _ => .none

/-- The span a BEACON reports: the own span when the span state is INTENT or HELD, otherwise both cells 0 and the whole
flag clear (R23). -/
def State.beaconSpan (s : State) : Span :=
  match s.scu.state.beacon with
  | .none => ⟨0, 0, false⟩
  | _ => s.scu.wanted.getD ⟨0, 0, false⟩

/-- The BEACON payload, composed from the station's status (R23, R210). -/
def State.beaconPayload (s : State) : List Byte :=
  u8 (beaconCode s.dsq.state + 16 * s.scu.state.beacon.code + (if s.beaconSpan.whole then 64 else 0)
      + (if s.lif.clashEnd.isSome then 128 else 0))
    ++ u8 s.beaconSpan.first ++ u8 s.beaconSpan.last ++ u8 s.scu.lastEntry.toNat

/-- The payload of an own frame (R210). -/
def State.payload (s : State) (f : TxFrame) : List Byte :=
  match f with
  | .hold sp c => u8 sp.first ++ u8 sp.last ++ markByte sp.whole ++ [c]
  | .free c => [c]
  | .yield c => [c]
  | .intent sp age c => u8 sp.first ++ u8 sp.last ++ markByte sp.whole ++ u8 age ++ [c]
  | .entry m i _ => u16 m ++ u8 i
  | .pickup q c k _ => u16 q.toNat ++ u24 c ++ u8 ((k.map SteelClass.code).getD 0)
  | .ingot m => u16 m
  | .beacon => s.beaconPayload

/-- A kettle-line frame from the kind byte to the end of the payload (R210). -/
def lineBody (code : Nat) (src : StationId) (seq : Byte) (payload : List Byte) : List Byte :=
  u8 (16 * code + src.toNat) ++ [seq] ++ u8 payload.length ++ payload

/-- The frame an attempt drives: start pattern, header, payload and CRC, with the sequence counter as it stands (R3). -/
def State.lineFrame (s : State) (f : TxFrame) : List Byte :=
  0b01011010#8 :: withCrc (lineBody f.code s.ownId s.lif.seq (s.payload f))

/-- A motion request frame: start byte, kind, number, parameters, CRC (R212). -/
def motionFrame (kind : MotionKind) (number : Byte) (params : List Byte) : List Byte :=
  0b00111100#8 :: withCrc (u8 kind.code ++ [number] ++ params)

/-- A response frame: start byte, length of tag, code and body, then those with the CRC (R211, log 1). -/
def Response.frame (r : Response) : List Byte :=
  0b10100101#8 :: withCrc (u16 (2 + r.body.length) ++ [r.tag, r.code] ++ r.body)

end Sys2Proof.Machine
end

