-- ==== Sys2Proof/Machine/Line.lean ====
section
/-! DEFINITION. LIF: the transmit queue (R17 to R20), taking the current frame (R11), the withdrawal of an INTENT
(R20), and the marks of frames that were not sent (R21, R191). -/

namespace Sys2Proof.Machine

/-- Urgency class, 1 most urgent (R17). -/
def TxFrame.urgency (f : TxFrame) : Nat :=
  match f with
  | .hold _ _ => 1
  | .free _ => 1
  | .yield _ => 1
  | .intent _ _ _ => 2
  | .entry _ _ _ => 3
  | .pickup _ _ _ _ => 3
  | .ingot _ => 3
  | .beacon => 4

def TxFrame.isIntent (f : TxFrame) : Bool :=
  match f with
  | .intent _ _ _ => true
  | _ => false

def TxFrame.isFree (f : TxFrame) : Bool :=
  match f with
  | .free _ => true
  | _ => false

/-- The frame is the INTENT of a claim number. -/
def TxFrame.isIntentOf (n : Byte) (f : TxFrame) : Bool :=
  match f with
  | .intent _ _ c => c == n
  | _ => false

/-- The frame is the FREE of a claim number. -/
def TxFrame.isFreeOf (n : Byte) (f : TxFrame) : Bool :=
  match f with
  | .free c => c == n
  | _ => false

/-- Places held: the waiting frames and the current frame (R17). -/
def Lif.places (l : Lif) : Nat := l.waiting.length + (if l.current.isSome then 1 else 0)

/-- A frame as `p` says is waiting or current. -/
def Lif.holds (l : Lif) (p : TxFrame → Bool) : Bool :=
  l.waiting.any p || (l.current.map (fun c => p c.frame)).getD false

/-- Puts a frame after the last waiting frame of its class (R17). -/
def insertFrame (f : TxFrame) (q : List TxFrame) : List TxFrame :=
  match q with
  | [] => [f]
  | g :: rest => if f.urgency < g.urgency then f :: g :: rest else g :: insertFrame f rest

/-- Puts a frame at the head of its class (R11). -/
def insertFrameHead (f : TxFrame) (q : List TxFrame) : List TxFrame :=
  match q with
  | [] => [f]
  | g :: rest => if f.urgency ≤ g.urgency then f :: g :: rest else g :: insertFrameHead f rest

/-- A frame arrives at the queue (R17, R18, R19): the queue after it, and the frame dropped, if one is. The victim is
the youngest waiting frame of the least urgent class, which stands last in queue order. -/
def Lif.place (l : Lif) (f : TxFrame) : Lif × Option TxFrame :=
  if f = .beacon ∧ l.holds (· == .beacon) = true then (l, none)
  else if l.places < Config.queuePlaces then ({ l with waiting := insertFrame f l.waiting }, none)
  else
    match l.waiting.getLast? with
    | some v =>
      if f.urgency < v.urgency then ({ l with waiting := insertFrame f l.waiting.dropLast }, some v)
      else (l, some f)
    | none => (l, some f)

/-- An INTENT may be sent: the line is ACTIVE and the clash timer does not run (R11). -/
def Lif.intentAllowed (l : Lif) : Bool := l.line == .active && l.clashEnd.isNone

/-- A frame may be sent (R11). -/
def Lif.maySend (l : Lif) (f : TxFrame) : Bool := !f.isIntent || l.intentAllowed

/-- The first frame of a queue that `p` lets through, and the queue without it. -/
def takeFirst (p : TxFrame → Bool) (q : List TxFrame) : Option (TxFrame × List TxFrame) :=
  match q with
  | [] => none
  | g :: rest =>
    if p g then some (g, rest)
    else (takeFirst p rest).map (fun r => (r.1, g :: r.2))

/-- A frame as it becomes current: attempt count 0, deferring (R11). -/
def Current.start (f : TxFrame) : Current :=
  { frame := f, attempts := 0, phase := .deferring, withdrawHeld := false, removeOnFail := false }

/-- With no current frame and the line not OFF, the first waiting frame that may be sent becomes current (R11). -/
def Lif.takeCurrent (l : Lif) : Lif :=
  match l.current with
  | some _ => l
  | none =>
    if l.line = .off then l
    else
      match takeFirst l.maySend l.waiting with
      | some r => { l with current := some (Current.start r.1), waiting := r.2 }
      | none => l

/-- The current frame leaves the queue and the next is taken (R14, R15, R20). -/
def Lif.dropCurrent (l : Lif) : Lif := { l with current := none }.takeCurrent

/-- The answer to a withdrawal (R20). -/
inductive WithdrawAnswer where
  /-- The INTENT has left the queue. -/
  | done
  /-- An attempt is on the line: the withdrawal is held until it ends. -/
  | heldBack
  /-- The INTENT is not in the queue. -/
  | tooLate
  deriving DecidableEq, Repr

/-- SCU withdraws an INTENT by its claim number (R20). -/
def Lif.withdraw (l : Lif) (n : Byte) : Lif × WithdrawAnswer :=
  match takeFirst (TxFrame.isIntentOf n) l.waiting with
  | some r => ({ l with waiting := r.2 }, .done)
  | none =>
    match l.current with
    | some c =>
      if c.frame.isIntentOf n then
        match c.phase with
        | .onLine _ => ({ l with current := some { c with withdrawHeld := true } }, .heldBack)
        | _ => (l.dropCurrent, .done)
      else (l, .tooLate)
    | none => (l, .tooLate)

/-! ### Frames that were not sent (R191) -/

/-- TX_DROPPED set in the ring's record of a serial, if it is there. -/
def Zbr.markDropped (z : Zbr) (serial : BitVec 32) : Zbr :=
  { z with ring := z.ring.map (fun r =>
      if r.serial = serial then { r with flags := { r.flags with txDropped := true } } else r) }

/-- TX_DROPPED set in the dip context of a serial, if it is the dip in progress. -/
def Dsq.markDropped (d : Dsq) (serial : BitVec 32) : Dsq :=
  { d with ctx := d.ctx.map (fun c => if c.serial = serial then { c with txDropped := true } else c) }

/-- A dropped or discarded ENTRY: the mark goes to the dip context and, once the record is made, to the record (R21,
R129, R191, log 17). -/
def State.markEntry (s : State) (serial : BitVec 32) : State :=
  (s.withDsq (s.dsq.markDropped serial)).withZbr (s.zbr.markDropped serial)

/-- A dropped or discarded PICKUP: the mark goes to its record in the ring (R21, R191). -/
def State.markPickup (s : State) (serial : BitVec 32) : State := s.withZbr (s.zbr.markDropped serial)

/-! ### The health score (R6, R10) -/

/-- The score rises by 4, stopping at 255. -/
def Lif.scoreUp (l : Lif) : Lif := { l with score := min 255 (l.score + 4) }

/-- The score falls by 1, stopping at 0. -/
def Lif.scoreDown (l : Lif) : Lif := { l with score := l.score - 1 }

end Sys2Proof.Machine
end

