-- ==== Sys2Proof/Machine/Claims.lean ====
section
/-! DEFINITION. SCU: the span table, the own claim machine, and the offers of its frames to the transmit queue with
what the queue's drops and discards report back (chapter Kettle Span Claims). -/

namespace Sys2Proof.Machine

/-! ### Spans (R40) -/

/-- Two spans overlap when either is whole, or when their ranges share a cell. -/
def Span.overlaps (a b : Span) : Bool :=
  a.whole || b.whole || (decide (a.first ≤ b.last) && decide (b.first ≤ a.last))

/-- A span overlaps the own span: the wanted span, or the own entry's, which is the same (R41). -/
def Scu.meets (c : Scu) (sp : Span) : Bool :=
  match c.wanted with
  | some w => sp.overlaps w
  | none => false

/-- Some foreign entry overlaps the own span, whatever its state (R40). -/
def Scu.overlapped (c : Scu) : Bool := c.entries.any (fun e => c.meets e.span)

/-- The entry of a holder. -/
def Scu.entryOf (c : Scu) (h : StationId) : Option PeerEntry := c.entries.find? (fun e => e.holder == h)

/-- Puts an entry in ascending holder ID, in place of any the holder had (R38). -/
def putEntry (e : PeerEntry) (es : List PeerEntry) : List PeerEntry :=
  match es with
  | [] => [e]
  | f :: rest =>
    if e.holder.toNat < f.holder.toNat then e :: f :: rest
    else if e.holder = f.holder then e :: rest
    else f :: putEntry e rest

/-- Removes the entry of a holder. -/
def removeEntry (h : StationId) (es : List PeerEntry) : List PeerEntry := es.filter (fun e => e.holder != h)

def State.putEntry (s : State) (e : PeerEntry) : State :=
  s.withScu { s.scu with entries := Machine.putEntry e s.scu.entries }

def State.removeEntry (s : State) (h : StationId) : State :=
  s.withScu { s.scu with entries := Machine.removeEntry h s.scu.entries }

/-! ### Rank (R47) -/

/-- Rotation distance of an ID from a last-entry ID, modulo 16. -/
def rotation (lastEntry id : StationId) : Nat := (id - (lastEntry + 1)).toNat

/-- A foreign INTENT of age `age` from `src` outranks an own INTENT of age `own`. -/
def outranks (lastEntry ownId src : StationId) (own age : Nat) : Bool :=
  decide (own < age) || (age == own && decide (rotation lastEntry src < rotation lastEntry ownId))

/-! ### Terms of R99, R100 -/

/-- Zinc admission is open (R181). -/
def Zbr.isOpen (z : Zbr) : Bool := z.level != .stopped

/-- A LOWER has been issued and not yet accepted (R140). -/
def Mpt.lowerUnaccepted (m : Mpt) : Bool :=
  match m.phase with
  | .awaitAccept (.lower _ _) _ => true
  | _ => false

/-- The load counts as lowered (R52, R99). -/
def State.lowered (s : State) : Bool := s.dsq.position != .clear || s.mpt.lowerUnaccepted

/-- The span is held (R100). -/
def ClaimState.isHeld (c : ClaimState) : Bool :=
  match c with
  | .claimingHoldQueued => true
  | .guard => true
  | .firm => true
  | .releasing => true
  | _ => false

/-- The claim is open (R100). -/
def ClaimState.isOpen (c : ClaimState) : Bool :=
  match c with
  | .blocked => true
  | .pending => true
  | .claimingWindow => true
  | .retry => true
  | _ => false

/-- The span is firm and no foreign entry overlaps it (R65, R107). -/
def State.firmAndClear (s : State) : Bool := s.scu.state == .firm && !s.scu.overlapped

/-! ### Timers of the own claim -/

/-- The blocked timer stops and keeps its value (R57, log 14). -/
def Scu.stopBlocked (c : Scu) (now : Nat) : Scu :=
  match c.blockedSince with
  | some t => { c with blockedSince := none, blockedHeld := now - t }
  | none => c

/-- The blocked timer runs on from the value it holds: in RETRY after a loss it measures the same claim (R57, log 34). -/
def Scu.resumeBlocked (c : Scu) (now : Nat) : Scu :=
  match c.blockedSince with
  | some _ => c
  | none => { c with blockedSince := some (now - c.blockedHeld) }

/-- The own claim number; used only while there is an own entry. -/
def State.ownClaim (s : State) : Byte := (s.scu.own.map OwnEntry.claim).getD 0

/-- The own entry is removed, the window and the guard stop, the retry delay starts (R54), and the blocked timer runs
(R57). -/
def State.enterRetry (s : State) : State :=
  s.withScu { s.scu.resumeBlocked s.now with
    state := .retry, own := none, withdrawal := .none, windowEnd := none, guardEnd := none,
    retryEnd := some (s.now + s.retryDelay) }

/-! ### Offers (R18, R21) -/

/-- An INTENT of the own entry was dropped or discarded in PENDING: the own entry is removed and the own state becomes
BLOCKED (R46). -/
def State.intentGone (s : State) (n : Byte) : State :=
  if s.scu.state = .pending ∧ s.scu.own.map OwnEntry.claim = some n then
    s.withScu { s.scu with state := .blocked, own := none, withdrawal := .none }
  else s

/-- A HOLD of the own entry was dropped at its offer: the own entry is removed and the claim enters RETRY (R50). -/
def State.holdGone (s : State) (n : Byte) : State :=
  if s.scu.state = .claimingHoldQueued ∧ s.scu.own.map OwnEntry.claim = some n then s.enterRetry else s

/-- A frame dropped by the queue is reported to the block that built it (R21). -/
def State.reportDrop (s : State) (f : TxFrame) : State :=
  match f with
  | .hold _ n => s.holdGone n
  | .intent _ _ n => s.intentGone n
  | .entry _ _ serial => s.markEntry serial
  | .pickup _ _ _ serial => s.markPickup serial
  | .free _ => s
  | .yield _ => s
  | .ingot _ => s
  | .beacon => s

/-- A frame is offered to the queue, the next current frame is taken if there is none, and a drop is reported. -/
def State.offerBase (s : State) (f : TxFrame) : State :=
  match s.lif.place f with
  | (l, none) => s.withLif l.takeCurrent
  | (l, some g) => (s.withLif l.takeCurrent).reportDrop g

/-- The wait age of an INTENT offered now: whole seconds from the span request time, at most 255 (R44). -/
def State.waitAge (s : State) : Nat := min 255 ((s.now - s.scu.requestTime.getD s.now) / 1000)

/-- The start conditions of R43 for a wanted span. -/
def State.mayStart (s : State) : Bool :=
  !s.scu.overlapped && s.lif.line == .active && s.lif.clashEnd.isNone && s.zbr.isOpen

/-- The claim starts: it takes the next claim number, makes the own entry, and offers the INTENT (R43). An INTENT
dropped at this offer leaves the claim BLOCKED with no further evaluation in the same taking (log 8). -/
def State.startClaim (s : State) (w : Span) : State :=
  (s.withScu { s.scu with state := .pending, own := some ⟨s.scu.nextClaim, s.waitAge⟩, withdrawal := .none,
                          nextClaim := s.scu.nextClaim + 1, lastAge := some s.waitAge }).offerBase
    (.intent w s.waitAge s.scu.nextClaim)

/-- SCU evaluates the start conditions (R43). -/
def State.evalStart (s : State) : State :=
  match s.scu.state, s.scu.wanted with
  | .blocked, some w => if s.mayStart then s.startClaim w else s
  | _, _ => s

/-- A frame other than an own INTENT of a starting claim is offered; where it displaces the own INTENT, the start
conditions are evaluated again (R46). -/
def State.offer (s : State) (f : TxFrame) : State :=
  match (s.lif.place f).2 with
  | some (.intent _ _ _) => (s.offerBase f).evalStart
  | _ => s.offerBase f

/-! ### Giving way -/

/-- YIELD offered, own entry removed, window stopped, RETRY (R48). -/
def State.yieldClaim (s : State) : State := (s.offer (.yield s.ownClaim)).enterRetry

/-- FREE offered, own entry removed, guard stopped, SPAN_LOST raised, RETRY (R49, R51, R52). -/
def State.loseClaim (s : State) : State := (s.offer (.free s.ownClaim)).enterRetry.raise .spanLost

/-- What SCU hands DSQ (R65); `ended` says that a cancelled claim has become NONE (R115). -/
inductive SpanNotice where
  | firm
  | lost
  | gone
  | ended
  | clearChanged (overlapped : Bool)
  deriving DecidableEq, Repr

/-- GUARD or FIRM. -/
def ClaimState.guardOrFirm (c : ClaimState) : Bool := c == .guard || c == .firm

/-- Span clear changed: in GUARD or FIRM the own span became overlapped or stopped being overlapped (R65). -/
def clearNotices (s t : State) : List SpanNotice :=
  if s.scu.state.guardOrFirm && t.scu.state.guardOrFirm && (s.scu.overlapped != t.scu.overlapped) then
    [.clearChanged t.scu.overlapped]
  else []

/-! ### Start and end of the own claim -/

/-- A claim with its wanted span enters BLOCKED: the blocked timer starts from 0 and the start conditions are evaluated
at once (R42). -/
def State.enterBlocked (s : State) (w : Span) : State :=
  (s.withScu { s.scu with state := .blocked, wanted := some w, blockedSince := some s.now, blockedHeld := 0 }).evalStart

/-- The own claim ends: NONE, or BLOCKED where a claim request was held (R42, R55, R56). -/
def State.endClaim (s : State) : State :=
  match s.scu.held with
  | none =>
    s.withScu { s.scu.stopBlocked s.now with
      state := .none, wanted := none, own := none, withdrawal := .none, windowEnd := none, guardEnd := none,
      retryEnd := none, lastAge := none }
  | some w =>
    (s.withScu { s.scu.stopBlocked s.now with
      state := .none, wanted := none, own := none, withdrawal := .none, held := none, windowEnd := none,
      guardEnd := none, retryEnd := none, lastAge := none }).enterBlocked w

/-- The notice that goes with the end of a cancelled claim: none where a held request took its place. -/
def State.endNotices (s : State) : List SpanNotice := if s.scu.held.isNone then [.ended] else []

/-- The wanted span of a claim request (R41); `none` is SPAN_OUTSIDE. -/
def wantedSpan (n margin : Nat) (hook : Option Nat) (length : Nat) (whole : Bool) : Option Span :=
  if whole then some ⟨0, n - 1, true⟩
  else
    match hook with
    | none => none
    | some h =>
      let first : Int := (h : Int) - ((length - 1) / 2 : Nat)
      let last : Int := first + length - 1
      if first < 0 ∨ (n : Int) - 1 < last then none
      else some ⟨(first - margin).toNat, min (n - 1) (last + margin).toNat, false⟩

/-- SCU's answer to a claim request (R65). -/
inductive ClaimAnswer where
  | taken
  | spanOutside
  | alreadyClaiming
  deriving DecidableEq, Repr

/-- The span request time of the dip's first claim request is kept (R42, log 10). -/
def Scu.noteRequest (c : Scu) (now : Nat) : Scu := { c with requestTime := some (c.requestTime.getD now) }

/-- DSQ asks for a span (R42). -/
def State.requestSpan (s : State) (length : Nat) (whole : Bool) : State × ClaimAnswer :=
  if s.scu.state = .none then
    match wantedSpan s.cells s.cfg.params.margin s.mpt.hook length whole with
    | none => (s, .spanOutside)
    | some w => ((s.withScu (s.scu.noteRequest s.now)).enterBlocked w, .taken)
  else if s.scu.state = .releasing ∨ (s.scu.state = .pending ∧ s.scu.withdrawal = .cancel) then
    match wantedSpan s.cells s.cfg.params.margin s.mpt.hook length whole with
    | none => (s, .spanOutside)
    | some w => (s.withScu { s.scu.noteRequest s.now with held := some w }, .taken)
  else (s, .alreadyClaiming)

/-- A FREE is offered for the own entry, which stays until it is sent: RELEASING (R55, R56). -/
def State.startRelease (s : State) : State :=
  let t := s.offer (.free s.ownClaim)
  t.withScu { t.scu.stopBlocked t.now with state := .releasing, guardEnd := none }

/-- DSQ asks for the release of the span (R55). A release is asked for only while a span may be held; in an open claim
nothing is done. The caller reads the own claim state after it: NONE means that the span is gone. -/
def State.releaseSpan (s : State) : State :=
  match s.scu.state with
  | .claimingHoldQueued => s.startRelease
  | .guard => s.startRelease
  | .firm => s.startRelease
  | .none => s
  | .releasing => s
  | .blocked => s
  | .pending => s
  | .claimingWindow => s
  | .retry => s

/-- The cancel of a claim whose INTENT is still to be answered for: the blocked timer stops now, the own state stays
PENDING (R56, R57). -/
def State.awaitCancel (s : State) : State := s.withScu { s.scu.stopBlocked s.now with withdrawal := .cancel }

/-- DSQ cancels the claim (R56). The blocked timer stops whatever the own state (R57). -/
def State.cancelClaim (s : State) : State :=
  match s.scu.state with
  | .none => s
  | .blocked => s.endClaim
  | .retry => s.endClaim
  | .pending =>
    match s.scu.withdrawal with
    | .cancel => s.withScu { s.scu with held := none }
    | .conflict => s.awaitCancel
    | .none =>
      match s.lif.withdraw s.ownClaim with
      | (l, .done) => (s.withLif l).endClaim
      | (l, _) => (s.withLif l).awaitCancel
  | .claimingWindow => (s.offer (.yield s.ownClaim)).endClaim
  | .claimingHoldQueued => s.startRelease
  | .guard => s.startRelease
  | .firm => s.startRelease
  | .releasing => s.withScu { s.scu with held := none }

/-! ### Conflicts with foreign claims (R45, R48 to R53) -/

/-- The INTENT has been withdrawn for a conflict: BLOCKED, and the start conditions are evaluated again (R45). -/
def State.intentWithdrawn (s : State) : State :=
  (s.withScu { s.scu with state := .blocked, own := none, withdrawal := .none }).evalStart

/-- SCU asks LIF to withdraw the INTENT, unless an answer is already awaited (R45). -/
def State.withdrawIntent (s : State) : State :=
  if s.scu.state = .pending ∧ s.scu.withdrawal = .none then
    match s.lif.withdraw s.ownClaim with
    | (l, .done) => (s.withLif l).intentWithdrawn
    | (l, _) => (s.withLif l).withScu { s.scu with withdrawal := .conflict }
  else s

/-- The foreign INTENT outranks the own one, judged now (R47). -/
def State.foreignOutranks (s : State) (src : StationId) (age : Nat) : Bool :=
  outranks s.scu.lastEntry s.ownId src ((s.scu.own.map OwnEntry.age).getD 0) age

/-- The own claim machine takes an overlapping foreign INTENT; a BEACON's has no wait age (R45, R48, R49, R53). -/
def State.meetIntent (s : State) (src : StationId) (age : Option Nat) : State :=
  match s.scu.state with
  | .pending => s.withdrawIntent
  | .claimingWindow =>
    match age with
    | some a => if s.foreignOutranks src a then s.yieldClaim else s
    | none => s
  | _ => s

/-- The lower-ID-keeps rule (R51). -/
def State.lowerIdKeeps (s : State) (src : StationId) : State × List SpanNotice :=
  if s.ownId.toNat < src.toNat then (s, []) else (s.loseClaim, [.lost])

/-- The own claim machine takes an overlapping HELD entry that was not there before (R45, R48, R49, R51, R52, R53). -/
def State.meetHeld (s : State) (src : StationId) : State × List SpanNotice :=
  match s.scu.state with
  | .pending => (s.withdrawIntent, [])
  | .claimingWindow => (s.yieldClaim, [])
  | .claimingHoldQueued => s.lowerIdKeeps src
  | .guard => s.lowerIdKeeps src
  | .firm => if s.lowered then (s.raise .spanConflict, []) else s.lowerIdKeeps src
  | _ => (s, [])

/-! ### Peer entries (R58 to R63) -/

/-- A foreign INTENT (R58). -/
def State.scuIntent (s : State) (src : StationId) (i : ClaimInfo) : State × List SpanNotice :=
  let s1 := s.putEntry { holder := src, state := .intent, span := i.span, claim := some i.claim, age := some i.age,
                         arrival := s.now, lapseEnd := some (s.now + s.lapseTime), lastEntry := none }
  let s2 := if s1.scu.meets i.span then s1.meetIntent src (some i.age) else s1
  let s3 := s2.evalStart
  (s3, clearNotices s s3)

/-- The reported last-entry ID a HOLD keeps: the entry's, if the span is unchanged (R59). -/
def keptLastEntry (e : Option PeerEntry) (sp : Span) : Option StationId :=
  match e with
  | some e => if e.span = sp then e.lastEntry else none
  | none => none

/-- A foreign HOLD (R59). -/
def State.scuHold (s : State) (src : StationId) (i : ClaimInfo) : State × List SpanNotice :=
  let s1 := s.putEntry { holder := src, state := .held, span := i.span, claim := some i.claim, age := none,
                         arrival := s.now, lapseEnd := none, lastEntry := keptLastEntry (s.scu.entryOf src) i.span }
  let r := if s1.scu.meets i.span then s1.meetHeld src else (s1, [])
  let s3 := r.1.evalStart
  (s3, r.2 ++ clearNotices s s3)

/-- An entry leaves the table: a table change under R43, and perhaps the end of an overlap (R65). -/
def State.entryLeaves (s : State) (h : StationId) : State × List SpanNotice :=
  let s1 := (s.removeEntry h).evalStart
  (s1, clearNotices s s1)

/-- A foreign YIELD or FREE: the entry goes when its claim number matches or is unknown (R60). -/
def State.scuFree (s : State) (src : StationId) (n : Byte) : State × List SpanNotice :=
  match s.scu.entryOf src with
  | none => (s, [])
  | some e => if e.claim = none ∨ e.claim = some n then s.entryLeaves src else (s, [])

/-- The sender's entry after a BEACON (R63). -/
def reconcile (src : StationId) (now lapse : Nat) (e : Option PeerEntry) (b : BeaconInfo) : Option PeerEntry :=
  match b.spanState with
  | .none => none
  | .intent =>
    match e with
    | some e =>
      if e.state = .intent ∧ e.span = b.span then some { e with lastEntry := some b.lastEntry }
      else some { holder := src, state := .intent, span := b.span, claim := none, age := none, arrival := now,
                  lapseEnd := some (now + lapse), lastEntry := some b.lastEntry }
    | none => some { holder := src, state := .intent, span := b.span, claim := none, age := none, arrival := now,
                     lapseEnd := some (now + lapse), lastEntry := some b.lastEntry }
  | .held =>
    match e with
    | some e =>
      if e.span = b.span then
        if e.state = .held then some { e with lastEntry := some b.lastEntry }
        else some { e with state := .held, arrival := now, lapseEnd := none, lastEntry := some b.lastEntry }
      else some { holder := src, state := .held, span := b.span, claim := none, age := none, arrival := now,
                  lapseEnd := none, lastEntry := some b.lastEntry }
    | none => some { holder := src, state := .held, span := b.span, claim := none, age := none, arrival := now,
                     lapseEnd := none, lastEntry := some b.lastEntry }

/-- The entry is HELD and overlaps the own span. -/
def Scu.heldOver (c : Scu) (e : Option PeerEntry) : Bool :=
  match e with
  | some e => e.state == .held && c.meets e.span
  | none => false

/-- The entry is INTENT and overlaps the own span. -/
def Scu.intentOver (c : Scu) (e : Option PeerEntry) : Bool :=
  match e with
  | some e => e.state == .intent && c.meets e.span
  | none => false

/-- The BEACON left the holder's INTENT entry as it was (R63). -/
def keptIntent (before after : Option PeerEntry) : Bool :=
  match before, after with
  | some e, some f => e.state == .intent && f.state == .intent && e.span == f.span
  | _, _ => false

/-- A BEACON's span state (R63). It acts as a HOLD where it leaves an overlapping entry HELD where none of the holder's
was before (log 11), and as an INTENT without a wait age where it adds or replaces an overlapping INTENT entry. -/
def State.scuBeacon (s : State) (src : StationId) (b : BeaconInfo) : State × List SpanNotice :=
  let before := s.scu.entryOf src
  let after := reconcile src s.now s.lapseTime before b
  let s1 := match after with
    | some e => s.putEntry e
    | none => s.removeEntry src
  let r :=
    if s.scu.heldOver after && !s.scu.heldOver before then s1.meetHeld src
    else if s.scu.intentOver after && !keptIntent before after then (s1.meetIntent src none, [])
    else (s1, [])
  let s3 := r.1.evalStart
  (s3, r.2 ++ clearNotices s s3)

/-- A silence notice makes the peer's entry STALE and stops its lapse timer (R62). -/
def State.scuSilence (s : State) (h : StationId) : State :=
  (s.withScu { s.scu with entries := s.scu.entries.map (fun e =>
    if e.holder = h then { e with state := .stale, lapseEnd := none } else e) }).evalStart

/-! ### Notices from LIF and ZBR -/

/-- A change of line state or of the clash timer: a waiting INTENT may become current (R11), and SCU evaluates its start
conditions (R43). -/
def State.lineNotice (s : State) : State := (s.withLif s.lif.takeCurrent).evalStart

/-- Zinc admission changed (R181): a BLOCKED claim is evaluated again, a PENDING INTENT withdrawn when it closed. -/
def State.zincNotice (s : State) : State := if s.zbr.isOpen then s.evalStart else s.withdrawIntent

/-- An overlapping HELD entry, or an overlapping INTENT entry that outranks the own INTENT, stands in the table (R45). -/
def State.standingLoss (s : State) : Bool :=
  s.scu.entries.any (fun e => s.scu.meets e.span &&
    (e.state == .held || (e.state == .intent && (e.age.map (fun a => s.foreignOutranks e.holder a)).getD false)))

/-- The own INTENT has been sent (R46); with a withdrawal that came too late, R45 and R56 apply. -/
def State.intentSent (s : State) (n : Byte) : State × List SpanNotice :=
  if s.scu.state = .pending ∧ s.scu.own.map OwnEntry.claim = some n then
    match s.scu.withdrawal with
    | .cancel => ((s.offer (.yield n)).endClaim, s.endNotices)
    | .conflict =>
      let t := s.withScu { s.scu with state := .claimingWindow, withdrawal := .none,
                                      windowEnd := some (s.now + s.cfg.params.claimWindow) }
      (if t.standingLoss then t.yieldClaim else t, [])
    | .none =>
      (s.withScu { s.scu with state := .claimingWindow, windowEnd := some (s.now + s.cfg.params.claimWindow) }, [])
  else (s, [])

/-- The own HOLD has been sent: GUARD, and the blocked timer stops (R50). -/
def State.holdSent (s : State) (n : Byte) : State :=
  if s.scu.state = .claimingHoldQueued ∧ s.scu.own.map OwnEntry.claim = some n then
    s.withScu { s.scu.stopBlocked s.now with state := .guard, guardEnd := some (s.now + s.cfg.params.guardTime) }
  else s

/-- The own FREE has been sent in RELEASING: the own entry is removed and DSQ is told that the span is gone (R55). -/
def State.freeSent (s : State) (n : Byte) : State × List SpanNotice :=
  if s.scu.state = .releasing ∧ s.scu.own.map OwnEntry.claim = some n then (s.endClaim, [.gone]) else (s, [])

/-- A send completion (R14). -/
def State.sendCompletion (s : State) (f : TxFrame) : State × List SpanNotice :=
  match f with
  | .intent _ _ n => s.intentSent n
  | .hold _ n => (s.holdSent n, [])
  | .free n => s.freeSent n
  | .yield _ => (s, [])
  | .entry _ _ _ => (s, [])
  | .pickup _ _ _ _ => (s, [])
  | .ingot _ => (s, [])
  | .beacon => (s, [])

/-- A frame discarded after its sixteenth failed attempt is reported to the block that built it (R21, R46, R50, R55). -/
def State.reportDiscard (s : State) (f : TxFrame) : State :=
  match f with
  | .intent _ _ n => (s.intentGone n).evalStart
  | .hold sp n =>
    if s.scu.state = .claimingHoldQueued ∧ s.scu.own.map OwnEntry.claim = some n then s.offer (.hold sp n) else s
  | .free n =>
    if s.scu.state = .releasing ∧ s.scu.own.map OwnEntry.claim = some n then s.offer (.free n) else s
  | .entry _ _ serial => s.markEntry serial
  | .pickup _ _ _ serial => s.markPickup serial
  | .yield _ => s
  | .ingot _ => s
  | .beacon => s

/-- A withdrawal held during an attempt succeeds, the attempt having failed (R20, R45, R56). -/
def State.withdrawalSucceeds (s : State) : State × List SpanNotice :=
  match s.scu.withdrawal with
  | .cancel => (s.endClaim, s.endNotices)
  | _ => if s.scu.state = .pending then (s.intentWithdrawn, []) else (s, [])

/-- A place of the queue has become free: a FREE that RELEASING still owes the line is offered again (log 9), and a
claim left BLOCKED by a dropped INTENT is evaluated (R43, log 8). -/
def State.placeFreed (s : State) : State :=
  let s1 :=
    match s.scu.state, s.scu.own with
    | .releasing, some o => if s.lif.holds (TxFrame.isFreeOf o.claim) then s else s.offer (.free o.claim)
    | _, _ => s
  s1.evalStart

end Sys2Proof.Machine
end

