-- ==== Sys2Proof/Machine/Heat.lean ====
section
/-! DEFINITION. HWN: the entry list and its sum, taking an ENTRY, and admission (chapter Heat Load Window). -/

namespace Sys2Proof.Machine

/-- The window length in ms (R71). -/
def State.windowMs (s : State) : Nat := s.cfg.params.window * 1000

/-- An ENTRY merged into the youngest record: the mass stops at 65,535 kg, the merge count at 255 (R70). -/
def HeatEntry.merge (e : HeatEntry) (src : StationId) (mass index now : Nat) : HeatEntry :=
  { src := src, mass := min 65535 (e.mass + mass), arrival := now, index := index, merges := min 255 (e.merges + 1) }

/-- HWN takes an ENTRY: appended while the list holds fewer than 24 records, else merged into the youngest; the sum
rises by the mass the list gained (R69, R70, R72). -/
def Hwn.take (h : Hwn) (src : StationId) (mass index now : Nat) : Hwn :=
  if h.entries.length < Config.windowPlaces then
    { h with entries := h.entries ++ [{ src := src, mass := mass, arrival := now, index := index, merges := 0 }],
             sum := h.sum + mass }
  else
    match h.entries.getLast? with
    | some e =>
      { h with entries := h.entries.dropLast ++ [e.merge src mass index now],
               sum := h.sum + (e.merge src mass index now).mass - e.mass }
    | none => h

/-- An ENTRY is taken into the window, and its source becomes the last-entry ID (R64, R69). -/
def State.takeEntry (s : State) (src : StationId) (mass index : Nat) : State :=
  (s.withHwn (s.hwn.take src mass index s.now)).withScu { s.scu with lastEntry := src }

/-- The own ENTRY is offered with the serial of the dip in progress: taken into the own window before the queue places
it or drops it (R22, R74, R191). -/
def State.offerEntry (s : State) (mass index : Nat) : State :=
  (s.takeEntry s.ownId mass index).offer (.entry mass index ((s.dsq.ctx.map DipCtx.serial).getD 0))

/-- HWN's answer to an admission request (R74, R75). -/
inductive HeatAnswer where
  | granted
  | grantedOver
  | wait
  /-- Refused as already waiting (R74). -/
  | alreadyWaiting
  deriving DecidableEq, Repr

/-- The request is granted: the own ENTRY is offered, the request state is NONE, and an admission over budget raises
HEAT_OVER (R74, R75, R76). -/
def State.grantEntry (s : State) (m index : Nat) (overBudget : Bool) : State :=
  let t := (s.withHwn { s.hwn with request := .none }).offerEntry m index
  if overBudget then t.raise .heatOver else t

/-- DSQ asks for admission (R74, R75). A request taken while one waits is refused as already waiting, and the held one
stands. -/
def State.requestHeat (s : State) (m index : Nat) : State × HeatAnswer :=
  match s.hwn.request with
  | .none =>
    if m ≤ s.cfg.params.budget then
      if s.hwn.sum + m ≤ s.cfg.params.budget then (s.grantEntry m index false, .granted)
      else (s.withHwn { s.hwn with request := .waitSum ⟨m, index, s.now⟩ }, .wait)
    else if s.hwn.entries = [] then (s.grantEntry m index true, .grantedOver)
    else (s.withHwn { s.hwn with request := .waitEmpty ⟨m, index, s.now⟩ }, .wait)
  | _ => (s, .alreadyWaiting)

/-- DSQ withdraws its request; in NONE nothing changes (R77). -/
def State.withdrawHeat (s : State) : State := s.withHwn { s.hwn with request := .none }

/-- A record leaves the window, its mass the sum (R71). -/
def Hwn.removeAt (h : Hwn) (i : Nat) : Hwn :=
  { h with entries := h.entries.eraseIdx i, sum := h.sum - ((h.entries[i]?).map HeatEntry.mass).getD 0 }

/-- After an expiry a waiting request is decided again (R76): the state, and the admission if it is granted, with its
over-budget mark. -/
def State.retryHeat (s : State) : State × Option Bool :=
  match s.hwn.request with
  | .none => (s, none)
  | .waitSum r =>
    if s.hwn.sum + r.mass ≤ s.cfg.params.budget then (s.grantEntry r.mass r.index false, some false) else (s, none)
  | .waitEmpty r => if s.hwn.entries = [] then (s.grantEntry r.mass r.index true, some true) else (s, none)

/-- The entering mass of a LOWER (R73). -/
def enteringMass (dry : Option Int) (nominal fraction : Nat) : Nat :=
  let base := match dry with
    | some d => roundNat (nonNeg d) 10
    | none => nominal
  roundNat (base * fraction) 1000

end Sys2Proof.Machine
end

