-- ==== Sys2Proof/Machine/Motion.lean ====
section
/-! DEFINITION. MPT: sending a request and a STOP, matching a response, and ending a request (chapter Motion Line). -/

namespace Sys2Proof.Machine

def MotionRequest.kind (r : MotionRequest) : MotionKind :=
  match r with
  | .move _ => .move
  | .lower _ _ => .lower
  | .raise _ => .raise
  | .vibrate _ => .vibrate

/-- Parameter bytes of a request (R212). -/
def MotionRequest.params (r : MotionRequest) : List Byte :=
  match r with
  | .move c => u8 c
  | .lower d v => u16 d ++ u8 v
  | .raise v => u8 v
  | .vibrate n => u8 n

/-- The length of the done timer in ms (R133). -/
def doneTime (p : Params) (r : MotionRequest) : Nat :=
  match r with
  | .move _ => p.moveTimeout * 1000
  | .lower _ _ => p.verticalTimeout * 1000
  | .raise _ => p.verticalTimeout * 1000
  | .vibrate n => (n + 5) * 1000

/-- The outstanding request with its number (R132). -/
def MptPhase.outstanding (p : MptPhase) : Option (MotionRequest × Byte) :=
  match p with
  | .awaitAccept r n => some (r, n)
  | .running r n => some (r, n)
  | _ => none

/-- The number of the STOP awaiting acceptance. -/
def MptPhase.stopNumber (p : MptPhase) : Option Byte :=
  match p with
  | .stopping n => some n
  | _ => none

/-- DSQ hands MPT a request: it takes the counter's value, the counter advances, and its frame starts to leave (R131,
log 18). -/
def Mpt.send (m : Mpt) (r : MotionRequest) : Mpt :=
  { m with phase := .awaitAccept r m.counter, counter := m.counter + 1, acceptEnd := none, doneEnd := none,
           sending := m.sending ++ [⟨m.counter, motionFrame r.kind m.counter r.params⟩] }

def State.sendMotion (s : State) (r : MotionRequest) : State := s.withMpt (s.mpt.send r)

/-- A MOVE that does not complete makes the hook cell absent; the other kinds keep it (R139). -/
def hookAfter (r : MotionRequest) (hook : Option Nat) : Option Nat :=
  match r with
  | .move _ => none
  | _ => hook

/-- DSQ hands MPT a STOP (R137): with a request outstanding it is cancelled and the STOP sent. In IDLE and STOPPING
nothing is sent. -/
def Mpt.stop (m : Mpt) : Mpt :=
  match m.phase.outstanding with
  | some (r, n) =>
    { m with phase := .stopping m.counter, counter := m.counter + 1, cancelled := some n, acceptEnd := none,
             doneEnd := none, hook := hookAfter r m.hook,
             sending := m.sending ++ [⟨m.counter, motionFrame .stop m.counter []⟩] }
  | none => m

/-- The request or STOP ends: MPT is IDLE with no timer running. -/
def Mpt.ended (m : Mpt) : Mpt := { m with phase := .idle, acceptEnd := none, doneEnd := none }

/-- The last byte of a request frame has left: the accept timer of that request starts (R131). -/
def Mpt.sent (m : Mpt) (now : Nat) : Mpt :=
  match m.sending with
  | [] => m
  | f :: rest =>
    match m.phase with
    | .awaitAccept _ n =>
      if f.number = n then { m with sending := rest, acceptEnd := some (now + Config.acceptTimeout) }
      else { m with sending := rest }
    | .stopping n =>
      if f.number = n then { m with sending := rest, acceptEnd := some (now + Config.acceptTimeout) }
      else { m with sending := rest }
    | _ => { m with sending := rest }

/-- What a response's number matches, first that applies (R133). -/
inductive Match where
  | outstanding (r : MotionRequest) (running : Bool)
  | stopAwaiting
  | stopAccepted
  | cancelled
  | stray
  deriving DecidableEq, Repr

/-- The matches below the outstanding request (R133). -/
def Mpt.matchStop (m : Mpt) (number : Byte) : Match :=
  if m.phase.stopNumber = some number then .stopAwaiting
  else if m.lastStop = some number then .stopAccepted
  else if m.cancelled = some number then .cancelled
  else .stray

/-- R133. -/
def Mpt.matches (m : Mpt) (number : Byte) : Match :=
  match m.phase with
  | .awaitAccept r n => if n = number then .outstanding r false else m.matchStop number
  | .running r n => if n = number then .outstanding r true else m.matchStop number
  | .idle => m.matchStop number
  | .stopping _ => m.matchStop number

/-- The outstanding request is accepted: the done timer starts (R133). -/
def Mpt.accepted (m : Mpt) (p : Params) (now : Nat) : Mpt :=
  match m.phase with
  | .awaitAccept r n => { m with phase := .running r n, acceptEnd := none, doneEnd := some (now + doneTime p r) }
  | _ => m

/-- The STOP in flight is accepted (R137). -/
def Mpt.stopTaken (m : Mpt) : Mpt := { m.ended with lastStop := m.phase.stopNumber }

end Sys2Proof.Machine
end

