-- ==== Sys2Proof/Machine/Balance.lean ====
section
/-! DEFINITION. ZBR: the zinc estimate and its level state, zinc admission, heard consumption, and appending a dip record
(chapter Zinc Balance and Dip Records). -/

namespace Sys2Proof.Machine

/-- The zinc level state after an evaluation, by Z against Z_stop and Z_low (R180). -/
def nextLevel (level : ZincLevel) (z zStop zLow : Nat) : ZincLevel :=
  match level with
  | .normal => if z < zStop then .stopped else if z < zLow then .low else .normal
  | .low => if z < zStop then .stopped else if z < zLow then .low else .normal
  | .stopped => if z < zStop then .stopped else if z < zLow then .stopped else .normal

/-- The events of a move of the zinc level state (R180). -/
def levelEvents (before after : ZincLevel) : List Event :=
  match before, after with
  | .normal, .stopped => [.zLowEv, .zStopEv]
  | .normal, .low => [.zLowEv]
  | .low, .stopped => [.zStopEv]
  | .stopped, .normal => [.zRestored]
  | _, _ => []

/-- Raises several events. -/
def State.raiseAll (s : State) (es : List Event) : State := es.foldl State.raise s

/-- The zinc level state is evaluated, unless BALANCE_UNSET is set; a change of zinc admission is handed to SCU (R180,
R181). -/
def State.evalLevel (s : State) : State :=
  if s.zbr.unset then s
  else
    let level := nextLevel s.zbr.level s.zbr.z s.cfg.params.zStop s.cfg.params.zLow
    let t := (s.withZbr { s.zbr with level := level }).raiseAll (levelEvents s.zbr.level level)
    if s.zbr.isOpen = t.zbr.isOpen then t else t.zincNotice

/-- Z takes a value, and the zinc level state is evaluated (R179). -/
def State.putZ (s : State) (z : Nat) : State := (s.withZbr { s.zbr with z := z }).evalLevel

/-- Z falls by a consumption, stopping at 0 (R179). -/
def State.consume (s : State) (c : Nat) : State := s.putZ (s.zbr.z - c)

/-- Z rises by a mass, stopping at Z_max (R179). -/
def State.addZinc (s : State) (m : Nat) : State := s.putZ (min s.cfg.params.zMax (s.zbr.z + m))

/-- An own INGOT is offered: applied to the own Z first, then placed or dropped (R22, R184). -/
def State.offerIngot (s : State) (m : Nat) : State := (s.addZinc m).offer (.ingot m)

/-- An own PICKUP is offered with the own pickup sequence, which then advances; it is applied to the own Z before the
queue places it or drops it (R22, R188). -/
def State.offerPickup (s : State) (c : Nat) (k : Option SteelClass) (serial : BitVec 32) : State :=
  let t := s.consume c
  (t.withZbr { t.zbr with ownSeq := t.zbr.ownSeq + 1 }).offer (.pickup s.zbr.ownSeq c k serial)

/-- The class a PICKUP reports: the dip class when it is one of R2 to R6 (R188). -/
def reportedClass (d : Option DipClass) : Option SteelClass :=
  match d with
  | some (.cls c) => some c
  | _ => none

/-- The ring after an append: a full ring discards its oldest record (R188, R189). -/
def ringAppend (ring : List DipRecord) (r : DipRecord) : List DipRecord :=
  (if ring.length < Config.ringPlaces then ring else ring.drop 1) ++ [r]

/-- ZBR takes a finished record: number, append, RECORD_READY, PICKUP (R188). -/
def State.appendRecord (s : State) (r : DipRecord) : State :=
  let t := s.withZbr { s.zbr with ring := ringAppend s.zbr.ring { r with number := s.zbr.nextNumber },
                                  nextNumber := s.zbr.nextNumber + 1 }
  let t := if s.zbr.ring.length < Config.ringPlaces then t else t.raise .ringOverrun
  (t.raise .recordReady).offerPickup r.consumption (reportedClass r.dipClass) r.serial

/-- The sequence checker's outcome for a PICKUP's sequence against the expected one, modulo 65,536 (R182). -/
def checkPickup (expected : Option (BitVec 16)) (q : BitVec 16) : PickupOutcome :=
  match expected with
  | none => .first
  | some e => if q = e - 1 then .repeated else if q = e then .applied else .gap

/-- The expected pickup sequence of a peer takes a value (R32, R182). -/
def Ptb.setExpected (p : Ptb) (id : StationId) (e : BitVec 16) : Ptb :=
  { p with peers := p.peers.map (fun r => if r.id = id then { r with expected := some e } else r) }

/-- The record of a peer. -/
def Ptb.recordOf (p : Ptb) (id : StationId) : Option Peer := p.peers.find? (fun r => r.id == id)

/-- A heard PICKUP (R182, R183). -/
def State.heardPickup (s : State) (src : StationId) (p : PickupInfo) : State :=
  let outcome := checkPickup ((s.ptb.recordOf src).bind Peer.expected) p.seq
  let t := s.withZbr { s.zbr with lastPickup := some ⟨src, p.seq, p.consumption, p.cls, outcome⟩ }
  match outcome with
  | .repeated => t
  | .gap =>
    let t := t.withPtb (t.ptb.setExpected src (p.seq + 1))
    ((t.withZbr { t.zbr with gap := true }).raise .balanceGap).consume p.consumption
  | .first => (t.withPtb (t.ptb.setExpected src (p.seq + 1))).consume p.consumption
  | .applied => (t.withPtb (t.ptb.setExpected src (p.seq + 1))).consume p.consumption

/-- A heard INGOT (R183, R185). -/
def State.heardIngot (s : State) (src : StationId) (m : Nat) : State :=
  ((s.withZbr { s.zbr with lastIngot := some ⟨src, m⟩ }).raise .ingotHeard).addZinc m

end Sys2Proof.Machine
end

