-- ==== Sys2Proof/Machine/Pickup.lean ====
section
/-! DEFINITION. PKU: the pickup arithmetic, the classifier, the lot table, and making a dip record (chapter Pickup and
Steel Class). -/

namespace Sys2Proof.Machine

/-! ### Lots (R170 to R173) -/

/-- The lot of a tag. -/
def Pku.lotOf (k : Pku) (tag : Nat) : Option Lot := k.lots.find? (fun l => l.tag == tag)

/-- Removes the lot of a tag. -/
def removeLot (tag : Nat) (ls : List Lot) : List Lot := ls.filter (fun l => l.tag != tag)

/-- The lots without the least recently used one that is not in use (R173). At most one lot is in use, so a table of
two lots or more has one to evict. -/
def evictLast (ls : List Lot) : List Lot :=
  match ls with
  | [] => []
  | l :: rest => if rest.any (fun x => !x.inUse) then l :: evictLast rest else rest

/-- A lot takes place 1 (R171). -/
def Pku.putFirst (k : Pku) (l : Lot) : Pku := { k with lots := l :: removeLot l.tag k.lots }

/-- An accepted LOT_OPEN: the lot is opened or reopened in SEARCH at place 1, evicting where a new tag finds no free
entry (R172, R173). -/
def Pku.openLot (k : Pku) (tag : Nat) (mask : BitVec 5) : Pku :=
  let fresh : Lot := { tag := tag, mask := mask, classifier := .search, dips := 0, inUse := false }
  match k.lotOf tag with
  | some _ => k.putFirst fresh
  | none => { k with lots := fresh :: (if k.lots.length < Config.lotPlaces then k.lots else evictLast k.lots) }

/-- A lot's classifier state is set by the host: place 1 (R174). -/
def Pku.setClassifier (k : Pku) (l : Lot) (c : Classifier) : Pku := k.putFirst { l with classifier := c }

/-- START_DIP's lot becomes the lot in use at place 1, opened with the commissioning mask if it is not in the table
(R102, R171, R172). -/
def Pku.useLot (k : Pku) (tag : Nat) (mask : BitVec 5) : Pku :=
  if tag = 0 then k
  else
    match k.lotOf tag with
    | some l => k.putFirst { l with inUse := true }
    | none =>
      let k1 := k.openLot tag mask
      { k1 with lots := k1.lots.map (fun l => if l.tag = tag then { l with inUse := true } else l) }

/-- No lot is in use (R171). -/
def Pku.clearUse (k : Pku) : Pku := { k with lots := k.lots.map (fun l => { l with inUse := false }) }

/-- The class a lot is LOCKED or FIXED at. -/
def Classifier.knownClass (c : Classifier) : Option SteelClass :=
  match c with
  | .locked k _ => some k
  | .fixed k => some k
  | _ => none

/-- The class of a dip's lot where the lot is LOCKED or FIXED; none for lot 0 (R111, R167, R177). -/
def Pku.knownClass (k : Pku) (tag : Nat) : Option SteelClass :=
  if tag = 0 then none else (k.lotOf tag).bind (fun l => l.classifier.knownClass)

/-! ### Arithmetic (R161 to R169) -/

/-- The immersion time used in the arithmetic, in whole seconds, at most 1,800 (R161). -/
def immersionSeconds (tenths : Nat) : Nat := min 1800 (roundNat tenths 10)

/-- The expected ratio of a class (R164). -/
def expectedRatio (p : Params) (c : SteelClass) (t : Nat) : Nat :=
  (p.row c).base + ((p.row c).slope * t + 30) / 60

/-- What the measured or the estimate path gives (R162, R163, R169). -/
structure Yield where
  pickup : Nat
  ratio : Option Nat
  negPickup : Bool
  ratioSat : Bool
  smallDry : Bool
  deriving DecidableEq, Repr

/-- Raw pickup plus flux loss (R162). -/
def rawCorrected (dry wet : Int) (flux : Nat) : Int := wet - dry + roundNat (nonNeg dry * flux) 1000

/-- The measured path (R162, R163). -/
def measuredYield (dry wet : Int) (flux : Nat) : Yield :=
  let pc := nonNeg (rawCorrected dry wet flux)
  let neg := decide (rawCorrected dry wet flux < 0)
  if dry < 10 then { pickup := pc, ratio := none, negPickup := neg, ratioSat := false, smallDry := true }
  else
    let r := roundNat (pc * 1000) (nonNeg dry)
    { pickup := pc, ratio := some (min 999 r), negPickup := neg, ratioSat := decide (999 < r), smallDry := false }

/-- The estimated pickup of a class (R169). -/
def estimatedPickup (p : Params) (c : SteelClass) (t : Nat) (dry : Option Int) (nominal : Nat) : Nat :=
  let base := match dry with
    | some d => nonNeg d
    | none => nominal * 10
  roundNat (min 999 (expectedRatio p c t) * base) 1000

/-- Eligible for classification (R165). -/
def eligible (c : DipCtx) (o : DipOutcome) (ratio : Option Nat) : Bool :=
  ratio.isSome && o == .complete && !c.progressive && !c.quality.weighLost && !c.quality.unsettled && !c.quality.overMark

/-- Distance of a ratio from a class's expected ratio (R166). -/
def classDistance (p : Params) (t r : Nat) (c : SteelClass) : Nat :=
  max r (expectedRatio p c t) - min r (expectedRatio p c t)

/-- The candidate with the smallest distance, the lowest class number among equals (R166). -/
def bestClass (p : Params) (t r : Nat) (cs : List SteelClass) : Option SteelClass :=
  match cs with
  | [] => none
  | c :: rest =>
    match bestClass p t r rest with
    | none => some c
    | some d => if classDistance p t r c ≤ classDistance p t r d then some c else some d

/-- The dip class of an eligible dip (R166). -/
def classify (p : Params) (mask : BitVec 5) (t r : Nat) : DipClass :=
  match bestClass p t r (SteelClass.all.filter (inMask mask)) with
  | some c => if classDistance p t r c ≤ p.acceptBand then .cls c else .noMatch
  | none => .noMatch

/-- The candidate set of a dip: its lot's mask, or the commissioning mask for lot 0 (R166). -/
def Pku.candidates (k : Pku) (p : Params) (tag : Nat) : BitVec 5 :=
  if tag = 0 then p.mask else ((k.lotOf tag).map Lot.mask).getD p.mask

/-- The dross class (R167). -/
def drossClassOf (known : Option SteelClass) (dip : Option DipClass) (deflt : SteelClass) : SteelClass :=
  match known, dip with
  | some c, _ => c
  | none, some (.cls c) => c
  | none, _ => deflt

/-- The dross allowance (R168). -/
def drossOf (p : Params) (c : SteelClass) (pickup : Nat) : Nat := roundNat (pickup * (p.row c).dross) 1000

/-- The flags of the record: those of the context with those PKU sets (R160, R187). NO_DRY and NO_WET are the context's,
which a weigh step with no mass sets (R98, R104); a mass absent for want of a weigh step leaves them clear (log 46). -/
def recordFlags (c : DipCtx) (y : Yield) (estimated : Bool) : RecordFlags where
  negPickup := y.negPickup
  ratioSat := y.ratioSat
  noDry := c.quality.noDry
  noWet := c.quality.noWet
  unsettled := c.quality.unsettled
  overMark := c.quality.overMark
  weighLost := c.quality.weighLost
  drainTimeout := c.quality.drainTimeout
  drainAborted := c.quality.drainAborted
  progressive := c.progressive
  heatOver := c.heatOver
  estimated := estimated
  txDropped := c.txDropped
  smallDry := y.smallDry

/-- The record of a dip but for its number (R160, R187). -/
def recordOf (c : DipCtx) (o : DipOutcome) (p : Params) (y : Yield) (estimated : Bool) (dip : Option DipClass)
    (dross : SteelClass) : DipRecord where
  number := 0
  outcome := o
  slot := c.startSlot
  lot := c.lot
  dry := c.dry
  wet := c.wet
  pickup := y.pickup
  dross := drossOf p dross y.pickup
  consumption := y.pickup + drossOf p dross y.pickup
  ratio := y.ratio
  dipClass := dip
  drossClass := dross
  immersionTime := c.immersionTime
  immersions := c.immersions
  drainTime := c.drainTime
  flags := recordFlags c y estimated
  serial := c.serial

/-- The record on the measured path (R161 to R168). -/
def measuredRecord (p : Params) (k : Pku) (c : DipCtx) (o : DipOutcome) (dry wet : Int) : DipRecord :=
  let y := measuredYield dry wet c.flux
  let dip := match y.ratio with
    | some r =>
      if eligible c o y.ratio then some (classify p (k.candidates p c.lot) (immersionSeconds c.immersionTime) r)
      else none
    | none => none
  recordOf c o p y false dip (drossClassOf (k.knownClass c.lot) dip c.defaultClass)

/-- The record on the estimate path (R169). -/
def estimatedRecord (p : Params) (k : Pku) (c : DipCtx) (o : DipOutcome) : DipRecord :=
  let cls := drossClassOf (k.knownClass c.lot) none c.defaultClass
  let y : Yield :=
    { pickup := estimatedPickup p cls (immersionSeconds c.immersionTime) c.dry c.nominal, ratio := none,
      negPickup := false, ratioSat := false, smallDry := false }
  recordOf c o p y true none cls

/-- The record PKU makes from a context and its outcome: the measured path when both masses are present and the outcome
is COMPLETE or ABORTED, else the estimate path (R161). -/
def makeRecord (p : Params) (k : Pku) (c : DipCtx) (o : DipOutcome) : DipRecord :=
  match o, c.dry, c.wet with
  | .faulted, _, _ => estimatedRecord p k c o
  | _, some dry, some wet => measuredRecord p k c o dry wet
  | _, _, _ => estimatedRecord p k c o

/-! ### Classifier (R176) -/

/-- TENTATIVE(c, n), or LOCKED(c, 0) with CLASS_LOCKED once n has reached the lock count. -/
def tentativeOrLocked (lockCount : Nat) (c : SteelClass) (n : Nat) : Classifier × List Event :=
  if lockCount ≤ n then (.locked c 0, [.classLocked]) else (.tentative c n, [])

/-- The step of a lot's classifier at a classified dip (R176). -/
def stepClassifier (lockCount : Nat) (st : Classifier) (d : DipClass) : Classifier × List Event :=
  match st, d with
  | .search, .cls x => tentativeOrLocked lockCount x 1
  | .search, .noMatch => (.search, [])
  | .tentative c n, .cls x =>
    if x = c then tentativeOrLocked lockCount c (n + 1) else tentativeOrLocked lockCount x 1
  | .tentative c n, .noMatch => (.tentative c n, [])
  | .locked c n, .cls x =>
    if x = c then (.locked c 0, [])
    else if n = 0 then (.locked c 1, [])
    else ((tentativeOrLocked lockCount x 1).1, .classLost :: (tentativeOrLocked lockCount x 1).2)
  | .locked c n, .noMatch => if n = 0 then (.locked c 1, []) else (.search, [.classLost])
  | .fixed c, _ => (.fixed c, [])

/-- The step where the dip was classified; a dip that was not leaves the state (R176). -/
def stepIfClassified (lockCount : Nat) (st : Classifier) (d : Option DipClass) : Classifier × List Event :=
  match d with
  | some d => stepClassifier lockCount st d
  | none => (st, [])

/-- A lot after a record of its: the dip count rises, stopping at 65,535, and the classifier steps (R160, R176). -/
def Lot.afterRecord (l : Lot) (lockCount : Nat) (d : Option DipClass) : Lot :=
  { l with dips := satNat 65535 (l.dips + 1), classifier := (stepIfClassified lockCount l.classifier d).1 }

/-- The dip's lot after its record. -/
def Pku.afterRecord (k : Pku) (lockCount tag : Nat) (d : Option DipClass) : Pku :=
  if tag = 0 then k
  else { k with lots := k.lots.map (fun l => if l.tag = tag then l.afterRecord lockCount d else l) }

/-- The events of the dip's lot at its record. -/
def Pku.recordEvents (k : Pku) (lockCount tag : Nat) (d : Option DipClass) : List Event :=
  if tag = 0 then []
  else
    match k.lotOf tag with
    | some l => (stepIfClassified lockCount l.classifier d).2
    | none => []

/-- PKU makes the record of a context and hands it to ZBR, in the order of R160. -/
def State.recordDip (s : State) (c : DipCtx) (o : DipOutcome) : State :=
  let r := makeRecord s.cfg.params s.pku c o
  let lockCount := s.cfg.params.lockCount
  ((s.withPku (s.pku.afterRecord lockCount c.lot r.dipClass)).raiseAll
      (s.pku.recordEvents lockCount c.lot r.dipClass)).appendRecord r

/-- The record of the dip in progress is created where its immersion count is 1 or 2; a count of 0 leaves none
(R129). -/
def State.createRecord (s : State) (o : DipOutcome) : State :=
  match s.dsq.ctx with
  | some c => if c.immersions = 0 then s else s.recordDip c o
  | none => s

end Sys2Proof.Machine
end

