-- ==== Sys2Proof/Machine/Weigh.lean ====
section
/-! DEFINITION. WCH: the scaler, the validity monitor, blocks, the settle detector and the drip slicer (chapter Weigh
Channel). -/

namespace Sys2Proof.Machine

/-! ### Scaler (R143) -/

/-- Gross mass: (raw − zero) × gain ÷ 65,536, rounded. -/
def grossMass (p : Params) (raw : BitVec 24) : Int := roundInt ((raw.toInt - p.zero) * p.gain) 65536

/-- The net mass before clamping. -/
def netMass (p : Params) (raw : BitVec 24) : Int := grossMass p raw - p.tare

/-- The sample a valid raw count gives: the net mass clamped to −1,000 to 80,000, with the over mark when it was
moved. -/
def scale (p : Params) (raw : BitVec 24) : Sample :=
  let net := netMass p raw
  if net < -1000 then ⟨-1000, true⟩ else if 80000 < net then ⟨80000, true⟩ else ⟨net, false⟩

/-- A sample is valid: no error (bit 0), and a new conversion has finished (bit 1) (R142, R212). -/
def sampleValid (status : Byte) : Bool := !status.getLsbD 0 && status.getLsbD 1

/-! ### Blocks (R146, R147) -/

/-- Mean of values, rounded. -/
def meanOf (vs : List Int) : Int := roundInt vs.sum vs.length

/-- The block ten samples make. -/
def blockOf (xs : List Sample) (now : Nat) : Block :=
  ⟨meanOf (xs.map Sample.net), xs.any Sample.overMark, now⟩

/-- A block is appended; at 16 blocks the oldest is discarded. -/
def historyAppend (h : List Block) (b : Block) : List Block :=
  (if h.length < Config.historyPlaces then h else h.drop 1) ++ [b]

/-- The newest `k` blocks. -/
def newest (k : Nat) (h : List Block) : List Block := h.drop (h.length - k)

/-! ### Results handed to DSQ -/

/-- What WCH hands DSQ. -/
inductive WeighResult where
  | settled (mass : Int) (overMark : Bool)
  | unsettled (mass : Int) (overMark : Bool)
  | noMass
  | drainEnd (elapsed : Nat) (timedOut : Bool)
  deriving DecidableEq, Repr

/-- The reading of some blocks: their mean, and OVER when any carries the mark (R150, R151). -/
def reading (bs : List Block) : Int × Bool := (meanOf (bs.map Block.value), bs.any Block.overMark)

/-- Largest minus smallest value is within the band (R150). -/
def withinBand (band : Nat) (vs : List Int) : Bool :=
  vs.all (fun a => vs.all (fun b => decide (a - b ≤ band)))

/-! ### Settle detector (R149 to R151) -/

/-- The settle test at a block: `some` when the last S blocks lie within the band and the run count has reached S. -/
def settleTest (p : Params) (t : SettleTask) (h : List Block) : Option (Int × Bool) :=
  if p.settleBlocks ≤ t.runCount ∧ withinBand p.settleBand ((newest p.settleBlocks h).map Block.value) = true then
    some (reading (newest p.settleBlocks h))
  else none

/-- What the timeout of a settle wait gives (R151). -/
def settleTimeoutResult (p : Params) (t : SettleTask) (h : List Block) : WeighResult :=
  if t.stepCount = 0 then .noMass
  else
    let r := reading (newest (min p.settleBlocks t.stepCount) h)
    .unsettled r.1 r.2

/-- Starts a settle wait of `timeout` seconds (R149). -/
def Wch.startSettle (w : Wch) (now timeout : Nat) : Wch :=
  { w with task := .settle { timeoutEnd := now + timeout * 1000, stepCount := 0, runCount := 0 } }

/-! ### Drip slicer (R153 to R156) -/

/-- Starts a drain (R153): the freeze mark is set at once when the channel is LOST. -/
def Wch.startDrain (w : Wch) (now minimum maximum high low quiet : Nat) : Wch :=
  { w with task := .drain { start := now, minimum := minimum, maximum := maximum, high := high, low := low,
                            quiet := quiet, minPending := true },
           slicer := { Slicer.reset with frozen := w.lost } }

/-- The drip value at a block: the fall over five block intervals, 0 within the deadband; the history holds the block
last (R153). -/
def dripValue (deadband : Nat) (drip : Nat) (h : List Block) : Option Int :=
  if drip < 6 then none
  else
    match newest 6 h with
    | old :: rest =>
      match rest.getLast? with
      | some b => if (old.value - b.value).natAbs ≤ deadband then some 0 else some (old.value - b.value)
      | none => none
    | [] => none

/-- A drip value moves the slicer (R154). -/
def Slicer.move (sl : Slicer) (t : DrainTask) (d : Int) : Slicer :=
  if sl.isQuiet then
    if (t.high : Int) ≤ d then { sl with isQuiet := false, quietRun := 0 } else sl
  else if d ≤ t.low then
    { sl with quietRun := sl.quietRun + 1, isQuiet := decide (t.quiet ≤ sl.quietRun + 1) }
  else { sl with quietRun := 0 }

/-- A block is appended during a drain: the drip index rises, and a drip value, if there is one, moves the slicer. -/
def Slicer.block (sl : Slicer) (deadband : Nat) (t : DrainTask) (h : List Block) : Slicer :=
  let sl1 := { sl with drip := sl.drip + 1 }
  match dripValue deadband sl1.drip h with
  | some d => { sl1.move t d with lastDrip := some d }
  | none => sl1

/-- The conditions of a quiet end (R155). -/
def drainQuiet (w : Wch) (t : DrainTask) (now : Nat) : Bool :=
  !w.lost && w.slicer.isQuiet && decide (t.start + t.minimum * 1000 ≤ now) && decide (1 ≤ w.slicer.drip)

/-- The drain ends quiet if the conditions hold. -/
def Wch.drainTest (w : Wch) (t : DrainTask) (now : Nat) : Wch × Option WeighResult :=
  if drainQuiet w t now then ({ w with task := .none }, some (.drainEnd (now - t.start) false)) else (w, none)

/-! ### A sample (R142 to R155) -/

/-- A block is complete: appended, and taken by the running task. -/
def Wch.block (w : Wch) (p : Params) (now : Nat) (b : Block) : Wch × Option WeighResult :=
  let w1 := { w with forming := [], history := historyAppend w.history b }
  match w.task with
  | .none => (w1, none)
  | .settle t =>
    let t1 := { t with stepCount := satNat 255 (t.stepCount + 1), runCount := satNat 255 (t.runCount + 1) }
    match settleTest p t1 w1.history with
    | some r => ({ w1 with task := .none }, some (.settled r.1 r.2))
    | none => ({ w1 with task := .settle t1 }, none)
  | .drain t => { w1 with slicer := w1.slicer.block p.deadband t w1.history }.drainTest t now

/-- The task after the channel's return to ACTIVE: the run count restarts (R149). -/
def WchTask.returned (t : WchTask) : WchTask :=
  match t with
  | .settle t => .settle { t with runCount := 0 }
  | t => t

/-- The slicer after the channel's return: the freeze mark clears and the drip index restarts, while a drain runs
(R154). -/
def Wch.slicerReturned (w : Wch) : Slicer :=
  match w.task with
  | .drain _ => { w.slicer with frozen := false, drip := 0, lastDrip := none }
  | _ => w.slicer

/-- The slicer after the channel's loss: frozen, while a drain runs (R154). -/
def Wch.slicerLost (w : Wch) : Slicer :=
  match w.task with
  | .drain _ => { w.slicer with frozen := true }
  | _ => w.slicer

/-- What a sample brings about outside WCH. -/
structure SampleEffect where
  wch : Wch
  event : Option Event
  result : Option WeighResult

/-- The channel becomes LOST: the block being formed is discarded and the slicer freezes (R144, R145, R146). -/
def Wch.becomeLost (w : Wch) : Wch :=
  { w with lost := true, invalidRun := 0, validRun := 0, forming := [], slicer := w.slicerLost }

/-- The channel becomes ACTIVE: collection starts with the next valid sample (R144, R145, R146). -/
def Wch.becomeActive (w : Wch) : Wch :=
  { w with lost := false, invalidRun := 0, validRun := 0, forming := [], task := w.task.returned,
           slicer := w.slicerReturned }

/-- An invalid sample (R144, R146). -/
def Wch.invalid (w : Wch) (raw : BitVec 24) : SampleEffect :=
  let w1 := { w with transfer := false, lastSample := some ⟨raw, false⟩ }
  if w.lost then ⟨{ w1 with validRun := 0 }, none, none⟩
  else if w.invalidRun + 1 < 3 then ⟨{ w1 with invalidRun := w.invalidRun + 1 }, none, none⟩
  else ⟨w1.becomeLost, some .weighLost, none⟩

/-- A valid sample (R143, R144, R146). -/
def Wch.valid (w : Wch) (p : Params) (now : Nat) (raw : BitVec 24) : SampleEffect :=
  let x := scale p raw
  let w1 := { w with transfer := false, lastSample := some ⟨raw, true⟩, lastValid := some x }
  if w.lost then
    if w.validRun + 1 < 10 then ⟨{ w1 with validRun := w.validRun + 1 }, none, none⟩
    else ⟨w1.becomeActive, some .weighBack, none⟩
  else
    let w2 := { w1 with invalidRun := 0, forming := w1.forming ++ [x] }
    if w2.forming.length < 10 then ⟨w2, none, none⟩
    else ⟨(w2.block p now (blockOf w2.forming now)).1, none, (w2.block p now (blockOf w2.forming now)).2⟩

/-- DSQ ends the running task: the elapsed time of a drain is handed over (R152, R157). -/
def Wch.endTask (w : Wch) (now : Nat) : Wch × Option Nat :=
  match w.task with
  | .none => (w, none)
  | .settle _ => ({ w with task := .none }, none)
  | .drain t => ({ w with task := .none }, some (now - t.start))

end Sys2Proof.Machine
end

