-- ==== Sys2Proof/Machine/Sequencer.lean ====
section
/-! DEFINITION. DSQ: taking steps, the notices of the other blocks, the end of a dip, aborts and halts (chapter Dip
Sequencer). -/

namespace Sys2Proof.Machine

/-! ### The dip context and the timers -/

def State.toDsq (s : State) (d : DsqState) : State := s.withDsq { s.dsq with state := d }

def State.modCtx (s : State) (f : DipCtx → DipCtx) : State := s.withDsq { s.dsq with ctx := s.dsq.ctx.map f }

def State.setPosition (s : State) (p : Position) : State := s.withDsq { s.dsq with position := p }

/-- The immersion time grows by an interval in ms, rounded to 0.1 s, stopping at 65,535 (R110). -/
def DipCtx.addImmersion (c : DipCtx) (ms : Nat) : DipCtx :=
  { c with immersionTime := satNat 65535 (c.immersionTime + roundNat ms 100) }

/-- The drain time grows by some tenths of a second, stopping at 65,535 (R113). -/
def DipCtx.addDrain (c : DipCtx) (tenths : Nat) : DipCtx :=
  { c with drainTime := satNat 65535 (c.drainTime + tenths) }

/-- The immersion timer starts, unless it runs (R110, R123). -/
def State.startImmersion (s : State) : State :=
  s.withDsq { s.dsq with immersionSince := some (s.dsq.immersionSince.getD s.now) }

/-- The immersion timer stops if it runs, its interval added to the immersion time (R110). -/
def State.stopImmersion (s : State) : State :=
  match s.dsq.immersionSince with
  | some t => (s.modCtx (fun c => c.addImmersion (s.now - t))).withDsq
      { (s.modCtx (fun c => c.addImmersion (s.now - t))).dsq with immersionSince := none }
  | none => s

/-- A LOWER counts as an immersion; the second makes the dip progressive (R109, R123). -/
def DipCtx.countImmersion (c : DipCtx) : DipCtx :=
  { c with immersions := c.immersions + 1, progressive := c.progressive || decide (2 ≤ c.immersions + 1) }

/-- DSQ ends the task at WCH without taking a result; the elapsed time of a drain goes to the drain time (R122, R123,
R125, R152, R157). -/
def State.endWeighTask (s : State) : State :=
  match s.wch.endTask s.now with
  | (w, some ms) => (s.withWch w).modCtx (fun c => c.addDrain (roundNat ms 100))
  | (w, none) => s.withWch w

/-- The dwell timer stops. -/
def State.stopDwell (s : State) : State := s.withDsq { s.dsq with dwellEnd := none }

/-- DSQ returns to IDLE: the context is discarded, the load position is CLEAR, the halt cause is cleared, the dip's span
request time and BLOCKED_LONG mark are cleared in SCU, and no lot is in use (R42, R99, R120, R127, R171). -/
def State.returnIdle (s : State) : State :=
  ((s.withDsq Dsq.reset).withScu { s.scu with requestTime := none, blockedLongMark := false }).withPku s.pku.clearUse

/-! ### HALTED (R125) -/

/-- The load position on entry to HALTED (R125). -/
def haltPosition (p : Position) (f : DipFault) : Position :=
  match p, f with
  | .below, _ => .unknown
  | .above, .motion _ _ _ => .unknown
  | .above, .program _ => .above
  | .clear, .motion _ .lower false => .unknown
  | .clear, _ => .clear
  | .unknown, _ => .unknown

/-- The event of a fault. -/
def DipFault.event (f : DipFault) : Event :=
  match f with
  | .motion _ _ _ => .motionFault
  | .program _ => .programFault

/-- An open claim, or a claim request that SCU holds, is cancelled; a held span is kept (R125). -/
def State.cancelUnheld (s : State) : State :=
  if s.scu.state.isOpen = true ∨ s.scu.held.isSome = true then s.cancelClaim else s

/-- DSQ enters HALTED (R125). -/
def State.haltDip (s : State) (f : DipFault) : State :=
  let s1 := s.withDsq { s.dsq with cause := s.dsq.ctx.map (fun c => ⟨f, c.slot, c.index⟩) }
  let s2 := s1.stopImmersion.stopDwell
  let s3 := (s2.withDsq { s2.dsq with drainEnd := none }).endWeighTask
  let s4 := s3.withdrawHeat.cancelUnheld
  let s5 := (s4.setPosition (haltPosition s.dsq.position f)).toDsq .halted
  (s5.raise f.event).raise .haltedEv

/-! ### Taking steps (R103 to R118) -/

/-- The record of the current step (R93). -/
def State.currentStep (s : State) : Option DipStep :=
  s.dsq.ctx.bind (fun c => (s.pgs.slots[c.slot]?).join.bind (fun p => p.steps[c.index]?))

/-- How a step stands after it has been taken. -/
inductive StepEnd where
  /-- DSQ waits for the work it began, or the dip has ended or halted. -/
  | waits
  /-- The step has ended when taken. -/
  | ends
  /-- A CHAIN has set the current slot and the step index. -/
  | jumps
  deriving DecidableEq, Repr

/-- DSQ takes an admission (R75, R108): the LOWER is issued if the span is still firm and clear. -/
def State.takeGrant (s : State) (p : LowerArgs) (overBudget : Bool) : State :=
  let s1 := if overBudget then s.modCtx (fun c => { c with heatOver := true }) else s
  if s1.firmAndClear then (s1.sendMotion (.lower p.depth p.speed)).toDsq .lowering else s1.toDsq (.awaitLower p)

/-- DSQ asks for heat admission for a LOWER (R73, R108). A refusal as already waiting (R74) changes nothing: what DSQ
does with it no rule says, and DSQ asks for no second admission while one waits (log 40). -/
def State.askHeat (s : State) (p : LowerArgs) : State :=
  match s.dsq.ctx with
  | none => s
  | some c =>
    match s.requestHeat (enteringMass c.dry c.nominal p.fraction) (if c.immersions = 0 then 1 else 2) with
    | (t, .granted) => t.takeGrant p false
    | (t, .grantedOver) => t.takeGrant p true
    | (t, .wait) => t.toDsq (.heatWait p)
    | (t, .alreadyWaiting) => t

/-- A LOWER reads SCU: admission is asked for where the span is firm and clear, else it waits in AWAIT_SPAN (R107). -/
def State.tryLower (s : State) (p : LowerArgs) : State :=
  if s.firmAndClear then s.askHeat p else s.toDsq (.awaitLower p)

/-- The run-time check of a LOWER (R114). -/
def State.lowerCheck (s : State) : Option ProgramReason :=
  if s.dsq.position = .below then some .loadBelow
  else if (s.dsq.ctx.map DipCtx.immersions).getD 0 ≥ 2 then some .immersionLimit
  else if s.scu.state = .none ∨ s.scu.state = .releasing then some .noSpan
  else none

/-- The dwell time of a DWELL step in seconds, capped by the class of the lot in use (R111, R177). -/
def State.dwellTime (s : State) (duration : Nat) : Nat :=
  match s.pku.knownClass ((s.dsq.ctx.map DipCtx.lot).getD 0) with
  | some c => min duration (s.cfg.params.row c).cap
  | none => duration

/-- The END step (R118). -/
def State.takeEnd (s : State) : State :=
  let s1 := s.stopImmersion
  let s2 := if s1.scu.state.isOpen then s1.cancelClaim else s1
  if s2.scu.state.isHeld then ((s2.createRecord .complete).toDsq .parked).raise .parkedEv
  else (s2.createRecord .complete).returnIdle.raise .dipDone

/-- The RELEASE step once its check has passed (R115). -/
def State.takeRelease (s : State) : State × StepEnd :=
  if s.scu.state.isHeld then (s.releaseSpan.toDsq .awaitRelease, .waits)
  else if s.scu.state.isOpen then
    if s.cancelClaim.scu.state = .none then (s.cancelClaim, .ends) else (s.cancelClaim.toDsq .awaitRelease, .waits)
  else (s.setPosition .clear, .ends)

/-- The CHAIN step: a failure's reason, or the program found (R94). -/
def State.chainCheck (s : State) (target : Nat) : Option ProgramReason :=
  if (s.dsq.ctx.map DipCtx.depth).getD 0 ≥ Config.chainLimit then some .chainLimit
  else
    match (s.pgs.slots[target]?).join with
    | none => some .chainEmpty
    | some p => if s.scu.state ≠ .none ∧ p.continuation = false then some .chainHeld else none

/-- The CLAIM step (R106, log 39). -/
def State.takeClaim (s : State) (length : Nat) (whole : Bool) : State :=
  match s.requestSpan length whole with
  | (t, .spanOutside) => t.haltDip (.program .spanOutside)
  | (t, .alreadyClaiming) => t.haltDip (.program .claimHeld)
  | (t, .taken) => (t.modCtx (fun c => { c with progressive := c.progressive || whole })).toDsq .awaitClaim

/-- DSQ takes a step: its run-time checks, then its work (R103). -/
def State.takeStep (s : State) (st : DipStep) : State × StepEnd :=
  match st with
  | .weighDry t => ((s.withWch (s.wch.startSettle s.now t)).toDsq .weighingDry, .waits)
  | .travel c =>
    if s.dsq.position = .below then (s.haltDip (.program .loadBelow), .waits)
    else ((s.sendMotion (.move c)).toDsq .traveling, .waits)
  | .claim l w => (s.takeClaim l w, .waits)
  | .lower d v f =>
    match s.lowerCheck with
    | some r => (s.haltDip (.program r), .waits)
    | none => (s.tryLower ⟨d, v, f⟩, .waits)
  | .dwell d =>
    (s.withDsq { s.dsq with state := .dwelling, dwellEnd := some (s.now + s.dwellTime d * 1000) }, .waits)
  | .raise v => ((s.stopImmersion.sendMotion (.raise v)).toDsq .raising, .waits)
  | .drain mn mx h l q => ((s.withWch (s.wch.startDrain s.now mn mx h l q)).toDsq .draining, .waits)
  | .vibrate n => ((s.sendMotion (.vibrate n)).toDsq .vibrating, .waits)
  | .weighOut t => ((s.withWch (s.wch.startSettle s.now t)).toDsq .weighingOut, .waits)
  | .release =>
    if s.dsq.position = .below then (s.haltDip (.program .loadBelow), .waits) else s.takeRelease
  | .finish => (s.takeEnd, .waits)
  | .chain t =>
    match s.chainCheck t with
    | some r => (s.haltDip (.program r), .waits)
    | none => (s.modCtx (fun c => { c with slot := t, index := 0, depth := c.depth + 1 }), .jumps)

/-- The step index advances by one (R103). -/
def State.advance (s : State) : State := s.modCtx (fun c => { c with index := c.index + 1 })

/-- DSQ takes the current step and, while steps end when taken, the steps after it. A dip runs at most five programs of
sixteen steps, so `stepFuel` takings are never used up (log 27). -/
def State.runSteps (fuel : Nat) (s : State) : State :=
  match fuel with
  | 0 => s
  | n + 1 =>
    match s.currentStep with
    | none => s
    | some st =>
      match s.takeStep st with
      | (t, .waits) => t
      | (t, .ends) => State.runSteps n t.advance
      | (t, .jumps) => State.runSteps n t

/-- Takings enough for every step of the five programs a dip can run (R94). -/
def stepFuel : Nat := 96

/-- The current step ends and the next is taken (R103). -/
def State.endStep (s : State) : State := s.advance.runSteps stepFuel

/-- A dip starts: context, serial, lot in use, WEIGH_LOST if the channel is LOST, and step 0 (R102, R191). -/
def newContext (slot tag nominal : Nat) (p : Program) (lost : Bool) (serial : BitVec 32) : DipCtx where
  startSlot := slot
  slot := slot
  index := 0
  depth := 0
  lot := tag
  nominal := nominal
  defaultClass := p.defaultClass
  flux := p.flux
  dry := none
  wet := none
  immersions := 0
  immersionTime := 0
  drainTime := 0
  quality := ⟨false, false, lost, false, false, false, false⟩
  progressive := false
  heatOver := false
  txDropped := false
  abortMark := false
  serial := serial

def State.startDip (s : State) (slot tag nominal : Nat) (p : Program) : State :=
  let s1 := s.withZbr { s.zbr with serial := s.zbr.serial + 1 }
  let s2 := s1.withScu { s1.scu with requestTime := none, blockedLongMark := false }
  let s3 := s2.withPku (s2.pku.useLot tag s.cfg.params.mask)
  let s4 := s3.withDsq { s3.dsq with ctx := some (newContext slot tag nominal p s.wch.lost (s.zbr.serial + 1)) }
  s4.runSteps stepFuel

/-! ### Notices from SCU (R65, R115, R116, R119, R126) -/

/-- The end of an abort at release: a record if the load was immersed, and IDLE with no event (R124). -/
def State.endAbortAtRelease (s : State) : State := (s.createRecord .aborted).returnIdle

/-- The abort mark of the dip in progress. -/
def State.abortMarked (s : State) : Bool := (s.dsq.ctx.map DipCtx.abortMark).getD false

/-- DSQ takes a notice of SCU. -/
def State.onNotice (s : State) (n : SpanNotice) : State :=
  match n with
  | .firm =>
    match s.dsq.state with
    | .awaitClaim => s.endStep
    | .awaitLower p => s.tryLower p
    | _ => s
  | .lost =>
    match s.dsq.state with
    | .heatWait p => s.withdrawHeat.toDsq (.awaitLower p)
    | .parked => s.cancelClaim
    | .halted => s.cancelClaim
    | _ => s
  | .gone =>
    match s.dsq.state with
    | .awaitRelease =>
      if s.abortMarked then (s.setPosition .clear).endAbortAtRelease else (s.setPosition .clear).endStep
    | _ => s.setPosition .clear
  | .ended =>
    match s.dsq.state with
    | .awaitRelease => s.endStep
    | _ => s
  | .clearChanged isOver =>
    match s.dsq.state with
    | .awaitLower p => s.tryLower p
    | .heatWait p => if isOver then s.withdrawHeat.toDsq (.awaitLower p) else s
    | _ => s

/-- DSQ takes the notices of one taking in order. -/
def State.onNotices (s : State) (ns : List SpanNotice) : State := ns.foldl State.onNotice s

/-- A taking of SCU, with its notices taken by DSQ. -/
def notify (r : State × List SpanNotice) : State := r.1.onNotices r.2

/-! ### Aborts (R121 to R124) -/

/-- To complete a quick abort: a record if the load was immersed before, and IDLE with no event (R122). -/
def State.completeQuick (s : State) : State := (s.createRecord .aborted).returnIdle

/-- The weigh-out of the abort path: a settle wait of 30 s (R123). -/
def State.abortWeigh (s : State) : State := (s.withWch (s.wch.startSettle s.now 30)).toDsq (.aborting .weighing)

/-- The abort drain begins; a time of 0 passes through at once (R123). -/
def State.startAbortDrain (s : State) : State :=
  if s.cfg.params.abortDrain = 0 then s.abortWeigh
  else
    s.withDsq { s.dsq with state := .aborting .draining, drainEnd := some (s.now + s.cfg.params.abortDrain * 1000) }

/-- The abort path goes on once nothing is in flight: a load BELOW is raised at speed class 1, else the abort drain
begins (R123). -/
def State.continueAbort (s : State) : State :=
  if s.dsq.position = .below then (s.stopImmersion.sendMotion (.raise 1)).toDsq (.aborting .raising)
  else s.startAbortDrain

/-- DSQ takes the STOP acceptance (R122, R123, R137). -/
def State.stopAccepted (s : State) : State :=
  match s.dsq.state with
  | .aborting .quickStop => s.completeQuick
  | .aborting (.pathStop ofLower) => (if ofLower then s.startImmersion else s).continueAbort
  | _ => s

/-- DSQ hands MPT a STOP and waits for its acceptance, which comes at once where no request is outstanding (R137). -/
def State.stopMotion (s : State) (p : AbortPhase) : State :=
  let t := (s.withMpt s.mpt.stop).toDsq (.aborting p)
  if s.mpt.phase = .idle then t.stopAccepted else t

/-- The span is given back: an open claim or a held claim request is cancelled, a held span released (R122, log 15). -/
def State.giveBack (s : State) : State := s.cancelUnheld.releaseSpan

/-- A quick abort (R122). -/
def State.quickAbort (s : State) : State :=
  let t := s.withdrawHeat.endWeighTask.stopDwell.giveBack
  match t.mpt.phase.outstanding with
  | some _ => t.stopMotion .quickStop
  | none => t.completeQuick

/-- The abort path begins by ending the work in flight (R123). -/
def State.abortPath (s : State) : State :=
  match s.dsq.state with
  | .lowering =>
    let t := if s.mpt.lowerUnaccepted then s.modCtx DipCtx.countImmersion else s
    (t.setPosition .below).stopMotion (.pathStop true)
  | .dwelling => s.stopDwell.continueAbort
  | .raising => s.toDsq (.aborting .raising)
  | .draining =>
    (s.endWeighTask.modCtx (fun c => { c with quality := { c.quality with drainAborted := true } })).continueAbort
  | .vibrating => s.stopMotion (.pathStop false)
  | .traveling => s.stopMotion (.pathStop false)
  | .weighingDry => s.endWeighTask.continueAbort
  | .weighingOut => s.endWeighTask.continueAbort
  | _ => s.withdrawHeat.continueAbort

/-! ### Notices from MPT (R140) -/

/-- An acceptance: a LOWER sets the position BELOW and counts the immersion (R109). -/
def State.motionAccepted (s : State) (k : MotionKind) : State :=
  match k with
  | .lower => (s.setPosition .below).modCtx DipCtx.countImmersion
  | _ => s

/-- A completed RAISE makes BELOW into ABOVE (R99, R112). -/
def State.raised (s : State) : State := if s.dsq.position = .below then s.setPosition .above else s

/-- A completion ends the step that waits for it, or carries the abort path on. -/
def State.motionCompleted (s : State) : State :=
  match s.dsq.state with
  | .traveling => s.endStep
  | .lowering => s.startImmersion.endStep
  | .raising => s.raised.endStep
  | .vibrating => s.endStep
  | .aborting .raising => s.raised.startAbortDrain
  | _ => s

/-- MPT reports a motion fault: MPT is IDLE, MOTION_FAULT is raised, and DSQ enters HALTED (R140). -/
def State.motionFaulted (s : State) (r : MotionReason) (k : MotionKind) (running : Bool) : State :=
  (s.withMpt s.mpt.ended).haltDip (.motion r k running)

/-! ### Notices from WCH (R104, R105, R113) -/

/-- A weigh result on M_dry and NO_DRY (R104). -/
def DipCtx.takeDry (c : DipCtx) (r : WeighResult) : DipCtx :=
  match r with
  | .settled m o => { c with dry := some m, quality := { c.quality with noDry := false, overMark := c.quality.overMark || o } }
  | .unsettled m o =>
    { c with dry := some m, quality := { c.quality with noDry := false, unsettled := true,
                                                        overMark := c.quality.overMark || o } }
  | .noMass => { c with dry := none, quality := { c.quality with noDry := true } }
  | .drainEnd _ _ => c

/-- A weigh result on M_wet and NO_WET (R104). -/
def DipCtx.takeWet (c : DipCtx) (r : WeighResult) : DipCtx :=
  match r with
  | .settled m o => { c with wet := some m, quality := { c.quality with noWet := false, overMark := c.quality.overMark || o } }
  | .unsettled m o =>
    { c with wet := some m, quality := { c.quality with noWet := false, unsettled := true,
                                                        overMark := c.quality.overMark || o } }
  | .noMass => { c with wet := none, quality := { c.quality with noWet := true } }
  | .drainEnd _ _ => c

/-- A drain end on the drain time and DRAIN_TIMEOUT (R113). -/
def DipCtx.takeDrain (c : DipCtx) (r : WeighResult) : DipCtx :=
  match r with
  | .drainEnd ms timedOut =>
    { c.addDrain (roundNat ms 100) with
      quality := { c.quality with drainTimeout := c.quality.drainTimeout || timedOut } }
  | _ => c

/-- DSQ takes a result of WCH (R104, R113, R123). -/
def State.onWeighResult (s : State) (r : WeighResult) : State :=
  match s.dsq.state with
  | .weighingDry => (s.modCtx (fun c => c.takeDry r)).endStep
  | .weighingOut => (s.modCtx (fun c => c.takeWet r)).endStep
  | .draining => (s.modCtx (fun c => c.takeDrain r)).endStep
  | .aborting .weighing =>
    (((s.modCtx (fun c => c.takeWet r)).createRecord .aborted).toDsq .parked).raise .parkedEv
  | _ => s

/-- The channel has become LOST: WEIGH_LOST in the context, but not in PARKED (R105, R119), nor in a PARKED that an END
with no immersion has entered, from whose context no record is made at all (log 16). -/
def State.noteWeighLost (s : State) : State :=
  if s.dsq.state = .parked then s
  else s.modCtx (fun c => { c with quality := { c.quality with weighLost := true } })

end Sys2Proof.Machine
end

