-- ==== Sys2Proof/Machine/Params.lean ====
section
/-! DEFINITION. The commissioning store of SPT by parameter number: kinds and ranges, reading, writing, and the checks of
SEAL (section 11.3). -/

namespace Sys2Proof.Machine

/-- Kind and range of a parameter (R198). -/
inductive ParamKind where
  | identity
  | classSet
  | quantity (lo hi : Int)
  deriving DecidableEq, Repr

/-- The class a number stands for in a run of five that begins at `base` (R198). -/
def classAt (base n : Nat) : Option (Fin 5) := if h : base ≤ n ∧ n < base + 5 then some ⟨n - base, by omega⟩ else none

/-- The four runs of class parameters: base, slope, dross factor, dwell cap (R198). -/
inductive ClassField where
  | base | slope | dross | cap
  deriving DecidableEq, Repr

/-- The first number of a run. -/
def ClassField.first (f : ClassField) : Nat :=
  match f with
  | .base => 32
  | .slope => 40
  | .dross => 48
  | .cap => 56

/-- The range of a class field. -/
def ClassField.kind (f : ClassField) : ParamKind :=
  match f with
  | .base => .quantity 0 999
  | .slope => .quantity 0 255
  | .dross => .quantity 0 170
  | .cap => .quantity 1 1800

def ClassField.get (f : ClassField) (r : ClassRow) : Nat :=
  match f with
  | .base => r.base
  | .slope => r.slope
  | .dross => r.dross
  | .cap => r.cap

def ClassField.put (f : ClassField) (r : ClassRow) (v : Nat) : ClassRow :=
  match f with
  | .base => { r with base := v }
  | .slope => { r with slope := v }
  | .dross => { r with dross := v }
  | .cap => { r with cap := v }

/-- The class field and the class a number names, if it names one. -/
def classParam (n : Nat) : Option (ClassField × Fin 5) :=
  match classAt 32 n, classAt 40 n, classAt 48 n, classAt 56 n with
  | some i, _, _, _ => some (.base, i)
  | none, some i, _, _ => some (.slope, i)
  | none, none, some i, _ => some (.dross, i)
  | none, none, none, some i => some (.cap, i)
  | none, none, none, none => none

/-- Kind and range of a parameter number; `none` names no parameter (R198). -/
def paramKind (n : Nat) : Option ParamKind :=
  match n with
  | 1 => some .identity
  | 2 => some (.quantity 16 96)
  | 3 => some (.quantity 0 4)
  | 4 => some (.quantity 200 2000)
  | 5 => some (.quantity 150 1000)
  | 6 => some (.quantity 50 500)
  | 7 => some (.quantity 10 3600)
  | 8 => some (.quantity 30 600)
  | 9 => some (.quantity 500 60000)
  | 10 => some (.quantity 10 600)
  | 11 => some (.quantity 5 300)
  | 12 => some (.quantity 0 300)
  | 13 => some (.quantity (-8388608) 8388607)
  | 14 => some (.quantity 1 65535)
  | 15 => some (.quantity 0 20000)
  | 16 => some (.quantity 3 10)
  | 17 => some (.quantity 1 100)
  | 18 => some (.quantity 0 20)
  | 19 => some (.quantity 0 200)
  | 20 => some (.quantity 1 10)
  | 21 => some .classSet
  | 22 => some (.quantity 1000000 10000000)
  | 23 => some (.quantity 0 10000000)
  | 24 => some (.quantity 0 10000000)
  | n => (classParam n).map (fun x => x.1.kind)

/-- The value a parameter holds; `none` while it is unset (R198). A number that names no parameter holds none. -/
def Params.get (p : Params) (n : Nat) : Option Int :=
  match n with
  | 1 => p.stationId.map (fun i => (i.toNat : Int))
  | 2 => p.cells.map (fun c => (c : Int))
  | 3 => some p.margin
  | 4 => some p.beaconPeriod
  | 5 => some p.claimWindow
  | 6 => some p.guardTime
  | 7 => some p.blockedLimit
  | 8 => some p.window
  | 9 => some p.budget
  | 10 => some p.moveTimeout
  | 11 => some p.verticalTimeout
  | 12 => some p.abortDrain
  | 13 => some p.zero
  | 14 => some p.gain
  | 15 => some p.tare
  | 16 => some p.settleBlocks
  | 17 => some p.settleBand
  | 18 => some p.deadband
  | 19 => some p.acceptBand
  | 20 => some p.lockCount
  | 21 => some p.mask.toNat
  | 22 => some p.zMax
  | 23 => some p.zLow
  | 24 => some p.zStop
  | n => (classParam n).map (fun x => (x.1.get p.classes[x.2] : Int))

/-- The set with a parameter at a value within its range (R199). -/
def Params.put (p : Params) (n : Nat) (v : Int) : Params :=
  match n with
  | 1 => { p with stationId := some (BitVec.ofNat 4 v.toNat) }
  | 2 => { p with cells := some v.toNat }
  | 3 => { p with margin := v.toNat }
  | 4 => { p with beaconPeriod := v.toNat }
  | 5 => { p with claimWindow := v.toNat }
  | 6 => { p with guardTime := v.toNat }
  | 7 => { p with blockedLimit := v.toNat }
  | 8 => { p with window := v.toNat }
  | 9 => { p with budget := v.toNat }
  | 10 => { p with moveTimeout := v.toNat }
  | 11 => { p with verticalTimeout := v.toNat }
  | 12 => { p with abortDrain := v.toNat }
  | 13 => { p with zero := v }
  | 14 => { p with gain := v.toNat }
  | 15 => { p with tare := v.toNat }
  | 16 => { p with settleBlocks := v.toNat }
  | 17 => { p with settleBand := v.toNat }
  | 18 => { p with deadband := v.toNat }
  | 19 => { p with acceptBand := v.toNat }
  | 20 => { p with lockCount := v.toNat }
  | 21 => { p with mask := BitVec.ofNat 5 v.toNat }
  | 22 => { p with zMax := v.toNat }
  | 23 => { p with zLow := v.toNat }
  | 24 => { p with zStop := v.toNat }
  | n =>
    match classParam n with
    | some (f, i) => { p with classes := p.classes.set i (f.put p.classes[i] v.toNat) }
    | none => p

/-- SET_PARAM's treatment of a value: the value the parameter takes with the mark that it was clamped, or `none` for
BAD_ARG (R199). -/
def ParamKind.accept (k : ParamKind) (v : Int) : Option (Int × Bool) :=
  match k with
  | .identity => if 0 ≤ v ∧ v ≤ 15 then some (v, false) else none
  | .classSet => if 1 ≤ v ∧ v ≤ 31 then some (v, false) else none
  | .quantity lo hi => if v < lo then some (lo, true) else if hi < v then some (hi, true) else some (v, false)

/-- The weigh scale: what a SET_PARAM must change to empty the history (R148). -/
def Params.scale (p : Params) : Int × Nat × Nat := (p.zero, p.gain, p.tare)

/-- The set takes a new value of its own; a change of the scale empties the block history and the block being formed
(R148, R199). -/
def State.takeParams (s : State) (p : Params) : State :=
  let t := s.withCfg { s.cfg with params := p }
  if p.scale = s.cfg.params.scale then t else t.withWch { s.wch with history := [], forming := [] }

/-- The number of the first parameter that fails a check of SEAL (R201). -/
def Params.sealFailure (p : Params) : Option Nat :=
  match p.stationId, p.cells with
  | none, _ => some 1
  | some _, none => some 2
  | some _, some n =>
    if n ≤ 4 * p.margin then some 3
    else if p.zMax ≤ p.zLow then some 23
    else if p.zLow ≤ p.zStop then some 24
    else none

end Sys2Proof.Machine
end

