-- ==== Sys2Proof/Machine/Presence.lean ====
section
/-! DEFINITION. PTB: the record of a heard peer, its silence and its removal (chapter Peer Presence). -/

namespace Sys2Proof.Machine

/-- A new record: PRESENT, expected pickup sequence absent (R27). -/
def Peer.fresh (id : StationId) (now limit : Nat) (seq : Byte) (cond : Option Condition) : Peer where
  id := id
  presence := .present
  lastArrival := now
  condition := cond.getD .unknown
  lastSeq := seq
  expected := none
  silenceEnd := some (now + limit)

/-- A record after a good frame of its peer (R28, R31). A frame that is no BEACON leaves the condition as it was. -/
def Peer.heard (p : Peer) (now limit : Nat) (seq : Byte) (cond : Option Condition) : Peer :=
  { p with presence := .present, lastArrival := now, condition := cond.getD p.condition, lastSeq := seq,
           silenceEnd := some (now + limit) }

/-- A record whose silence timer has expired: SILENT, the other fields kept (R30). -/
def Peer.fallSilent (p : Peer) : Peer := { p with presence := .silent, silenceEnd := none }

/-- Puts a record in ascending peer ID, in place of any the peer had (R26). -/
def putPeer (p : Peer) (ps : List Peer) : List Peer :=
  match ps with
  | [] => [p]
  | q :: rest =>
    if p.id.toNat < q.id.toNat then p :: q :: rest
    else if p.id = q.id then p :: rest
    else q :: putPeer p rest

def State.putPeer (s : State) (p : Peer) : State := s.withPtb { s.ptb with peers := Machine.putPeer p s.ptb.peers }

/-- PTB takes a good peer frame before it is delivered (R27 to R29, R31). -/
def State.hearPeer (s : State) (src : StationId) (seq : Byte) (cond : Option Condition) : State :=
  match s.ptb.recordOf src with
  | none => s.putPeer (Peer.fresh src s.now s.silenceLimit seq cond)
  | some p =>
    match p.presence with
    | .present => s.putPeer (p.heard s.now s.silenceLimit seq cond)
    | .silent => (s.putPeer (p.heard s.now s.silenceLimit seq cond)).raise .peerBack

/-- A silence timer expires: SILENT, PEER_SILENT, and the silence notice to SCU (R30). -/
def State.losePeer (s : State) (p : Peer) : State := ((s.putPeer p.fallSilent).raise .peerSilent).scuSilence p.id

/-- The record of a peer is removed, and the removal notice is handed to SCU (R34). -/
def State.dropPeer (s : State) (id : StationId) : State :=
  notify ((s.withPtb { s.ptb with peers := s.ptb.peers.filter (fun r => r.id != id) }).entryLeaves id)

end Sys2Proof.Machine
end

