-- ==== Sys2Proof/Machine/Programs.lean ====
section
/-! DEFINITION. PGS: the validator and the current-slot test of LOAD_PROGRAM (sections 5.2 and 5.3). -/

namespace Sys2Proof.Machine

/-- Check codes, numbered in the order of the table of R91 (R211). -/
inductive CheckCode where
  | slot | count | cls | flux | kind | range | drainOrder | order | noHold | noClaim
  deriving DecidableEq, Repr

def CheckCode.code (c : CheckCode) : Nat :=
  match c with
  | .slot => 1
  | .count => 2
  | .cls => 3
  | .flux => 4
  | .kind => 5
  | .range => 6
  | .drainOrder => 7
  | .order => 8
  | .noHold => 9
  | .noClaim => 10

/-- The index HEADER (R211). -/
def headerIndex : Nat := 255

/-- A value lies in a closed range. -/
def within (lo hi n : Nat) : Bool := decide (lo ≤ n) && decide (n ≤ hi)

/-- Every parameter of a step lies in its range; the cell of a TRAVEL is tested against N (R82, R87). -/
def stepInRange (n : Nat) (st : DipStep) : Bool :=
  match st with
  | .weighDry t => within 1 120 t
  | .travel c => decide (c < n)
  | .claim l w => w || within 1 96 l
  | .lower d v f => within 100 4000 d && within 1 4 v && within 100 1000 f
  | .dwell d => within 1 1800 d
  | .raise v => within 1 4 v
  | .drain mn mx h l q => within 0 600 mn && within 1 900 mx && within 1 5000 h && within 0 4999 l && within 1 20 q
  | .vibrate d => within 1 60 d
  | .weighOut t => within 1 120 t
  | .release => true
  | .finish => true
  | .chain t => within 0 15 t

/-- The order test of a DRAIN (R88). -/
def drainOrderOk (st : DipStep) : Bool :=
  match st with
  | .drain mn mx h l _ => decide (l < h) && decide (mn ≤ mx)
  | _ => true

/-- END or CHAIN (R89). -/
def DipStep.isEnding (st : DipStep) : Bool :=
  match st with
  | .finish => true
  | .chain _ => true
  | _ => false

/-- What the hold walk has seen: a CLAIM, and a CLAIM not yet followed by a RELEASE (R90). -/
structure HoldWalk where
  claimSeen : Bool
  holding : Bool
  deriving DecidableEq, Repr

/-- The hold checks of a step (R90). -/
def HoldWalk.failure (w : HoldWalk) (continuation : Bool) (st : DipStep) : Option CheckCode :=
  if continuation then none
  else
    match st with
    | .lower _ _ _ => if w.holding then none else some .noHold
    | .release => if w.claimSeen then none else some .noClaim
    | _ => none

/-- The walk after a step. -/
def HoldWalk.next (w : HoldWalk) (st : DipStep) : HoldWalk :=
  match st with
  | .claim _ _ => ⟨true, true⟩
  | .release => { w with holding := false }
  | _ => w

/-- The first failing check of a step whose kind is known; `last` says that it is the program's last (R91). -/
def stepFailure (n : Nat) (continuation last : Bool) (w : HoldWalk) (st : DipStep) : Option CheckCode :=
  if !stepInRange n st then some .range
  else if !drainOrderOk st then some .drainOrder
  else if st.isEnding != last then some .order
  else w.failure continuation st

/-- The steps of the records from index `i` on, or the index and the code of the first failing check (R87 to R91). -/
def checkSteps (n : Nat) (continuation : Bool) (i : Nat) (w : HoldWalk) (rs : List (List Byte)) :
    Except (Nat × CheckCode) (List DipStep) :=
  match rs with
  | [] => .ok []
  | r :: rest =>
    match decodeStep r with
    | none => .error (i, .kind)
    | some st =>
      match stepFailure n continuation rest.isEmpty w st with
      | some c => .error (i, c)
      | none =>
        match checkSteps n continuation (i + 1) (w.next st) rest with
        | .ok ss => .ok (st :: ss)
        | .error e => .error e

/-- The validator: the program a LOAD_PROGRAM carries, or the index and the code of its first failing check (R86 to
R91). -/
def validate (n : Nat) (r : RawProgram) : Except (Nat × CheckCode) Program :=
  if r.count = 0 ∨ 16 < r.count then .error (headerIndex, .count)
  else
    match SteelClass.ofCode r.defaultClass with
    | none => .error (headerIndex, .cls)
    | some k =>
      if 30 < r.flux then .error (headerIndex, .flux)
      else
        match checkSteps n (r.flags.getLsbD 0) 0 ⟨false, false⟩ r.records with
        | .ok ss => .ok { continuation := r.flags.getLsbD 0, defaultClass := k, flux := r.flux, steps := ss }
        | .error e => .error e

/-- A slot is the current slot of the dip in progress (R92). -/
def State.isCurrentSlot (s : State) (slot : Nat) : Bool :=
  s.dsq.state != .idle && (s.dsq.ctx.map DipCtx.slot == some slot)

/-- A slot takes a program (R81). -/
def Pgs.put (g : Pgs) (slot : Nat) (p : Program) : Pgs := { g with slots := g.slots.setIfInBounds slot (some p) }

/-- The program of a slot; `none` where it is EMPTY (R81). -/
def Pgs.programAt (g : Pgs) (slot : Nat) : Option Program := (g.slots[slot]?).join

end Sys2Proof.Machine
end

