-- ==== Sys2Proof/Machine/Answers.lean ====
section
/-! DEFINITION. The fields of the answers, in the order their rules list them (R211): READ_STATUS block by block, the
tables, a program and a dip record. Where no rule lists a code or a grouping the choice is log 22. -/

namespace Sys2Proof.Machine

/-- Bit `i` of a mask byte. -/
def bitAt (i : Nat) (b : Bool) : Nat := if b then 2 ^ i else 0

/-- Tenths of a second, truncated. -/
def tenths (ms : Nat) : Nat := ms / 100

/-- First cell, last cell, whole flag. -/
def Span.bytes (sp : Span) : List Byte := u8 sp.first ++ u8 sp.last ++ markByte sp.whole

/-! ### READ_STATUS (R203) -/

def Group.bytes (g : Group) : List Byte := [g.flags, g.enables] ++ markByte g.inService

/-- SPT: the mode, the seal state, the event line, and each group. -/
def State.statusSpt (s : State) : List Byte :=
  markByte s.cfg.ready ++ markByte s.cfg.isSealed ++ markByte s.spt.eventLine
    ++ s.spt.g1.bytes ++ s.spt.g2.bytes ++ s.spt.g3.bytes ++ s.spt.g4.bytes

/-- LIF. -/
def State.statusLif (s : State) : List Byte :=
  u8 s.lif.line.code ++ u8 s.lif.score ++ [s.lif.seq] ++ u8 s.lif.places
    ++ optField 1 (fun c => u8 (TxFrame.answerCode (Current.frame c))) s.lif.current
    ++ markByte s.lif.joinEnd.isSome ++ markByte s.lif.clashEnd.isSome

/-- SCU. -/
def State.statusScu (s : State) : List Byte :=
  u8 s.scu.state.code ++ optField 1 u8 s.scu.state.phase ++ u8 s.scu.lastEntry.toNat

/-- HWN. -/
def State.statusHwn (s : State) : List Byte := u8 s.hwn.request.code ++ u24 s.hwn.sum

/-- The immersion time so far: that of the context and of the interval the timer measures now (R128). That this interval
counts and is rounded to 0.1 s, as R110 rounds it at a stop, is log 22. -/
def State.immersionSoFar (s : State) (c : DipCtx) : Nat :=
  match s.dsq.immersionSince with
  | some t => satNat 65535 (c.immersionTime + roundNat (s.now - t) 100)
  | none => c.immersionTime

/-- The quality flags as one mask byte, bit 0 UNSETTLED, in the order of R98. R211 gives masks to sets of classes and of
events; that these flags are one too is log 49. -/
def QualityFlags.mask (q : QualityFlags) : Nat :=
  bitAt 0 q.unsettled + bitAt 1 q.overMark + bitAt 2 q.weighLost + bitAt 3 q.noDry + bitAt 4 q.noWet
    + bitAt 5 q.drainTimeout + bitAt 6 q.drainAborted

/-- A halt cause: the fault kind, its reason, the request kind and the phase of a motion fault, the slot and the step
index (R125, R140). -/
def HaltCause.bytes (h : HaltCause) : List Byte :=
  (match h.fault with
  | .motion r k running => u8 0 ++ u8 r.code ++ u8 1 ++ u8 k.answerCode ++ u8 1 ++ markByte running
  | .program r => u8 1 ++ u8 r.code ++ u8 0 ++ u8 0 ++ u8 0 ++ u8 0) ++ u8 h.slot ++ u8 h.index

/-- DSQ, as R128 lists. -/
def State.statusDsq (s : State) : List Byte :=
  u8 s.dsq.state.code
    ++ optField 1 (fun c => u8 (DipCtx.slot c)) s.dsq.ctx
    ++ optField 1 (fun c => u8 (DipCtx.index c)) s.dsq.ctx
    ++ optField 1 (fun c => u8 (DipCtx.depth c)) s.dsq.ctx
    ++ u8 s.dsq.position.code
    ++ optField 2 (fun c => u16 (DipCtx.lot c)) s.dsq.ctx
    ++ optField 1 (fun c => u8 (DipCtx.immersions c)) s.dsq.ctx
    ++ optField 2 (fun c => u16 (s.immersionSoFar c)) s.dsq.ctx
    ++ optField 1 (fun c => u8 (DipCtx.quality c).mask) s.dsq.ctx
    ++ optField 1 (fun c => markByte (DipCtx.abortMark c)) s.dsq.ctx
    ++ optField 8 HaltCause.bytes s.dsq.cause

/-- Kind and number of the outstanding request or the STOP (R132). -/
def MptPhase.requestBytes (p : MptPhase) : Option (MotionKind × Byte) :=
  match p with
  | .idle => none
  | .awaitAccept r n => some (r.kind, n)
  | .running r n => some (r.kind, n)
  | .stopping n => some (.stop, n)

/-- MPT, as R132 and R139 list. -/
def State.statusMpt (s : State) : List Byte :=
  u8 s.mpt.phase.code ++ optField 1 (fun x => u8 x.1.answerCode) s.mpt.phase.requestBytes
    ++ optField 1 (fun x => [x.2]) s.mpt.phase.requestBytes ++ optField 1 u8 s.mpt.hook

/-- The settle wait in progress. -/
def WchTask.asSettle (t : WchTask) : Option SettleTask :=
  match t with
  | .settle w => some w
  | _ => .none

/-- The drain in progress. -/
def WchTask.asDrain (t : WchTask) : Option DrainTask :=
  match t with
  | .drain w => some w
  | _ => .none

/-- The fields that depend on WCH's task (R158): those of a settle wait, then those of a drain. A field of a task that
does not run is absent (R211, log 44). -/
def State.statusTask (s : State) : List Byte :=
  optField 2 (fun w => u16 (tenths (SettleTask.timeoutEnd w - s.now))) s.wch.task.asSettle
    ++ optField 1 (fun w => u8 (SettleTask.runCount w)) s.wch.task.asSettle
    ++ optField 2 (fun w => u16 (tenths (s.now - DrainTask.start w))) s.wch.task.asDrain
    ++ optField 1 (fun _ => markByte s.wch.slicer.isQuiet) s.wch.task.asDrain
    ++ optField 1 (fun _ => u8 s.wch.slicer.quietRun) s.wch.task.asDrain
    ++ optField 3 s24 (s.wch.task.asDrain.bind (fun _ => s.wch.slicer.lastDrip))
    ++ optField 1 (fun _ => markByte s.wch.slicer.frozen) s.wch.task.asDrain

/-- WCH, as R158 lists. The channel state is 0 ACTIVE and 1 LOST, the status of the last sample 0 valid and 1 invalid
(log 45). -/
def State.statusWch (s : State) : List Byte :=
  markByte s.wch.lost
    ++ optField 4 (fun x => u24 (RawSample.raw x).toNat ++ markByte (!x.valid)) s.wch.lastSample
    ++ optField 4 (fun x => s24 (Sample.net x) ++ markByte x.overMark) s.wch.lastValid
    ++ u8 s.wch.history.length
    ++ optField 4 (fun b => s24 (Block.value b) ++ markByte b.overMark) s.wch.history.getLast?
    ++ u8 s.wch.task.code ++ s.statusTask

/-- The last PICKUP heard (R183, R192). A class reported of none is an absent class (log 49). -/
def HeardPickup.bytes (h : HeardPickup) : List Byte :=
  u8 h.src.toNat ++ u16 h.seq.toNat ++ u24 h.consumption ++ optField 1 (fun c => u8 (SteelClass.code c)) h.cls
    ++ u8 h.outcome.code

/-- The last INGOT heard (R183, R192). -/
def HeardIngot.bytes (h : HeardIngot) : List Byte := u8 h.src.toNat ++ u16 h.mass

/-- ZBR, as R192 lists. -/
def State.statusZbr (s : State) : List Byte :=
  u24 s.zbr.z ++ u24 s.cfg.params.zMax ++ u8 s.zbr.level.code ++ markByte s.zbr.isOpen
    ++ markByte s.zbr.unset ++ markByte s.zbr.gap ++ u16 s.zbr.ownSeq.toNat ++ u32 s.zbr.nextNumber.toNat
    ++ u8 s.zbr.ring.length ++ optField 4 (fun r => u32 (DipRecord.number r).toNat) s.zbr.ring.head?
    ++ optField 9 HeardPickup.bytes s.zbr.lastPickup ++ optField 3 HeardIngot.bytes s.zbr.lastIngot

/-- The answer of READ_STATUS, block by block (R203). -/
def State.statusBytes (s : State) : List Byte :=
  s.statusSpt ++ s.statusLif ++ s.statusScu ++ s.statusHwn ++ s.statusDsq ++ s.statusMpt ++ s.statusWch ++ s.statusZbr

/-! ### Tables -/

/-- A peer's entry of READ_PEERS (R35). The last condition has no presence byte: UNKNOWN is one of its values (log 41). -/
def Peer.bytes (p : Peer) (now : Nat) : List Byte :=
  u8 p.id.toNat ++ u8 p.presence.code ++ u16 (satNat 65535 (now - p.lastArrival)) ++ u8 p.condition.code
    ++ [p.lastSeq] ++ optField 2 (fun e => u16 (BitVec.toNat e)) p.expected

/-- The answer of READ_PEERS (R35). -/
def State.peersBytes (s : State) : List Byte :=
  u8 s.ptb.peers.length ++ s.ptb.peers.flatMap (fun p => p.bytes s.now)

/-- The blocked timer in ms (R57). -/
def State.blockedMs (s : State) : Nat :=
  match s.scu.blockedSince with
  | some t => s.now - t
  | none => s.scu.blockedHeld

/-- A peer entry of READ_SPANS (R66). -/
def PeerEntry.bytes (e : PeerEntry) (now : Nat) : List Byte :=
  u8 e.holder.toNat ++ u8 e.state.code ++ e.span.bytes ++ optField 1 (fun c => [c]) e.claim ++ optField 1 u8 e.age
    ++ u16 (satNat 65535 (now - e.arrival)) ++ optField 1 (fun i => u8 (BitVec.toNat i)) e.lastEntry

/-- The answer of READ_SPANS (R66). The span is the wanted span, which is that of the own entry while there is one; one
that SCU holds in RELEASING for a later claim is not reported (log 14). The whole seconds of the blocked timer are truncated
(log 22). -/
def State.spansBytes (s : State) : List Byte :=
  u8 s.scu.state.code ++ optField 1 u8 s.scu.state.phase ++ optField 3 Span.bytes s.scu.wanted
    ++ optField 1 (fun o => [OwnEntry.claim o]) s.scu.own ++ optField 1 u8 s.scu.lastAge
    ++ u16 (satNat 65535 (s.blockedMs / 1000)) ++ u8 s.scu.lastEntry.toNat ++ u8 s.scu.entries.length
    ++ s.scu.entries.flatMap (fun e => e.bytes s.now)

/-- A record of READ_HEAT (R79). -/
def HeatEntry.bytes (e : HeatEntry) (now : Nat) : List Byte :=
  u8 e.src.toNat ++ u16 e.mass ++ u8 e.index ++ u8 e.merges ++ u16 (tenths (now - e.arrival))

/-- The waiting request of READ_HEAT, each of its fields with its presence byte (R79, R211). -/
def HeatRequest.bytes (r : HeatRequest) (now : Nat) : List Byte :=
  optField 2 (fun w => u16 (HeatWaiting.mass w)) r.waiting ++ optField 1 (fun w => u8 (HeatWaiting.index w)) r.waiting
    ++ optField 2 (fun w => u16 (satNat 65535 (tenths (now - HeatWaiting.since w)))) r.waiting

/-- The answer of READ_HEAT (R79). -/
def State.heatBytes (s : State) : List Byte :=
  u16 s.cfg.params.window ++ u16 s.cfg.params.budget ++ u24 s.hwn.sum ++ u8 s.hwn.request.code
    ++ s.hwn.request.bytes s.now
    ++ u8 s.hwn.entries.length ++ s.hwn.entries.flatMap (fun e => e.bytes s.now)

/-- A classifier state, with its class and its count where it has them (R175). -/
def Classifier.bytes (c : Classifier) : List Byte :=
  match c with
  | .search => u8 0 ++ [0, 0] ++ [0, 0]
  | .tentative k n => u8 1 ++ (u8 1 ++ u8 k.code) ++ (u8 1 ++ u8 n)
  | .locked k d => u8 2 ++ (u8 1 ++ u8 k.code) ++ (u8 1 ++ u8 d)
  | .fixed k => u8 3 ++ (u8 1 ++ u8 k.code) ++ [0, 0]

/-- A lot of READ_LOTS (R175). -/
def Lot.bytes (l : Lot) : List Byte :=
  u16 l.tag ++ u8 l.mask.toNat ++ l.classifier.bytes ++ u16 l.dips ++ markByte l.inUse

/-- The answer of READ_LOTS (R175). -/
def State.lotsBytes (s : State) : List Byte := u8 s.pku.lots.length ++ s.pku.lots.flatMap Lot.bytes

/-- The program fields of READ_PROGRAM (R95). -/
def Program.bytes (p : Program) : List Byte :=
  markByte p.continuation ++ u8 p.defaultClass.code ++ u8 p.flux ++ u8 p.steps.length ++ p.steps.flatMap encodeStep

/-- The answer of READ_PROGRAM (R95). The slot state is 0 EMPTY and 1 LOADED (log 43). -/
def State.programBytes (s : State) (slot : Nat) : List Byte :=
  match s.pgs.programAt slot with
  | none => u8 slot ++ u8 0 ++ markByte false
  | some p => u8 slot ++ u8 1 ++ markByte (s.isCurrentSlot slot) ++ p.bytes

/-! ### Dip record (section 12.3) -/

/-- The flags, bit 0 NEG_PICKUP through bit 13 SMALL_DRY, in the order of R187. -/
def RecordFlags.mask (f : RecordFlags) : Nat :=
  bitAt 0 f.negPickup + bitAt 1 f.ratioSat + bitAt 2 f.noDry + bitAt 3 f.noWet + bitAt 4 f.unsettled
    + bitAt 5 f.overMark + bitAt 6 f.weighLost + bitAt 7 f.drainTimeout + bitAt 8 f.drainAborted
    + bitAt 9 f.progressive + bitAt 10 f.heatOver + bitAt 11 f.estimated + bitAt 12 f.txDropped + bitAt 13 f.smallDry

/-- A dip record as READ_RECORD and PEEK_RECORD give it. -/
def DipRecord.bytes (r : DipRecord) : List Byte :=
  u32 r.number.toNat ++ u8 r.outcome.code ++ u8 r.slot ++ u16 r.lot ++ optField 3 s24 r.dry ++ optField 3 s24 r.wet
    ++ u24 r.pickup ++ u16 r.dross ++ u24 r.consumption ++ optField 2 u16 r.ratio
    ++ optField 1 (fun c => u8 (DipClass.code c)) r.dipClass ++ u8 r.drossClass.code ++ u16 r.immersionTime
    ++ u8 r.immersions ++ u16 r.drainTime ++ u16 r.flags.mask

/-! ### Parameters (R200) and identity (R202) -/

/-- The answer of READ_PARAM (R200, log 22). -/
def State.paramBytes (s : State) (n : Nat) : List Byte :=
  u8 n ++ s32 ((s.cfg.params.get n).getD 0) ++ markByte (s.cfg.params.get n).isNone ++ markByte s.cfg.isSealed

/-- The answer of POWER_INFO (R202). -/
def identityBytes : List Byte := u8 Config.vendorCode ++ u16 Config.partCode ++ u8 Config.revision

end Sys2Proof.Machine
end

