-- ==== Sys2Proof/Machine/Resets.lean ====
section
/-! DEFINITION. What STATION_RESET does to each block (R25, R37, R67, R80, R96, R130, R141, R159, R178, R193, R209),
what SEAL does to LIF (R9, R23, R201), and power-on reset. -/

namespace Sys2Proof.Machine

/-- The current frame at STATION_RESET: a FREE is kept, an attempt on the line of another frame runs to its end, and any
other is removed (R25). -/
def Current.afterReset (c : Current) : Option Current :=
  if c.frame.isFree then some c
  else
    match c.phase with
    | .onLine _ => some { c with removeOnFail := true }
    | _ => none

/-- LIF: every waiting frame but a FREE is removed; line, score, counter and timers are kept (R25). -/
def Lif.stationReset (l : Lif) : Lif :=
  { l with waiting := l.waiting.filter TxFrame.isFree, current := l.current.bind Current.afterReset }.takeCurrent

/-- SCU: the peer entries, the next claim number and the last-entry ID are kept (R67). -/
def Scu.stationReset (c : Scu) : Scu :=
  { Scu.reset with entries := c.entries, nextClaim := c.nextClaim, lastEntry := c.lastEntry }

/-- HWN: the held request is dropped (R80). -/
def Hwn.stationReset (h : Hwn) : Hwn := { h with request := .none }

/-- MPT: the request counter and the hook cell are kept (R141). That no request frame is still leaving afterwards is
log 51. -/
def Mpt.stationReset (m : Mpt) : Mpt := { Mpt.reset with counter := m.counter, hook := m.hook }

/-- WCH: the poller, the last samples, the channel state and its runs are kept (R159). -/
def Wch.stationReset (w : Wch) : Wch :=
  { w with forming := [], history := [], task := .none, slicer := Slicer.reset }

/-- An accepted STATION_RESET but for the repeat store, which takes its response (R208). PTB, PGS and ZBR keep
everything (R37, R96, R193). -/
def State.stationReset (s : State) : State :=
  { s with lif := s.lif.stationReset, scu := s.scu.stationReset, hwn := s.hwn.stationReset, dsq := Dsq.reset,
           mpt := s.mpt.stationReset, wch := s.wch.stationReset, pku := s.pku.clearUse, spt := s.spt.clearEvents }

/-- LIF leaves OFF: JOINING, the change reported to SCU, the join timer at 4 × P_b, the beacon timer, and the first
BEACON (R9, R23, R201). -/
def State.joinLine (s : State) : State :=
  (s.withLif { s.lif with line := .joining, joinEnd := some (s.now + 4 * s.cfg.params.beaconPeriod),
                          beaconNext := some (s.now + s.cfg.params.beaconPeriod) }).lineNotice.offer .beacon

/-- An accepted SEAL: sealed, READY, and on the line (R201). -/
def State.sealStation (s : State) : State := (s.withCfg { s.cfg with ready := true, isSealed := true }).joinLine

/-- Power-on reset (R209): every block at its power-on values. The queue of commands and the draw counter belong to the
model, not to the part (log 3). -/
def State.powerOn (s : State) : State := (State.reset.withPending s.pending).withDraws s.draws

end Sys2Proof.Machine
end

