-- ==== Sys2Proof/Machine/Requests.lean ====
section
/-! DEFINITION. The station port: the repeat store, the decoder, and the meanings of the request commands (chapter
Station Port and the request rules of the other chapters). -/

namespace Sys2Proof.Machine

/-! ### The exchange (R194 to R197) -/

/-- A response is given to the line (R194). -/
def State.respond (s : State) (r : Response) : State :=
  s.withSpt { s.spt with responses := s.spt.responses ++ [r] }

/-- A request that is no repeat has been answered: its tag, code and response replace the stored ones (R195). -/
def State.answer (s : State) (r : Response) : State :=
  (s.withSpt { s.spt with store := some r }).respond r

/-- The stored response, where a request repeats the stored one (R195). -/
def Spt.repeatOf (t : Spt) (tag code : Byte) : Option Response :=
  match t.store with
  | some r => if r.tag = tag ∧ r.code = code then some r else none
  | none => none

/-- A request is taken: a repeat is answered with the stored response and not carried out again; any other is carried
out and answered (R195). -/
def State.takeRequest (s : State) (tag code : Byte) (act : State → State × List Byte) : State :=
  match s.spt.repeatOf tag code with
  | some r => s.respond r
  | none => (act s).1.answer ⟨tag, code, (act s).2⟩

/-- The modes a request is taken in (R197). -/
inductive Modes where
  | setup | ready | both
  deriving DecidableEq, Repr

def Modes.allow (m : Modes) (ready : Bool) : Bool :=
  match m with
  | .setup => !ready
  | .ready => ready
  | .both => true

/-- The decoder: length, mode, then the owner (R196). -/
def decodeRequest {α : Type} (args : Option α) (m : Modes) (owner : α → State → State × List Byte) (s : State) :
    State × List Byte :=
  match args with
  | none => (s, respBadArg)
  | some a => if m.allow s.cfg.ready then owner a s else (s, respBadState)

/-- A request of a known code. -/
def State.request {α : Type} (s : State) (tag : Byte) (code : Req) (args : Option α) (m : Modes)
    (owner : α → State → State × List Byte) : State :=
  s.takeRequest tag code.code (decodeRequest args m owner)

/-! ### Owners -/

/-- SET_PARAM (R199). -/
def State.setParam (a : Nat × Int) (s : State) : State × List Byte :=
  match paramKind a.1 with
  | none => (s, respBadArg)
  | some k =>
    match k.accept a.2 with
    | none => (s, respBadArg)
    | some (v, clamped) =>
      (s.takeParams (s.cfg.params.put a.1 v), if clamped then respClamped [] else respOk [])

/-- SEAL (R201). -/
def State.sealSet (_ : Unit) (s : State) : State × List Byte :=
  match s.cfg.params.sealFailure with
  | some n => (s, respRefused n)
  | none => (s.sealStation, respOk [])

/-- READ_PARAM (R200). -/
def State.readParam (n : Nat) (s : State) : State × List Byte :=
  match paramKind n with
  | none => (s, respBadArg)
  | some _ => (s, respOk (s.paramBytes n))

/-- READ_STATUS (R203). -/
def State.readStatus (_ : Unit) (s : State) : State × List Byte := (s, respOk s.statusBytes)

/-- READ_EVENT takes the event at a place: its flag is cleared and the group is in service (R206). -/
def Spt.serve (t : Spt) (g place : Nat) : Spt :=
  t.withGroup g { t.group g with flags := (t.group g).flags &&& ~~~ placeBit place, inService := true }

/-- READ_EVENT (R206). -/
def State.readEvent (_ : Unit) (s : State) : State × List Byte :=
  match s.spt.nextEvent with
  | none => (s, respOk (u8 0 ++ u8 0 ++ u8 0))
  | some (g, place) =>
    (s.withSpt (s.spt.serve g place), respOk (u8 g ++ u8 place ++ [((s.spt.serve g place).group g).flags]))

/-- ACK_GROUP (R207). -/
def State.ackGroup (g : Nat) (s : State) : State × List Byte :=
  if 1 ≤ g ∧ g ≤ 4 then (s.withSpt (s.spt.withGroup g { s.spt.group g with inService := false }), respOk [])
  else (s, respBadArg)

/-- SET_ENABLE (R207). -/
def State.setEnable (a : Nat × Byte) (s : State) : State × List Byte :=
  if 1 ≤ a.1 ∧ a.1 ≤ 4 ∧ a.2.toNat < 2 ^ groupSize a.1 then
    (s.withSpt (s.spt.withGroup a.1 { s.spt.group a.1 with enables := a.2 }), respOk [])
  else (s, respBadArg)

/-- POWER_INFO (R202). -/
def State.powerInfo (_ : Unit) (s : State) : State × List Byte := (s, respOk identityBytes)

/-- LOAD_PROGRAM (R85). -/
def State.loadProgram (r : RawProgram) (s : State) : State × List Byte :=
  if 15 < r.slot then (s, respBadProgram headerIndex CheckCode.slot.code)
  else if s.isCurrentSlot r.slot then (s, respBusy)
  else
    match validate s.cells r with
    | .error (i, c) => (s, respBadProgram i c.code)
    | .ok p => (s.withPgs (s.pgs.put r.slot p), respOk [])

/-- READ_PROGRAM (R95). -/
def State.readProgram (slot : Nat) (s : State) : State × List Byte :=
  if 15 < slot then (s, respBadArg) else (s, respOk (s.programBytes slot))

/-- LOT_OPEN (R172). -/
def State.lotOpen (a : Nat × Byte) (s : State) : State × List Byte :=
  if a.1 = 0 then (s, respBadArg)
  else if a.2.toNat = 0 ∨ 31 < a.2.toNat then (s, respBadArg)
  else if a.2.extractLsb' 0 5 &&& ~~~ s.cfg.params.mask ≠ 0 then (s, respBadArg)
  else
    match s.pku.lotOf a.1 with
    | some l =>
      if l.inUse then (s, respBusy) else (s.withPku (s.pku.openLot a.1 (a.2.extractLsb' 0 5)), respOk [])
    | none => (s.withPku (s.pku.openLot a.1 (a.2.extractLsb' 0 5)), respOk [])

/-- LOT_FIX (R174). -/
def State.lotFix (a : Nat × Byte) (s : State) : State × List Byte :=
  if a.1 = 0 then (s, respBadArg)
  else
    match SteelClass.ofCode a.2.toNat with
    | none => (s, respBadArg)
    | some c =>
      match s.pku.lotOf a.1 with
      | none => (s, respRefused reasonNoLot)
      | some l =>
        if inMask l.mask c then (s.withPku (s.pku.setClassifier l (.fixed c)), respOk []) else (s, respBadArg)

/-- LOT_FREE_CLASS (R174). -/
def State.lotFreeClass (tag : Nat) (s : State) : State × List Byte :=
  if tag = 0 then (s, respBadArg)
  else
    match s.pku.lotOf tag with
    | none => (s, respRefused reasonNoLot)
    | some l => (s.withPku (s.pku.setClassifier l .search), respOk [])

/-- READ_LOTS (R175). -/
def State.readLots (_ : Unit) (s : State) : State × List Byte := (s, respOk s.lotsBytes)

/-- START_DIP (R101). -/
def State.startRequest (a : Nat × Nat × Nat) (s : State) : State × List Byte :=
  if 15 < a.1 then (s, respBadArg)
  else if s.dsq.state ≠ .idle then (s, respBusy)
  else
    match s.pgs.programAt a.1 with
    | none => (s, respRefused reasonNoProgram)
    | some p =>
      if 8000 < a.2.2 then (s.startDip a.1 a.2.1 8000 p, respClamped [])
      else (s.startDip a.1 a.2.1 a.2.2 p, respOk [])

/-- The abort mark is set before the action begins (R121). -/
def State.markAbort (s : State) : State := s.modCtx (fun c => { c with abortMark := true })

/-- An abort by the load: the quick abort where it is not lowered, else the abort path (R121). -/
def State.abortByLoad (s : State) : State := if s.lowered then s.markAbort.abortPath else s.markAbort.quickAbort

/-- ABORT_DIP (R121). -/
def State.abortDip (_ : Unit) (s : State) : State × List Byte :=
  match s.dsq.state with
  | .idle => (s, respRefused reasonNoDip)
  | .aborting _ => (s, respBusy)
  | .parked => (s, respBusy)
  | .halted => (s, respOk [])
  | .awaitRelease => if s.scu.state.isHeld then (s.markAbort, respOk []) else (s.abortByLoad, respOk [])
  | _ => (s.abortByLoad, respOk [])

/-- CONFIRM_CLEAR (R120, R127). -/
def State.confirmClear (_ : Unit) (s : State) : State × List Byte :=
  match s.dsq.state with
  | .parked => (s.releaseSpan.returnIdle, respOk [])
  | .halted => ((s.createRecord .faulted).releaseSpan.returnIdle, respOk [])
  | _ => (s, respBadState)

/-- INGOT (R184). -/
def State.ingotRequest (m : Nat) (s : State) : State × List Byte :=
  if m < 10 then (s.offerIngot 10, respClamped [])
  else if 50000 < m then (s.offerIngot 50000, respClamped [])
  else (s.offerIngot m, respOk [])

/-- Z takes a value, the balance flags clear, and the level is evaluated (R186). -/
def State.putBalance (s : State) (v : Nat) : State :=
  (s.withZbr { s.zbr with z := v, unset := false, gap := false }).evalLevel

/-- SET_BALANCE (R186). -/
def State.setBalance (v : Nat) (s : State) : State × List Byte :=
  if s.cfg.params.zMax < v then (s.putBalance s.cfg.params.zMax, respClamped [])
  else (s.putBalance v, respOk [])

/-- READ_RECORD (R190). -/
def State.readRecord (_ : Unit) (s : State) : State × List Byte :=
  match s.zbr.ring with
  | [] => (s, respRefused reasonEmpty)
  | r :: rest => (s.withZbr { s.zbr with ring := rest }, respOk r.bytes)

/-- PEEK_RECORD (R190). -/
def State.peekRecord (_ : Unit) (s : State) : State × List Byte :=
  match s.zbr.ring with
  | [] => (s, respRefused reasonEmpty)
  | r :: _ => (s, respOk r.bytes)

/-- CLEAR_PEER (R33). -/
def State.clearPeer (n : Nat) (s : State) : State × List Byte :=
  if 15 < n then (s, respBadArg)
  else if BitVec.ofNat 4 n = s.ownId then (s, respBadArg)
  else
    match s.ptb.recordOf (BitVec.ofNat 4 n) with
    | none => (s, respRefused reasonNoPeer)
    | some p =>
      match p.presence with
      | .present => (s, respRefused reasonPeerPresent)
      | .silent => (s.dropPeer p.id, respOk [])

/-- READ_PEERS (R35). -/
def State.readPeers (_ : Unit) (s : State) : State × List Byte := (s, respOk s.peersBytes)

/-- READ_SPANS (R66). -/
def State.readSpans (_ : Unit) (s : State) : State × List Byte := (s, respOk s.spansBytes)

/-- READ_HEAT (R79). -/
def State.readHeat (_ : Unit) (s : State) : State × List Byte := (s, respOk s.heatBytes)

/-- STATION_RESET is accepted (R208). -/
def State.resetAllowed (s : State) : Bool :=
  (s.dsq.state == .idle || s.dsq.state == .halted) && s.scu.state == .none

/-- STATION_RESET (R208). -/
def State.resetRequest (_ : Unit) (s : State) : State × List Byte :=
  if s.resetAllowed then (s.stationReset, respOk []) else (s, respBusy)

/-! ### Meanings -/

/-- POWER_ON_RESET (R209). -/
def execPowerOnReset (s : State) : Host.Outcome State Fault Refusal := .next s.powerOn

/-- The receiver drops what it holds of a frame (R194). -/
def State.dropPartial (s : State) : State := s.withSpt { s.spt with rxBytes := [] }

/-- REQUEST_FRAME_TIMEOUT (R194). -/
def execRequestFrameTimeout (s : State) : Host.Outcome State Fault Refusal := .next s.dropPartial

/-- REQUEST_CHECK_FAIL (R194). -/
def execRequestCheckFail (s : State) : Host.Outcome State Fault Refusal := .next s.dropPartial

/-- UNKNOWN_REQUEST (R196). -/
def execUnknownRequest (tag code : Byte) (_body : List Byte) (s : State) : Host.Outcome State Fault Refusal :=
  .next (s.takeRequest tag code (fun t => (t, respBadArg)))

/-- SET_PARAM (R199). -/
def execSetParam (tag : Byte) (body : List Byte) (s : State) : Host.Outcome State Fault Refusal :=
  .next (s.request tag .setParam (argsSetParam body) .setup State.setParam)

/-- SEAL (R201). -/
def execSealRequest (tag : Byte) (body : List Byte) (s : State) : Host.Outcome State Fault Refusal :=
  .next (s.request tag .sealSet (argsNone body) .setup State.sealSet)

/-- READ_PARAM (R200). -/
def execReadParam (tag : Byte) (body : List Byte) (s : State) : Host.Outcome State Fault Refusal :=
  .next (s.request tag .readParam (argsByte body) .both State.readParam)

/-- READ_STATUS (R203). -/
def execReadStatus (tag : Byte) (body : List Byte) (s : State) : Host.Outcome State Fault Refusal :=
  .next (s.request tag .readStatus (argsNone body) .both State.readStatus)

/-- READ_EVENT (R206). -/
def execReadEvent (tag : Byte) (body : List Byte) (s : State) : Host.Outcome State Fault Refusal :=
  .next (s.request tag .readEvent (argsNone body) .both State.readEvent)

/-- ACK_GROUP (R207). -/
def execAckGroup (tag : Byte) (body : List Byte) (s : State) : Host.Outcome State Fault Refusal :=
  .next (s.request tag .ackGroup (argsByte body) .both State.ackGroup)

/-- SET_ENABLE (R207). -/
def execSetEnable (tag : Byte) (body : List Byte) (s : State) : Host.Outcome State Fault Refusal :=
  .next (s.request tag .setEnable (argsEnable body) .both State.setEnable)

/-- POWER_INFO (R202). -/
def execPowerInfo (tag : Byte) (body : List Byte) (s : State) : Host.Outcome State Fault Refusal :=
  .next (s.request tag .powerInfo (argsNone body) .both State.powerInfo)

/-- LOAD_PROGRAM (R85). -/
def execLoadProgram (tag : Byte) (body : List Byte) (s : State) : Host.Outcome State Fault Refusal :=
  .next (s.request tag .loadProgram (argsLoad body) .ready State.loadProgram)

/-- READ_PROGRAM (R95). -/
def execReadProgram (tag : Byte) (body : List Byte) (s : State) : Host.Outcome State Fault Refusal :=
  .next (s.request tag .readProgram (argsByte body) .ready State.readProgram)

/-- LOT_OPEN (R172). -/
def execLotOpen (tag : Byte) (body : List Byte) (s : State) : Host.Outcome State Fault Refusal :=
  .next (s.request tag .lotOpen (argsTagByte body) .ready State.lotOpen)

/-- LOT_FIX (R174). -/
def execLotFix (tag : Byte) (body : List Byte) (s : State) : Host.Outcome State Fault Refusal :=
  .next (s.request tag .lotFix (argsTagByte body) .ready State.lotFix)

/-- LOT_FREE_CLASS (R174). -/
def execLotFreeClass (tag : Byte) (body : List Byte) (s : State) : Host.Outcome State Fault Refusal :=
  .next (s.request tag .lotFreeClass (argsWord body) .ready State.lotFreeClass)

/-- READ_LOTS (R175). -/
def execReadLots (tag : Byte) (body : List Byte) (s : State) : Host.Outcome State Fault Refusal :=
  .next (s.request tag .readLots (argsNone body) .ready State.readLots)

/-- START_DIP (R101). -/
def execStartDip (tag : Byte) (body : List Byte) (s : State) : Host.Outcome State Fault Refusal :=
  .next (s.request tag .startDip (argsStart body) .ready State.startRequest)

/-- ABORT_DIP (R121). -/
def execAbortDip (tag : Byte) (body : List Byte) (s : State) : Host.Outcome State Fault Refusal :=
  .next (s.request tag .abortDip (argsNone body) .ready State.abortDip)

/-- CONFIRM_CLEAR (R120, R127). -/
def execConfirmClear (tag : Byte) (body : List Byte) (s : State) : Host.Outcome State Fault Refusal :=
  .next (s.request tag .confirmClear (argsNone body) .ready State.confirmClear)

/-- INGOT (R184). -/
def execIngot (tag : Byte) (body : List Byte) (s : State) : Host.Outcome State Fault Refusal :=
  .next (s.request tag .ingot (argsWord body) .ready State.ingotRequest)

/-- SET_BALANCE (R186). -/
def execSetBalance (tag : Byte) (body : List Byte) (s : State) : Host.Outcome State Fault Refusal :=
  .next (s.request tag .setBalance (argsLong body) .ready State.setBalance)

/-- READ_RECORD (R190). -/
def execReadRecord (tag : Byte) (body : List Byte) (s : State) : Host.Outcome State Fault Refusal :=
  .next (s.request tag .readRecord (argsNone body) .ready State.readRecord)

/-- PEEK_RECORD (R190). -/
def execPeekRecord (tag : Byte) (body : List Byte) (s : State) : Host.Outcome State Fault Refusal :=
  .next (s.request tag .peekRecord (argsNone body) .ready State.peekRecord)

/-- CLEAR_PEER (R33). -/
def execClearPeer (tag : Byte) (body : List Byte) (s : State) : Host.Outcome State Fault Refusal :=
  .next (s.request tag .clearPeer (argsByte body) .ready State.clearPeer)

/-- READ_PEERS (R35). -/
def execReadPeers (tag : Byte) (body : List Byte) (s : State) : Host.Outcome State Fault Refusal :=
  .next (s.request tag .readPeers (argsNone body) .ready State.readPeers)

/-- READ_SPANS (R66). -/
def execReadSpans (tag : Byte) (body : List Byte) (s : State) : Host.Outcome State Fault Refusal :=
  .next (s.request tag .readSpans (argsNone body) .ready State.readSpans)

/-- READ_HEAT (R79). -/
def execReadHeat (tag : Byte) (body : List Byte) (s : State) : Host.Outcome State Fault Refusal :=
  .next (s.request tag .readHeat (argsNone body) .ready State.readHeat)

/-- STATION_RESET (R208). -/
def execStationReset (tag : Byte) (body : List Byte) (s : State) : Host.Outcome State Fault Refusal :=
  .next (s.request tag .stationReset (argsNone body) .ready State.resetRequest)

end Sys2Proof.Machine
end

