-- ==== Sys2Proof/Machine/Reception.lean ====
section
/-! DEFINITION. Kettle-line reception: the health score and the line state, an ID clash, delivery, and the meanings of
the received-frame commands (sections 1.2, 1.3, 1.7). A frame command carries a frame whose CRC and start pattern are
good; the checks of R5 on its length and its content are made here (log 7). -/

namespace Sys2Proof.Machine

/-- The line takes a state, and the change is reported to SCU (section 1.3). -/
def State.toLine (s : State) (l : LineState) : State := (s.withLif { s.lif with line := l }).lineNotice

/-- The line state is evaluated after a change of the health score (R10). -/
def State.evalHealth (s : State) : State :=
  match s.lif.line with
  | .active => if Config.degradeScore ≤ s.lif.score then (s.toLine .degraded).raise .lineDegraded else s
  | .degraded => if s.lif.score ≤ Config.restoreScore then (s.toLine .active).raise .lineRestored else s
  | _ => s

/-- A received frame is discarded (R5, R6). -/
def State.discardFrame (s : State) : State := (s.withLif s.lif.scoreUp).evalHealth

/-- A good frame lowers the score before it is delivered (R6). -/
def State.countGood (s : State) : State := (s.withLif s.lif.scoreDown).evalHealth

/-- An ID clash: ID_CLASH, the clash timer at 10 × P_b, and the start reported to SCU (R24). -/
def State.clash (s : State) : State :=
  ((s.withLif { s.lif with clashEnd := some (s.now + 10 * s.cfg.params.beaconPeriod) }).raise .idClash).evalStart

/-- A received frame with its decoded payload: nothing while the line is OFF (R9); discarded where the payload has a
length or a content error (R5); else counted, tested for the own ID (R24), handed to PTB and delivered (R7, R29). -/
def State.takeFrame {α : Type} (s : State) (src : StationId) (seq : Byte) (payload : Option α)
    (cond : α → Option Condition) (deliver : State → α → State) : State :=
  match s.lif.line with
  | .off => s
  | _ =>
    match payload with
    | none => s.discardFrame
    | some a =>
      if src = s.ownId then s.countGood.clash
      else deliver (s.countGood.hearPeer src seq (cond a)) a

/-- A frame of another kind than BEACON reports no condition. -/
def noCondition {α : Type} (_ : α) : Option Condition := none

/-- LINE_FRAME_DISCARDED (R5, R6). -/
def execLineFrameDiscarded (s : State) : Host.Outcome State Fault Refusal :=
  match s.lif.line with
  | .off => .next s
  | _ => .next s.discardFrame

/-- BEACON_FRAME (R63). -/
def execBeaconFrame (src : StationId) (seq : Byte) (payload : List Byte) (s : State) :
    Host.Outcome State Fault Refusal :=
  .next (s.takeFrame src seq (decodeBeacon s.cells payload) (fun b => some b.condition)
    (fun t b => notify (t.scuBeacon src b)))

/-- INTENT_FRAME (R58). -/
def execIntentFrame (src : StationId) (seq : Byte) (payload : List Byte) (s : State) :
    Host.Outcome State Fault Refusal :=
  .next (s.takeFrame src seq (decodeIntent s.cells payload) noCondition (fun t i => notify (t.scuIntent src i)))

/-- HOLD_FRAME (R59). -/
def execHoldFrame (src : StationId) (seq : Byte) (payload : List Byte) (s : State) :
    Host.Outcome State Fault Refusal :=
  .next (s.takeFrame src seq (decodeHold s.cells payload) noCondition (fun t i => notify (t.scuHold src i)))

/-- YIELD_FRAME (R60). -/
def execYieldFrame (src : StationId) (seq : Byte) (payload : List Byte) (s : State) :
    Host.Outcome State Fault Refusal :=
  .next (s.takeFrame src seq (decodeClaimNo payload) noCondition (fun t n => notify (t.scuFree src n)))

/-- FREE_FRAME (R60). -/
def execFreeFrame (src : StationId) (seq : Byte) (payload : List Byte) (s : State) :
    Host.Outcome State Fault Refusal :=
  .next (s.takeFrame src seq (decodeClaimNo payload) noCondition (fun t n => notify (t.scuFree src n)))

/-- ENTRY_FRAME (R69). -/
def execEntryFrame (src : StationId) (seq : Byte) (payload : List Byte) (s : State) :
    Host.Outcome State Fault Refusal :=
  .next (s.takeFrame src seq (decodeEntry payload) noCondition (fun t e => t.takeEntry src e.mass e.index))

/-- PICKUP_FRAME (R182). -/
def execPickupFrame (src : StationId) (seq : Byte) (payload : List Byte) (s : State) :
    Host.Outcome State Fault Refusal :=
  .next (s.takeFrame src seq (decodePickup payload) noCondition (fun t p => t.heardPickup src p))

/-- INGOT_FRAME (R185). -/
def execIngotFrame (src : StationId) (seq : Byte) (payload : List Byte) (s : State) :
    Host.Outcome State Fault Refusal :=
  .next (s.takeFrame src seq (decodeIngot payload) noCondition (fun t m => t.heardIngot src m))

end Sys2Proof.Machine
end

