-- ==== Sys2Proof/Machine/Sending.lean ====
section
/-! DEFINITION. Kettle-line sending: the attempts of the current frame and the meanings of the commands that start and
end them (sections 1.4 and 1.5). A command that finds the current frame elsewhere than its row says cannot occur and
changes nothing (log 5). -/

namespace Sys2Proof.Machine

/-- The current frame returns to the waiting frames at the head of its class, and the next that may be sent becomes
current (R11). -/
def Lif.putBack (l : Lif) (c : Current) : Lif :=
  { l with current := none, waiting := insertFrameHead c.frame l.waiting }.takeCurrent

/-- The current frame goes on in a phase. -/
def State.toPhase (s : State) (c : Current) (p : TxPhase) : State :=
  s.withLif { s.lif with current := some { c with phase := p } }

/-- The backoff after failed attempt `n`, in slots (R13). -/
def backoffSlots (id : StationId) (n : Nat) : Nat := (id.toNat + 1) + 16 * n

/-- The line enters FAULT at a discard: LINE_FAULT, and the change reported to SCU (R15). -/
def State.enterFault (s : State) : State := ((s.withLif { s.lif with line := .fault }).raise .lineFault).evalStart

/-- The 16th attempt has failed: the frame is discarded and reported, and the next is taken (R15, R21). -/
def State.discardCurrent (s : State) (c : Current) : State :=
  let t := (s.withLif { s.lif with current := none }).enterFault.reportDiscard c.frame
  (t.withLif t.lif.takeCurrent).placeFreed

/-- The current frame leaves the queue without being sent, and the next is taken (R20, R25). -/
def State.removeCurrent (s : State) : State := s.withLif s.lif.dropCurrent

/-- The attempt of the current frame has failed (R12, R13, R15, R20, R25, log 33). Where it ends with a held withdrawal the
next frame is taken before SCU acts on the answer (log 48). -/
def State.failAttempt (s : State) (c : Current) : State :=
  if c.removeOnFail then s.removeCurrent.placeFreed
  else if c.withdrawHeld then (notify s.removeCurrent.withdrawalSucceeds).placeFreed
  else if c.attempts + 1 < Config.maxAttempts then
    s.toPhase { c with attempts := c.attempts + 1 } (.backoff (backoffSlots s.ownId (c.attempts + 1)))
  else s.discardCurrent c

/-- The line state in which a successful send leaves a FAULT (R16). -/
def Lif.afterFault (l : Lif) : LineState :=
  if l.joinEnd.isSome then .joining else if Config.degradeScore ≤ l.score then .degraded else .active

/-- A successful send ends a FAULT: the new line state, its events, and the report to SCU (R16). -/
def State.endFault (s : State) : State :=
  match s.lif.line with
  | .fault =>
    let t := (s.withLif { s.lif with line := s.lif.afterFault }).raise .lineRestored
    (if s.lif.afterFault = .degraded then t.raise .lineDegraded else t).evalStart
  | _ => s

/-- The current frame has been sent (R14): it leaves the queue, the sequence counter rises, a FAULT ends, the completion
goes to SCU, and the next frame is taken. -/
def State.frameSent (s : State) (c : Current) : State :=
  let t := (s.withLif { s.lif with current := none, seq := s.lif.seq + 1 }).endFault
  let u := notify (t.sendCompletion c.frame)
  (u.withLif u.lif.takeCurrent).placeFreed

/-- ATTEMPT_START (R11, R23, R210). -/
def execAttemptStart (s : State) : Host.Outcome State Fault Refusal :=
  match s.lif.current with
  | some c =>
    match c.phase with
    | .deferring =>
      if s.lif.maySend c.frame then .next (s.toPhase c (.onLine (s.lineFrame c.frame)))
      else .next (s.withLif (s.lif.putBack c))
    | _ => .next s
  | none => .next s

/-- COLLISION (R12). -/
def execCollision (s : State) : Host.Outcome State Fault Refusal :=
  match s.lif.current with
  | some c =>
    match c.phase with
    | .onLine _ => .next (s.failAttempt c)
    | _ => .next s
  | none => .next s

/-- DEFER_TIMEOUT (R11). -/
def execDeferTimeout (s : State) : Host.Outcome State Fault Refusal :=
  match s.lif.current with
  | some c =>
    match c.phase with
    | .deferring => .next (s.failAttempt c)
    | _ => .next s
  | none => .next s

/-- BACKOFF_EXPIRY (R11, R13). -/
def execBackoffExpiry (s : State) : Host.Outcome State Fault Refusal :=
  match s.lif.current with
  | some c =>
    match c.phase with
    | .backoff _ =>
      if s.lif.maySend c.frame then .next (s.toPhase c .deferring) else .next (s.withLif (s.lif.putBack c))
    | _ => .next s
  | none => .next s

/-- SEND_SUCCESS (R14). -/
def execSendSuccess (s : State) : Host.Outcome State Fault Refusal :=
  match s.lif.current with
  | some c =>
    match c.phase with
    | .onLine _ => .next (s.frameSent c)
    | _ => .next s
  | none => .next s

end Sys2Proof.Machine
end

