-- ==== Sys2Proof/Machine/Timers.lean ====
section
/-! DEFINITION. The timers of the line, the peers, the claim, the heat window and the dip: the meanings of their expiry
commands. An expiry of a timer that does not run cannot occur and changes nothing (log 5); one that runs is taken at its
end (log 4). -/

namespace Sys2Proof.Machine

/-- BEACON_TIMER_EXPIRY (R19, R23): a BEACON is offered, and the timer runs on. -/
def State.beaconDue (s : State) : State :=
  (s.withLif { s.lif with beaconNext := s.lif.beaconNext.map (· + s.cfg.params.beaconPeriod) }).offer .beacon

def execBeaconTimerExpiry (s : State) : Host.Outcome State Fault Refusal :=
  match s.lif.beaconNext with
  | some e => .next (s.reach e).beaconDue
  | none => .next s

/-- The join period is over (R9). -/
def State.joinOver (s : State) : State :=
  let t := s.withLif { s.lif with joinEnd := none }
  match s.lif.line with
  | .joining =>
    if Config.degradeScore ≤ s.lif.score then (t.toLine .degraded).raise .lineDegraded else t.toLine .active
  | _ => t

/-- JOIN_TIMER_EXPIRY (R9). -/
def execJoinTimerExpiry (s : State) : Host.Outcome State Fault Refusal :=
  match s.lif.joinEnd with
  | some e => .next (s.reach e).joinOver
  | none => .next s

/-- CLASH_TIMER_EXPIRY (R24): the clash mark clears, and the expiry is reported to SCU. -/
def execClashTimerExpiry (s : State) : Host.Outcome State Fault Refusal :=
  match s.lif.clashEnd with
  | some e => .next ((s.reach e).withLif { s.lif with clashEnd := none }).lineNotice
  | none => .next s

/-- PEER_SILENCE_EXPIRY (R30). -/
def execPeerSilenceExpiry (peer : StationId) (s : State) : Host.Outcome State Fault Refusal :=
  match s.ptb.recordOf peer with
  | some p =>
    match p.silenceEnd with
    | some e => .next ((s.reach e).losePeer p)
    | none => .next s
  | none => .next s

/-- The claim window ends: a HOLD of the own span is offered, and the claim is CLAIMING, HOLD queued (R49). -/
def State.windowOver (s : State) : State :=
  let t := s.withScu { s.scu with windowEnd := none }
  match s.scu.state with
  | .claimingWindow =>
    (t.withScu { t.scu with state := .claimingHoldQueued }).offer
      (.hold (s.scu.wanted.getD ⟨0, 0, false⟩) s.ownClaim)
  | _ => t

/-- CLAIM_WINDOW_EXPIRY (R49). -/
def execClaimWindowExpiry (s : State) : Host.Outcome State Fault Refusal :=
  match s.scu.windowEnd with
  | some e => .next (s.reach e).windowOver
  | none => .next s

/-- The guard ends: FIRM, and DSQ is told that its span is firm (R51, R65). -/
def State.guardOver (s : State) : State :=
  let t := s.withScu { s.scu with guardEnd := none }
  match s.scu.state with
  | .guard => (t.withScu { t.scu with state := .firm }).onNotice .firm
  | _ => t

/-- GUARD_EXPIRY (R51). -/
def execGuardExpiry (s : State) : Host.Outcome State Fault Refusal :=
  match s.scu.guardEnd with
  | some e => .next (s.reach e).guardOver
  | none => .next s

/-- The retry delay ends: BLOCKED, and the start conditions are evaluated at once (R54). -/
def State.retryOver (s : State) : State :=
  let t := s.withScu { s.scu with retryEnd := none }
  match s.scu.state with
  | .retry => (t.withScu { t.scu with state := .blocked }).evalStart
  | _ => t

/-- RETRY_DELAY_EXPIRY (R54). -/
def execRetryDelayExpiry (s : State) : Host.Outcome State Fault Refusal :=
  match s.scu.retryEnd with
  | some e => .next (s.reach e).retryOver
  | none => .next s

/-- The first moment at which the blocked timer exceeds the blocked limit (R57). -/
def State.blockedDeadline (s : State) (since : Nat) : Nat := since + s.cfg.params.blockedLimit * 1000 + 1

/-- BLOCKED_LONG (R57): raised once in a dip. -/
def execBlockedLong (s : State) : Host.Outcome State Fault Refusal :=
  match s.scu.blockedSince with
  | some t =>
    if s.scu.blockedLongMark then .next s
    else
      .next (((s.reach (s.blockedDeadline t)).withScu { s.scu with blockedLongMark := true }).raise .blockedLongEv)
  | none => .next s

/-- INTENT_LAPSE (R61). -/
def execIntentLapse (holder : StationId) (s : State) : Host.Outcome State Fault Refusal :=
  match s.scu.entryOf holder with
  | some e =>
    match e.lapseEnd with
    | some t => .next (notify ((s.reach t).entryLeaves holder))
    | none => .next s
  | none => .next s

/-- DSQ takes the admission notice of a waiting request (R76, R108). -/
def State.takeAdmission (s : State) (overBudget : Bool) : State :=
  match s.dsq.state with
  | .heatWait p => s.takeGrant p overBudget
  | _ => s

/-- A record leaves the window at its expiry, and a waiting request is decided again (R71, R76). -/
def State.entryOver (s : State) (place : Nat) : State :=
  match (s.withHwn (s.hwn.removeAt place)).retryHeat with
  | (t, some overBudget) => t.takeAdmission overBudget
  | (t, none) => t

/-- The record at a place has the arrival of the oldest record, so it is among the first to expire (R68, R71). -/
def Hwn.isOldest (h : Hwn) (place : Nat) : Bool :=
  match h.entries[place]?, h.entries.head? with
  | some e, some o => e.arrival == o.arrival
  | _, _ => false

/-- ENTRY_EXPIRY (R71). -/
def execEntryExpiry (place : Nat) (s : State) : Host.Outcome State Fault Refusal :=
  match s.hwn.entries[place]? with
  | some e =>
    if s.hwn.isOldest place then .next ((s.reach (e.arrival + s.windowMs)).entryOver place) else .next s
  | none => .next s

/-- DWELL_EXPIRY (R111). -/
def execDwellExpiry (s : State) : Host.Outcome State Fault Refusal :=
  match s.dsq.dwellEnd with
  | some e => .next (s.reach e).stopDwell.endStep
  | none => .next s

/-- The abort drain ends: its time is added to the drain time, and the weigh-out begins (R123). -/
def State.abortDrainOver (s : State) : State :=
  ((s.withDsq { s.dsq with drainEnd := none }).modCtx
    (fun c => c.addDrain (s.cfg.params.abortDrain * 10))).abortWeigh

/-- ABORT_DRAIN_EXPIRY (R123). -/
def execAbortDrainExpiry (s : State) : Host.Outcome State Fault Refusal :=
  match s.dsq.drainEnd with
  | some e => .next (s.reach e).abortDrainOver
  | none => .next s

end Sys2Proof.Machine
end

