-- ==== Sys2Proof/Machine/MotionLine.lean ====
section
/-! DEFINITION. The motion line: the meanings of the drive's responses and of MPT's timers (sections 7.2 and 7.3). -/

namespace Sys2Proof.Machine

/-- The outstanding request ends as a motion fault; of a MOVE the hook cell becomes absent (R134 to R136, R139,
R140). -/
def State.requestFault (s : State) (r : MotionRequest) (reason : MotionReason) (running : Bool) : State :=
  (s.withMpt { s.mpt with hook := hookAfter r s.mpt.hook }).motionFaulted reason r.kind running

/-- A STOP ends as a motion fault (R137). -/
def State.stopFault (s : State) (reason : MotionReason) : State := s.motionFaulted reason .stop false

/-- The STOP in flight is accepted: MPT is IDLE, and DSQ goes on (R137). -/
def State.takeStop (s : State) : State := (s.withMpt s.mpt.stopTaken).stopAccepted

/-- The outstanding request is accepted: RUNNING, and DSQ takes the acceptance (R133). -/
def State.takeAccept (s : State) (r : MotionRequest) : State :=
  (s.withMpt (s.mpt.accepted s.cfg.params s.now)).motionAccepted r.kind

/-- MPT is IDLE, and DSQ takes the completion, after the acceptance where none was taken before (R134). -/
def State.completeRequest (s : State) (r : MotionRequest) (running : Bool) : State :=
  let t := s.withMpt s.mpt.ended
  (if running then t else t.motionAccepted r.kind).motionCompleted

/-- A DONE for the outstanding request; of a MOVE its cell is checked first (R134, R139). That a BAD_CELL found in
AWAIT_ACCEPT is reported of a request awaiting acceptance, and that no acceptance is handed before it, is log 50. -/
def State.takeDone (s : State) (r : MotionRequest) (running : Bool) (cell : Byte) : State :=
  match r with
  | .move _ =>
    if cell.toNat < s.cells then (s.withMpt { s.mpt with hook := some cell.toNat }).completeRequest r running
    else s.requestFault r .badCell running
  | _ => s.completeRequest r running

/-- MOTION_REQUEST_SENT (R131). -/
def execMotionRequestSent (s : State) : Host.Outcome State Fault Refusal := .next (s.withMpt (s.mpt.sent s.now))

/-- MOTION_ACCEPT (R133, R137, R138). -/
def execMotionAccept (number : Byte) (s : State) : Host.Outcome State Fault Refusal :=
  match s.mpt.matches number with
  | .outstanding r false => .next (s.takeAccept r)
  | .outstanding _ true => .next s
  | .stopAwaiting => .next s.takeStop
  | .stopAccepted => .next s
  | .cancelled => .next s
  | .stray => .next (s.raise .motionStray)

/-- MOTION_DONE (R134, R137, R138). -/
def execMotionDone (number cell : Byte) (s : State) : Host.Outcome State Fault Refusal :=
  match s.mpt.matches number with
  | .outstanding r running => .next (s.takeDone r running cell)
  | .stopAwaiting => .next s.takeStop
  | .stopAccepted => .next s
  | .cancelled => .next s
  | .stray => .next (s.raise .motionStray)

/-- MOTION_FAIL (R136 to R138). A detail outside 1 to 4 makes the frame one that is discarded (R212). -/
def execMotionFail (number detail : Byte) (s : State) : Host.Outcome State Fault Refusal :=
  match failReason detail with
  | none => .next s
  | some reason =>
    match s.mpt.matches number with
    | .outstanding r running => .next (s.requestFault r reason running)
    | .stopAwaiting => .next (s.stopFault reason)
    | .stopAccepted => .next (s.raise .motionStray)
    | .cancelled => .next s
    | .stray => .next (s.raise .motionStray)

/-- MOTION_FRAME_DISCARDED: without an event and without an effect (R133). -/
def execMotionFrameDiscarded (s : State) : Host.Outcome State Fault Refusal := .next s

/-- ACCEPT_TIMEOUT (R135). -/
def execAcceptTimeout (s : State) : Host.Outcome State Fault Refusal :=
  match s.mpt.phase, s.mpt.acceptEnd with
  | .awaitAccept r _, some e => .next ((s.reach e).requestFault r .timeout false)
  | _, _ => .next s

/-- DONE_TIMEOUT (R135). -/
def execDoneTimeout (s : State) : Host.Outcome State Fault Refusal :=
  match s.mpt.phase, s.mpt.doneEnd with
  | .running r _, some e => .next ((s.reach e).requestFault r .timeout true)
  | _, _ => .next s

/-- STOP_ACCEPT_TIMEOUT (R137). -/
def execStopAcceptTimeout (s : State) : Host.Outcome State Fault Refusal :=
  match s.mpt.phase, s.mpt.acceptEnd with
  | .stopping _, some e => .next ((s.reach e).stopFault .timeout)
  | _, _ => .next s

end Sys2Proof.Machine
end

