-- ==== Sys2Proof/Machine/WeighLine.lean ====
section
/-! DEFINITION. The weigh input: the meanings of the poll, of a completed converter transfer, and of the timers of WCH's
task (sections 8.1 to 8.5). -/

namespace Sys2Proof.Machine

/-- POLL_TIMER (R142): a transfer begins, and the poller runs on at its fixed period. -/
def execPollTimer (s : State) : Host.Outcome State Fault Refusal :=
  .next ((s.reach s.wch.pollNext).withWch
    { s.wch with pollNext := s.wch.pollNext + Config.pollPeriod, transfer := true })

/-- Raises an event, if there is one. -/
def State.raiseOpt (s : State) (e : Option Event) : State :=
  match e with
  | some e => s.raise e
  | none => s

/-- DSQ takes a change of the channel to LOST (R105, R145). -/
def State.channelNotice (s : State) (e : Option Event) : State :=
  match e with
  | some .weighLost => s.noteWeighLost
  | _ => s

/-- DSQ takes a result of WCH, if there is one. -/
def State.resultNotice (s : State) (r : Option WeighResult) : State :=
  match r with
  | some r => s.onWeighResult r
  | none => s

/-- What a sample brings about (R142, R144, R145, R150, R155). -/
def State.takeEffect (s : State) (e : SampleEffect) : State :=
  (((s.withWch e.wch).raiseOpt e.event).channelNotice e.event).resultNotice e.result

/-- SAMPLE_TAKEN (R142 to R147, R150, R154, R155). -/
def execSampleTaken (status : Byte) (raw : BitVec 24) (s : State) : Host.Outcome State Fault Refusal :=
  if sampleValid status then .next (s.takeEffect (s.wch.valid s.cfg.params s.now raw))
  else .next (s.takeEffect (s.wch.invalid raw))

/-- UNSETTLED is raised with an unsettled mass (R151). -/
def WeighResult.event (r : WeighResult) : Option Event :=
  match r with
  | .unsettled _ _ => some .unsettled
  | .drainEnd _ true => some .drainTimeout
  | _ => none

/-- WCH's task ends with a result: its event is raised, and DSQ takes it. -/
def State.finishTask (s : State) (r : WeighResult) : State :=
  ((s.withWch { s.wch with task := .none }).raiseOpt r.event).onWeighResult r

/-- SETTLE_TIMEOUT (R151). -/
def execSettleTimeout (s : State) : Host.Outcome State Fault Refusal :=
  match s.wch.task with
  | .settle t =>
    .next ((s.reach t.timeoutEnd).finishTask (settleTimeoutResult s.cfg.params t s.wch.history))
  | _ => .next s

/-- The elapsed time of a drain reaches the minimum: the conditions of a quiet end are tested (R155). -/
def State.minimumReached (s : State) (t : DrainTask) : State :=
  if drainQuiet s.wch t s.now then s.finishTask (.drainEnd (s.now - t.start) false)
  else s.withWch { s.wch with task := .drain { t with minPending := false } }

/-- DRAIN_MINIMUM (R155). -/
def execDrainMinimum (s : State) : Host.Outcome State Fault Refusal :=
  match s.wch.task with
  | .drain t =>
    if t.minPending then .next ((s.reach (t.start + t.minimum * 1000)).minimumReached t) else .next s
  | _ => .next s

/-- The elapsed time of a drain reaches the maximum: the drain ends, quiet if the conditions hold (R156). -/
def State.maximumReached (s : State) (t : DrainTask) : State :=
  s.finishTask (.drainEnd (s.now - t.start) (!drainQuiet s.wch t s.now))

/-- DRAIN_MAXIMUM (R156). -/
def execDrainMaximum (s : State) : Host.Outcome State Fault Refusal :=
  match s.wch.task with
  | .drain t => .next ((s.reach (t.start + t.maximum * 1000)).maximumReached t)
  | _ => .next s

end Sys2Proof.Machine
end

