-- ==== Sys2Proof/Machine/Dispatch.lean ====
section
/-! DEFINITION. exec: one arm per command, each one call of the command's own meaning. -/

namespace Sys2Proof.Machine

def exec (i : Instr) (s : State) : Host.Outcome State Fault Refusal :=
  match i with
  | .powerOnReset => Sys2Proof.Machine.execPowerOnReset s
  | .requestFrameTimeout => Sys2Proof.Machine.execRequestFrameTimeout s
  | .requestCheckFail => Sys2Proof.Machine.execRequestCheckFail s
  | .unknownRequest tag code body => Sys2Proof.Machine.execUnknownRequest tag code body s
  | .setParam tag body => Sys2Proof.Machine.execSetParam tag body s
  | .sealRequest tag body => Sys2Proof.Machine.execSealRequest tag body s
  | .readParam tag body => Sys2Proof.Machine.execReadParam tag body s
  | .readStatus tag body => Sys2Proof.Machine.execReadStatus tag body s
  | .readEvent tag body => Sys2Proof.Machine.execReadEvent tag body s
  | .ackGroup tag body => Sys2Proof.Machine.execAckGroup tag body s
  | .setEnable tag body => Sys2Proof.Machine.execSetEnable tag body s
  | .powerInfo tag body => Sys2Proof.Machine.execPowerInfo tag body s
  | .loadProgram tag body => Sys2Proof.Machine.execLoadProgram tag body s
  | .readProgram tag body => Sys2Proof.Machine.execReadProgram tag body s
  | .lotOpen tag body => Sys2Proof.Machine.execLotOpen tag body s
  | .lotFix tag body => Sys2Proof.Machine.execLotFix tag body s
  | .lotFreeClass tag body => Sys2Proof.Machine.execLotFreeClass tag body s
  | .readLots tag body => Sys2Proof.Machine.execReadLots tag body s
  | .startDip tag body => Sys2Proof.Machine.execStartDip tag body s
  | .abortDip tag body => Sys2Proof.Machine.execAbortDip tag body s
  | .confirmClear tag body => Sys2Proof.Machine.execConfirmClear tag body s
  | .ingot tag body => Sys2Proof.Machine.execIngot tag body s
  | .setBalance tag body => Sys2Proof.Machine.execSetBalance tag body s
  | .readRecord tag body => Sys2Proof.Machine.execReadRecord tag body s
  | .peekRecord tag body => Sys2Proof.Machine.execPeekRecord tag body s
  | .clearPeer tag body => Sys2Proof.Machine.execClearPeer tag body s
  | .readPeers tag body => Sys2Proof.Machine.execReadPeers tag body s
  | .readSpans tag body => Sys2Proof.Machine.execReadSpans tag body s
  | .readHeat tag body => Sys2Proof.Machine.execReadHeat tag body s
  | .stationReset tag body => Sys2Proof.Machine.execStationReset tag body s
  | .lineFrameDiscarded => Sys2Proof.Machine.execLineFrameDiscarded s
  | .beaconFrame src seq payload => Sys2Proof.Machine.execBeaconFrame src seq payload s
  | .intentFrame src seq payload => Sys2Proof.Machine.execIntentFrame src seq payload s
  | .holdFrame src seq payload => Sys2Proof.Machine.execHoldFrame src seq payload s
  | .yieldFrame src seq payload => Sys2Proof.Machine.execYieldFrame src seq payload s
  | .freeFrame src seq payload => Sys2Proof.Machine.execFreeFrame src seq payload s
  | .entryFrame src seq payload => Sys2Proof.Machine.execEntryFrame src seq payload s
  | .pickupFrame src seq payload => Sys2Proof.Machine.execPickupFrame src seq payload s
  | .ingotFrame src seq payload => Sys2Proof.Machine.execIngotFrame src seq payload s
  | .attemptStart => Sys2Proof.Machine.execAttemptStart s
  | .collision => Sys2Proof.Machine.execCollision s
  | .deferTimeout => Sys2Proof.Machine.execDeferTimeout s
  | .backoffExpiry => Sys2Proof.Machine.execBackoffExpiry s
  | .sendSuccess => Sys2Proof.Machine.execSendSuccess s
  | .beaconTimerExpiry => Sys2Proof.Machine.execBeaconTimerExpiry s
  | .joinTimerExpiry => Sys2Proof.Machine.execJoinTimerExpiry s
  | .clashTimerExpiry => Sys2Proof.Machine.execClashTimerExpiry s
  | .peerSilenceExpiry peer => Sys2Proof.Machine.execPeerSilenceExpiry peer s
  | .claimWindowExpiry => Sys2Proof.Machine.execClaimWindowExpiry s
  | .guardExpiry => Sys2Proof.Machine.execGuardExpiry s
  | .retryDelayExpiry => Sys2Proof.Machine.execRetryDelayExpiry s
  | .blockedLong => Sys2Proof.Machine.execBlockedLong s
  | .intentLapse holder => Sys2Proof.Machine.execIntentLapse holder s
  | .entryExpiry place => Sys2Proof.Machine.execEntryExpiry place s
  | .dwellExpiry => Sys2Proof.Machine.execDwellExpiry s
  | .abortDrainExpiry => Sys2Proof.Machine.execAbortDrainExpiry s
  | .motionRequestSent => Sys2Proof.Machine.execMotionRequestSent s
  | .motionAccept number => Sys2Proof.Machine.execMotionAccept number s
  | .motionDone number cell => Sys2Proof.Machine.execMotionDone number cell s
  | .motionFail number detail => Sys2Proof.Machine.execMotionFail number detail s
  | .motionFrameDiscarded => Sys2Proof.Machine.execMotionFrameDiscarded s
  | .acceptTimeout => Sys2Proof.Machine.execAcceptTimeout s
  | .doneTimeout => Sys2Proof.Machine.execDoneTimeout s
  | .stopAcceptTimeout => Sys2Proof.Machine.execStopAcceptTimeout s
  | .pollTimer => Sys2Proof.Machine.execPollTimer s
  | .sampleTaken status raw => Sys2Proof.Machine.execSampleTaken status raw s
  | .settleTimeout => Sys2Proof.Machine.execSettleTimeout s
  | .drainMinimum => Sys2Proof.Machine.execDrainMinimum s
  | .drainMaximum => Sys2Proof.Machine.execDrainMaximum s

end Sys2Proof.Machine
end

