-- ==== Sys2Proof/Machine/Ticks.lean ====
section
/-! DEFINITION. The station's own time base while no command waits: the expiries that are due, the free order among
them, and one millisecond (log 2, log 3). -/

namespace Sys2Proof.Machine

/-- The command of a timer that has reached its end. -/
def dueAt (now : Nat) (e : Option Nat) (c : Instr) : List Instr :=
  match e with
  | some t => if t ≤ now then [c] else []
  | none => []

/-- The expiries of LIF that are due. -/
def State.dueLif (s : State) : List Instr :=
  dueAt s.now s.lif.beaconNext .beaconTimerExpiry ++ dueAt s.now s.lif.joinEnd .joinTimerExpiry
    ++ dueAt s.now s.lif.clashEnd .clashTimerExpiry

/-- The silence timers of PTB that are due. -/
def State.duePtb (s : State) : List Instr :=
  s.ptb.peers.flatMap (fun p => dueAt s.now p.silenceEnd (.peerSilenceExpiry p.id))

/-- The moment the blocked timer exceeds its limit, unless BLOCKED_LONG has been raised in this dip (R57). -/
def State.blockedEnd (s : State) : Option Nat :=
  if s.scu.blockedLongMark then none else s.scu.blockedSince.map s.blockedDeadline

/-- The expiries of SCU that are due. -/
def State.dueScu (s : State) : List Instr :=
  dueAt s.now s.scu.windowEnd .claimWindowExpiry ++ dueAt s.now s.scu.guardEnd .guardExpiry
    ++ dueAt s.now s.scu.retryEnd .retryDelayExpiry ++ dueAt s.now s.blockedEnd .blockedLong
    ++ s.scu.entries.flatMap (fun e => dueAt s.now e.lapseEnd (.intentLapse e.holder))

/-- The expiries of HWN that are due: those of the records with the oldest arrival. -/
def State.dueHwn (s : State) : List Instr :=
  (List.range s.hwn.entries.length).flatMap (fun i =>
    if s.hwn.isOldest i then
      dueAt s.now (s.hwn.entries[i]?.map (fun e => e.arrival + s.windowMs)) (.entryExpiry i)
    else [])

/-- The expiries of DSQ that are due. -/
def State.dueDsq (s : State) : List Instr :=
  dueAt s.now s.dsq.dwellEnd .dwellExpiry ++ dueAt s.now s.dsq.drainEnd .abortDrainExpiry

/-- The expiries of MPT that are due. -/
def State.dueMpt (s : State) : List Instr :=
  match s.mpt.phase with
  | .idle => []
  | .awaitAccept _ _ => dueAt s.now s.mpt.acceptEnd .acceptTimeout
  | .running _ _ => dueAt s.now s.mpt.doneEnd .doneTimeout
  | .stopping _ => dueAt s.now s.mpt.acceptEnd .stopAcceptTimeout

/-- The expiries of WCH's task that are due. -/
def State.dueTask (s : State) : List Instr :=
  match s.wch.task with
  | .none => []
  | .settle t => dueAt s.now (some t.timeoutEnd) .settleTimeout
  | .drain t =>
    (if t.minPending then dueAt s.now (some (t.start + t.minimum * 1000)) .drainMinimum else [])
      ++ dueAt s.now (some (t.start + t.maximum * 1000)) .drainMaximum

/-- Every expiry that is due now. -/
def State.due (s : State) : List Instr :=
  s.dueLif ++ s.duePtb ++ s.dueScu ++ s.dueHwn ++ s.dueDsq ++ s.dueMpt
    ++ dueAt s.now (some s.wch.pollNext) .pollTimer ++ s.dueTask

/-- One of the commands that are due, chosen by free values; with the draws used. A single one is no choice. -/
def chooseDue (draw : Nat) (c : Instr) (rest : List Instr) : Instr × Nat :=
  match rest with
  | [] => (c, draw)
  | d :: more => if Config.dueFirst draw then (c, draw + 1) else chooseDue (draw + 1) d more

/-- A step with no command waiting (log 3): one of the expiries that are due is put in the queue; where none is due, the
time base counts one millisecond. -/
def State.tick (s : State) : State :=
  match s.due with
  | [] => s.withNow (s.now + 1)
  | c :: rest => (s.withDraws (chooseDue s.draws c rest).2).withPending [(chooseDue s.draws c rest).1]

end Sys2Proof.Machine
end

