-- ==== Sys2Proof/Machine/Receiving.lean ====
section
/-! DEFINITION. The bytes of the four ports as they are received: which command a frame of the host, of the drive, of the
kettle line or of the converter stands for (R2, R194, R210 to R212). The commands themselves carry whole frames; what a
receiver drops before one begins, and which command a frame that fails its check becomes, is said here. -/

namespace Sys2Proof.Machine

/-- What a receiver makes of the bytes that have arrived, the oldest first. -/
inductive Received where
  /-- Every byte was skipped: no frame has begun. -/
  | nothing
  /-- A frame has begun and is not complete; of the station port, a silence of more than 5 ms now is
  REQUEST_FRAME_TIMEOUT (R194). -/
  | incomplete
  /-- A complete frame stands for a command; the bytes after it are still to be read. -/
  | command (c : Instr) (rest : List Byte)
  deriving DecidableEq, Repr

/-- The bytes after the first start byte; a byte before it is skipped (R211). -/
def afterStart (start : Byte) (bs : List Byte) : Option (List Byte) :=
  match bs with
  | [] => none
  | b :: rest => if b = start then some rest else afterStart start rest

/-- The receiver's check: the computation of R210 over everything to the end of the CRC leaves a remainder of zero. -/
def checks (bs : List Byte) : Bool := crc16 bs == 0

/-! ### Station port (R194, R211) -/

/-- The start byte of a request frame, 1010 0101. -/
def requestStart : Byte := 0xA5

/-- The row of a request by its code; a code of no request is UNKNOWN_REQUEST (R196, R211). -/
def requestCommand (tag code : Byte) (body : List Byte) : Instr :=
  match code.toNat with
  | 1 => .setParam tag body
  | 2 => .sealRequest tag body
  | 3 => .readParam tag body
  | 4 => .readStatus tag body
  | 5 => .readEvent tag body
  | 6 => .ackGroup tag body
  | 7 => .setEnable tag body
  | 8 => .powerInfo tag body
  | 9 => .loadProgram tag body
  | 10 => .readProgram tag body
  | 11 => .lotOpen tag body
  | 12 => .lotFix tag body
  | 13 => .lotFreeClass tag body
  | 14 => .readLots tag body
  | 15 => .startDip tag body
  | 16 => .abortDip tag body
  | 17 => .confirmClear tag body
  | 18 => .ingot tag body
  | 19 => .setBalance tag body
  | 20 => .readRecord tag body
  | 21 => .peekRecord tag body
  | 22 => .clearPeer tag body
  | 23 => .readPeers tag body
  | 24 => .readSpans tag body
  | 25 => .readHeat tag body
  | 26 => .stationReset tag body
  | _ => .unknownRequest tag code body

/-- A complete frame, from its length to its CRC: the request it carries, or REQUEST_CHECK_FAIL where its check does not
match or its length leaves no place for a tag and a code (R194, log 47). -/
def requestOf (frame counted : List Byte) : Instr :=
  if checks frame then
    match counted with
    | tag :: code :: body => requestCommand tag code body
    | _ => .requestCheckFail
  else .requestCheckFail

/-- The receiver of the station port: bytes are skipped up to the start byte, and the frame is complete when it holds as
many bytes as its length announces, and its CRC (R194, R211). -/
def receiveRequest (bs : List Byte) : Received :=
  match afterStart requestStart bs with
  | none => .nothing
  | some held =>
    match held with
    | a :: b :: rest =>
      if rest.length < beNat [a, b] + 2 then .incomplete
      else .command (requestOf (held.take (beNat [a, b] + 4)) (rest.take (beNat [a, b]))) (rest.drop (beNat [a, b] + 2))
    | _ => .incomplete

/-! ### Motion line (R133, R212) -/

/-- The start byte of a response frame, 0011 1110. -/
def responseStart : Byte := 0x3E

/-- The row of a response by its code: 1 ACCEPT, 2 DONE, 3 FAIL. Another code, or a FAIL detail outside 1 to 4, is
discarded. -/
def responseCommand (code number detail : Byte) : Instr :=
  match code.toNat with
  | 1 => .motionAccept number
  | 2 => .motionDone number detail
  | 3 => if (failReason detail).isSome then .motionFail number detail else .motionFrameDiscarded
  | _ => .motionFrameDiscarded

/-- The receiver of the motion line: the response, the number and the detail after the start byte, and their CRC (R212,
log 47). -/
def receiveResponse (bs : List Byte) : Received :=
  match afterStart responseStart bs with
  | none => .nothing
  | some held =>
    match held with
    | code :: number :: detail :: hi :: lo :: rest =>
      .command (if checks [code, number, detail, hi, lo] then responseCommand code number detail
        else .motionFrameDiscarded) rest
    | _ => .incomplete

/-! ### Kettle line (R2, R5, R210) -/

/-- The start pattern of a kettle-line frame, 0101 1010. -/
def linePattern : Byte := 0x5A

/-- The row of a frame by its kind code; another code names no kind, and the frame is discarded (R5, R210). -/
def lineCommand (code : Nat) (src : StationId) (seq : Byte) (payload : List Byte) : Instr :=
  match code with
  | 1 => .holdFrame src seq payload
  | 2 => .freeFrame src seq payload
  | 3 => .yieldFrame src seq payload
  | 4 => .intentFrame src seq payload
  | 5 => .entryFrame src seq payload
  | 6 => .pickupFrame src seq payload
  | 7 => .ingotFrame src seq payload
  | 8 => .beaconFrame src seq payload
  | _ => .lineFrameDiscarded

/-- The bytes of a burst of line activity between two idle gaps: none where it does not open with the start pattern,
which is no frame (R2); else the frame's row, or LINE_FRAME_DISCARDED where the CRC does not match or the length is not
the announced one, at most 12 (R5). -/
def receiveLine (burst : List Byte) : Option Instr :=
  match burst with
  | [] => none
  | start :: held =>
    if start = linePattern then
      match held with
      | kind :: seq :: length :: rest =>
        if length.toNat ≤ 12 ∧ rest.length = length.toNat + 2 ∧ checks held = true then
          some (lineCommand (kind.toNat / 16) (kind.extractLsb' 0 4) seq (rest.take length.toNat))
        else some .lineFrameDiscarded
      | _ => some .lineFrameDiscarded
    else none

/-! ### Converter transfer (R142, R212) -/

/-- What the station sends the converter in a transfer of 32 clocks: zeros (R212). -/
def State.converterOut (s : State) : List Byte := if s.wch.transfer then [0, 0, 0, 0] else []

/-- The converter's reply of 32 clocks, a status byte and the 24-bit raw count, is a sample taken (R142, R212). -/
def receiveSample (reply : List Byte) : Option Instr :=
  match reply with
  | [status, a, b, c] => some (.sampleTaken status (BitVec.ofNat 24 (beNat [a, b, c])))
  | _ => none

end Sys2Proof.Machine
end

