-- ==== Sys2Proof/Safety.lean ====
section
/-! DEFINITION. What the statements about the station speak of: requests with their tags, codes, lengths and modes,
the invariants of the blocks' stores, and valid dip programs, each written from the spec's words. -/

namespace Sys2Proof.Machine

/-! ### Requests (R195 to R197, R211) -/

/-- Tag and request code of a request command (R211). -/
def requestHead (c : Instr) : Option (Byte × Byte) :=
  match c with
  | .unknownRequest tag code _ => some (tag, code)
  | .setParam tag _ => some (tag, 1)
  | .sealRequest tag _ => some (tag, 2)
  | .readParam tag _ => some (tag, 3)
  | .readStatus tag _ => some (tag, 4)
  | .readEvent tag _ => some (tag, 5)
  | .ackGroup tag _ => some (tag, 6)
  | .setEnable tag _ => some (tag, 7)
  | .powerInfo tag _ => some (tag, 8)
  | .loadProgram tag _ => some (tag, 9)
  | .readProgram tag _ => some (tag, 10)
  | .lotOpen tag _ => some (tag, 11)
  | .lotFix tag _ => some (tag, 12)
  | .lotFreeClass tag _ => some (tag, 13)
  | .readLots tag _ => some (tag, 14)
  | .startDip tag _ => some (tag, 15)
  | .abortDip tag _ => some (tag, 16)
  | .confirmClear tag _ => some (tag, 17)
  | .ingot tag _ => some (tag, 18)
  | .setBalance tag _ => some (tag, 19)
  | .readRecord tag _ => some (tag, 20)
  | .peekRecord tag _ => some (tag, 21)
  | .clearPeer tag _ => some (tag, 22)
  | .readPeers tag _ => some (tag, 23)
  | .readSpans tag _ => some (tag, 24)
  | .readHeat tag _ => some (tag, 25)
  | .stationReset tag _ => some (tag, 26)
  | _ => none

/-- The request is no repeat of the last one answered (R195). -/
def State.isFresh (s : State) (tag code : Byte) : Prop :=
  ∀ r, s.spt.store = some r → r.tag = tag → r.code ≠ code

/-- The state in which a request has been answered: its tag, code and response stored, the response given (R195). -/
def State.answered (s : State) (tag code : Byte) (body : List Byte) : State :=
  { s with spt := { s.spt with store := some ⟨tag, code, body⟩,
                               responses := s.spt.responses ++ [⟨tag, code, body⟩] } }

/-- The length of the argument body agrees with the request code; for LOAD_PROGRAM with the step count and the record
sizes (R196, R211). -/
def lengthAgrees (c : Instr) : Bool :=
  match c with
  | .setParam _ body => body.length == 5
  | .sealRequest _ body => body.length == 0
  | .readParam _ body => body.length == 1
  | .readStatus _ body => body.length == 0
  | .readEvent _ body => body.length == 0
  | .ackGroup _ body => body.length == 1
  | .setEnable _ body => body.length == 2
  | .powerInfo _ body => body.length == 0
  | .loadProgram _ body => decide (5 ≤ body.length) && (splitRecords ((body[4]?).getD 0).toNat (body.drop 5)).isSome
  | .readProgram _ body => body.length == 1
  | .lotOpen _ body => body.length == 3
  | .lotFix _ body => body.length == 3
  | .lotFreeClass _ body => body.length == 2
  | .readLots _ body => body.length == 0
  | .startDip _ body => body.length == 5
  | .abortDip _ body => body.length == 0
  | .confirmClear _ body => body.length == 0
  | .ingot _ body => body.length == 2
  | .setBalance _ body => body.length == 4
  | .readRecord _ body => body.length == 0
  | .peekRecord _ body => body.length == 0
  | .clearPeer _ body => body.length == 1
  | .readPeers _ body => body.length == 0
  | .readSpans _ body => body.length == 0
  | .readHeat _ body => body.length == 0
  | .stationReset _ body => body.length == 0
  | _ => true

/-- The modes a request is taken in, by its code (R197): SET_PARAM and SEAL in SETUP, codes 3 to 8 in both, the others
in READY. -/
def codeAllowed (ready : Bool) (code : Byte) : Bool :=
  if code.toNat ≤ 2 then !ready else if code.toNat ≤ 8 then true else ready

/-- A request reaches its owner in READY as no repeat. -/
def State.asksReady (s : State) (tag code : Byte) : Prop := s.cfg.ready = true ∧ s.isFresh tag code

/-- A request reaches its owner in SETUP as no repeat. -/
def State.asksSetup (s : State) (tag code : Byte) : Prop := s.cfg.ready = false ∧ s.isFresh tag code

/-! ### Kettle-line frames (R4, R5) -/

/-- Source ID and sequence number of a received frame whose length is that of its kind and whose fields lie in their
ranges, at a kettle of `n` cells (R4, R5). -/
def goodFrame (n : Nat) (c : Instr) : Option (StationId × Byte) :=
  match c with
  | .beaconFrame src seq payload => (decodeBeacon n payload).map (fun _ => (src, seq))
  | .intentFrame src seq payload => (decodeIntent n payload).map (fun _ => (src, seq))
  | .holdFrame src seq payload => (decodeHold n payload).map (fun _ => (src, seq))
  | .yieldFrame src seq payload => (decodeClaimNo payload).map (fun _ => (src, seq))
  | .freeFrame src seq payload => (decodeClaimNo payload).map (fun _ => (src, seq))
  | .entryFrame src seq payload => (decodeEntry payload).map (fun _ => (src, seq))
  | .pickupFrame src seq payload => (decodePickup payload).map (fun _ => (src, seq))
  | .ingotFrame src seq payload => (decodeIngot payload).map (fun _ => (src, seq))
  | _ => none

/-- The payload a received frame carries. -/
def framePayload (c : Instr) : Option (List Byte) :=
  match c with
  | .beaconFrame _ _ payload => some payload
  | .intentFrame _ _ payload => some payload
  | .holdFrame _ _ payload => some payload
  | .yieldFrame _ _ payload => some payload
  | .freeFrame _ _ payload => some payload
  | .entryFrame _ _ payload => some payload
  | .pickupFrame _ _ payload => some payload
  | .ingotFrame _ _ payload => some payload
  | _ => none

/-- The condition a frame reports of its sender: a BEACON's, and none of another kind (R26, R28). -/
def reportedCondition (n : Nat) (c : Instr) : Option Condition :=
  match c with
  | .beaconFrame _ _ payload => (decodeBeacon n payload).map BeaconInfo.condition
  | _ => none

/-- A good frame from a peer arrives while the line is not OFF. -/
def State.hears (s : State) (src : StationId) : Prop := s.lif.line ≠ .off ∧ src ≠ s.ownId

/-- First and last cell of a span a frame carries lie in range, or the span is whole (R4); `w` is the whole flag. -/
def SpanInRange (n : Nat) (f l : Byte) (w : Bool) : Prop := w = true ∨ (f.toNat ≤ l.toNat ∧ l.toNat < n)

/-! ### Zinc -/

/-- The zinc level state in which the table of R180 leaves a station whose estimate becomes `z`. -/
def State.levelAt (s : State) (z : Nat) : ZincLevel :=
  if z < s.cfg.params.zStop then .stopped
  else if z < s.cfg.params.zLow then (if s.zbr.level = .stopped then .stopped else .low)
  else .normal

/-- The zinc level state has been evaluated for the estimate `z`: by the table of R180, with its events, and not at all
while BALANCE_UNSET is set. -/
def State.levelEvaluated (s : State) (z : Nat) (t : State) : Prop :=
  t.zbr.level = (if s.zbr.unset then s.zbr.level else s.levelAt z) ∧
    (s.zbr.level = .normal → t.zbr.level ≠ .normal → t.spt.isRaised .zLowEv = true) ∧
    (s.zbr.level ≠ .stopped → t.zbr.level = .stopped → t.spt.isRaised .zStopEv = true) ∧
    (s.zbr.level = .stopped → t.zbr.level = .normal → t.spt.isRaised .zRestored = true)

/-! ### Dips -/

/-- The step after the current one (R93, R103). -/
def State.nextStep (s : State) (c : DipCtx) : Option DipStep :=
  (s.pgs.slots[c.slot]?).join.bind (fun p => p.steps[c.index + 1]?)

/-- The dip context with the step index at the next step (R103). -/
def DipCtx.next (c : DipCtx) : DipCtx := { c with index := c.index + 1 }

/-- The state in which the step after the current one is taken, when the dwell timer reaches its end `e` (R103, R111; the
time base is log 4). -/
def State.afterDwell (s : State) (c : DipCtx) (e : Nat) : State :=
  { s with now := max s.now e, dsq := { s.dsq with dwellEnd := none, ctx := some c.next } }

/-- The context once the immersion timer, running since a moment, has stopped (R110). -/
def DipCtx.outOfZinc (c : DipCtx) (since : Option Nat) (now : Nat) : DipCtx :=
  match since with
  | some t => { c with immersionTime := min 65535 (c.immersionTime + roundNat (now - t) 100) }
  | none => c

/-- The context once WCH's task has been ended without a result: the elapsed time of a drain is added (R122, R123,
R157). -/
def DipCtx.outOfTask (c : DipCtx) (task : WchTask) (now : Nat) : DipCtx :=
  match task with
  | .drain w => { c with drainTime := min 65535 (c.drainTime + roundNat (now - w.start) 100) }
  | _ => c

/-- The context of a dip being aborted (R121). -/
def DipCtx.marked (c : DipCtx) : DipCtx := { c with abortMark := true }

/-- MPT with a request just handed over: it has the counter's number, and its frame is the last to leave (R131, R212; its
phase before the last byte is log 18). -/
def Mpt.handed (m : Mpt) (r : MotionRequest) : Mpt :=
  { m with phase := .awaitAccept r m.counter, counter := m.counter + 1, acceptEnd := none, doneEnd := none,
           sending := m.sending ++ [MotionTx.mk m.counter (motionFrame r.kind m.counter r.params)] }

/-- MPT with a STOP just handed over, which cancels the outstanding request `r` of number `n`; of a MOVE the hook cell is
absent (R137, R139; the phase before the last byte is log 18). -/
def Mpt.stopping (m : Mpt) (r : MotionRequest) (n : Byte) : Mpt :=
  { m with phase := .stopping m.counter, counter := m.counter + 1, cancelled := some n, acceptEnd := none,
           doneEnd := none, hook := (if r.kind = .move then none else m.hook),
           sending := m.sending ++ [MotionTx.mk m.counter (motionFrame .stop m.counter [])] }

/-- WCH with a settle wait of some seconds just started (R149). -/
def Wch.settling (w : Wch) (now seconds : Nat) : Wch :=
  { w with task := .settle { timeoutEnd := now + seconds * 1000, stepCount := 0, runCount := 0 } }

/-- The context after a weigh result, of a WEIGH_DRY or, where `out` is set, of a weigh-out: the mass, absent for no mass,
its flag, and the marks that come with it (R104). -/
def DipCtx.weighed (c : DipCtx) (out : Bool) (mass : Option Int) (isOver unsettled : Bool) : DipCtx :=
  let marked : QualityFlags :=
    { c.quality with overMark := c.quality.overMark || isOver, unsettled := c.quality.unsettled || unsettled }
  if out then { c with wet := mass, quality := { marked with noWet := mass.isNone } }
  else { c with dry := mass, quality := { marked with noDry := mass.isNone } }

/-- A sample of this status is valid and completes the block being formed, the channel being ACTIVE (R142, R146). -/
def State.completesBlock (s : State) (status : Byte) : Prop :=
  status.getLsbD 0 = false ∧ status.getLsbD 1 = true ∧ s.wch.lost = false ∧ s.wch.forming.length = 9

/-- The block history once a valid sample has completed the block being formed (R146, R147). -/
def State.historyWith (s : State) (raw : BitVec 24) : List Block :=
  (if s.wch.history.length < 16 then s.wch.history else s.wch.history.drop 1)
    ++ [blockOf (s.wch.forming ++ [scale s.cfg.params raw]) s.now]

/-- The reading of a settle wait is settled at a block, `newest` being the S newest blocks with it: the run count reaches S,
and they lie within the band (R150). -/
def State.settles (s : State) (w : SettleTask) (newest : List Block) : Prop :=
  s.cfg.params.settleBlocks ≤ w.runCount + 1 ∧
    ∀ x ∈ newest, ∀ y ∈ newest, x.value - y.value ≤ s.cfg.params.settleBand

/-- The abort path once nothing is in flight: a load BELOW is raised at speed class 1, else the abort drain begins, and a
drain time of 0 passes through to the weigh-out of 30 s (R123). -/
def State.pathGoesOn (s : State) (c : DipCtx) : State :=
  if s.dsq.position = .below then
    { s with
      dsq := { s.dsq with state := .aborting .raising, immersionSince := none,
                          ctx := some (c.outOfZinc s.dsq.immersionSince s.now) },
      mpt := s.mpt.handed (.raise 1) }
  else if s.cfg.params.abortDrain = 0 then
    { s with dsq := { s.dsq with state := .aborting .weighing, ctx := some c }, wch := s.wch.settling s.now 30 }
  else
    { s with dsq := { s.dsq with state := .aborting .draining, ctx := some c,
                                 drainEnd := some (s.now + s.cfg.params.abortDrain * 1000) } }

/-- DSQ works on a dip: a state in which ABORT_DIP finds "any other state" of R121, with no held span waiting for its
release. -/
def State.working (s : State) : Prop :=
  s.dsq.state ≠ .idle ∧ s.dsq.state ≠ .parked ∧ s.dsq.state ≠ .halted ∧ (∀ p, s.dsq.state ≠ .aborting p) ∧
    (s.dsq.state = .awaitRelease → s.scu.state.isHeld = false)

/-- A record has been made of a context with an outcome: numbered, appended, RECORD_READY raised, an own PICKUP offered
and applied, and the dip's lot stepped in its place (R129, R160, R176, R188). `placed` says that the transmit queue had
room for what the command offers. -/
structure RecordMade (s : State) (c : DipCtx) (o : DipOutcome) (placed : Prop) (t : State) : Prop where
  number : t.zbr.nextNumber = s.zbr.nextNumber + 1
  numbers : t.zbr.ring.map DipRecord.number =
    (if s.zbr.ring.length < 32 then s.zbr.ring else s.zbr.ring.drop 1).map DipRecord.number ++ [s.zbr.nextNumber]
  last : ∃ q m, t.zbr.ring.getLast? = some q ∧
    q = { makeRecord s.cfg.params s.pku c o with
          number := s.zbr.nextNumber,
          flags := { (makeRecord s.cfg.params s.pku c o).flags with txDropped := m } }
  ready : t.spt.isRaised .recordReady = true
  overrun : 32 ≤ s.zbr.ring.length → t.spt.isRaised .ringOverrun = true
  balance : t.zbr.z = s.zbr.z - (makeRecord s.cfg.params s.pku c o).consumption
  sequence : t.zbr.ownSeq = s.zbr.ownSeq + 1
  pickup : placed → t.lif.holds (· == .pickup s.zbr.ownSeq (makeRecord s.cfg.params s.pku c o).consumption
    (reportedClass (makeRecord s.cfg.params s.pku c o).dipClass) c.serial) = true
  lots : t.pku.lots.map (fun x => (x.tag, x.mask, x.dips, x.classifier)) = s.pku.lots.map (fun x =>
    if c.lot ≠ 0 ∧ x.tag = c.lot then
      (x.tag, x.mask, min 65535 (x.dips + 1), (stepIfClassified s.cfg.params.lockCount x.classifier
        (makeRecord s.cfg.params s.pku c o).dipClass).1)
    else (x.tag, x.mask, x.dips, x.classifier))
  events : ∀ x, c.lot ≠ 0 → s.pku.lotOf c.lot = some x → ∀ e ∈ (stepIfClassified s.cfg.params.lockCount x.classifier
    (makeRecord s.cfg.params s.pku c o).dipClass).2, t.spt.isRaised e = true

/-! ### Events (R205) -/

/-- A group after some events of it have been raised: flags are only added, enables and mark stand. -/
def GroupGrows (g x : Group) : Prop :=
  x.enables = g.enables ∧ x.inService = g.inService ∧ g.flags ||| x.flags = x.flags

/-- The station port after some events have been raised: nothing but flags is added. -/
structure EventsGrow (t x : Spt) : Prop where
  store : x.store = t.store
  rxBytes : x.rxBytes = t.rxBytes
  responses : x.responses = t.responses
  g1 : GroupGrows t.g1 x.g1
  g2 : GroupGrows t.g2 x.g2
  g3 : GroupGrows t.g3 x.g3
  g4 : GroupGrows t.g4 x.g4

/-! ### Invariants of the stores -/

/-- The heat window holds at most 24 records, and the window sum is the total of their masses (R68, R71, R72). -/
def WindowOk (h : Hwn) : Prop := h.entries.length ≤ 24 ∧ h.sum = (h.entries.map HeatEntry.mass).sum

/-- Frames of the transmit queue that are BEACONs, the current frame among them. -/
def Lif.beacons (l : Lif) : Nat :=
  (l.waiting.filter (fun f => f == .beacon)).length
    + (if l.current.map Current.frame = some .beacon then 1 else 0)

/-- The transmit queue holds at most 8 frames and at most one BEACON (R17, R19). -/
def QueueOk (l : Lif) : Prop := l.places ≤ 8 ∧ l.beacons ≤ 1

/-- The dip numbers rise by exactly one, modulo 2^32, and end before `next`. -/
def numbersRise (next : BitVec 32) (rs : List DipRecord) : Prop :=
  match rs with
  | [] => True
  | [r] => next = r.number + 1
  | r :: q :: rest => q.number = r.number + 1 ∧ numbersRise next (q :: rest)

/-- The record ring holds at most 32 records, numbered without a gap up to the next dip number (R188, R189). -/
def RingOk (z : Zbr) : Prop := z.ring.length ≤ 32 ∧ numbersRise z.nextNumber z.ring

/-- The lot table holds at most 8 lots, no two of one tag, and none of tag 0 (R170). -/
def LotsOk (k : Pku) : Prop := k.lots.length ≤ 8 ∧ (k.lots.map Lot.tag).Nodup ∧ ∀ l ∈ k.lots, l.tag ≠ 0

/-- Z stays within 0 and Z_max (R179); in SETUP it is 0, the line is OFF, and no frame is current (R9, R179). -/
def BalanceOk (s : State) : Prop :=
  s.zbr.z ≤ s.cfg.params.zMax ∧
    (s.cfg.ready = false → s.zbr.z = 0 ∧ s.lif.line = .off ∧ s.lif.current = none)

/-- The stores of the station are as their rules keep them. -/
structure StoresOk (s : State) : Prop where
  window : WindowOk s.hwn
  queue : QueueOk s.lif
  ring : RingOk s.zbr
  lots : LotsOk s.pku
  balance : BalanceOk s

/-! ### Dip programs (R82, R86 to R90) -/

/-- The parameters of a step lie in the ranges of R82 and, for a DRAIN, in the order of R88. The length of a whole CLAIM
is not tested; its record holds a byte, as a TRAVEL's holds a byte for the cell (section 12.3). -/
def StepOk (cells : Nat) (st : DipStep) : Prop :=
  match st with
  | .weighDry t => 1 ≤ t ∧ t ≤ 120
  | .travel c => c < cells ∧ c ≤ 255
  | .claim l w => l ≤ 255 ∧ (w = true ∨ (1 ≤ l ∧ l ≤ 96))
  | .lower d v f => (100 ≤ d ∧ d ≤ 4000) ∧ (1 ≤ v ∧ v ≤ 4) ∧ (100 ≤ f ∧ f ≤ 1000)
  | .dwell d => 1 ≤ d ∧ d ≤ 1800
  | .raise v => 1 ≤ v ∧ v ≤ 4
  | .drain mn mx h l q =>
    mn ≤ 600 ∧ (1 ≤ mx ∧ mx ≤ 900) ∧ (1 ≤ h ∧ h ≤ 5000) ∧ l ≤ 4999 ∧ (1 ≤ q ∧ q ≤ 20) ∧ l < h ∧ mn ≤ mx
  | .vibrate d => 1 ≤ d ∧ d ≤ 60
  | .weighOut t => 1 ≤ t ∧ t ≤ 120
  | .release => True
  | .finish => True
  | .chain t => t ≤ 15

/-- A CLAIM, a LOWER, a RELEASE, a step that ends a program. -/
def DipStep.isClaim (st : DipStep) : Bool :=
  match st with
  | .claim _ _ => true
  | _ => false

def DipStep.isLower (st : DipStep) : Bool :=
  match st with
  | .lower _ _ _ => true
  | _ => false

/-- The hold checks at an index (R90). -/
def HoldsOk (steps : List DipStep) (i : Nat) (st : DipStep) : Prop :=
  (st.isLower = true → ∃ j, j < i ∧ (steps[j]?.map DipStep.isClaim) = some true ∧
      ∀ k, j < k → k < i → steps[k]? ≠ some .release) ∧
    (st = .release → ∃ j, j < i ∧ (steps[j]?.map DipStep.isClaim) = some true)

/-- A program that passes every check of R86 to R90 at a kettle length. -/
structure ProgramOk (cells : Nat) (p : Program) : Prop where
  count : 1 ≤ p.steps.length ∧ p.steps.length ≤ 16
  flux : p.flux ≤ 30
  steps : ∀ st ∈ p.steps, StepOk cells st
  ending : ∀ i st, p.steps[i]? = some st → (st.isEnding = true ↔ i + 1 = p.steps.length)
  holds : p.continuation = false → ∀ i st, p.steps[i]? = some st → HoldsOk p.steps i st

/-- The argument body of the LOAD_PROGRAM that carries a program for a slot (R211, section 12.3). -/
def loadBody (slot : Byte) (p : Program) : List Byte :=
  [slot, if p.continuation then 1 else 0, BitVec.ofNat 8 p.defaultClass.code, BitVec.ofNat 8 p.flux,
    BitVec.ofNat 8 p.steps.length] ++ p.steps.flatMap encodeStep

end Sys2Proof.Machine
end

