-- ==== Sys2Proof/Certificates/Slice0/Obligations.lean ====
section
/-! DEFINITION. The statements about the station, for the provers: what every step keeps, and what each command does, by
the rules of spec/. -/

section StationStatements

open Sys2Proof Sys2Proof.Machine

/-! ### The queue, the clock and what every command keeps -/

/-- Step takes the command at the front of the queue and runs it on the state with the queue's rest. -/
def Obligations.StepTakesTheFrontCommand : Prop :=
  ∀ (s : State) (c : Instr) (rest : List Instr), s.pending = c :: rest →
    step s = exec c { s with pending := rest }

/-- With no command waiting and no timer due, a step is one millisecond; with timers due, it queues the expiry of one of
them and the time base stands. The model's choice (log 3). -/
def Obligations.EmptyQueueStepCountsTheTimeBase : Prop :=
  ∀ s : State, s.pending = [] →
    (s.due = [] → step s = .next { s with now := s.now + 1 }) ∧
      (s.due ≠ [] → ∃ c ∈ s.due, ∃ d, step s = .next { s with pending := [c], draws := d })

/-- Every command in every state answers a next state; it neither takes nor adds waiting commands, and only POWER_ON_RESET
sets the time base back. The model's deduction: that the part stops nowhere is log 30, and the time base, which no rule
lets run back, is that of logs 2 and 4. -/
def Obligations.EveryCommandAnswersANextState : Prop :=
  ∀ (c : Instr) (s : State), ∃ t, exec c s = .next t ∧ t.pending = s.pending ∧ t.draws = s.draws ∧
    (c ≠ .powerOnReset → s.now ≤ t.now)

/-- POWER_ON_RESET leaves every block, field by field, at the values its reset table gives, whatever the state before; the
waiting commands and the draw counter, which belong to the model, stand. The model's choices among the values: the time
base at 0 (logs 2 and 3), the kept value of the stopped blocked timer and the absent wait age (log 14), the first poll
at 20 ms (log 20), no drip value (log 21), the list of the responses empty (log 26). -/
def Obligations.PowerOnResetTakesTheResetValues : Prop :=
  (∀ s : State, exec .powerOnReset s = .next { State.reset with pending := s.pending, draws := s.draws }) ∧
  State.reset = {
    pending := [], now := 0, draws := 0,
    cfg := {
      ready := false, isSealed := false,
      params := {
        stationId := none, cells := none, margin := 1, beaconPeriod := 500, claimWindow := 300, guardTime := 100,
        blockedLimit := 600, window := 120, budget := 12000, moveTimeout := 120, verticalTimeout := 90,
        abortDrain := 30, zero := 0, gain := 4096, tare := 0, settleBlocks := 5, settleBand := 5, deadband := 2,
        acceptBand := 25, lockCount := 3, mask := 31#5, zMax := 5000000, zLow := 2000000, zStop := 1500000,
        classes :=
          #v[⟨45, 3, 80, 600⟩, ⟨60, 9, 110, 300⟩, ⟨95, 18, 140, 180⟩, ⟨70, 6, 100, 480⟩, ⟨130, 25, 170, 120⟩] } },
    lif := { line := .off, score := 0, seq := 0, waiting := [], current := none, joinEnd := none, beaconNext := none,
             clashEnd := none },
    ptb := { peers := [] },
    scu := { entries := [], state := .none, wanted := none, own := none, withdrawal := .none, held := none,
             nextClaim := 0, windowEnd := none, guardEnd := none, retryEnd := none, blockedSince := none,
             blockedHeld := 0, blockedLongMark := false, requestTime := none, lastAge := none, lastEntry := 15 },
    hwn := { entries := [], sum := 0, request := .none },
    pgs := { slots := Vector.replicate 16 none },
    dsq := { state := .idle, ctx := none, position := .clear, cause := none, dwellEnd := none, immersionSince := none,
             drainEnd := none },
    mpt := { phase := .idle, counter := 0, cancelled := none, lastStop := none, acceptEnd := none, doneEnd := none,
             hook := none, sending := [] },
    wch := { pollNext := 20, transfer := false, lastSample := none, lastValid := none, lost := false, invalidRun := 0,
             validRun := 0, forming := [], history := [], task := .none,
             slicer := { isQuiet := false, quietRun := 0, drip := 0, frozen := false, lastDrip := none } },
    pku := { lots := [] },
    zbr := { z := 0, unset := true, gap := false, level := .normal, lastPickup := none, lastIngot := none, ring := [],
             nextNumber := 1, ownSeq := 0, serial := 0 },
    spt := { g1 := { flags := 0, enables := 255, inService := false },
             g2 := { flags := 0, enables := 255, inService := false },
             g3 := { flags := 0, enables := 255, inService := false },
             g4 := { flags := 0, enables := 31, inService := false },
             store := none, rxBytes := [], responses := [] } }

/-- The invariants of the stores hold after reset. -/
def Obligations.StoresHoldAtReset : Prop := StoresOk State.reset

/-- Every step keeps the invariants of the stores: at most 24 entry records whose masses sum to the window sum, at most 8
frames and one BEACON in the transmit queue, at most 32 records numbered without a gap, at most 8 lots of different tags,
and Z within 0 and Z_max. -/
def Obligations.StoresAreKeptByEveryStep : Prop :=
  ∀ s t : State, StoresOk s → step s = .next t → StoresOk t

/-- In READY no command but POWER_ON_RESET changes the commissioning set, the seal or the mode, and no command but
LOAD_PROGRAM and POWER_ON_RESET changes a program. -/
def Obligations.SealedSetAndProgramsAreFixed : Prop :=
  ∀ (c : Instr) (s : State), c ≠ .powerOnReset → ∃ t, exec c s = .next t ∧
    (s.cfg.ready = true → t.cfg = s.cfg) ∧ ((∀ tag body, c ≠ .loadProgram tag body) → t.pgs = s.pgs)

/-- Flags are only added, enables and in-service marks stand, in every command but READ_EVENT, ACK_GROUP, SET_ENABLE and
the resets. -/
def Obligations.EventFlagsStandUntilRead : Prop :=
  ∀ (c : Instr) (s : State), c ≠ .powerOnReset →
    (∀ tag body, c ≠ .readEvent tag body ∧ c ≠ .ackGroup tag body ∧ c ≠ .setEnable tag body ∧
      c ≠ .stationReset tag body) →
    ∃ t, exec c s = .next t ∧ GroupGrows s.spt.g1 t.spt.g1 ∧ GroupGrows s.spt.g2 t.spt.g2 ∧
      GroupGrows s.spt.g3 t.spt.g3 ∧ GroupGrows s.spt.g4 t.spt.g4

/-! ### The exchange on the station port -/

/-- A repeat is answered with the stored response and nothing else happens; any other request is answered, and its tag,
code and response replace the stored ones. Power-on reset empties the store. -/
def Obligations.RepeatIsAnsweredFromTheStore : Prop :=
  ∀ (s : State) (c : Instr) (tag code : Byte), requestHead c = some (tag, code) →
    (∀ r, s.spt.store = some r → r.tag = tag → r.code = code →
      exec c s = .next { s with spt := { s.spt with responses := s.spt.responses ++ [r] } }) ∧
    (s.isFresh tag code → ∃ t body, exec c s = .next t ∧ t.spt.store = some ⟨tag, code, body⟩ ∧
      t.spt.responses = s.spt.responses ++ [⟨tag, code, body⟩]) ∧
    ∃ t, exec .powerOnReset s = .next t ∧ t.spt.store = none

/-- Bytes before a start byte 1010 0101 are skipped, a frame is complete when it holds the bytes its length announces and
its CRC, and a complete frame whose check does not match is REQUEST_CHECK_FAIL. That command and REQUEST_FRAME_TIMEOUT drop
the frame without a response; a code that names no request (of a code that does, the command is ill formed, and BAD_ARG
all the same is the model's choice, log 36) and a length that does not agree with the code are answered BAD_ARG. None has
another effect. -/
def Obligations.UnfittingRequestsHaveNoEffect : Prop :=
  (∀ s : State, exec .requestFrameTimeout s = .next { s with spt := { s.spt with rxBytes := [] } } ∧
    exec .requestCheckFail s = .next { s with spt := { s.spt with rxBytes := [] } }) ∧
  (∀ (s : State) (tag code : Byte) (body : List Byte), s.isFresh tag code →
    exec (.unknownRequest tag code body) s = .next (s.answered tag code [4])) ∧
  (∀ (s : State) (c : Instr) (tag code : Byte), requestHead c = some (tag, code) → s.isFresh tag code →
    lengthAgrees c = false → exec c s = .next (s.answered tag code [4])) ∧
  (∀ skipped bs : List Byte, (∀ b ∈ skipped, b ≠ 0xA5) → receiveRequest skipped = .nothing ∧
    receiveRequest (skipped ++ 0xA5 :: bs) = receiveRequest (0xA5 :: bs)) ∧
  ∀ (a b : Byte) (counted crc rest : List Byte), crc.length = 2 → counted.length = beNat [a, b] →
    (∀ n, n < counted.length + 2 → receiveRequest (0xA5 :: a :: b :: (counted ++ crc).take n) = .incomplete) ∧
    (crc16 (a :: b :: (counted ++ crc)) ≠ 0 →
      receiveRequest (0xA5 :: a :: b :: (counted ++ crc ++ rest)) = .command .requestCheckFail rest) ∧
    (∀ tag code body, crc16 (a :: b :: (counted ++ crc)) = 0 → counted = tag :: code :: body →
      ∃ c, receiveRequest (0xA5 :: a :: b :: (counted ++ crc ++ rest)) = .command c rest ∧
        requestHead c = some (tag, code))

/-- A request whose mode is not shown is answered BAD_STATE and has no effect. -/
def Obligations.ModeNotShownIsBadState : Prop :=
  ∀ (s : State) (c : Instr) (tag code : Byte), requestHead c = some (tag, code) → s.isFresh tag code →
    (∀ body, c ≠ .unknownRequest tag code body) → lengthAgrees c = true → codeAllowed s.cfg.ready code = false →
    exec c s = .next (s.answered tag code [5])

/-! ### Commissioning -/

/-- SET_PARAM in SETUP: a quantity takes the value or the nearest limit of its range, the station ID and the candidate
mask take a value within their range, no other parameter changes, a change of the scale empties the weigh history, and
what names nothing is answered BAD_ARG. -/
def Obligations.SetParamWritesOneParameter : Prop :=
  ∀ (s : State) (tag n b3 b2 b1 b0 : Byte), s.asksSetup tag 1 →
    (∀ w : Int, ∀ clamped : Bool,
      ((∃ lo hi, paramKind n.toNat = some (.quantity lo hi) ∧
          w = max lo (min hi (beInt32 [b3, b2, b1, b0])) ∧ (clamped = true ↔ w ≠ beInt32 [b3, b2, b1, b0])) ∨
        (n = 1 ∧ w = beInt32 [b3, b2, b1, b0] ∧ 0 ≤ w ∧ w ≤ 15 ∧ clamped = false) ∨
        (n = 21 ∧ w = beInt32 [b3, b2, b1, b0] ∧ 1 ≤ w ∧ w ≤ 31 ∧ clamped = false)) →
      ∃ p : Params, p.get n.toNat = some w ∧ (∀ m, m ≠ n.toNat → p.get m = s.cfg.params.get m) ∧
        exec (.setParam tag [n, b3, b2, b1, b0]) s =
          .next ({ s with
            cfg := { s.cfg with params := p },
            wch := if p.scale = s.cfg.params.scale then s.wch else { s.wch with history := [], forming := [] }
          }.answered tag 1 [if clamped then 1 else 0])) ∧
    ((paramKind n.toNat = none ∨
        (n = 1 ∧ (beInt32 [b3, b2, b1, b0] < 0 ∨ 15 < beInt32 [b3, b2, b1, b0])) ∨
        (n = 21 ∧ (beInt32 [b3, b2, b1, b0] < 1 ∨ 31 < beInt32 [b3, b2, b1, b0]))) →
      exec (.setParam tag [n, b3, b2, b1, b0]) s = .next (s.answered tag 1 [4]))

/-- SEAL is refused with the number of the first parameter that fails a check, in the order of R201. -/
def Obligations.SealRefusesTheFirstFailingCheck : Prop :=
  ∀ (s : State) (tag : Byte), s.asksSetup tag 2 →
    (s.cfg.params.stationId = none → exec (.sealRequest tag []) s = .next (s.answered tag 2 [3, 1])) ∧
    (s.cfg.params.stationId ≠ none → s.cfg.params.cells = none →
      exec (.sealRequest tag []) s = .next (s.answered tag 2 [3, 2])) ∧
    (∀ n, s.cfg.params.stationId ≠ none → s.cfg.params.cells = some n →
      (n ≤ 4 * s.cfg.params.margin → exec (.sealRequest tag []) s = .next (s.answered tag 2 [3, 3])) ∧
      (4 * s.cfg.params.margin < n → s.cfg.params.zMax ≤ s.cfg.params.zLow →
        exec (.sealRequest tag []) s = .next (s.answered tag 2 [3, 23])) ∧
      (4 * s.cfg.params.margin < n → s.cfg.params.zLow < s.cfg.params.zMax →
        s.cfg.params.zLow ≤ s.cfg.params.zStop →
        exec (.sealRequest tag []) s = .next (s.answered tag 2 [3, 24])))

/-- An accepted SEAL seals the set, makes the mode READY, and puts the line in JOINING with the join timer at four beacon
periods and the beacon timer at one. That the first BEACON becomes the current frame in the same taking is the model's
deduction (log 32). -/
def Obligations.SealJoinsTheLine : Prop :=
  ∀ (s : State) (tag : Byte) (n : Nat), s.asksSetup tag 2 →
    s.cfg.params.stationId ≠ none → s.cfg.params.cells = some n → 4 * s.cfg.params.margin < n →
    s.cfg.params.zLow < s.cfg.params.zMax → s.cfg.params.zStop < s.cfg.params.zLow →
    s.lif.waiting = [] → s.lif.current = none → s.scu.state = .none →
    exec (.sealRequest tag []) s =
      .next ({ s with
        cfg := { s.cfg with ready := true, isSealed := true },
        lif := { s.lif with
          line := .joining, joinEnd := some (s.now + 4 * s.cfg.params.beaconPeriod),
          beaconNext := some (s.now + s.cfg.params.beaconPeriod),
          current := some { frame := .beacon, attempts := 0, phase := .deferring, withdrawHeld := false,
                            removeOnFail := false } }
      }.answered tag 2 [0])

/-! ### Reading -/

/-- The reading requests answer OK and change nothing but the answer. The bytes of their fields are the model's own, the
parameter's, the status, the program's, the lots', the peers', the spans' and the heat window's, in the order of their
rules; what no rule gives of them are the model's choices of logs 14, 21, 22, 41 to 45 and 49. -/
def Obligations.ReadingRequestsChangeNothing : Prop :=
  ∀ (s : State) (tag n : Byte),
    (s.isFresh tag 3 →
      exec (.readParam tag [n]) s =
        .next (s.answered tag 3 (if paramKind n.toNat = none then [4] else 0 :: s.paramBytes n.toNat))) ∧
    (s.isFresh tag 4 → exec (.readStatus tag []) s = .next (s.answered tag 4 (0 :: s.statusBytes))) ∧
    (s.asksReady tag 10 →
      exec (.readProgram tag [n]) s =
        .next (s.answered tag 10 (if 15 < n.toNat then [4] else 0 :: s.programBytes n.toNat))) ∧
    (s.asksReady tag 14 →
      exec (.readLots tag []) s =
        .next (s.answered tag 14 (0 :: BitVec.ofNat 8 s.pku.lots.length :: s.pku.lots.flatMap Lot.bytes))) ∧
    (s.asksReady tag 23 →
      exec (.readPeers tag []) s =
        .next (s.answered tag 23
          (0 :: BitVec.ofNat 8 s.ptb.peers.length :: s.ptb.peers.flatMap (fun p => p.bytes s.now)))) ∧
    (s.asksReady tag 24 → exec (.readSpans tag []) s = .next (s.answered tag 24 (0 :: s.spansBytes))) ∧
    (s.asksReady tag 25 → exec (.readHeat tag []) s = .next (s.answered tag 25 (0 :: s.heatBytes)))

/-- POWER_INFO answers OK in both modes with vendor code 58, part code 3,335 and revision 1, and has no effect. -/
def Obligations.PowerInfoGivesTheIdentity : Prop :=
  ∀ (s : State) (tag : Byte), s.isFresh tag 8 →
    exec (.powerInfo tag []) s = .next (s.answered tag 8 [0, 58, 13, 7, 1])

/-! ### Events -/

/-- READ_EVENT serves the first presentable event of the lowest-numbered group that has one: it clears its flag, marks the
group in service, and answers the group, the event and the flags that remain; with none presentable, NONE and no
change. That NONE is answered as group 0, place 0 and an empty mask is the model's choice where R211 gives only the place
(log 22). -/
def Obligations.ReadEventServesTheFirstPresentableEvent : Prop :=
  ∀ (s : State) (tag : Byte), s.isFresh tag 5 →
    (∀ g place, 1 ≤ g → g ≤ 4 → 1 ≤ place → place ≤ 8 →
      (∀ h, 1 ≤ h → h < g → (s.spt.group h).presentable = 0) →
      (∀ q, 1 ≤ q → q < place → (s.spt.group g).presentable.getLsbD (q - 1) = false) →
      (s.spt.group g).presentable.getLsbD (place - 1) = true →
      exec (.readEvent tag []) s =
        .next ({ s with
          spt := s.spt.withGroup g
            { s.spt.group g with flags := (s.spt.group g).flags &&& ~~~(1#8 <<< (place - 1)), inService := true }
          }.answered tag 5 [0, BitVec.ofNat 8 g, BitVec.ofNat 8 place,
            (s.spt.group g).flags &&& ~~~(1#8 <<< (place - 1))])) ∧
    ((∀ g, 1 ≤ g → g ≤ 4 → (s.spt.group g).presentable = 0) →
      exec (.readEvent tag []) s = .next (s.answered tag 5 [0, 0, 0, 0]))

/-- ACK_GROUP clears the in-service mark of a group and SET_ENABLE gives a group its enables; a group outside 1 to 4, and
a set beyond the group's last event, are answered BAD_ARG. -/
def Obligations.AckGroupAndSetEnable : Prop :=
  ∀ (s : State) (tag g m : Byte),
    (s.isFresh tag 6 →
      exec (.ackGroup tag [g]) s =
        if 1 ≤ g.toNat ∧ g.toNat ≤ 4 then
          .next ({ s with spt := s.spt.withGroup g.toNat { s.spt.group g.toNat with inService := false }
            }.answered tag 6 [0])
        else .next (s.answered tag 6 [4])) ∧
    (s.isFresh tag 7 →
      exec (.setEnable tag [g, m]) s =
        if 1 ≤ g.toNat ∧ g.toNat ≤ 4 ∧ (g = 4 → m.toNat < 32) then
          .next ({ s with spt := s.spt.withGroup g.toNat { s.spt.group g.toNat with enables := m }
            }.answered tag 7 [0])
        else .next (s.answered tag 7 [4]))

/-! ### STATION_RESET -/

/-- STATION_RESET in READY, with DSQ IDLE or HALTED and no own claim, brings every block to its reset table's values and
answers OK. Of the transmit queue the waiting FREE frames stay, in their order, and every other waiting frame goes; a
current FREE stays as it is, with its attempts and its backoff, the attempt of another frame that is on the line runs to
its end and is then removed, and any other current frame goes; then the next frame is taken. In every other state the
answer is BUSY and nothing happens. That no motion request frame is still leaving after the reset is the model's choice
(log 51). -/
def Obligations.StationResetReturnsToRest : Prop :=
  ∀ (s : State) (tag : Byte), s.asksReady tag 26 →
    ((s.dsq.state = .idle ∨ s.dsq.state = .halted) → s.scu.state = .none →
      let current := s.lif.current.bind (fun c =>
        match c.frame, c.phase with
        | .free _, _ => some c
        | _, .onLine _ => some { c with removeOnFail := true }
        | _, _ => none)
      exec (.stationReset tag []) s =
        .next ({ s with
          lif := { s.lif with waiting := s.lif.waiting.filter TxFrame.isFree, current := current }.takeCurrent,
          scu := { Scu.reset with entries := s.scu.entries, nextClaim := s.scu.nextClaim,
                                  lastEntry := s.scu.lastEntry },
          hwn := { s.hwn with request := .none },
          dsq := Dsq.reset,
          mpt := { Mpt.reset with counter := s.mpt.counter, hook := s.mpt.hook },
          wch := { s.wch with forming := [], history := [], task := .none, slicer := Slicer.reset },
          pku := { lots := s.pku.lots.map (fun x : Lot => { x with inUse := false }) },
          spt := { s.spt with
            g1 := { s.spt.g1 with flags := 0, inService := false },
            g2 := { s.spt.g2 with flags := 0, inService := false },
            g3 := { s.spt.g3 with flags := 0, inService := false },
            g4 := { s.spt.g4 with flags := 0, inService := false } }
        }.answered tag 26 [0])) ∧
    (¬((s.dsq.state = .idle ∨ s.dsq.state = .halted) ∧ s.scu.state = .none) →
      exec (.stationReset tag []) s = .next (s.answered tag 26 [2]))

/-! ### Programs -/

/-- Every program that passes the checks of R86 to R90 is accepted, for every slot but the current one, and the slot
holds it as it was sent. -/
def Obligations.ValidProgramIsLoaded : Prop :=
  ∀ (s : State) (tag slot : Byte) (p : Program), s.asksReady tag 9 → slot.toNat ≤ 15 → ProgramOk s.cells p →
    (s.dsq.state = .idle ∨ ∀ c, s.dsq.ctx = some c → c.slot ≠ slot.toNat) →
    exec (.loadProgram tag (loadBody slot p)) s =
      .next ({ s with pgs := { s.pgs with slots := s.pgs.slots.setIfInBounds slot.toNat (some p) }
        }.answered tag 9 [0])

/-- In READY every step keeps every stored program one that passes every check of R86 to R90; and a LOAD_PROGRAM either
leaves the store as it was or puts into one slot a program that passes them. -/
def Obligations.LoadedProgramsAreValid : Prop :=
  (∀ s t : State, s.cfg.ready = true → (∀ slot p, s.pgs.programAt slot = some p → ProgramOk s.cells p) →
    step s = .next t → ∀ slot p, t.pgs.programAt slot = some p → ProgramOk t.cells p) ∧
  ∀ (s : State) (tag : Byte) (body : List Byte), ∃ t, exec (.loadProgram tag body) s = .next t ∧
    (t.pgs = s.pgs ∨ ∃ slot p, slot < 16 ∧ ProgramOk s.cells p ∧
      t.pgs = { s.pgs with slots := s.pgs.slots.setIfInBounds slot (some p) })

/-! ### Lots -/

/-- LOT_OPEN with a valid tag and mask: a new lot, or a known one that is not in use, stands at place 1 in SEARCH with a
dip count of 0; a full table loses its least recently used lot that is not in use; a lot in use is BUSY. -/
def Obligations.LotOpenTakesPlaceOne : Prop :=
  ∀ (s : State) (tag a b m : Byte), s.asksReady tag 11 → LotsOk s.pku → beNat [a, b] ≠ 0 → 1 ≤ m.toNat →
    m.toNat ≤ 31 → m.extractLsb' 0 5 &&& ~~~s.cfg.params.mask = 0 →
    let opened : Lot := { tag := beNat [a, b], mask := m.extractLsb' 0 5, classifier := .search, dips := 0, inUse := false }
    (∀ x ∈ s.pku.lots, x.tag = beNat [a, b] →
      exec (.lotOpen tag [a, b, m]) s =
        if x.inUse then .next (s.answered tag 11 [2])
        else .next ({ s with pku := { lots := opened :: s.pku.lots.filter (fun y => y.tag != beNat [a, b]) }
          }.answered tag 11 [0])) ∧
    (beNat [a, b] ∉ s.pku.lots.map Lot.tag →
      (s.pku.lots.length < 8 →
        exec (.lotOpen tag [a, b, m]) s =
          .next ({ s with pku := { lots := opened :: s.pku.lots } }.answered tag 11 [0])) ∧
      (∀ others v, s.pku.lots.length = 8 → s.pku.lots = others ++ [v] → v.inUse = false →
        exec (.lotOpen tag [a, b, m]) s =
          .next ({ s with pku := { lots := opened :: others } }.answered tag 11 [0])) ∧
      (∀ others u v, s.pku.lots.length = 8 → s.pku.lots = others ++ [u, v] → v.inUse = true → u.inUse = false →
        exec (.lotOpen tag [a, b, m]) s =
          .next ({ s with pku := { lots := opened :: (others ++ [v]) } }.answered tag 11 [0])))

/-- LOT_FIX puts a lot in FIXED at a class of its mask and LOT_FREE_CLASS puts it in SEARCH; both move it to place 1 and
keep its mask, dip count and mark, and raise no event. A tag that is not in the table is NO_LOT. -/
def Obligations.LotFixAndFreeClassSetTheClassifier : Prop :=
  ∀ (s : State) (tag a b k : Byte) (c : SteelClass), LotsOk s.pku → beNat [a, b] ≠ 0 →
    SteelClass.ofCode k.toNat = some c →
    (∀ x ∈ s.pku.lots, x.tag = beNat [a, b] →
      (s.asksReady tag 12 →
        exec (.lotFix tag [a, b, k]) s =
          if inMask x.mask c then
            .next ({ s with
              pku := { lots :=
                { x with classifier := .fixed c } :: s.pku.lots.filter (fun y => y.tag != beNat [a, b]) }
              }.answered tag 12 [0])
          else .next (s.answered tag 12 [4])) ∧
      (s.asksReady tag 13 →
        exec (.lotFreeClass tag [a, b]) s =
          .next ({ s with
            pku := { lots :=
              { x with classifier := .search } :: s.pku.lots.filter (fun y => y.tag != beNat [a, b]) }
            }.answered tag 13 [0]))) ∧
    (beNat [a, b] ∉ s.pku.lots.map Lot.tag →
      (s.asksReady tag 12 → exec (.lotFix tag [a, b, k]) s = .next (s.answered tag 12 [3, 5])) ∧
      (s.asksReady tag 13 → exec (.lotFreeClass tag [a, b]) s = .next (s.answered tag 13 [3, 5])))

/-! ### Starting, aborting and clearing a dip -/

/-- START_DIP: BAD_ARG, BUSY and NO_PROGRAM by R101's order; else the dip takes a new serial, its context is that of R98
and R102 with the nominal mass clamped to 8,000 kg, its lot is the lot in use at place 1, and step 0 is taken (a
WEIGH_DRY here). A lot of the table moves to place 1 and is otherwise kept; a new one is opened there in SEARCH with the
commissioning mask, for which a full table loses its least recently used lot that is not in use; every other lot stays as it
was, in its order. -/
def Obligations.StartDipCreatesTheContext : Prop :=
  ∀ (s : State) (tag slot a b c d : Byte), s.asksReady tag 15 →
    (15 < slot.toNat → exec (.startDip tag [slot, a, b, c, d]) s = .next (s.answered tag 15 [4])) ∧
    (slot.toNat ≤ 15 → s.dsq.state ≠ .idle →
      exec (.startDip tag [slot, a, b, c, d]) s = .next (s.answered tag 15 [2])) ∧
    (slot.toNat ≤ 15 → s.dsq.state = .idle → s.pgs.programAt slot.toNat = none →
      exec (.startDip tag [slot, a, b, c, d]) s = .next (s.answered tag 15 [3, 1])) ∧
    (∀ (p : Program) (timeout : Nat), slot.toNat ≤ 15 → s.dsq.state = .idle →
      s.pgs.programAt slot.toNat = some p → p.steps[0]? = some (.weighDry timeout) →
      let opened : Lot :=
        { tag := beNat [a, b], mask := s.cfg.params.mask, classifier := .search, dips := 0, inUse := true }
      ∃ k : Pku, (beNat [a, b] = 0 → k = s.pku) ∧
        (beNat [a, b] ≠ 0 → k.lots.head?.map (fun x => (x.tag, x.inUse)) = some (beNat [a, b], true) ∧
          (∀ x, s.pku.lotOf (beNat [a, b]) = some x →
            k = { lots := { x with inUse := true } :: s.pku.lots.filter (fun y => y.tag != beNat [a, b]) }) ∧
          (s.pku.lotOf (beNat [a, b]) = none →
            (s.pku.lots.length < 8 → k = { lots := opened :: s.pku.lots }) ∧
            (∀ before x after, 8 ≤ s.pku.lots.length → s.pku.lots = before ++ x :: after → x.inUse = false →
              (∀ y ∈ after, y.inUse = true) → k = { lots := opened :: (before ++ after) }))) ∧
        exec (.startDip tag [slot, a, b, c, d]) s =
          .next ({ s with
            zbr := { s.zbr with serial := s.zbr.serial + 1 },
            scu := { s.scu with requestTime := none, blockedLongMark := false },
            pku := k,
            wch := { s.wch with
              task := .settle { timeoutEnd := s.now + timeout * 1000, stepCount := 0, runCount := 0 } },
            dsq := { s.dsq with
              state := .weighingDry,
              ctx := some {
                startSlot := slot.toNat, slot := slot.toNat, index := 0, depth := 0, lot := beNat [a, b],
                nominal := min 8000 (beNat [c, d]), defaultClass := p.defaultClass, flux := p.flux, dry := none,
                wet := none, immersions := 0, immersionTime := 0, drainTime := 0,
                quality := { unsettled := false, overMark := false, weighLost := s.wch.lost, noDry := false,
                             noWet := false, drainTimeout := false, drainAborted := false },
                progressive := false, heatOver := false, txDropped := false, abortMark := false,
                serial := s.zbr.serial + 1 } }
          }.answered tag 15 [if 8000 < beNat [c, d] then 1 else 0]))

/-- ABORT_DIP by the rows of R121: NO_DIP in IDLE, BUSY in ABORTING and PARKED, OK with no action in HALTED, the abort mark
alone where a RELEASE waits for a held span. With the load not lowered it is the quick abort: admission and task end, an
outstanding request is stopped, and without one the dip is discarded, with a record where it was immersed; the own claim
goes by its table: BLOCKED and RETRY end, a waiting INTENT is withdrawn, one on the line is to be withdrawn and the blocked
timer stops, a claim in its window yields, a held span is freed, a held request is dropped (in a quick abort the last is
the model's deduction, log 15). With the load lowered it is the abort path, by the state's row: LOWERING, DWELLING, RAISING,
DRAINING, VIBRATING and TRAVELING, WEIGHING, the waits. The number and phase of a STOP and of a RAISE at the hand-over are
the model's deduction (log 18), and so is the blocked timer stopped by a release before the HOLD is sent (log 23). -/
def Obligations.AbortDipByItsRows : Prop :=
  (∀ (s : State) (tag : Byte), s.asksReady tag 16 →
    (s.dsq.state = .idle → exec (.abortDip tag []) s = .next (s.answered tag 16 [3, 2])) ∧
    (∀ p, s.dsq.state = .aborting p → exec (.abortDip tag []) s = .next (s.answered tag 16 [2])) ∧
    (s.dsq.state = .parked → exec (.abortDip tag []) s = .next (s.answered tag 16 [2])) ∧
    (s.dsq.state = .halted → exec (.abortDip tag []) s = .next (s.answered tag 16 [0])) ∧
    (∀ c, s.dsq.state = .awaitRelease → s.scu.state.isHeld = true → s.dsq.ctx = some c →
      exec (.abortDip tag []) s =
        .next ({ s with dsq := { s.dsq with ctx := some c.marked } }.answered tag 16 [0]))) ∧
  (∀ (s : State) (tag : Byte) (c : DipCtx), s.asksReady tag 16 → s.dsq.ctx = some c → s.working → s.lowered = false →
    (∀ r n, s.mpt.phase.outstanding = some (r, n) → s.scu.state = .none → s.scu.held = none →
      exec (.abortDip tag []) s =
        .next ({ s with
          hwn := { s.hwn with request := .none },
          wch := { s.wch with task := .none },
          dsq := { s.dsq with state := .aborting .quickStop, ctx := some (c.marked.outOfTask s.wch.task s.now),
                              dwellEnd := none },
          mpt := s.mpt.stopping r n }.answered tag 16 [0])) ∧
    (s.mpt.phase.outstanding = none → s.scu.state = .none → s.scu.held = none → c.immersions = 0 →
      exec (.abortDip tag []) s =
        .next ({ s with
          hwn := { s.hwn with request := .none },
          wch := { s.wch with task := .none },
          dsq := Dsq.reset,
          scu := { s.scu with requestTime := none, blockedLongMark := false },
          pku := { lots := s.pku.lots.map (fun x : Lot => { x with inUse := false }) } }.answered tag 16 [0])) ∧
    (s.mpt.phase.outstanding = none → ∃ t, exec (.abortDip tag []) s = .next t ∧ t.dsq = Dsq.reset ∧
      t.hwn = { s.hwn with request := .none } ∧ t.wch = { s.wch with task := .none } ∧ t.mpt = s.mpt ∧
      t.spt.store = some ⟨tag, 16, [0]⟩ ∧
      (c.immersions ≠ 0 →
        RecordMade s (c.marked.outOfTask s.wch.task s.now) .aborted (s.lif.places < 5) t) ∧
      (c.immersions = 0 → t.zbr.nextNumber = s.zbr.nextNumber ∧ t.zbr.z = s.zbr.z) ∧
      (s.scu.state = .blocked ∨ s.scu.state = .retry → s.scu.held = none →
        t.scu.state = .none ∧ t.scu.wanted = none ∧ t.scu.retryEnd = none ∧ t.scu.blockedSince = none) ∧
      (∀ own, s.scu.state = .pending → s.scu.withdrawal = .none → s.scu.own = some own →
        (s.lif.waiting.any (TxFrame.isIntentOf own.claim) = true → s.scu.held = none →
          t.scu.state = .none ∧ t.scu.own = none ∧ t.scu.blockedSince = none) ∧
        (∀ cur bytes, s.lif.waiting.any (TxFrame.isIntentOf own.claim) = false → s.lif.current = some cur →
          cur.frame.isIntentOf own.claim = true → cur.phase = .onLine bytes →
          t.scu.state = .pending ∧ t.scu.own = some own ∧ t.scu.withdrawal = .cancel ∧ t.scu.blockedSince = none ∧
            t.lif.current = some { cur with withdrawHeld := true })) ∧
      (∀ own, s.scu.own = some own →
        (s.scu.state = .claimingWindow → s.scu.held = none →
          t.scu.state = .none ∧ t.scu.own = none ∧ t.scu.windowEnd = none ∧ t.scu.blockedSince = none ∧
            (s.lif.places < 6 → t.lif.holds (· == .yield own.claim) = true)) ∧
        (s.scu.state.isHeld = true → s.scu.state ≠ .releasing →
          t.scu.state = .releasing ∧ t.scu.own = some own ∧ t.scu.blockedSince = none ∧
            (s.lif.places < 6 → t.lif.holds (· == .free own.claim) = true))) ∧
      (s.scu.state = .releasing → t.scu.state = .releasing ∧ t.scu.own = s.scu.own ∧ t.scu.held = none))) ∧
  ∀ (s : State) (tag : Byte) (c : DipCtx), s.asksReady tag 16 → s.dsq.ctx = some c → s.working → s.lowered = true →
    (∀ d v n, s.dsq.state = .lowering → s.mpt.phase = .awaitAccept (.lower d v) n →
      exec (.abortDip tag []) s =
        .next ({ s with
          dsq := { s.dsq with
            state := .aborting (.pathStop true), position := .below,
            ctx := some { c.marked with immersions := c.immersions + 1,
                                        progressive := c.progressive || decide (2 ≤ c.immersions + 1) } },
          mpt := s.mpt.stopping (.lower d v) n }.answered tag 16 [0])) ∧
    (∀ d v n, s.dsq.state = .lowering → s.mpt.phase = .running (.lower d v) n →
      exec (.abortDip tag []) s =
        .next ({ s with
          dsq := { s.dsq with state := .aborting (.pathStop true), position := .below, ctx := some c.marked },
          mpt := s.mpt.stopping (.lower d v) n }.answered tag 16 [0])) ∧
    (s.dsq.state = .dwelling → exec (.abortDip tag []) s =
      .next (({ s with dsq := { s.dsq with dwellEnd := none } }.pathGoesOn c.marked).answered tag 16 [0])) ∧
    (s.dsq.state = .raising → exec (.abortDip tag []) s =
      .next ({ s with dsq := { s.dsq with state := .aborting .raising, ctx := some c.marked } }.answered tag 16 [0])) ∧
    (s.dsq.state = .draining → exec (.abortDip tag []) s =
      .next (({ s with wch := { s.wch with task := .none } }.pathGoesOn
        { c.marked.outOfTask s.wch.task s.now with
          quality := { c.quality with drainAborted := true } }).answered tag 16 [0])) ∧
    (∀ r n, (s.dsq.state = .vibrating ∨ s.dsq.state = .traveling) → s.mpt.phase.outstanding = some (r, n) →
      exec (.abortDip tag []) s =
        .next ({ s with
          dsq := { s.dsq with state := .aborting (.pathStop false), ctx := some c.marked },
          mpt := s.mpt.stopping r n }.answered tag 16 [0])) ∧
    ((s.dsq.state = .weighingDry ∨ s.dsq.state = .weighingOut) → exec (.abortDip tag []) s =
      .next (({ s with wch := { s.wch with task := .none } }.pathGoesOn
        (c.marked.outOfTask s.wch.task s.now)).answered tag 16 [0])) ∧
    ((s.dsq.state = .awaitClaim ∨ (∃ p, s.dsq.state = .awaitLower p) ∨ s.dsq.state = .awaitRelease ∨
        ∃ p, s.dsq.state = .heatWait p) → exec (.abortDip tag []) s =
      .next (({ s with hwn := { s.hwn with request := .none } }.pathGoesOn c.marked).answered tag 16 [0]))

/-- CONFIRM_CLEAR in PARKED and HALTED returns DSQ to IDLE with no context and the load CLEAR, answers OK, and begins the
release of a held span: from CLAIMING with the HOLD queued, GUARD and FIRM the FREE of the claim number is offered, and
stands in a queue with room for it and for the PICKUP of a record before it, the guard is stopped, the own entry kept and
RELEASING entered; RELEASING and NONE stand. In HALTED a dip that was immersed gets a record with outcome FAULTED. In every
other state it is BAD_STATE. -/
def Obligations.ConfirmClearReturnsToIdle : Prop :=
  ∀ (s : State) (tag : Byte), s.asksReady tag 17 →
    (s.dsq.state ≠ .parked → s.dsq.state ≠ .halted →
      exec (.confirmClear tag []) s = .next (s.answered tag 17 [5])) ∧
    ((s.dsq.state = .parked ∨ s.dsq.state = .halted) →
      ∃ t, exec (.confirmClear tag []) s = .next t ∧ t.dsq = Dsq.reset ∧
        t.pku.lots.any Lot.inUse = false ∧ t.scu.requestTime = none ∧ t.scu.blockedLongMark = false ∧
        t.mpt = s.mpt ∧ t.wch = s.wch ∧ t.ptb = s.ptb ∧ t.hwn = s.hwn ∧
        t.spt.store = some ⟨tag, 17, [0]⟩ ∧
        (∀ own, s.scu.own = some own →
          s.scu.state = .claimingHoldQueued ∨ s.scu.state = .guard ∨ s.scu.state = .firm →
          t.scu.state = .releasing ∧ t.scu.own = some own ∧ t.scu.guardEnd = none ∧
            (s.lif.places < 7 ∨ (s.dsq.state = .parked ∧ s.lif.places < 8) →
              t.lif.holds (· == .free own.claim) = true)) ∧
        (s.scu.state = .releasing ∨ s.scu.state = .none → t.scu.state = s.scu.state ∧ t.scu.own = s.scu.own) ∧
        (s.dsq.state = .parked → t.zbr.nextNumber = s.zbr.nextNumber) ∧
        (∀ c, s.dsq.state = .halted → s.dsq.ctx = some c →
          (c.immersions = 0 → t.zbr.nextNumber = s.zbr.nextNumber) ∧
          (c.immersions ≠ 0 → t.zbr.nextNumber = s.zbr.nextNumber + 1 ∧
            ∃ r, t.zbr.ring.getLast? = some r ∧ r.number = s.zbr.nextNumber ∧ r.outcome = .faulted)))

/-! ### Zinc -/

/-- INGOT clamps its mass to 10 to 50,000, raises Z by it, stopping at Z_max, evaluates the zinc level state, with its
events, unless BALANCE_UNSET is set, and queues the INGOT frame. -/
def Obligations.IngotRequestRaisesTheEstimate : Prop :=
  ∀ (s : State) (tag a b : Byte), s.asksReady tag 18 →
    let m := max 10 (min 50000 (beNat [a, b]))
    ∃ t, exec (.ingot tag [a, b]) s = .next t ∧ t.zbr.z = min s.cfg.params.zMax (s.zbr.z + m) ∧
      s.levelEvaluated (min s.cfg.params.zMax (s.zbr.z + m)) t ∧ t.zbr.unset = s.zbr.unset ∧
      t.spt.store = some ⟨tag, 18, [if m = beNat [a, b] then 0 else 1]⟩ ∧
      t.zbr.ring.map DipRecord.number = s.zbr.ring.map DipRecord.number ∧ t.zbr.lastIngot = s.zbr.lastIngot ∧
      t.ptb = s.ptb ∧ t.hwn = s.hwn ∧ t.mpt = s.mpt ∧ t.wch = s.wch ∧
      (s.scu.state = .none → s.lif.places < 8 → t.lif.holds (· == .ingot m) = true)

/-- SET_BALANCE gives Z the value, at most Z_max, clears both balance flags, evaluates the zinc level state from where it
stood, and leaves the expected sequences, the last-heard store and the record ring. That the four bytes of the value are
read without a sign is the model's deduction (log 31). -/
def Obligations.SetBalanceSetsTheEstimate : Prop :=
  ∀ (s : State) (tag a b c d : Byte), s.asksReady tag 19 →
    let z := min s.cfg.params.zMax (beNat [a, b, c, d])
    ∃ t, exec (.setBalance tag [a, b, c, d]) s = .next t ∧ t.zbr.z = z ∧ t.zbr.unset = false ∧ t.zbr.gap = false ∧
      t.zbr.level = s.levelAt z ∧
      t.zbr.lastPickup = s.zbr.lastPickup ∧ t.zbr.lastIngot = s.zbr.lastIngot ∧ t.ptb = s.ptb ∧
      t.zbr.ring.map DipRecord.number = s.zbr.ring.map DipRecord.number ∧ t.hwn = s.hwn ∧
      t.spt.store = some ⟨tag, 19, [if s.cfg.params.zMax < beNat [a, b, c, d] then 1 else 0]⟩ ∧
      (s.zbr.level = .normal → z < s.cfg.params.zStop →
        t.spt.isRaised .zLowEv = true ∧ t.spt.isRaised .zStopEv = true)

/-- READ_RECORD and PEEK_RECORD: BAD_STATE in SETUP; in READY, EMPTY with an empty ring, else the oldest record, which
READ_RECORD removes and PEEK_RECORD leaves. Nothing else changes, no event flag among it. -/
def Obligations.ReadAndPeekTheOldestRecord : Prop :=
  ∀ (s : State) (tag : Byte),
    (s.asksSetup tag 20 → exec (.readRecord tag []) s = .next (s.answered tag 20 [5])) ∧
    (s.asksSetup tag 21 → exec (.peekRecord tag []) s = .next (s.answered tag 21 [5])) ∧
    (s.zbr.ring = [] →
      (s.asksReady tag 20 → exec (.readRecord tag []) s = .next (s.answered tag 20 [3, 6])) ∧
      (s.asksReady tag 21 → exec (.peekRecord tag []) s = .next (s.answered tag 21 [3, 6]))) ∧
    (∀ r rest, s.zbr.ring = r :: rest →
      (s.asksReady tag 20 →
        exec (.readRecord tag []) s =
          .next ({ s with zbr := { s.zbr with ring := rest } }.answered tag 20 (0 :: r.bytes))) ∧
      (s.asksReady tag 21 → exec (.peekRecord tag []) s = .next (s.answered tag 21 (0 :: r.bytes))))

/-! ### Peers -/

/-- CLEAR_PEER: BAD_ARG for an ID outside 0 to 15 or the own ID, NO_PEER, PEER_PRESENT; a SILENT peer's record and its
span entry are removed, and nothing of the other peers. -/
def Obligations.ClearPeerRemovesASilentPeer : Prop :=
  ∀ (s : State) (tag n : Byte), s.asksReady tag 22 →
    ((15 < n.toNat ∨ (n.toNat ≤ 15 ∧ BitVec.ofNat 4 n.toNat = s.ownId)) →
      exec (.clearPeer tag [n]) s = .next (s.answered tag 22 [4])) ∧
    (n.toNat ≤ 15 → BitVec.ofNat 4 n.toNat ≠ s.ownId →
      (s.ptb.recordOf (BitVec.ofNat 4 n.toNat) = none →
        exec (.clearPeer tag [n]) s = .next (s.answered tag 22 [3, 3])) ∧
      (∀ p, s.ptb.recordOf (BitVec.ofNat 4 n.toNat) = some p → p.presence = .present →
        exec (.clearPeer tag [n]) s = .next (s.answered tag 22 [3, 4])) ∧
      (∀ p, s.ptb.recordOf (BitVec.ofNat 4 n.toNat) = some p → p.presence = .silent →
        ∃ t, exec (.clearPeer tag [n]) s = .next t ∧
          t.ptb.peers = s.ptb.peers.filter (fun q => q.id != BitVec.ofNat 4 n.toNat) ∧
          t.scu.entries = s.scu.entries.filter (fun e => e.holder != BitVec.ofNat 4 n.toNat) ∧
          t.spt.store = some ⟨tag, 22, [0]⟩))

/-! ### Kettle line: receiving -/

/-- While the line is OFF the receiver accepts no frame. On another line a frame that fails a check of R5, of length or of
content, is discarded: the score rises by 4, stopping at 255, and the line state is evaluated by R10. That a frame command
of a bad length or content acts as LINE_FRAME_DISCARDED does is the model's deduction (log 7). -/
def Obligations.DiscardedFramesRaiseTheScore : Prop :=
  (∀ (s : State) (c : Instr), s.lif.line = .off → (c = .lineFrameDiscarded ∨ framePayload c ≠ none) →
    exec c s = .next s) ∧
  (∀ (s : State) (c : Instr), s.lif.line ≠ .off → framePayload c ≠ none → goodFrame s.cells c = none →
    exec c s = exec .lineFrameDiscarded s) ∧
  (∀ s : State, s.lif.line ≠ .off →
    (s.lif.line = .active → 64 ≤ s.lif.score + 4 → ∃ t, exec .lineFrameDiscarded s = .next t ∧
      t.lif.line = .degraded ∧ t.lif.score = min 255 (s.lif.score + 4) ∧ t.spt.isRaised .lineDegraded = true) ∧
    (¬(s.lif.line = .active ∧ 64 ≤ s.lif.score + 4) → ¬(s.lif.line = .degraded ∧ s.lif.score + 4 ≤ 16) →
      exec .lineFrameDiscarded s = .next { s with lif := { s.lif with score := min 255 (s.lif.score + 4) } }))

/-- Every good peer frame, of any kind and on any line but OFF, leaves its sender PRESENT with the arrival, the sequence
number and the silence timer of that frame, and changes no other peer's record. -/
def Obligations.GoodFrameRefreshesItsPeer : Prop :=
  ∀ (s : State) (c : Instr) (src : StationId) (seq : Byte), goodFrame s.cells c = some (src, seq) → s.hears src →
    ∃ t, exec c s = .next t ∧
      (∃ p, t.ptb.recordOf src = some p ∧ p.id = src ∧ p.presence = .present ∧ p.lastArrival = s.now ∧ p.lastSeq = seq ∧
        p.silenceEnd = some (s.now + 4 * s.cfg.params.beaconPeriod)) ∧
      (∀ h, h ≠ src → t.ptb.recordOf h = s.ptb.recordOf h) ∧ t.now = s.now ∧ t.cfg = s.cfg

/-- A good frame that carries the own ID is an ID clash: the clash timer runs ten beacon periods, ID_CLASH is raised, the
score falls by 1, and the frame reaches no peer record, span entry, heat window or balance. -/
def Obligations.OwnIdFrameIsAClash : Prop :=
  ∀ (s : State) (c : Instr) (seq : Byte), goodFrame s.cells c = some (s.ownId, seq) → s.lif.line ≠ .off →
    ∃ t, exec c s = .next t ∧ t.lif.clashEnd = some (s.now + 10 * s.cfg.params.beaconPeriod) ∧
      t.spt.isRaised .idClash = true ∧ t.lif.score = s.lif.score - 1 ∧ t.ptb = s.ptb ∧
      t.scu.entries = s.scu.entries ∧ t.scu.lastEntry = s.scu.lastEntry ∧ t.hwn = s.hwn ∧ t.zbr.z = s.zbr.z

/-- A foreign INTENT or HOLD replaces whatever entry its holder had and changes no other holder's entry. A HOLD keeps the
reported last-entry ID where the span is unchanged. -/
def Obligations.ForeignIntentAndHoldSetTheEntry : Prop :=
  ∀ (s : State) (src : StationId) (seq f l age n : Byte) (w : Bool), s.hears src → SpanInRange s.cells f l w →
    (∃ t, exec (.intentFrame src seq [f, l, if w then 1 else 0, age, n]) s = .next t ∧
      t.scu.entryOf src = some {
        holder := src, state := .intent, span := ⟨f.toNat, l.toNat, w⟩, claim := some n,
        age := some age.toNat, arrival := s.now,
        lapseEnd := some (s.now + (s.cfg.params.claimWindow + s.cfg.params.guardTime + 2 * s.cfg.params.beaconPeriod)),
        lastEntry := none } ∧
      ∀ h, h ≠ src → t.scu.entryOf h = s.scu.entryOf h) ∧
    (∃ t, exec (.holdFrame src seq [f, l, if w then 1 else 0, n]) s = .next t ∧
      t.scu.entryOf src = some {
        holder := src, state := .held, span := ⟨f.toNat, l.toNat, w⟩, claim := some n,
        age := none, arrival := s.now, lapseEnd := none,
        lastEntry := (s.scu.entryOf src).bind (fun e =>
          if e.span = ⟨f.toNat, l.toNat, w⟩ then e.lastEntry else none) } ∧
      ∀ h, h ≠ src → t.scu.entryOf h = s.scu.entryOf h)

/-- A YIELD or FREE removes the holder's entry, in whatever state, where the claim number matches or is unknown, and is
ignored where it differs or there is no entry. A removal makes a BLOCKED claim start where the start conditions then hold;
in RETRY the claim waits on. -/
def Obligations.YieldOrFreeRemovesTheEntry : Prop :=
  ∀ (s : State) (src : StationId) (seq n : Byte), s.hears src →
    ∃ t, exec (.yieldFrame src seq [n]) s = .next t ∧ exec (.freeFrame src seq [n]) s = .next t ∧
      (∀ e, s.scu.entryOf src = some e → e.claim = none ∨ e.claim = some n →
        t.scu.entries = s.scu.entries.filter (fun x => x.holder != src)) ∧
      (∀ e m, s.scu.entryOf src = some e → e.claim = some m → m ≠ n → t.scu.entries = s.scu.entries) ∧
      (s.scu.entryOf src = none → t.scu.entries = s.scu.entries) ∧
      (s.scu.state = .retry → t.scu.state = .retry) ∧
      (∀ e w, s.scu.entryOf src = some e → e.claim = none ∨ e.claim = some n → s.scu.state = .blocked →
        s.scu.wanted = some w → (∀ x ∈ s.scu.entries, x.holder ≠ src → x.span.overlaps w = false) →
        s.lif.line = .active → s.lif.score ≤ 64 → s.lif.clashEnd = none → s.zbr.level ≠ .stopped →
        s.lif.places < 8 → t.scu.state = .pending)

/-- An overlapping foreign HOLD in FIRM: with the load lowered the span is kept and SPAN_CONFLICT raised; with it not
lowered the lower ID keeps, and the higher gives up: it offers the FREE of its claim number, removes its entry, raises
SPAN_LOST and enters RETRY with the delay of R54, and a LOWER that waits for heat waits for its span again. In PARKED and
HALTED DSQ cancels the lost claim at once, and stays in its state with no claim. -/
def Obligations.ForeignHoldOnAFirmSpan : Prop :=
  ∀ (s : State) (src : StationId) (seq f l n : Byte) (w : Bool) (own : Span), s.hears src →
    SpanInRange s.cells f l w → s.scu.state = .firm → s.scu.wanted = some own →
    Span.overlaps ⟨f.toNat, l.toNat, w⟩ own = true →
    ∃ t, exec (.holdFrame src seq [f, l, if w then 1 else 0, n]) s = .next t ∧
      (s.lowered = true → t.scu.state = .firm ∧ t.scu.own = s.scu.own ∧ t.spt.isRaised .spanConflict = true) ∧
      (s.lowered = false → s.ownId.toNat < src.toNat → t.scu.state = .firm ∧ t.scu.own = s.scu.own) ∧
      (s.lowered = false → src.toNat < s.ownId.toNat →
        let givenUp : Prop := t.scu.own = none ∧ t.spt.isRaised .spanLost = true ∧
          ∀ o, s.scu.own = some o → s.lif.places < 8 → t.lif.holds (· == .free o.claim) = true
        (s.dsq.state ≠ .parked → s.dsq.state ≠ .halted → givenUp ∧ t.scu.state = .retry ∧ t.scu.wanted = some own ∧
          t.scu.retryEnd = some (s.now + roundNat ((s.ownId.toNat + 1) * s.cfg.params.claimWindow) 4) ∧
          ∀ p, s.dsq.state = .heatWait p → t.dsq.state = .awaitLower p) ∧
        (s.dsq.state = .parked ∨ s.dsq.state = .halted → s.scu.held = none → givenUp ∧ t.scu.state = .none ∧
          t.scu.wanted = none ∧ t.scu.retryEnd = none ∧ t.dsq.state = s.dsq.state))

/-- In CLAIMING, window running, an overlapping foreign INTENT that outranks the own one makes the claim yield: the YIELD of
its claim number is offered, the own entry removed, the window stopped, and the claim enters RETRY. One that does not leaves
the claim as it was. The greater wait age outranks, and at equal age the smaller distance from the last-entry ID. -/
def Obligations.OutrankedClaimYields : Prop :=
  ∀ (s : State) (src : StationId) (seq f l age n : Byte) (w : Bool) (span : Span) (own : OwnEntry), s.hears src →
    SpanInRange s.cells f l w → s.scu.state = .claimingWindow → s.scu.wanted = some span → s.scu.own = some own →
    Span.overlaps ⟨f.toNat, l.toNat, w⟩ span = true →
    let distance : StationId → Nat := fun x => (x - (s.scu.lastEntry + 1)).toNat
    ∃ t, exec (.intentFrame src seq [f, l, if w then 1 else 0, age, n]) s = .next t ∧
      ((own.age < age.toNat ∨ (age.toNat = own.age ∧ distance src < distance s.ownId)) →
        t.scu.state = .retry ∧ t.scu.own = none ∧ t.scu.wanted = some span ∧ t.scu.windowEnd = none ∧
        t.scu.retryEnd = some (s.now + roundNat ((s.ownId.toNat + 1) * s.cfg.params.claimWindow) 4) ∧
        (s.lif.places < 8 → t.lif.holds (· == .yield own.claim) = true)) ∧
      (¬(own.age < age.toNat ∨ (age.toNat = own.age ∧ distance src < distance s.ownId)) →
        t.scu.state = .claimingWindow ∧ t.scu.own = some own ∧ t.scu.windowEnd = s.scu.windowEnd)

/-- A peer ENTRY is appended to a window of fewer than 24 records and merged into the youngest of a window of 24; the sum
rises by the mass gained, and its source becomes the last-entry ID. -/
def Obligations.PeerEntryEntersTheWindow : Prop :=
  ∀ (s : State) (src : StationId) (seq a b i : Byte), s.hears src → beNat [a, b] ≤ 8000 →
    (i.toNat = 1 ∨ i.toNat = 2) →
    ∃ t, exec (.entryFrame src seq [a, b, i]) s = .next t ∧ t.scu.lastEntry = src ∧ t.hwn.request = s.hwn.request ∧
      t.zbr.z = s.zbr.z ∧ t.mpt = s.mpt ∧
      (s.hwn.entries.length < 24 →
        t.hwn.sum = s.hwn.sum + beNat [a, b] ∧
        t.hwn.entries = s.hwn.entries ++
          [{ src := src, mass := beNat [a, b], arrival := s.now, index := i.toNat, merges := 0 }]) ∧
      (∀ older e, s.hwn.entries = older ++ [e] → s.hwn.entries.length = 24 →
        t.hwn.sum = s.hwn.sum + min 65535 (e.mass + beNat [a, b]) - e.mass ∧
        t.hwn.entries = older ++
          [{ src := src, mass := min 65535 (e.mass + beNat [a, b]), arrival := s.now, index := i.toNat,
             merges := min 255 (e.merges + 1) }])

/-- A heard PICKUP is checked against the expected sequence of its sender, and its outcome is kept with it as the last
PICKUP: the one before the expected is a repeat and changes nothing of Z and of the level state; any other lowers Z by its
consumption and evaluates the zinc level state, with its events, unless BALANCE_UNSET is set, and one out of sequence raises
BALANCE_GAP. -/
def Obligations.PickupLowersTheEstimate : Prop :=
  ∀ (s : State) (src : StationId) (seq a b c d e k : Byte), s.hears src → beNat [c, d, e] ≤ 131070 → k.toNat ≤ 5 →
    let q := BitVec.ofNat 16 (beNat [a, b])
    let expected := (s.ptb.recordOf src).bind Peer.expected
    ∃ t, exec (.pickupFrame src seq [a, b, c, d, e, k]) s = .next t ∧ t.hwn = s.hwn ∧ t.mpt = s.mpt ∧
      t.zbr.lastPickup = some ⟨src, q, beNat [c, d, e], SteelClass.ofCode k.toNat,
        if expected = none then .first else if expected = some (q + 1) then .repeated
        else if expected = some q then .applied else .gap⟩ ∧
      t.zbr.unset = s.zbr.unset ∧
      (expected = some (q + 1) →
        t.zbr.z = s.zbr.z ∧ t.zbr.level = s.zbr.level ∧ (t.ptb.recordOf src).bind Peer.expected = expected) ∧
      (expected ≠ some (q + 1) →
        t.zbr.z = s.zbr.z - beNat [c, d, e] ∧ s.levelEvaluated (s.zbr.z - beNat [c, d, e]) t ∧
          (t.ptb.recordOf src).bind Peer.expected = some (q + 1)) ∧
      (∀ x, expected = some x → x ≠ q → x ≠ q + 1 →
        t.zbr.gap = true ∧ t.spt.isRaised .balanceGap = true)

/-- A heard INGOT raises Z by its mass, stopping at Z_max, evaluates the zinc level state, with its events, unless
BALANCE_UNSET is set, replaces the last INGOT, and raises INGOT_HEARD. -/
def Obligations.HeardIngotRaisesTheEstimate : Prop :=
  ∀ (s : State) (src : StationId) (seq a b : Byte), s.hears src → 10 ≤ beNat [a, b] → beNat [a, b] ≤ 50000 →
    let z := min s.cfg.params.zMax (s.zbr.z + beNat [a, b])
    ∃ t, exec (.ingotFrame src seq [a, b]) s = .next t ∧ t.zbr.z = z ∧
      t.zbr.lastIngot = some ⟨src, beNat [a, b]⟩ ∧ t.spt.isRaised .ingotHeard = true ∧
      t.zbr.unset = s.zbr.unset ∧ s.levelEvaluated z t

/-- A BEACON reconciles its sender's span entry with the span state it reports, and gives the peer record its condition. That
an entry made HELD by a BEACON of the same span keeps its wait age is the model's deduction (log 13). -/
def Obligations.BeaconReconcilesTheEntry : Prop :=
  ∀ (s : State) (src : StationId) (seq : Byte) (payload : List Byte) (b : BeaconInfo), s.hears src →
    decodeBeacon s.cells payload = some b →
    let lapse := s.cfg.params.claimWindow + s.cfg.params.guardTime + 2 * s.cfg.params.beaconPeriod
    ∃ t, exec (.beaconFrame src seq payload) s = .next t ∧
      (t.ptb.recordOf src).map Peer.condition = some b.condition ∧
      (∀ h, h ≠ src → t.scu.entryOf h = s.scu.entryOf h) ∧
      (b.spanState = .none → t.scu.entryOf src = none) ∧
      (∀ e, s.scu.entryOf src = some e → b.spanState = .intent → e.state = .intent → e.span = b.span →
        t.scu.entryOf src = some { e with lastEntry := some b.lastEntry }) ∧
      (b.spanState = .intent → (∀ e, s.scu.entryOf src = some e → ¬(e.state = .intent ∧ e.span = b.span)) →
        t.scu.entryOf src = some {
          holder := src, state := .intent, span := b.span, claim := none, age := none,
          arrival := s.now, lapseEnd := some (s.now + lapse), lastEntry := some b.lastEntry }) ∧
      (∀ e, s.scu.entryOf src = some e → b.spanState = .held → e.state = .held → e.span = b.span →
        t.scu.entryOf src = some { e with lastEntry := some b.lastEntry }) ∧
      (∀ e, s.scu.entryOf src = some e → b.spanState = .held → e.state ≠ .held → e.span = b.span →
        t.scu.entryOf src =
          some { e with state := .held, arrival := s.now, lapseEnd := none, lastEntry := some b.lastEntry }) ∧
      (b.spanState = .held → (∀ e, s.scu.entryOf src = some e → e.span ≠ b.span) →
        t.scu.entryOf src = some {
          holder := src, state := .held, span := b.span, claim := none, age := none,
          arrival := s.now, lapseEnd := none, lastEntry := some b.lastEntry })

/-! ### Kettle line: sending -/

/-- ATTEMPT_START drives the current frame: start pattern, kind and own ID, the sequence counter, the payload length, the
payload, and the CRC-16 over those, high byte first; BACKOFF_EXPIRY lets it defer again. An INTENT that may not be sent
returns to the waiting frames instead, at the head of its class, and the next frame that may be sent becomes current. -/
def Obligations.AttemptDrivesTheCurrentFrame : Prop :=
  (∀ (s : State) (c : Current), s.lif.current = some c →
    (c.frame.isIntent = false ∨ (s.lif.line = .active ∧ s.lif.clashEnd = none) →
      (c.phase = .deferring →
        exec .attemptStart s = .next { s with
          lif := { s.lif with
            current := some { c with
              phase := .onLine (0x5A :: withCrc (lineBody c.frame.code s.ownId s.lif.seq (s.payload c.frame))) } } }) ∧
      (∀ n, c.phase = .backoff n →
        exec .backoffExpiry s = .next { s with lif := { s.lif with current := some { c with phase := .deferring } } })) ∧
    (c.frame.isIntent = true → ¬(s.lif.line = .active ∧ s.lif.clashEnd = none) →
      ∀ l, l = { s.lif with current := none, waiting := insertFrameHead c.frame s.lif.waiting }.takeCurrent →
        (c.phase = .deferring → exec .attemptStart s = .next { s with lif := l }) ∧
        (∀ n, c.phase = .backoff n → exec .backoffExpiry s = .next { s with lif := l }))) ∧
  (∀ (f : TxFrame) (urgent rest : List TxFrame), (∀ g ∈ urgent, g.urgency < f.urgency) →
    (∀ g ∈ rest, f.urgency ≤ g.urgency) → insertFrameHead f (urgent ++ rest) = urgent ++ f :: rest) ∧
  ∀ (code : Nat) (src : StationId) (seq : Byte) (payload : List Byte), code < 16 →
    lineBody code src seq payload =
      [BitVec.ofNat 8 (16 * code + src.toNat), seq, BitVec.ofNat 8 payload.length] ++ payload ∧
    ∀ body : List Byte, ∃ high low : Byte, withCrc body = body ++ [high, low] ∧ high ++ low = crc16 body

/-- A collision, and a deferral of more than 1,024 slots, are a failed attempt: after attempt n of 1 to 15 the frame waits
(ID + 1) + 16 × n slots. After the 16th it leaves the current place and the queue, the line is in FAULT, LINE_FAULT is
raised, the sequence counter stands, the next frame is taken, and the discard is reported: an INTENT leaves the claim
BLOCKED, an ENTRY and a PICKUP set TX_DROPPED, and only the HOLD that the claim still needs and the FREE of a release are
offered again. A withdrawal held during an attempt is answered at its end: a failed attempt withdraws the INTENT, of a
conflict to BLOCKED, of a cancel to NONE; a sent INTENT of a cancel is answered with a YIELD and NONE, and one of a conflict
yields to an overlapping entry that is HELD, or INTENT with a wait age by which it outranks the own INTENT, and goes on in
CLAIMING where no such entry stands. The model's own: a held withdrawal at the
sixteenth failed attempt withdraws the INTENT, and the line does not go to FAULT (log 33); a discard is reported, and its
frame offered again, before the next frame is taken (log 37); a discarded ENTRY marks the dip context and the record of its
serial alike (log 17). -/
def Obligations.FailedAttemptBacksOffOrFaults : Prop :=
  (∀ (s : State) (c : Current) (i : Instr), s.lif.current = some c → c.removeOnFail = false →
    ((i = .collision ∧ ∃ bytes, c.phase = .onLine bytes) ∨ (i = .deferTimeout ∧ c.phase = .deferring)) →
    (c.withdrawHeld = false → c.attempts < 15 →
      exec i s = .next { s with lif := { s.lif with current := some { c with
        attempts := c.attempts + 1, phase := .backoff ((s.ownId.toNat + 1) + 16 * (c.attempts + 1)) } } }) ∧
    (c.withdrawHeld = false → c.attempts = 15 →
      let left : Lif := { s.lif with line := .fault, current := none }
      ∃ t, exec i s = .next t ∧ t.lif.line = .fault ∧ t.lif.seq = s.lif.seq ∧ t.spt.isRaised .lineFault = true ∧
        (s.scu.state ≠ .releasing →
          (∀ sp own, c.frame = .hold sp own.claim → s.scu.own = some own → s.scu.state = .claimingHoldQueued →
            s.lif.places ≤ 8 → t.scu = s.scu ∧
              t.lif = { left with waiting := insertFrame c.frame s.lif.waiting }.takeCurrent) ∧
          (¬(s.scu.state = .claimingHoldQueued ∧ ∃ sp own, c.frame = .hold sp own.claim ∧ s.scu.own = some own) →
            t.lif = left.takeCurrent) ∧
          (∀ sp age own, c.frame = .intent sp age own.claim → s.scu.own = some own → s.scu.state = .pending →
            t.scu = { s.scu with state := .blocked, own := none, withdrawal := .none }) ∧
          (∀ m k x, c.frame = .entry m k x → t.dsq = s.dsq.markDropped x ∧ t.zbr = s.zbr.markDropped x) ∧
          (∀ q m k x, c.frame = .pickup q m k x → t.dsq = s.dsq ∧ t.zbr = s.zbr.markDropped x)) ∧
        (∀ own, s.scu.state = .releasing → s.scu.own = some own →
          (c.frame = .free own.claim → s.lif.places ≤ 8 → t.scu = s.scu ∧
            t.lif = { left with waiting := insertFrame c.frame s.lif.waiting }.takeCurrent) ∧
          (c.frame ≠ .free own.claim → s.lif.waiting.any (TxFrame.isFreeOf own.claim) = true → t.scu = s.scu ∧
            t.lif = left.takeCurrent))) ∧
    (c.withdrawHeld = true → s.scu.state = .pending →
      ∃ t, exec i s = .next t ∧
        (s.scu.withdrawal = .conflict → s.scu.overlapped = true →
          t.scu = { s.scu with state := .blocked, own := none, withdrawal := .none } ∧
          t.lif = { s.lif with current := none }.takeCurrent) ∧
        (s.scu.withdrawal = .cancel → s.scu.held = none → s.dsq.state ≠ .awaitRelease →
          t.scu.state = .none ∧ t.scu.own = none ∧ t.scu.wanted = none ∧ t.scu.blockedSince = none ∧
          t.lif = { s.lif with current := none }.takeCurrent ∧ t.dsq = s.dsq))) ∧
  ∀ (s : State) (c : Current) (bytes : List Byte) (sp : Span) (age : Nat) (own : OwnEntry), s.lif.current = some c →
    c.phase = .onLine bytes → c.frame = .intent sp age own.claim → s.scu.own = some own → s.scu.state = .pending →
    ∃ t, exec .sendSuccess s = .next t ∧
      (s.scu.withdrawal = .cancel → s.scu.held = none → s.dsq.state ≠ .awaitRelease →
        t.scu.state = .none ∧ t.scu.own = none ∧
          (s.lif.places ≤ 8 → t.dsq = s.dsq ∧ t.lif.holds (· == .yield own.claim) = true)) ∧
      (s.scu.withdrawal = .conflict →
        let distance : StationId → Nat := fun x => (x - (s.scu.lastEntry + 1)).toNat
        let beats : PeerEntry → Prop := fun e => s.scu.meets e.span = true ∧
          (e.state = .held ∨ (e.state = .intent ∧ ∃ age, e.age = some age ∧
            (own.age < age ∨ (age = own.age ∧ distance e.holder < distance s.ownId))))
        ((∀ e ∈ s.scu.entries, ¬beats e) → t.scu.state = .claimingWindow ∧ t.scu.own = some own ∧
          t.scu.windowEnd = some (s.now + s.cfg.params.claimWindow)) ∧
        (∀ e ∈ s.scu.entries, beats e → t.scu.state = .retry ∧ t.scu.own = none ∧
          (s.lif.places ≤ 8 → t.lif.holds (· == .yield own.claim) = true)))

/-- A successful send raises the sequence counter by one and ends a FAULT by R16; the sent frame, of whatever kind, leaves
the queue, and the first waiting frame that may be sent becomes current. The completion of the own INTENT starts the claim
window, of the own HOLD the guard, and of the own FREE ends the claim; an INTENT whose claim was cancelled is followed by
its YIELD. -/
def Obligations.SendSuccessCompletesTheFrame : Prop :=
  (∀ (s : State) (c : Current) (bytes : List Byte) (own : OwnEntry), s.lif.current = some c → c.phase = .onLine bytes →
    let line : LineState :=
      if s.lif.line = .fault then
        (if s.lif.joinEnd ≠ none then .joining else if 64 ≤ s.lif.score then .degraded else .active)
      else s.lif.line
    let left : Lif := { s.lif with line := line, current := none, seq := s.lif.seq + 1 }
    ∃ t, exec .sendSuccess s = .next t ∧ t.lif.seq = s.lif.seq + 1 ∧ t.lif.line = line ∧
      (s.lif.line = .fault → t.spt.isRaised .lineRestored = true) ∧
      (s.scu.state ≠ .blocked → s.scu.state ≠ .releasing → s.scu.withdrawal = .none → t.lif = left.takeCurrent) ∧
      (s.scu.state = .blocked →
        s.scu.overlapped = true ∨ line ≠ .active ∨ s.lif.clashEnd ≠ none ∨ s.zbr.level = .stopped →
        t.lif = left.takeCurrent) ∧
      (s.scu.state = .releasing → s.scu.own = some own → s.scu.held = none → s.dsq.state ≠ .awaitRelease →
        c.frame = .free own.claim ∨ s.lif.waiting.any (TxFrame.isFreeOf own.claim) = true →
        t.lif = left.takeCurrent) ∧
      (∀ sp age, c.frame = .intent sp age own.claim → s.scu.own = some own → s.scu.state = .pending →
        (s.scu.withdrawal = .none →
          t.scu.state = .claimingWindow ∧ t.scu.windowEnd = some (s.now + s.cfg.params.claimWindow)) ∧
        (s.scu.withdrawal = .cancel → s.scu.held = none → s.dsq.state ≠ .awaitRelease → s.lif.places ≤ 8 →
          t.lif = { left with waiting := insertFrame (.yield own.claim) s.lif.waiting }.takeCurrent)) ∧
      (∀ sp, c.frame = .hold sp own.claim → s.scu.own = some own → s.scu.state = .claimingHoldQueued →
        t.scu.state = .guard ∧ t.scu.guardEnd = some (s.now + s.cfg.params.guardTime) ∧ t.scu.blockedSince = none) ∧
      (c.frame = .free own.claim → s.scu.own = some own → s.scu.state = .releasing → s.scu.held = none →
        s.dsq.state = .idle → t.scu.state = .none ∧ t.scu.own = none ∧ t.dsq.position = .clear)) ∧
  ∀ l : Lif, l.current = none → l.line ≠ .off →
    let barred : TxFrame → Prop := fun g => g.isIntent = true ∧ ¬(l.line = .active ∧ l.clashEnd = none)
    (∀ older f newer, l.waiting = older ++ f :: newer → (∀ g ∈ older, barred g) → ¬barred f →
      l.takeCurrent = { l with
        current := some { frame := f, attempts := 0, phase := .deferring, withdrawHeld := false, removeOnFail := false },
        waiting := older ++ newer }) ∧
    ((∀ g ∈ l.waiting, barred g) → l.takeCurrent = l)

/-! ### Timers of the line, the peers and the claim -/

/-- The beacon timer queues a BEACON every period, one at a time; the join timer ends JOINING in ACTIVE or DEGRADED by the
score; the clash timer's expiry clears the clash mark. That an expiry taken before its time moves the time base to the end
of its timer is the model's choice (log 4). -/
def Obligations.LineTimersExpire : Prop :=
  ∀ (s : State) (e : Nat),
    (s.lif.beaconNext = some e → ∃ t, exec .beaconTimerExpiry s = .next t ∧ t.now = max s.now e ∧
      t.lif.beaconNext = some (e + s.cfg.params.beaconPeriod) ∧ t.lif.line = s.lif.line ∧
      (s.lif.places < 8 → t.lif.holds (· == .beacon) = true) ∧
      (s.lif.holds (· == .beacon) = true → t.lif.places = s.lif.places)) ∧
    (s.lif.joinEnd = some e → ∃ t, exec .joinTimerExpiry s = .next t ∧ t.now = max s.now e ∧ t.lif.joinEnd = none ∧
      (s.lif.line = .joining → 64 ≤ s.lif.score → t.lif.line = .degraded ∧ t.spt.isRaised .lineDegraded = true) ∧
      (s.lif.line = .joining → s.lif.score < 64 → t.lif.line = .active ∧ t.spt = s.spt) ∧
      (s.lif.line = .fault → t.lif.line = .fault)) ∧
    (s.lif.clashEnd = some e → ∃ t, exec .clashTimerExpiry s = .next t ∧ t.now = max s.now e ∧ t.lif.clashEnd = none ∧
      t.lif.line = s.lif.line ∧ t.spt = s.spt)

/-- A peer whose silence timer expires is SILENT with its other fields kept, PEER_SILENT is raised, and its span entry is
STALE with its lapse timer stopped. An INTENT entry whose lapse timer ends is removed, and no other is. A good frame of a
peer without a record gives it one with the condition of a BEACON and UNKNOWN of another kind; of a peer with one it
changes the condition by a BEACON alone, keeps the expected pickup sequence, which only a PICKUP sets, and of a SILENT peer
raises PEER_BACK. The time base moved to a timer's end is the model's choice (log 4), the wait age a STALE entry keeps its
deduction (log 13). -/
def Obligations.SilencesAndLapsesChangeTheEntry : Prop :=
  (∀ (s : State) (holder : StationId) (e : PeerEntry) (d : Nat), s.scu.entryOf holder = some e → e.lapseEnd = some d →
    ∃ t, exec (.intentLapse holder) s = .next t ∧ t.now = max s.now d ∧
      t.scu.entries = s.scu.entries.filter (fun x => x.holder != holder) ∧ t.ptb = s.ptb) ∧
  (∀ (s : State) (peer : StationId) (p : Peer) (e : Nat), s.ptb.recordOf peer = some p → p.silenceEnd = some e →
    ∃ t, exec (.peerSilenceExpiry peer) s = .next t ∧ t.now = max s.now e ∧
      t.ptb.recordOf peer = some { p with presence := .silent, silenceEnd := none } ∧
      t.spt.isRaised .peerSilent = true ∧
      t.scu.entries = s.scu.entries.map (fun x =>
        if x.holder = peer then { x with state := .stale, lapseEnd := none } else x) ∧
      (∀ h, h ≠ peer → t.ptb.recordOf h = s.ptb.recordOf h)) ∧
  ∀ (s : State) (c : Instr) (src : StationId) (seq : Byte), goodFrame s.cells c = some (src, seq) → s.hears src →
    ∃ t, exec c s = .next t ∧
      (s.ptb.recordOf src = none →
        (t.ptb.recordOf src).map Peer.condition = some ((reportedCondition s.cells c).getD .unknown)) ∧
      (∀ p, s.ptb.recordOf src = some p →
        (t.ptb.recordOf src).map Peer.condition = some ((reportedCondition s.cells c).getD p.condition) ∧
        (p.presence = .silent → t.spt.isRaised .peerBack = true)) ∧
      ((∀ payload, c ≠ .pickupFrame src seq payload) →
        (t.ptb.recordOf src).bind Peer.expected = (s.ptb.recordOf src).bind Peer.expected)

/-- The end of the claim window queues a HOLD of the own span. In a full queue the HOLD takes the place of the youngest
waiting frame of the least urgent class where that class is less urgent, and a dropped ENTRY or PICKUP is marked
TX_DROPPED; where none is less urgent the HOLD itself is dropped, and the claim enters RETRY. The end of the guard makes the
span FIRM, and a CLAIM step that waits for it ends. The time base moved to a timer's end is the model's choice (log 4); its
deductions are the number and phase of the MOVE at the hand-over (log 18), and that a dropped ENTRY marks the dip context
and the record of its serial alike (log 17). -/
def Obligations.ClaimWindowAndGuardEnd : Prop :=
  ∀ (s : State) (e : Nat) (own : OwnEntry) (w : Span), s.scu.own = some own → s.scu.wanted = some w →
    (s.scu.windowEnd = some e → s.scu.state = .claimingWindow → ∃ t, exec .claimWindowExpiry s = .next t ∧
      t.now = max s.now e ∧ t.scu.windowEnd = none ∧
      (s.lif.places < 8 → t.scu.state = .claimingHoldQueued ∧ t.scu.own = some own ∧
        t.lif.holds (· == .hold w own.claim) = true) ∧
      (∀ older v, 8 ≤ s.lif.places → s.lif.waiting = older ++ [v] →
        (1 < v.urgency → t.scu.state = .claimingHoldQueued ∧ t.scu.own = some own ∧
          t.lif = { s.lif with waiting := insertFrame (.hold w own.claim) older }.takeCurrent ∧
          (∀ m k x, v = .entry m k x → t.dsq = s.dsq.markDropped x ∧ t.zbr = s.zbr.markDropped x) ∧
          (∀ q m k x, v = .pickup q m k x → t.dsq = s.dsq ∧ t.zbr = s.zbr.markDropped x)) ∧
        (v.urgency = 1 → t.scu.state = .retry ∧ t.scu.own = none ∧ t.lif = s.lif.takeCurrent ∧
          t.scu.retryEnd = some (max s.now e + roundNat ((s.ownId.toNat + 1) * s.cfg.params.claimWindow) 4)))) ∧
    (s.scu.guardEnd = some e → s.scu.state = .guard →
      (s.dsq.state ≠ .awaitClaim → ∃ t, exec .guardExpiry s = .next t ∧ t.now = max s.now e ∧ t.scu.state = .firm ∧
        t.scu.guardEnd = none ∧ t.scu.own = some own) ∧
      (∀ c cell, s.dsq.state = .awaitClaim → s.dsq.ctx = some c → s.nextStep c = some (.travel cell) →
        s.dsq.position ≠ .below →
        exec .guardExpiry s = .next { s with
          now := max s.now e,
          scu := { s.scu with state := .firm, guardEnd := none },
          dsq := { s.dsq with state := .traveling, ctx := some c.next },
          mpt := s.mpt.handed (.move cell) }))

/-- A CLAIM step wants the cells about the hook with their margins, or the whole kettle, and keeps the dip's first request
time; it starts the blocked timer and is BLOCKED, or starts at once with the next claim number where the start conditions
hold; in RELEASING SCU holds its span. The end of the retry delay makes the claim BLOCKED or start again in the same way. A
blocked timer past its limit raises BLOCKED_LONG once in a dip. The model's own: the time base moved to a timer's end
(log 4), nothing at a mark already set (log 5), the request time of a held request (log 10), the limit plus 1 ms
(log 35). -/
def Obligations.RetryAndBlockedTimersEnd : Prop :=
  (∀ (s : State) (e : Nat) (w : Span),
    (s.scu.retryEnd = some e → s.scu.state = .retry → s.scu.wanted = some w →
      (s.scu.overlapped = true ∨ s.lif.line ≠ .active ∨ s.lif.clashEnd ≠ none ∨ s.zbr.level = .stopped →
        exec .retryDelayExpiry s =
          .next { s with now := max s.now e, scu := { s.scu with state := .blocked, retryEnd := none } }) ∧
      (s.scu.overlapped = false → s.lif.line = .active → s.lif.clashEnd = none → s.zbr.level ≠ .stopped →
        s.lif.places < 8 →
        ∃ t, exec .retryDelayExpiry s = .next t ∧ t.scu.state = .pending ∧
          t.scu.own.map OwnEntry.claim = some s.scu.nextClaim ∧ t.scu.nextClaim = s.scu.nextClaim + 1 ∧
          t.lif.holds (TxFrame.isIntentOf s.scu.nextClaim) = true)) ∧
    (s.scu.blockedSince = some e → s.scu.blockedLongMark = false → ∃ t, exec .blockedLong s = .next t ∧
      t.now = max s.now (e + s.cfg.params.blockedLimit * 1000 + 1) ∧
      t.scu = { s.scu with blockedLongMark := true } ∧ t.spt.isRaised .blockedLongEv = true ∧ t.dsq = s.dsq ∧
      t.lif = s.lif) ∧
    (s.scu.blockedSince = some e → s.scu.blockedLongMark = true → exec .blockedLong s = .next s)) ∧
  ∀ (s : State) (c : DipCtx) (e length : Nat) (whole : Bool) (w : Span), s.dsq.ctx = some c →
    s.dsq.dwellEnd = some e → s.nextStep c = some (.claim length whole) →
    ((whole = true ∧ w = ⟨0, s.cells - 1, true⟩) ∨
      (whole = false ∧ ∃ (hook : Nat) (first last : Int), s.mpt.hook = some hook ∧
        first = hook - ((length - 1) / 2 : Nat) ∧ last = first + length - 1 ∧ 0 ≤ first ∧ last ≤ (s.cells : Int) - 1 ∧
        w = ⟨(first - s.cfg.params.margin).toNat, min (s.cells - 1) (last + s.cfg.params.margin).toNat, false⟩)) →
    (s.scu.state = .none → ∃ t, exec .dwellExpiry s = .next t ∧ t.now = max s.now e ∧ t.dsq.state = .awaitClaim ∧
      t.dsq.ctx.map (fun d => (d.index, d.progressive)) = some (c.index + 1, c.progressive || whole) ∧
      t.scu.wanted = some w ∧ t.scu.blockedSince = some (max s.now e) ∧
      t.scu.requestTime = some (s.scu.requestTime.getD (max s.now e)) ∧
      ((∃ x ∈ s.scu.entries, x.span.overlaps w = true) ∨ s.lif.line ≠ .active ∨ s.lif.clashEnd ≠ none ∨
          s.zbr.level = .stopped → t.scu.state = .blocked ∧ t.lif = s.lif) ∧
      ((∀ x ∈ s.scu.entries, x.span.overlaps w = false) → s.lif.line = .active → s.lif.clashEnd = none →
        s.zbr.level ≠ .stopped → s.lif.places < 8 → t.scu.state = .pending ∧
          t.scu.own.map OwnEntry.claim = some s.scu.nextClaim ∧ t.scu.nextClaim = s.scu.nextClaim + 1 ∧
          t.lif.holds (TxFrame.isIntentOf s.scu.nextClaim) = true)) ∧
    (s.scu.state = .releasing ∨ (s.scu.state = .pending ∧ s.scu.withdrawal = .cancel) →
      exec .dwellExpiry s = .next { s.afterDwell c e with
        scu := { s.scu with requestTime := some (s.scu.requestTime.getD (max s.now e)), held := some w },
        dsq := { s.dsq with state := .awaitClaim, dwellEnd := none,
                            ctx := some { c.next with progressive := c.progressive || whole } } })

/-- A LOWER step waits for its span until it is FIRM and clear, and then asks for admission of its entering mass: admitted
within the budget, waiting for the sum above it, and with a mass above the budget admitted over budget to an empty window
and waiting for it otherwise. An expired record leaves the window, its mass with it, and a waiting request that may then be
admitted is: the own ENTRY enters the window, the last-entry ID is the own ID, an admission over budget raises HEAT_OVER and
marks the dip, and, the span firm and clear, the LOWER is issued; a request that may not waits on. The model's own: the
time base moved to the record's end (log 4), the LOWER's phase and number at the hand-over (log 18), the place an
ENTRY_EXPIRY names (log 28). -/
def Obligations.EntryExpiryAdmitsTheWaitingRequest : Prop :=
  (∀ (s : State) (e : HeatEntry) (rest : List HeatEntry), s.hwn.entries = e :: rest → rest.length < 24 →
    let expiry := max s.now (e.arrival + s.cfg.params.window * 1000)
    ((s.hwn.request = .none ∨
        (∃ r, s.hwn.request = .waitSum r ∧ s.cfg.params.budget < s.hwn.sum - e.mass + r.mass) ∨
        (∃ r, s.hwn.request = .waitEmpty r ∧ rest ≠ [])) →
      exec (.entryExpiry 0) s = .next { s with
        now := expiry, hwn := { s.hwn with entries := rest, sum := s.hwn.sum - e.mass } }) ∧
    (∀ r p beyond, (s.hwn.request = .waitSum r ∧ s.hwn.sum - e.mass + r.mass ≤ s.cfg.params.budget ∧ beyond = false) ∨
        (s.hwn.request = .waitEmpty r ∧ rest = [] ∧ beyond = true) →
      s.dsq.state = .heatWait p → s.scu.state = .firm → s.scu.overlapped = false →
      ∃ t, exec (.entryExpiry 0) s = .next t ∧ t.hwn.request = .none ∧
        t.hwn.sum = s.hwn.sum - e.mass + r.mass ∧ t.hwn.entries = rest ++ [{
          src := s.ownId, mass := r.mass, arrival := expiry, index := r.index, merges := 0 }] ∧
        t.scu.lastEntry = s.ownId ∧ t.dsq.state = .lowering ∧
        t.mpt.phase = .awaitAccept (.lower p.depth p.speed) s.mpt.counter ∧
        t.dsq.ctx.map DipCtx.heatOver = s.dsq.ctx.map (fun c => c.heatOver || beyond) ∧
        (beyond = true → t.spt.isRaised .heatOver = true) ∧ (beyond = false → t.spt = s.spt))) ∧
  ∀ (s : State) (c : DipCtx) (e depth speed fraction : Nat), s.dsq.ctx = some c → s.dsq.dwellEnd = some e →
    s.nextStep c = some (.lower depth speed fraction) → s.dsq.position ≠ .below → c.immersions < 2 →
    s.scu.state ≠ .none → s.scu.state ≠ .releasing →
    let base := match c.dry with
      | some d => roundNat d.toNat 10
      | none => c.nominal
    let mass := roundNat (base * fraction) 1000
    let index := if c.immersions = 0 then 1 else 2
    let asked : HeatWaiting := ⟨mass, index, max s.now e⟩
    let waits : DsqState → HeatRequest → Prop := fun d r =>
      exec .dwellExpiry s = .next { s.afterDwell c e with
        hwn := { s.hwn with request := r },
        dsq := { s.dsq with state := d, dwellEnd := none, ctx := some c.next } }
    (s.scu.state ≠ .firm ∨ s.scu.overlapped = true → waits (.awaitLower ⟨depth, speed, fraction⟩) s.hwn.request) ∧
    (s.scu.state = .firm → s.scu.overlapped = false → s.hwn.request = .none →
      (mass ≤ s.cfg.params.budget → s.cfg.params.budget < s.hwn.sum + mass →
        waits (.heatWait ⟨depth, speed, fraction⟩) (.waitSum asked)) ∧
      (s.cfg.params.budget < mass → s.hwn.entries ≠ [] →
        waits (.heatWait ⟨depth, speed, fraction⟩) (.waitEmpty asked)) ∧
      (∀ beyond, (mass ≤ s.cfg.params.budget ∧ s.hwn.sum + mass ≤ s.cfg.params.budget ∧ beyond = false) ∨
          (s.cfg.params.budget < mass ∧ s.hwn.entries = [] ∧ beyond = true) → s.hwn.entries.length < 24 →
        ∃ t, exec .dwellExpiry s = .next t ∧ t.hwn.request = .none ∧ t.hwn.sum = s.hwn.sum + mass ∧
          t.hwn.entries = s.hwn.entries ++ [{
            src := s.ownId, mass := mass, arrival := max s.now e, index := index, merges := 0 }] ∧
          t.scu.lastEntry = s.ownId ∧ t.dsq.state = .lowering ∧
          t.mpt.phase = .awaitAccept (.lower depth speed) s.mpt.counter ∧
          t.dsq.ctx.map DipCtx.heatOver = some (c.heatOver || beyond) ∧
          (beyond = true → t.spt.isRaised .heatOver = true)))

/-- The dwell timer's end takes the next step. A RAISE stops the immersion timer, its interval added, and sends the request;
VIBRATE and TRAVEL send theirs; WEIGH_DRY, WEIGH_OUT and DRAIN start WCH's task; a DWELL runs its duration, capped by the
class in which the lot is LOCKED or FIXED; a RELEASE frees a held span and waits for it, and ends at once with the load CLEAR
where there is none. END stops the immersion timer, cancels an open claim, makes the record of a dip that was immersed,
COMPLETE, and parks with PARKED where a span is held, else returns to IDLE with DIP_DONE; the record numbers, queues its
PICKUP, lowers Z, and steps its lot by the table of R176, raising CLASS_LOCKED and CLASS_LOST. The abort drain's end adds its
time to the drain time and starts the 30 s weigh-out. The model's own: the time base moved to a timer's end (log 4), a
request's phase and number at the hand-over (log 18). -/
def Obligations.DipTimersExpire : Prop :=
  (∀ (s : State) (c : DipCtx) (e : Nat), s.dsq.ctx = some c → s.dsq.dwellEnd = some e →
    let m := max s.now e
    let takes : Dsq → Mpt → Wch → Prop := fun d p w =>
      exec .dwellExpiry s = .next { s.afterDwell c e with dsq := d, mpt := p, wch := w }
    let into : DsqState → Dsq := fun d => { s.dsq with state := d, dwellEnd := none, ctx := some c.next }
    (∀ v, s.nextStep c = some (.raise v) →
      takes { into .raising with immersionSince := none, ctx := some (c.next.outOfZinc s.dsq.immersionSince m) }
        (s.mpt.handed (.raise v)) s.wch) ∧
    (∀ n, s.nextStep c = some (.vibrate n) → takes (into .vibrating) (s.mpt.handed (.vibrate n)) s.wch) ∧
    (∀ cell, s.nextStep c = some (.travel cell) → s.dsq.position ≠ .below →
      takes (into .traveling) (s.mpt.handed (.move cell)) s.wch) ∧
    (∀ n, s.nextStep c = some (.weighDry n) → takes (into .weighingDry) s.mpt (s.wch.settling m n)) ∧
    (∀ n, s.nextStep c = some (.weighOut n) → takes (into .weighingOut) s.mpt (s.wch.settling m n)) ∧
    (∀ mn mx h l q, s.nextStep c = some (.drain mn mx h l q) →
      takes (into .draining) s.mpt { s.wch with
        task := .drain { start := m, minimum := mn, maximum := mx, high := h, low := l, quiet := q, minPending := true },
        slicer := { isQuiet := false, quietRun := 0, drip := 0, frozen := s.wch.lost, lastDrip := none } }) ∧
    (∀ d, s.nextStep c = some (.dwell d) →
      ((c.lot = 0 ∨ s.pku.lotOf c.lot = none ∨ ∃ x, s.pku.lotOf c.lot = some x ∧
          (x.classifier = .search ∨ ∃ k n, x.classifier = .tentative k n)) →
        takes { into .dwelling with dwellEnd := some (m + d * 1000) } s.mpt s.wch) ∧
      (∀ x k, c.lot ≠ 0 → s.pku.lotOf c.lot = some x → (x.classifier = .fixed k ∨ ∃ n, x.classifier = .locked k n) →
        takes { into .dwelling with dwellEnd := some (m + min d (s.cfg.params.row k).cap * 1000) } s.mpt s.wch)) ∧
    (s.nextStep c = some .release → s.dsq.position ≠ .below →
      (∀ own, s.scu.own = some own → s.scu.state = .firm ∨ s.scu.state = .guard → s.lif.places < 8 →
        ∃ t, exec .dwellExpiry s = .next t ∧ t.dsq = into .awaitRelease ∧ t.scu.state = .releasing ∧
          t.scu.own = some own ∧ t.lif.holds (· == .free own.claim) = true) ∧
      (∀ n, s.scu.state = .none → s.nextStep c.next = some (.weighDry n) →
        takes { into .weighingDry with position := .clear, ctx := some c.next.next } s.mpt (s.wch.settling m n)) ∧
      (∀ n, (s.scu.state = .blocked ∨ s.scu.state = .retry) → s.scu.held = none →
        s.nextStep c.next = some (.weighDry n) → ∃ t, exec .dwellExpiry s = .next t ∧ t.scu.state = .none ∧
          t.dsq = { into .weighingDry with ctx := some c.next.next } ∧ t.wch = s.wch.settling m n)) ∧
    (s.nextStep c = some .finish →
      let d := c.next.outOfZinc s.dsq.immersionSince m
      ∃ t, exec .dwellExpiry s = .next t ∧ t.now = m ∧ t.mpt = s.mpt ∧ t.wch = s.wch ∧ t.hwn = s.hwn ∧
        (s.scu.state.isHeld = true →
          t.dsq = { into .parked with immersionSince := none, ctx := some d } ∧ t.scu = s.scu ∧
          t.spt.isRaised .parkedEv = true) ∧
        (s.scu.state.isHeld = false →
          t.dsq = Dsq.reset ∧ t.pku.lots.any Lot.inUse = false ∧ t.scu.requestTime = none ∧
          t.scu.blockedLongMark = false ∧ t.spt.isRaised .dipDone = true ∧
          (s.scu.state = .blocked ∨ s.scu.state = .retry ∨ s.scu.state = .claimingWindow → s.scu.held = none →
            t.scu.state = .none)) ∧
        (c.immersions = 0 → t.zbr.nextNumber = s.zbr.nextNumber ∧ t.zbr.z = s.zbr.z ∧ t.zbr.ownSeq = s.zbr.ownSeq) ∧
        (c.immersions ≠ 0 → RecordMade s d .complete (s.lif.places < 5) t))) ∧
  (∀ (lock n : Nat) (d : Option DipClass) (k y : SteelClass),
    let run : SteelClass → Nat → Classifier × List Event := fun z m =>
      if lock ≤ m then (.locked z 0, [.classLocked]) else (.tentative z m, [])
    (∀ st, stepIfClassified lock st none = (st, [])) ∧ stepIfClassified lock (.fixed k) d = (.fixed k, []) ∧
    stepIfClassified lock .search (some (.cls y)) = run y 1 ∧
    stepIfClassified lock .search (some .noMatch) = (.search, []) ∧
    stepIfClassified lock (.tentative k n) (some (.cls k)) = run k (n + 1) ∧
    stepIfClassified lock (.tentative k n) (some .noMatch) = (.tentative k n, []) ∧
    stepIfClassified lock (.locked k n) (some (.cls k)) = (.locked k 0, []) ∧
    stepIfClassified lock (.locked k 0) (some .noMatch) = (.locked k 1, []) ∧
    stepIfClassified lock (.locked k 1) (some .noMatch) = (.search, [.classLost]) ∧
    (y ≠ k → stepIfClassified lock (.tentative k n) (some (.cls y)) = run y 1 ∧
      stepIfClassified lock (.locked k 0) (some (.cls y)) = (.locked k 1, []) ∧
      stepIfClassified lock (.locked k 1) (some (.cls y)) = ((run y 1).1, .classLost :: (run y 1).2))) ∧
  ∀ (s : State) (c : DipCtx) (e : Nat), s.dsq.ctx = some c → s.dsq.drainEnd = some e →
    exec .abortDrainExpiry s = .next { s with
      now := max s.now e,
      dsq := { s.dsq with
        state := .aborting .weighing, drainEnd := none,
        ctx := some { c with drainTime := min 65535 (c.drainTime + s.cfg.params.abortDrain * 10) } },
      wch := s.wch.settling (max s.now e) 30 }

/-! ### The drive -/

/-- A response frame begins with 0011 1110 and stands for its command by its code, 1 ACCEPT, 2 DONE, 3 FAIL; a bad CRC,
another code and a FAIL detail outside 1 to 4 make it one that is discarded. The accept timer of a request or STOP runs
500 ms from the last byte of its frame; an acceptance starts the done timer of its kind, and of a LOWER sets the load BELOW
and counts the immersion; the DONE of a LOWER starts the immersion timer and ends the step (the next is a WEIGH_OUT here),
after the acceptance where none came. The model's own: AWAIT_ACCEPT before the last byte has left, with the accept timer
started only by MOTION_REQUEST_SENT (log 18), and the bytes the CRC covers (log 29). -/
def Obligations.AcceptedRequestRuns : Prop :=
  (∀ (s : State) (n : Byte),
    (∀ f rest r, s.mpt.sending = f :: rest → f.number = n →
      (s.mpt.phase = .awaitAccept r n ∨ s.mpt.phase = .stopping n) →
      exec .motionRequestSent s =
        .next { s with mpt := { s.mpt with sending := rest, acceptEnd := some (s.now + 500) } }) ∧
    (∀ cell, s.mpt.phase = .awaitAccept (.move cell) n →
      exec (.motionAccept n) s = .next { s with mpt := { s.mpt with
        phase := .running (.move cell) n, acceptEnd := none,
        doneEnd := some (s.now + s.cfg.params.moveTimeout * 1000) } }) ∧
    (∀ v, s.mpt.phase = .awaitAccept (.raise v) n →
      exec (.motionAccept n) s = .next { s with mpt := { s.mpt with
        phase := .running (.raise v) n, acceptEnd := none,
        doneEnd := some (s.now + s.cfg.params.verticalTimeout * 1000) } }) ∧
    (∀ sec, s.mpt.phase = .awaitAccept (.vibrate sec) n →
      exec (.motionAccept n) s = .next { s with mpt := { s.mpt with
        phase := .running (.vibrate sec) n, acceptEnd := none, doneEnd := some (s.now + (sec + 5) * 1000) } }) ∧
    (∀ d v c, s.mpt.phase = .awaitAccept (.lower d v) n → s.dsq.ctx = some c →
      exec (.motionAccept n) s = .next { s with
        mpt := { s.mpt with
          phase := .running (.lower d v) n, acceptEnd := none,
          doneEnd := some (s.now + s.cfg.params.verticalTimeout * 1000) },
        dsq := { s.dsq with
          position := .below,
          ctx := some { c with immersions := c.immersions + 1,
                               progressive := c.progressive || decide (2 ≤ c.immersions + 1) } } }) ∧
    (∀ d v c cell timeout, s.dsq.ctx = some c → s.dsq.state = .lowering → s.nextStep c = some (.weighOut timeout) →
      (s.mpt.phase = .running (.lower d v) n → exec (.motionDone n cell) s = .next { s with
        mpt := { s.mpt with phase := .idle, acceptEnd := none, doneEnd := none },
        dsq := { s.dsq with state := .weighingOut, immersionSince := some (s.dsq.immersionSince.getD s.now),
                            ctx := some c.next },
        wch := s.wch.settling s.now timeout }) ∧
      (s.mpt.phase = .awaitAccept (.lower d v) n → exec (.motionDone n cell) s = .next { s with
        mpt := { s.mpt with phase := .idle, acceptEnd := none, doneEnd := none },
        dsq := { s.dsq with state := .weighingOut, immersionSince := some (s.dsq.immersionSince.getD s.now),
                            position := .below,
                            ctx := some { c.next with
                              immersions := c.immersions + 1,
                              progressive := c.progressive || decide (2 ≤ c.immersions + 1) } },
        wch := s.wch.settling s.now timeout }))) ∧
  ∀ (code number detail high low : Byte) (rest : List Byte),
    let read := receiveResponse (0x3E :: code :: number :: detail :: high :: low :: rest)
    (crc16 [code, number, detail, high, low] ≠ 0 → read = .command .motionFrameDiscarded rest) ∧
    (crc16 [code, number, detail, high, low] = 0 →
      (code = 1 → read = .command (.motionAccept number) rest) ∧
      (code = 2 → read = .command (.motionDone number detail) rest) ∧
      (code = 3 → 1 ≤ detail.toNat → detail.toNat ≤ 4 → read = .command (.motionFail number detail) rest) ∧
      (code = 3 → detail = 0 ∨ 4 < detail.toNat → read = .command .motionFrameDiscarded rest) ∧
      (code = 0 ∨ 3 < code.toNat → read = .command .motionFrameDiscarded rest))

/-- A DONE completes the outstanding request and the step that waits for it (the next step is a WEIGH_DRY or WEIGH_OUT
here): of a MOVE its cell becomes the hook cell, of a RAISE a load BELOW becomes ABOVE; a DONE in AWAIT_ACCEPT stands for
both. -/
def Obligations.CompletedRequestEndsItsStep : Prop :=
  ∀ (s : State) (n cell : Byte) (c : DipCtx) (timeout : Nat), s.dsq.ctx = some c →
    (∀ target, (s.mpt.phase = .running (.move target) n ∨ s.mpt.phase = .awaitAccept (.move target) n) →
      cell.toNat < s.cells → s.dsq.state = .traveling → s.nextStep c = some (.weighDry timeout) →
      exec (.motionDone n cell) s = .next { s with
        mpt := { s.mpt with phase := .idle, acceptEnd := none, doneEnd := none, hook := some cell.toNat },
        dsq := { s.dsq with state := .weighingDry, ctx := some c.next },
        wch := { s.wch with
          task := .settle { timeoutEnd := s.now + timeout * 1000, stepCount := 0, runCount := 0 } } }) ∧
    (∀ v, (s.mpt.phase = .running (.raise v) n ∨ s.mpt.phase = .awaitAccept (.raise v) n) →
      s.dsq.state = .raising → s.dsq.position = .below → s.nextStep c = some (.weighOut timeout) →
      exec (.motionDone n cell) s = .next { s with
        mpt := { s.mpt with phase := .idle, acceptEnd := none, doneEnd := none },
        dsq := { s.dsq with state := .weighingOut, position := .above, ctx := some c.next },
        wch := { s.wch with
          task := .settle { timeoutEnd := s.now + timeout * 1000, stepCount := 0, runCount := 0 } } })

/-- A FAIL, a DONE of a MOVE with a cell out of range, and the expiry of an accept or a done timer end the request as a
motion fault: MPT is IDLE, DSQ is HALTED with the reason, the kind and the phase as its cause, no task runs and no
admission waits, MOTION_FAULT and HALTED are raised, and a MOVE's hook cell is absent. A step that fails its run-time check
is a program fault: HALTED with the reason, PROGRAM_FAULT and HALTED raised, a held span and the motion line as they were. The
checks are LOWER's, TRAVEL's, RELEASE's and CLAIM's, first that fails, and CHAIN's; a CHAIN that passes takes step 0 of its
target (a WEIGH_DRY here) with the depth one more. The time base moved to a timer's end is the model's choice (log 4); that a
CLAIM whose span is already FIRM is refused with CLAIM_HELD, like one in any other state of an own claim, is its deduction
from R42, R106 and R114 against the example of R103 (log 39). -/
def Obligations.MotionFaultHaltsTheDip : Prop :=
  (∀ (s : State) (c : DipCtx) (r : MotionRequest) (n detail cell : Byte) (e : Nat), s.dsq.ctx = some c →
    let faulted : State → MotionReason → Bool → Prop := fun t reason running =>
      t.mpt.phase = .idle ∧ t.mpt.acceptEnd = none ∧ t.mpt.doneEnd = none ∧ t.dsq.state = .halted ∧
      t.dsq.cause = some ⟨.motion reason r.kind running, c.slot, c.index⟩ ∧ t.wch.task = .none ∧
      t.hwn.request = .none ∧ t.dsq.dwellEnd = none ∧ t.dsq.drainEnd = none ∧ t.dsq.immersionSince = none ∧
      t.spt.isRaised .motionFault = true ∧ t.spt.isRaised .haltedEv = true ∧
      t.mpt.hook = (if r.kind = .move then none else s.mpt.hook) ∧
      (s.dsq.position = .below ∨ s.dsq.position = .above → t.dsq.position = .unknown)
    (∀ reason, failReason detail = some reason →
      (s.mpt.phase = .awaitAccept r n → ∃ t, exec (.motionFail n detail) s = .next t ∧ faulted t reason false) ∧
      (s.mpt.phase = .running r n → ∃ t, exec (.motionFail n detail) s = .next t ∧ faulted t reason true)) ∧
    (∀ target, r = .move target → s.mpt.phase = .running r n → s.cells ≤ cell.toNat →
      ∃ t, exec (.motionDone n cell) s = .next t ∧ faulted t .badCell true) ∧
    (s.mpt.phase = .awaitAccept r n → s.mpt.acceptEnd = some e →
      ∃ t, exec .acceptTimeout s = .next t ∧ t.now = max s.now e ∧ faulted t .timeout false) ∧
    (s.mpt.phase = .running r n → s.mpt.doneEnd = some e →
      ∃ t, exec .doneTimeout s = .next t ∧ t.now = max s.now e ∧ faulted t .timeout true)) ∧
  ∀ (s : State) (c : DipCtx) (e : Nat), s.dsq.ctx = some c → s.dsq.dwellEnd = some e →
    let faults : ProgramReason → Prop := fun reason => ∃ t, exec .dwellExpiry s = .next t ∧ t.mpt = s.mpt ∧
      t.dsq.state = .halted ∧ t.dsq.cause = some ⟨.program reason, c.slot, c.index + 1⟩ ∧ t.wch.task = .none ∧
      t.hwn.request = .none ∧ t.dsq.dwellEnd = none ∧ t.dsq.drainEnd = none ∧ t.dsq.immersionSince = none ∧
      t.spt.isRaised .programFault = true ∧ t.spt.isRaised .haltedEv = true ∧
      t.dsq.position = (if s.dsq.position = .below then .unknown else s.dsq.position) ∧
      (s.scu.state.isHeld = true → s.scu.held = none → t.scu = s.scu ∧ t.lif = s.lif)
    (∀ d v f, s.nextStep c = some (.lower d v f) →
      (s.dsq.position = .below → faults .loadBelow) ∧
      (s.dsq.position ≠ .below → 2 ≤ c.immersions → faults .immersionLimit) ∧
      (s.dsq.position ≠ .below → c.immersions < 2 → s.scu.state = .none ∨ s.scu.state = .releasing →
        faults .noSpan)) ∧
    (∀ cell, s.nextStep c = some (.travel cell) → s.dsq.position = .below → faults .loadBelow) ∧
    (s.nextStep c = some .release → s.dsq.position = .below → faults .loadBelow) ∧
    (∀ length whole, s.nextStep c = some (.claim length whole) →
      let mayAsk := s.scu.state = .none ∨ s.scu.state = .releasing ∨
        (s.scu.state = .pending ∧ s.scu.withdrawal = .cancel)
      (¬mayAsk → faults .claimHeld) ∧
      (mayAsk → whole = false →
        (s.mpt.hook = none ∨ ∃ (hook : Nat) (first : Int), s.mpt.hook = some hook ∧
          first = hook - ((length - 1) / 2 : Nat) ∧ (first < 0 ∨ (s.cells : Int) - 1 < first + length - 1)) →
        faults .spanOutside)) ∧
    (∀ target, s.nextStep c = some (.chain target) →
      (4 ≤ c.depth → faults .chainLimit) ∧
      (c.depth < 4 → s.pgs.programAt target = none → faults .chainEmpty) ∧
      (∀ p, c.depth < 4 → s.pgs.programAt target = some p →
        (s.scu.state ≠ .none → p.continuation = false → faults .chainHeld) ∧
        (∀ timeout, (s.scu.state = .none ∨ p.continuation = true) → p.steps[0]? = some (.weighDry timeout) →
          exec .dwellExpiry s = .next { s.afterDwell c e with
            dsq := { s.dsq with state := .weighingDry, dwellEnd := none,
                                ctx := some { c with slot := target, index := 0, depth := c.depth + 1 } },
            wch := s.wch.settling (max s.now e) timeout })))

/-- A STOP that is accepted completes a quick abort, with a record of outcome ABORTED where the dip was immersed, and sends
the abort path on: of a LOWER the immersion timer starts, and a load BELOW is raised at speed class 1. A STOP that fails or
is not accepted in time is a motion fault of kind STOP. The model's own: the time base moved to the end of the accept timer
(log 4), a request's phase and number at the hand-over (log 18). -/
def Obligations.StopEndsTheAbortOrFaults : Prop :=
  ∀ (s : State) (c : DipCtx) (n cell detail : Byte) (e : Nat), s.dsq.ctx = some c → s.mpt.phase = .stopping n →
    let accepted : Mpt := { s.mpt with phase := .idle, acceptEnd := none, doneEnd := none, lastStop := some n }
    exec (.motionDone n cell) s = exec (.motionAccept n) s ∧
    (s.dsq.state = .aborting .quickStop →
      (c.immersions = 0 → exec (.motionAccept n) s = .next { s with
        mpt := accepted,
        dsq := Dsq.reset,
        scu := { s.scu with requestTime := none, blockedLongMark := false },
        pku := { lots := s.pku.lots.map (fun x : Lot => { x with inUse := false }) } }) ∧
      (c.immersions ≠ 0 → ∃ t, exec (.motionAccept n) s = .next t ∧ t.mpt = accepted ∧ t.dsq = Dsq.reset ∧
        t.pku.lots.any Lot.inUse = false ∧ RecordMade s c .aborted (s.lif.places < 6) t)) ∧
    (∀ lower, s.dsq.state = .aborting (.pathStop lower) →
      exec (.motionAccept n) s = .next ({ s with
        mpt := accepted,
        dsq := { s.dsq with immersionSince :=
          if lower then some (s.dsq.immersionSince.getD s.now) else s.dsq.immersionSince } }.pathGoesOn c)) ∧
    (∀ reason, failReason detail = some reason → ∃ t, exec (.motionFail n detail) s = .next t ∧ t.mpt.phase = .idle ∧
      t.dsq.state = .halted ∧ t.dsq.cause = some ⟨.motion reason .stop false, c.slot, c.index⟩) ∧
    (s.mpt.acceptEnd = some e → ∃ t, exec .stopAcceptTimeout s = .next t ∧ t.now = max s.now e ∧ t.mpt.phase = .idle ∧
      t.dsq.state = .halted ∧ t.dsq.cause = some ⟨.motion .timeout .stop false, c.slot, c.index⟩ ∧
      t.spt.isRaised .motionFault = true ∧ t.spt.isRaised .haltedEv = true)

/-- A discarded response frame has no effect; a response to a cancelled request is ignored without an event; a stray
response raises MOTION_STRAY and has no other effect, in every state. -/
def Obligations.StrayResponsesHaveNoEffect : Prop :=
  ∀ (s : State) (n cell detail : Byte),
    exec .motionFrameDiscarded s = .next s ∧
    (s.mpt.phase.outstanding.map Prod.snd ≠ some n → s.mpt.phase.stopNumber ≠ some n → s.mpt.lastStop ≠ some n →
      1 ≤ detail.toNat → detail.toNat ≤ 4 →
      (s.mpt.cancelled = some n →
        exec (.motionAccept n) s = .next s ∧ exec (.motionDone n cell) s = .next s ∧
        exec (.motionFail n detail) s = .next s) ∧
      (s.mpt.cancelled ≠ some n →
        ∃ x : Spt, x = { s.spt with g1 := { s.spt.g1 with flags := s.spt.g1.flags ||| 128 } } ∧
          exec (.motionAccept n) s = .next { s with spt := x } ∧
          exec (.motionDone n cell) s = .next { s with spt := x } ∧
          exec (.motionFail n detail) s = .next { s with spt := x }))

/-- No command issues a LOWER unless the own span is then FIRM and no foreign entry overlaps it. -/
def Obligations.LowerNeedsAFirmAndClearSpan : Prop :=
  ∀ (c : Instr) (s t : State) (depth speed : Nat) (n : Byte), exec c s = .next t →
    t.mpt.phase = .awaitAccept (.lower depth speed) n →
    s.mpt.phase = .awaitAccept (.lower depth speed) n ∨ (t.scu.state = .firm ∧ t.scu.overlapped = false)

/-! ### The weigh channel -/

/-- A poll begins a transfer, in which the station sends zeros, and runs on at 20 ms. A valid sample of an ACTIVE channel
enters the block being formed with its net mass, clamped and marked; an invalid one counts, and the third in a row makes
the channel LOST, raises WEIGH_LOST and marks the dip. In LOST valid samples count and an invalid one sets the count to 0;
the tenth valid one makes the channel ACTIVE with WEIGH_BACK and an empty block, and restarts the run count of a settle
wait and the drip index of a drain. The tenth valid sample of a block completes it: the rounded mean of the ten net masses,
appended to a history of at most 16 blocks. The model's own: the time base moved by a poll (log 4), and a sample taken with
no transfer in progress (log 19). -/
def Obligations.SamplesReachTheChannel : Prop :=
  (∀ (s : State) (status : Byte) (raw : BitVec 24),
    (∃ t, exec .pollTimer s = .next t ∧ t.converterOut = [0, 0, 0, 0] ∧ t = { s with
      now := max s.now s.wch.pollNext, wch := { s.wch with pollNext := s.wch.pollNext + 20, transfer := true } }) ∧
    let net : Int := roundInt ((raw.toInt - s.cfg.params.zero) * s.cfg.params.gain) 65536 - s.cfg.params.tare
    let x : Sample := ⟨max (-1000) (min 80000 net), decide (net < -1000 ∨ 80000 < net)⟩
    let seen : Wch := { s.wch with transfer := false, lastSample := some ⟨raw, true⟩, lastValid := some x }
    (status.getLsbD 0 = false → status.getLsbD 1 = true → s.wch.lost = false → s.wch.forming.length < 9 →
      exec (.sampleTaken status raw) s = .next { s with wch := { seen with
        invalidRun := 0, forming := s.wch.forming ++ [x] } }) ∧
    (status.getLsbD 0 = false → status.getLsbD 1 = true → s.wch.lost = true →
      (s.wch.validRun < 9 →
        exec (.sampleTaken status raw) s = .next { s with wch := { seen with validRun := s.wch.validRun + 1 } }) ∧
      (s.wch.validRun = 9 → ∃ t w, exec (.sampleTaken status raw) s = .next t ∧
        t = { s with wch := w, spt := t.spt } ∧ t.spt.isRaised .weighBack = true ∧
        (s.wch.task = .none → w = { seen with lost := false, invalidRun := 0, validRun := 0, forming := [] }) ∧
        (∀ k, s.wch.task = .settle k → w = { seen with lost := false, invalidRun := 0, validRun := 0, forming := [],
                                                       task := .settle { k with runCount := 0 } }) ∧
        (∀ k, s.wch.task = .drain k → w = { seen with
          lost := false, invalidRun := 0, validRun := 0, forming := [],
          slicer := { s.wch.slicer with frozen := false, drip := 0, lastDrip := none } }))) ∧
    ((status.getLsbD 0 = true ∨ status.getLsbD 1 = false) → s.wch.lost = true →
      exec (.sampleTaken status raw) s = .next { s with wch := { s.wch with
        transfer := false, lastSample := some ⟨raw, false⟩, validRun := 0 } }) ∧
    ((status.getLsbD 0 = true ∨ status.getLsbD 1 = false) → s.wch.lost = false →
      (s.wch.invalidRun < 2 →
        exec (.sampleTaken status raw) s = .next { s with wch := { s.wch with
          transfer := false, lastSample := some ⟨raw, false⟩, invalidRun := s.wch.invalidRun + 1 } }) ∧
      (s.wch.invalidRun = 2 → ∃ t, exec (.sampleTaken status raw) s = .next t ∧ t.wch.lost = true ∧
        t.wch.forming = [] ∧ t.wch.history = s.wch.history ∧ t.wch.task = s.wch.task ∧
        t.spt.isRaised .weighLost = true ∧
        (∀ k, s.wch.task = .drain k → t.wch.slicer = { s.wch.slicer with frozen := true }) ∧
        (∀ c, s.dsq.ctx = some c → s.dsq.state ≠ .parked →
          t.dsq.ctx = some { c with quality := { c.quality with weighLost := true } })))) ∧
  ∀ (s : State) (status : Byte) (raw : BitVec 24), status.getLsbD 0 = false → status.getLsbD 1 = true →
    s.wch.lost = false → s.wch.forming.length = 9 → s.wch.task = .none → s.wch.history.length ≤ 16 →
    ∃ (x : Sample) (t : State), exec (.sampleTaken status raw) s = .next t ∧ t.wch.lastValid = some x ∧
      t.wch.forming = [] ∧ t.wch.history.length ≤ 16 ∧
      t.wch.history.getLast? = some ⟨roundInt ((s.wch.forming.map Sample.net).sum + x.net) 10,
        s.wch.forming.any Sample.overMark || x.overMark, s.now⟩ ∧
      (s.wch.history.length < 16 → t.wch.history.dropLast = s.wch.history) ∧ t.dsq = s.dsq ∧ t.spt = s.spt

/-- The ends of WCH's task. A completed block ends a settle wait whose last S blocks lie within the band, with their rounded
mean, and else counts; it moves the slicer by R154, and ends a drain that is then quiet. A settle timeout gives the mean of
the last blocks as an unsettled mass, with UNSETTLED raised, and with no block no mass. The result goes to M_dry and NO_DRY
of a WEIGH_DRY, to M_wet and NO_WET of a WEIGH_OUT and of the abort path's weigh-out. A drain at its maximum ends quiet where
the conditions hold, else raises DRAIN_TIMEOUT and marks the dip; at its minimum it ends where the slicer is quiet, and runs
on where it is not. Every result of the abort path's weigh-out makes the record, ABORTED, and parks. (A step that ends is
followed by a TRAVEL here.) The model's own: the time base moved to a timer's end (log 4), the MOVE's phase and number at
the hand-over (log 18). -/
def Obligations.WeighTasksEnd : Prop :=
  let mean : List Block → Int := fun bs => roundInt (bs.map Block.value).sum bs.length
  let isOver : List Block → Bool := fun bs => bs.any Block.overMark
  (∀ (s : State) (c : DipCtx) (cell : Nat), s.dsq.ctx = some c → s.nextStep c = some (.travel cell) →
    s.dsq.position ≠ .below →
    let went : State → DipCtx → Prop := fun t d =>
      t.dsq = { s.dsq with state := .traveling, ctx := some d } ∧ t.mpt = s.mpt.handed (.move cell)
    (∀ w out, s.wch.task = .settle w → s.dsq.state = (if out then .weighingOut else .weighingDry) →
      ∃ t, exec .settleTimeout s = .next t ∧ t.now = max s.now w.timeoutEnd ∧ t.wch = { s.wch with task := .none } ∧
        (w.stepCount = 0 → t.spt = s.spt ∧ went t (c.weighed out none false false).next) ∧
        (∀ older bs, w.stepCount ≠ 0 → s.wch.history = older ++ bs →
          bs.length = min s.cfg.params.settleBlocks w.stepCount → t.spt.isRaised .unsettled = true ∧
          went t (c.weighed out (some (mean bs)) (isOver bs) true).next)) ∧
    (∀ w, s.wch.task = .drain w → s.dsq.state = .draining →
      let drained : Nat → DipCtx := fun limit =>
        { c.next with drainTime := min 65535 (c.drainTime + roundNat (max s.now (w.start + limit * 1000) - w.start) 100) }
      (s.wch.slicer.isQuiet = false ∨ s.wch.lost = true ∨ s.wch.slicer.drip = 0 →
        ∃ t, exec .drainMaximum s = .next t ∧ t.wch = { s.wch with task := .none } ∧
          t.spt.isRaised .drainTimeout = true ∧
          went t { drained w.maximum with quality := { c.quality with drainTimeout := true } }) ∧
      (s.wch.slicer.isQuiet = true → s.wch.lost = false → 1 ≤ s.wch.slicer.drip → w.minimum ≤ w.maximum →
        ∃ t, exec .drainMaximum s = .next t ∧ t.wch = { s.wch with task := .none } ∧ t.spt = s.spt ∧
          went t (drained w.maximum)) ∧
      (w.minPending = true → s.wch.slicer.isQuiet = true → s.wch.lost = false → 1 ≤ s.wch.slicer.drip →
        ∃ t, exec .drainMinimum s = .next t ∧ t.wch = { s.wch with task := .none } ∧ t.spt = s.spt ∧
          went t (drained w.minimum)) ∧
      (w.minPending = true → s.wch.slicer.isQuiet = false ∨ s.wch.lost = true ∨ s.wch.slicer.drip = 0 →
        exec .drainMinimum s = .next { s with
          now := max s.now (w.start + w.minimum * 1000),
          wch := { s.wch with task := .drain { w with minPending := false } } })) ∧
    (∀ (status : Byte) (raw : BitVec 24), s.completesBlock status →
      let history := s.historyWith raw
      (∀ w out older bs, s.wch.task = .settle w → s.dsq.state = (if out then .weighingOut else .weighingDry) →
        history = older ++ bs → bs.length = s.cfg.params.settleBlocks → w.stepCount < 255 → w.runCount < 255 →
        (s.settles w bs →
          ∃ t, exec (.sampleTaken status raw) s = .next t ∧ t.wch.task = .none ∧ t.wch.history = history ∧
            t.spt = s.spt ∧ went t (c.weighed out (some (mean bs)) (isOver bs) false).next) ∧
        (¬s.settles w bs →
          ∃ t, exec (.sampleTaken status raw) s = .next t ∧ t.dsq = s.dsq ∧ t.wch.history = history ∧
            t.wch.task = .settle { w with stepCount := w.stepCount + 1, runCount := w.runCount + 1 })) ∧
      (∀ w, s.wch.task = .drain w → s.dsq.state = .draining →
        let slicer := s.wch.slicer.block s.cfg.params.deadband w history
        ∃ t, exec (.sampleTaken status raw) s = .next t ∧ t.wch.history = history ∧ t.wch.slicer = slicer ∧
          t.spt = s.spt ∧
          (slicer.isQuiet = true → w.start + w.minimum * 1000 ≤ s.now → t.wch.task = .none ∧
            went t { c.next with drainTime := min 65535 (c.drainTime + roundNat (s.now - w.start) 100) }) ∧
          (slicer.isQuiet = false ∨ s.now < w.start + w.minimum * 1000 → t.wch.task = .drain w ∧ t.dsq = s.dsq)))) ∧
  (∀ (sl : Slicer) (w : DrainTask) (d : Int),
    (sl.isQuiet = false → d ≤ w.low →
      sl.move w d = { sl with quietRun := sl.quietRun + 1, isQuiet := decide (w.quiet ≤ sl.quietRun + 1) }) ∧
    (sl.isQuiet = false → (w.low : Int) < d → sl.move w d = { sl with quietRun := 0 }) ∧
    (sl.isQuiet = true → d < w.high → sl.move w d = sl) ∧
    (sl.isQuiet = true → (w.high : Int) ≤ d → sl.move w d = { sl with isQuiet := false, quietRun := 0 })) ∧
  ∀ (s : State) (c : DipCtx) (w : SettleTask), s.dsq.ctx = some c → s.wch.task = .settle w →
    s.dsq.state = .aborting .weighing →
    let parked : State → DipCtx → Prop := fun t d =>
      (∃ m, t.dsq = { s.dsq with state := .parked, ctx := some { d with txDropped := m } } ∧
        (s.lif.places < 7 → m = c.txDropped)) ∧ t.spt.isRaised .parkedEv = true ∧
      (c.immersions = 0 → t.zbr = s.zbr) ∧ (c.immersions ≠ 0 → RecordMade s d .aborted (s.lif.places < 6) t)
    (∃ t, exec .settleTimeout s = .next t ∧ t.now = max s.now w.timeoutEnd ∧ t.wch = { s.wch with task := .none } ∧
      (w.stepCount = 0 → parked t (c.weighed true none false false)) ∧
      (∀ older bs, w.stepCount ≠ 0 → s.wch.history = older ++ bs →
        bs.length = min s.cfg.params.settleBlocks w.stepCount → t.spt.isRaised .unsettled = true ∧
        parked t (c.weighed true (some (mean bs)) (isOver bs) true))) ∧
    ∀ (status : Byte) (raw : BitVec 24) (older bs : List Block), s.completesBlock status →
      s.historyWith raw = older ++ bs → bs.length = s.cfg.params.settleBlocks → w.stepCount < 255 → w.runCount < 255 →
      (s.settles w bs →
        ∃ t, exec (.sampleTaken status raw) s = .next t ∧ t.wch.task = .none ∧ t.wch.history = s.historyWith raw ∧
          parked t (c.weighed true (some (mean bs)) (isOver bs) false)) ∧
      (¬s.settles w bs →
        ∃ t, exec (.sampleTaken status raw) s = .next t ∧ t.dsq = s.dsq ∧ t.wch.history = s.historyWith raw ∧
          t.wch.task = .settle { w with stepCount := w.stepCount + 1, runCount := w.runCount + 1 })

/-! ### Records and frames -/

/-- What a record holds, whatever the dip: its consumption is pickup plus dross, its ratio is at most 999, a class is given
only to a COMPLETE dip with a ratio and with no WEIGH_LOST, UNSETTLED, OVER or progressive mark, and a FAULTED dip is
always estimated. A dip that meets those conditions has the candidate class whose expected ratio lies nearest, the lowest
class number among equals, where it lies within the accept band, and else NO_MATCH; the candidates are its lot's mask, or
the commissioning mask for lot 0. The dross class is that of a LOCKED or FIXED lot, else the dip class where it is one of R2
to R6, else the default class. -/
def Obligations.RecordArithmetic : Prop :=
  ∀ (p : Params) (k : Pku) (c : DipCtx) (o : DipOutcome),
    let r := makeRecord p k c o
    r.consumption = r.pickup + r.dross ∧
    r.dross = roundNat (r.pickup * (p.row r.drossClass).dross) 1000 ∧
    (∀ q, r.ratio = some q → q ≤ 999) ∧
    (r.dipClass ≠ none → o = .complete ∧ r.ratio ≠ none ∧ c.quality.weighLost = false ∧
      c.quality.unsettled = false ∧ c.quality.overMark = false ∧ c.progressive = false) ∧
    (∀ q mask, r.ratio = some q → o = .complete → c.quality.weighLost = false → c.quality.unsettled = false →
      c.quality.overMark = false → c.progressive = false →
      (c.lot = 0 ∧ mask = p.mask) ∨ (c.lot ≠ 0 ∧ (k.lotOf c.lot).map Lot.mask = some mask) →
      let off : SteelClass → Nat := fun x =>
        ((q : Int) - ((p.row x).base + ((p.row x).slope * min 1800 (roundNat c.immersionTime 10) + 30) / 60 : Nat)).natAbs
      (∀ x, inMask mask x = true → off x ≤ p.acceptBand →
        (∀ y, inMask mask y = true → off x < off y ∨ (off x = off y ∧ x.code ≤ y.code)) →
        r.dipClass = some (.cls x)) ∧
      ((∀ x, inMask mask x = true → p.acceptBand < off x) → r.dipClass = some .noMatch)) ∧
    (let known : SteelClass → Prop := fun x => c.lot ≠ 0 ∧ ∃ l, k.lotOf c.lot = some l ∧
        (l.classifier = .fixed x ∨ ∃ n, l.classifier = .locked x n)
     (∀ x, known x → r.drossClass = x) ∧
     ((∀ x, ¬known x) →
       (∀ x, r.dipClass = some (.cls x) → r.drossClass = x) ∧
       (r.dipClass = none ∨ r.dipClass = some .noMatch → r.drossClass = c.defaultClass))) ∧
    (r.flags.estimated = true ↔ o = .faulted ∨ c.dry = none ∨ c.wet = none) ∧
    (∀ d w, o ≠ .faulted → c.dry = some d → c.wet = some w → 10 ≤ d →
      r.pickup = (w - d + roundNat (d.toNat * c.flux) 1000).toNat ∧
      r.ratio = some (min 999 (roundNat (r.pickup * 1000) d.toNat))) ∧
    (o = .faulted → ∀ d : Nat, c.dry = none → d = c.nominal * 10 →
      r.pickup = roundNat (min 999 ((p.row r.drossClass).base +
        ((p.row r.drossClass).slope * min 1800 (roundNat c.immersionTime 10) + 30) / 60) * d) 1000)

/-- A peer reads from every frame the station composes what the frame was built of, at every value within the ranges of
R4. -/
def Obligations.OwnFramesReadBack : Prop :=
  ∀ (s : State) (n : Nat),
    (∀ (sp : Span) (age : Nat) (c : Byte), sp.first ≤ 255 → sp.last ≤ 255 → age ≤ 255 →
      (sp.whole = true ∨ (sp.first ≤ sp.last ∧ sp.last < n)) →
      decodeIntent n (s.payload (.intent sp age c)) = some ⟨sp, age, c⟩ ∧
      decodeHold n (s.payload (.hold sp c)) = some ⟨sp, 0, c⟩) ∧
    (∀ c : Byte, decodeClaimNo (s.payload (.yield c)) = some c ∧ decodeClaimNo (s.payload (.free c)) = some c) ∧
    (∀ (m i : Nat) (x : BitVec 32), m ≤ 8000 → (i = 1 ∨ i = 2) →
      decodeEntry (s.payload (.entry m i x)) = some ⟨m, i⟩) ∧
    (∀ (q : BitVec 16) (c : Nat) (k : Option SteelClass) (x : BitVec 32), c ≤ 131070 →
      decodePickup (s.payload (.pickup q c k x)) = some ⟨q, c, k⟩) ∧
    (∀ m : Nat, 10 ≤ m → m ≤ 50000 → decodeIngot (s.payload (.ingot m)) = some m) ∧
    (∀ b : BeaconInfo, s.beaconSpan.first ≤ 255 → s.beaconSpan.last ≤ 255 →
      (s.scu.state.beacon = .none ∨ s.beaconSpan.whole = true ∨
        (s.beaconSpan.first ≤ s.beaconSpan.last ∧ s.beaconSpan.last < n)) →
      b = { condition := (match s.dsq.state with
              | .idle => Condition.readyIdle
              | .parked => Condition.parked
              | .halted => Condition.halted
              | _ => Condition.readyBusy),
            spanState := s.scu.state.beacon, span := s.beaconSpan, lastEntry := s.scu.lastEntry,
            clash := s.lif.clashEnd.isSome } →
      decodeBeacon n (s.payload .beacon) = some b)

end StationStatements
end

