-- ==== Sys2Proof/Laws/Queue.lean ====
section
/-! SUPPORT. What the operations of the transmit queue keep: at most 8 places, at most one BEACON, and a line that is OFF
with no current frame. -/

namespace Sys2Proof.Machine

/-- The queue stays within its bounds, and a line that is OFF with no current frame stays so. -/
def LifKeeps (l x : Lif) : Prop :=
  (QueueOk l → QueueOk x) ∧ (l.line = .off → l.current = none → x.line = .off ∧ x.current = none)

theorem LifKeeps.refl (l : Lif) : LifKeeps l l := ⟨id, fun a b => ⟨a, b⟩⟩

theorem LifKeeps.trans {l m x : Lif} (h : LifKeeps l m) (k : LifKeeps m x) : LifKeeps l x :=
  ⟨fun q => k.1 (h.1 q), fun a b => k.2 (h.2 a b).1 (h.2 a b).2⟩

/-- An update that leaves the waiting frames, the current frame and the line as they were. -/
theorem LifKeeps.of_same {l x : Lif} (hw : x.waiting = l.waiting) (hc : x.current = l.current) (hl : x.line = l.line) :
    LifKeeps l x := by
  refine ⟨fun q => ?_, fun a b => ⟨hl.trans a, hc.trans b⟩⟩
  unfold QueueOk Lif.places Lif.beacons at *
  rw [hw, hc]; exact q

/-- An update of the line, with a frame current or the line not OFF. -/
theorem LifKeeps.of_line {l x : Lif} (hw : x.waiting = l.waiting) (hc : x.current = l.current) (hl : l.line ≠ .off) :
    LifKeeps l x := by
  refine ⟨fun q => ?_, fun a _ => absurd a hl⟩
  unfold QueueOk Lif.places Lif.beacons at *
  rw [hw, hc]; exact q

theorem insertFrame_perm (f : TxFrame) (q : List TxFrame) : (insertFrame f q).Perm (f :: q) := by
  induction q with
  | nil => exact List.Perm.refl _
  | cons g rest ih =>
    unfold insertFrame
    split
    · exact List.Perm.refl _
    · exact (ih.cons g).trans (List.Perm.swap f g rest)

theorem insertFrameHead_perm (f : TxFrame) (q : List TxFrame) : (insertFrameHead f q).Perm (f :: q) := by
  induction q with
  | nil => exact List.Perm.refl _
  | cons g rest ih =>
    unfold insertFrameHead
    split
    · exact List.Perm.refl _
    · exact (ih.cons g).trans (List.Perm.swap f g rest)

theorem takeFirst_perm (p : TxFrame → Bool) (q : List TxFrame) {r : TxFrame × List TxFrame}
    (h : takeFirst p q = some r) : q.Perm (r.1 :: r.2) := by
  induction q generalizing r with
  | nil => simp [takeFirst] at h
  | cons g rest ih =>
    unfold takeFirst at h
    split at h
    · cases h; exact List.Perm.refl _
    · cases hr : takeFirst p rest with
      | none => simp [hr] at h
      | some r' =>
        simp [hr] at h
        cases h
        exact ((ih hr).cons g).trans (List.Perm.swap _ _ _)

/-- A queue whose frames are those of another queue, moved between the waiting frames and the current place. -/
theorem queueOk_of_perm {l x : Lif}
    (h : (x.waiting ++ (x.current.map Current.frame).toList).Perm (l.waiting ++ (l.current.map Current.frame).toList))
    (q : QueueOk l) : QueueOk x := by
  have hp : ∀ l : Lif, l.places = (l.waiting ++ (l.current.map Current.frame).toList).length := by
    intro l; unfold Lif.places; cases l.current <;> simp
  have hb : ∀ l : Lif, l.beacons = ((l.waiting ++ (l.current.map Current.frame).toList).filter (· == .beacon)).length := by
    intro l; unfold Lif.beacons
    cases hc : l.current with
    | none => simp
    | some c => by_cases hf : c.frame = .beacon <;> simp [hf]
  refine ⟨?_, ?_⟩
  · rw [hp, h.length_eq, ← hp]; exact q.1
  · rw [hb, (h.filter _).length_eq, ← hb]; exact q.2

/-- A queue whose frames are some of those of another queue. -/
theorem queueOk_of_subperm {l x : Lif}
    (h : (x.waiting ++ (x.current.map Current.frame).toList).Subperm
      (l.waiting ++ (l.current.map Current.frame).toList))
    (q : QueueOk l) : QueueOk x := by
  have hp : ∀ l : Lif, l.places = (l.waiting ++ (l.current.map Current.frame).toList).length := by
    intro l; unfold Lif.places; cases l.current <;> simp
  have hb : ∀ l : Lif, l.beacons = ((l.waiting ++ (l.current.map Current.frame).toList).filter (· == .beacon)).length := by
    intro l; unfold Lif.beacons
    cases hc : l.current with
    | none => simp
    | some c => by_cases hf : c.frame = .beacon <;> simp [hf]
  refine ⟨?_, ?_⟩
  · rw [hp]; exact h.length_le.trans (by rw [← hp]; exact q.1)
  · rw [hb]; exact (h.filter _).length_le.trans (by rw [← hb]; exact q.2)

theorem takeCurrent_keeps (l : Lif) : LifKeeps l l.takeCurrent := by
  unfold Lif.takeCurrent
  split
  · exact LifKeeps.refl l
  · rename_i hc
    split
    · exact LifKeeps.refl l
    · rename_i hl
      split
      · rename_i r hr
        refine ⟨queueOk_of_perm ?_, fun a => absurd a hl⟩
        simp only [hc, Option.map_some, Option.map_none, Option.toList_some, Option.toList_none, List.append_nil,
          Current.start]
        exact (List.perm_append_singleton _ _).trans (takeFirst_perm _ _ hr).symm
      · exact LifKeeps.refl l

theorem dropFrame_keeps (l : Lif) : LifKeeps l { l with current := none } := by
  refine ⟨queueOk_of_subperm ?_, fun a _ => ⟨a, rfl⟩⟩
  simp only [Option.map_none, Option.toList_none, List.append_nil]
  exact (List.sublist_append_left _ _).subperm

theorem dropCurrent_keeps (l : Lif) : LifKeeps l l.dropCurrent :=
  (dropFrame_keeps l).trans (takeCurrent_keeps _)

theorem putBack_keeps (l : Lif) (c : Current) (h : l.current = some c) : LifKeeps l (l.putBack c) := by
  refine LifKeeps.trans (m := { l with current := none, waiting := insertFrameHead c.frame l.waiting })
    ⟨queueOk_of_perm ?_, fun _ b => by simp [h] at b⟩ (takeCurrent_keeps _)
  simp only [h, Option.map_none, Option.toList_none, List.append_nil, Option.map_some, Option.toList_some]
  exact (insertFrameHead_perm _ _).trans (List.perm_append_singleton _ _).symm

/-- A change of the current frame's bookkeeping, its frame the same. -/
theorem sameFrame_keeps (l : Lif) (c d : Current) (h : l.current = some c) (hf : d.frame = c.frame) :
    LifKeeps l { l with current := some d } := by
  refine ⟨queueOk_of_perm ?_, fun _ b => by simp [h] at b⟩
  simp [h, hf]

theorem withdraw_keeps (l : Lif) (n : Byte) : LifKeeps l (l.withdraw n).1 := by
  unfold Lif.withdraw
  split
  · rename_i r hr
    refine ⟨queueOk_of_subperm ?_, fun a b => ⟨a, b⟩⟩
    exact (List.subperm_append_right _).mpr
      ((List.sublist_cons_self r.1 r.2).subperm.trans (takeFirst_perm _ _ hr).symm.subperm)
  · split
    · rename_i c hc
      split
      · split
        · exact sameFrame_keeps l c _ hc rfl
        · exact dropCurrent_keeps l
      · exact LifKeeps.refl l
    · exact LifKeeps.refl l

theorem beacons_le_of_not_held {l : Lif} (h : l.holds (· == .beacon) = false) : l.beacons = 0 := by
  simp only [Lif.holds, Bool.or_eq_false_iff, List.any_eq_false] at h
  unfold Lif.beacons
  have h1 : l.waiting.filter (fun f => f == .beacon) = [] := by
    rw [List.filter_eq_nil_iff]; exact h.1
  rw [h1]
  cases hc : l.current with
  | none => simp
  | some c =>
    have := h.2
    rw [hc] at this
    simp at this
    simp [this]

theorem place_keeps (l : Lif) (f : TxFrame) : LifKeeps l (l.place f).1 := by
  unfold Lif.place
  split
  · exact LifKeeps.refl l
  · rename_i hb
    have hbeacon : f = .beacon → l.beacons = 0 := fun e => by
      apply beacons_le_of_not_held
      cases hh : l.holds (· == .beacon) with
      | false => rfl
      | true => exact absurd ⟨e, hh⟩ hb
    split
    · rename_i hp
      refine ⟨fun q => ⟨?_, ?_⟩, fun a b => ⟨a, b⟩⟩
      · have : (insertFrame f l.waiting).length = l.waiting.length + 1 := (insertFrame_perm f l.waiting).length_eq
        simp only [Lif.places, this] at *
        simp only [Config.queuePlaces] at hp
        omega
      · have hl := ((insertFrame_perm f l.waiting).filter (fun g => g == TxFrame.beacon)).length_eq
        simp only [Lif.beacons] at *
        rw [hl]
        by_cases e : f = .beacon
        · have := hbeacon e
          simp only [e, List.filter_cons, beq_self_eq_true, ↓reduceIte, List.length_cons]
          omega
        · simp only [List.filter_cons, beq_iff_eq, e, ↓reduceIte]; exact q.2
    · split
      · rename_i v hv
        split
        · rename_i hu
          refine ⟨fun q => ⟨?_, ?_⟩, fun a b => ⟨a, b⟩⟩
          · have : (insertFrame f l.waiting.dropLast).length = l.waiting.dropLast.length + 1 :=
              (insertFrame_perm f _).length_eq
            have hne : l.waiting ≠ [] := by intro e; simp [e] at hv
            have hpos := List.length_pos_iff.mpr hne
            have h8 := q.1
            simp only [Lif.places, this, List.length_dropLast] at *
            omega
          · have hf : f ≠ .beacon := by
              intro e
              rw [e] at hu
              cases v <;> simp [TxFrame.urgency] at hu
            have hl := ((insertFrame_perm f l.waiting.dropLast).filter (fun g => g == TxFrame.beacon)).length_eq
            have h1 := q.2
            have hle : (l.waiting.dropLast.filter (fun g => g == TxFrame.beacon)).length
                ≤ (l.waiting.filter (fun g => g == TxFrame.beacon)).length :=
              ((List.dropLast_sublist _).filter _).length_le
            simp only [Lif.beacons] at *
            rw [hl]
            simp only [List.filter_cons, beq_iff_eq, hf, ↓reduceIte]
            omega
        · exact LifKeeps.refl l
      · exact LifKeeps.refl l

theorem stationReset_keeps (l : Lif) : LifKeeps l l.stationReset := by
  unfold Lif.stationReset
  refine LifKeeps.trans
    (m := { l with waiting := l.waiting.filter TxFrame.isFree, current := l.current.bind Current.afterReset })
    ⟨queueOk_of_subperm ?_, fun a b => ⟨a, by simp [b]⟩⟩ (takeCurrent_keeps _)
  have h1 : (l.waiting.filter TxFrame.isFree).Sublist l.waiting := List.filter_sublist
  have h2 : (((l.current.bind Current.afterReset).map Current.frame).toList).Sublist
      ((l.current.map Current.frame).toList) := by
    cases hc : l.current with
    | none => simp
    | some c =>
      simp only [Option.bind_some, Option.map_some, Option.toList_some]
      unfold Current.afterReset
      split
      · simp
      · split <;> simp
  exact (h1.append h2).subperm

end Sys2Proof.Machine
end

