-- ==== Sys2Proof/Laws/State.lean ====
section
/-! SUPPORT. One lemma per field per block update of the state, each true by rfl. -/

namespace Sys2Proof.Machine.State

@[simp] theorem withPending_pending (s : State) (x : List Instr) : (s.withPending x).pending = x := rfl
@[simp] theorem withPending_now (s : State) (x : List Instr) : (s.withPending x).now = s.now := rfl
@[simp] theorem withPending_draws (s : State) (x : List Instr) : (s.withPending x).draws = s.draws := rfl
@[simp] theorem withPending_cfg (s : State) (x : List Instr) : (s.withPending x).cfg = s.cfg := rfl
@[simp] theorem withPending_lif (s : State) (x : List Instr) : (s.withPending x).lif = s.lif := rfl
@[simp] theorem withPending_ptb (s : State) (x : List Instr) : (s.withPending x).ptb = s.ptb := rfl
@[simp] theorem withPending_scu (s : State) (x : List Instr) : (s.withPending x).scu = s.scu := rfl
@[simp] theorem withPending_hwn (s : State) (x : List Instr) : (s.withPending x).hwn = s.hwn := rfl
@[simp] theorem withPending_pgs (s : State) (x : List Instr) : (s.withPending x).pgs = s.pgs := rfl
@[simp] theorem withPending_dsq (s : State) (x : List Instr) : (s.withPending x).dsq = s.dsq := rfl
@[simp] theorem withPending_mpt (s : State) (x : List Instr) : (s.withPending x).mpt = s.mpt := rfl
@[simp] theorem withPending_wch (s : State) (x : List Instr) : (s.withPending x).wch = s.wch := rfl
@[simp] theorem withPending_pku (s : State) (x : List Instr) : (s.withPending x).pku = s.pku := rfl
@[simp] theorem withPending_zbr (s : State) (x : List Instr) : (s.withPending x).zbr = s.zbr := rfl
@[simp] theorem withPending_spt (s : State) (x : List Instr) : (s.withPending x).spt = s.spt := rfl
@[simp] theorem withNow_pending (s : State) (x : Nat) : (s.withNow x).pending = s.pending := rfl
@[simp] theorem withNow_now (s : State) (x : Nat) : (s.withNow x).now = x := rfl
@[simp] theorem withNow_draws (s : State) (x : Nat) : (s.withNow x).draws = s.draws := rfl
@[simp] theorem withNow_cfg (s : State) (x : Nat) : (s.withNow x).cfg = s.cfg := rfl
@[simp] theorem withNow_lif (s : State) (x : Nat) : (s.withNow x).lif = s.lif := rfl
@[simp] theorem withNow_ptb (s : State) (x : Nat) : (s.withNow x).ptb = s.ptb := rfl
@[simp] theorem withNow_scu (s : State) (x : Nat) : (s.withNow x).scu = s.scu := rfl
@[simp] theorem withNow_hwn (s : State) (x : Nat) : (s.withNow x).hwn = s.hwn := rfl
@[simp] theorem withNow_pgs (s : State) (x : Nat) : (s.withNow x).pgs = s.pgs := rfl
@[simp] theorem withNow_dsq (s : State) (x : Nat) : (s.withNow x).dsq = s.dsq := rfl
@[simp] theorem withNow_mpt (s : State) (x : Nat) : (s.withNow x).mpt = s.mpt := rfl
@[simp] theorem withNow_wch (s : State) (x : Nat) : (s.withNow x).wch = s.wch := rfl
@[simp] theorem withNow_pku (s : State) (x : Nat) : (s.withNow x).pku = s.pku := rfl
@[simp] theorem withNow_zbr (s : State) (x : Nat) : (s.withNow x).zbr = s.zbr := rfl
@[simp] theorem withNow_spt (s : State) (x : Nat) : (s.withNow x).spt = s.spt := rfl
@[simp] theorem withDraws_pending (s : State) (x : Nat) : (s.withDraws x).pending = s.pending := rfl
@[simp] theorem withDraws_now (s : State) (x : Nat) : (s.withDraws x).now = s.now := rfl
@[simp] theorem withDraws_draws (s : State) (x : Nat) : (s.withDraws x).draws = x := rfl
@[simp] theorem withDraws_cfg (s : State) (x : Nat) : (s.withDraws x).cfg = s.cfg := rfl
@[simp] theorem withDraws_lif (s : State) (x : Nat) : (s.withDraws x).lif = s.lif := rfl
@[simp] theorem withDraws_ptb (s : State) (x : Nat) : (s.withDraws x).ptb = s.ptb := rfl
@[simp] theorem withDraws_scu (s : State) (x : Nat) : (s.withDraws x).scu = s.scu := rfl
@[simp] theorem withDraws_hwn (s : State) (x : Nat) : (s.withDraws x).hwn = s.hwn := rfl
@[simp] theorem withDraws_pgs (s : State) (x : Nat) : (s.withDraws x).pgs = s.pgs := rfl
@[simp] theorem withDraws_dsq (s : State) (x : Nat) : (s.withDraws x).dsq = s.dsq := rfl
@[simp] theorem withDraws_mpt (s : State) (x : Nat) : (s.withDraws x).mpt = s.mpt := rfl
@[simp] theorem withDraws_wch (s : State) (x : Nat) : (s.withDraws x).wch = s.wch := rfl
@[simp] theorem withDraws_pku (s : State) (x : Nat) : (s.withDraws x).pku = s.pku := rfl
@[simp] theorem withDraws_zbr (s : State) (x : Nat) : (s.withDraws x).zbr = s.zbr := rfl
@[simp] theorem withDraws_spt (s : State) (x : Nat) : (s.withDraws x).spt = s.spt := rfl
@[simp] theorem withCfg_pending (s : State) (x : Cfg) : (s.withCfg x).pending = s.pending := rfl
@[simp] theorem withCfg_now (s : State) (x : Cfg) : (s.withCfg x).now = s.now := rfl
@[simp] theorem withCfg_draws (s : State) (x : Cfg) : (s.withCfg x).draws = s.draws := rfl
@[simp] theorem withCfg_cfg (s : State) (x : Cfg) : (s.withCfg x).cfg = x := rfl
@[simp] theorem withCfg_lif (s : State) (x : Cfg) : (s.withCfg x).lif = s.lif := rfl
@[simp] theorem withCfg_ptb (s : State) (x : Cfg) : (s.withCfg x).ptb = s.ptb := rfl
@[simp] theorem withCfg_scu (s : State) (x : Cfg) : (s.withCfg x).scu = s.scu := rfl
@[simp] theorem withCfg_hwn (s : State) (x : Cfg) : (s.withCfg x).hwn = s.hwn := rfl
@[simp] theorem withCfg_pgs (s : State) (x : Cfg) : (s.withCfg x).pgs = s.pgs := rfl
@[simp] theorem withCfg_dsq (s : State) (x : Cfg) : (s.withCfg x).dsq = s.dsq := rfl
@[simp] theorem withCfg_mpt (s : State) (x : Cfg) : (s.withCfg x).mpt = s.mpt := rfl
@[simp] theorem withCfg_wch (s : State) (x : Cfg) : (s.withCfg x).wch = s.wch := rfl
@[simp] theorem withCfg_pku (s : State) (x : Cfg) : (s.withCfg x).pku = s.pku := rfl
@[simp] theorem withCfg_zbr (s : State) (x : Cfg) : (s.withCfg x).zbr = s.zbr := rfl
@[simp] theorem withCfg_spt (s : State) (x : Cfg) : (s.withCfg x).spt = s.spt := rfl
@[simp] theorem withLif_pending (s : State) (x : Lif) : (s.withLif x).pending = s.pending := rfl
@[simp] theorem withLif_now (s : State) (x : Lif) : (s.withLif x).now = s.now := rfl
@[simp] theorem withLif_draws (s : State) (x : Lif) : (s.withLif x).draws = s.draws := rfl
@[simp] theorem withLif_cfg (s : State) (x : Lif) : (s.withLif x).cfg = s.cfg := rfl
@[simp] theorem withLif_lif (s : State) (x : Lif) : (s.withLif x).lif = x := rfl
@[simp] theorem withLif_ptb (s : State) (x : Lif) : (s.withLif x).ptb = s.ptb := rfl
@[simp] theorem withLif_scu (s : State) (x : Lif) : (s.withLif x).scu = s.scu := rfl
@[simp] theorem withLif_hwn (s : State) (x : Lif) : (s.withLif x).hwn = s.hwn := rfl
@[simp] theorem withLif_pgs (s : State) (x : Lif) : (s.withLif x).pgs = s.pgs := rfl
@[simp] theorem withLif_dsq (s : State) (x : Lif) : (s.withLif x).dsq = s.dsq := rfl
@[simp] theorem withLif_mpt (s : State) (x : Lif) : (s.withLif x).mpt = s.mpt := rfl
@[simp] theorem withLif_wch (s : State) (x : Lif) : (s.withLif x).wch = s.wch := rfl
@[simp] theorem withLif_pku (s : State) (x : Lif) : (s.withLif x).pku = s.pku := rfl
@[simp] theorem withLif_zbr (s : State) (x : Lif) : (s.withLif x).zbr = s.zbr := rfl
@[simp] theorem withLif_spt (s : State) (x : Lif) : (s.withLif x).spt = s.spt := rfl
@[simp] theorem withPtb_pending (s : State) (x : Ptb) : (s.withPtb x).pending = s.pending := rfl
@[simp] theorem withPtb_now (s : State) (x : Ptb) : (s.withPtb x).now = s.now := rfl
@[simp] theorem withPtb_draws (s : State) (x : Ptb) : (s.withPtb x).draws = s.draws := rfl
@[simp] theorem withPtb_cfg (s : State) (x : Ptb) : (s.withPtb x).cfg = s.cfg := rfl
@[simp] theorem withPtb_lif (s : State) (x : Ptb) : (s.withPtb x).lif = s.lif := rfl
@[simp] theorem withPtb_ptb (s : State) (x : Ptb) : (s.withPtb x).ptb = x := rfl
@[simp] theorem withPtb_scu (s : State) (x : Ptb) : (s.withPtb x).scu = s.scu := rfl
@[simp] theorem withPtb_hwn (s : State) (x : Ptb) : (s.withPtb x).hwn = s.hwn := rfl
@[simp] theorem withPtb_pgs (s : State) (x : Ptb) : (s.withPtb x).pgs = s.pgs := rfl
@[simp] theorem withPtb_dsq (s : State) (x : Ptb) : (s.withPtb x).dsq = s.dsq := rfl
@[simp] theorem withPtb_mpt (s : State) (x : Ptb) : (s.withPtb x).mpt = s.mpt := rfl
@[simp] theorem withPtb_wch (s : State) (x : Ptb) : (s.withPtb x).wch = s.wch := rfl
@[simp] theorem withPtb_pku (s : State) (x : Ptb) : (s.withPtb x).pku = s.pku := rfl
@[simp] theorem withPtb_zbr (s : State) (x : Ptb) : (s.withPtb x).zbr = s.zbr := rfl
@[simp] theorem withPtb_spt (s : State) (x : Ptb) : (s.withPtb x).spt = s.spt := rfl
@[simp] theorem withScu_pending (s : State) (x : Scu) : (s.withScu x).pending = s.pending := rfl
@[simp] theorem withScu_now (s : State) (x : Scu) : (s.withScu x).now = s.now := rfl
@[simp] theorem withScu_draws (s : State) (x : Scu) : (s.withScu x).draws = s.draws := rfl
@[simp] theorem withScu_cfg (s : State) (x : Scu) : (s.withScu x).cfg = s.cfg := rfl
@[simp] theorem withScu_lif (s : State) (x : Scu) : (s.withScu x).lif = s.lif := rfl
@[simp] theorem withScu_ptb (s : State) (x : Scu) : (s.withScu x).ptb = s.ptb := rfl
@[simp] theorem withScu_scu (s : State) (x : Scu) : (s.withScu x).scu = x := rfl
@[simp] theorem withScu_hwn (s : State) (x : Scu) : (s.withScu x).hwn = s.hwn := rfl
@[simp] theorem withScu_pgs (s : State) (x : Scu) : (s.withScu x).pgs = s.pgs := rfl
@[simp] theorem withScu_dsq (s : State) (x : Scu) : (s.withScu x).dsq = s.dsq := rfl
@[simp] theorem withScu_mpt (s : State) (x : Scu) : (s.withScu x).mpt = s.mpt := rfl
@[simp] theorem withScu_wch (s : State) (x : Scu) : (s.withScu x).wch = s.wch := rfl
@[simp] theorem withScu_pku (s : State) (x : Scu) : (s.withScu x).pku = s.pku := rfl
@[simp] theorem withScu_zbr (s : State) (x : Scu) : (s.withScu x).zbr = s.zbr := rfl
@[simp] theorem withScu_spt (s : State) (x : Scu) : (s.withScu x).spt = s.spt := rfl
@[simp] theorem withHwn_pending (s : State) (x : Hwn) : (s.withHwn x).pending = s.pending := rfl
@[simp] theorem withHwn_now (s : State) (x : Hwn) : (s.withHwn x).now = s.now := rfl
@[simp] theorem withHwn_draws (s : State) (x : Hwn) : (s.withHwn x).draws = s.draws := rfl
@[simp] theorem withHwn_cfg (s : State) (x : Hwn) : (s.withHwn x).cfg = s.cfg := rfl
@[simp] theorem withHwn_lif (s : State) (x : Hwn) : (s.withHwn x).lif = s.lif := rfl
@[simp] theorem withHwn_ptb (s : State) (x : Hwn) : (s.withHwn x).ptb = s.ptb := rfl
@[simp] theorem withHwn_scu (s : State) (x : Hwn) : (s.withHwn x).scu = s.scu := rfl
@[simp] theorem withHwn_hwn (s : State) (x : Hwn) : (s.withHwn x).hwn = x := rfl
@[simp] theorem withHwn_pgs (s : State) (x : Hwn) : (s.withHwn x).pgs = s.pgs := rfl
@[simp] theorem withHwn_dsq (s : State) (x : Hwn) : (s.withHwn x).dsq = s.dsq := rfl
@[simp] theorem withHwn_mpt (s : State) (x : Hwn) : (s.withHwn x).mpt = s.mpt := rfl
@[simp] theorem withHwn_wch (s : State) (x : Hwn) : (s.withHwn x).wch = s.wch := rfl
@[simp] theorem withHwn_pku (s : State) (x : Hwn) : (s.withHwn x).pku = s.pku := rfl
@[simp] theorem withHwn_zbr (s : State) (x : Hwn) : (s.withHwn x).zbr = s.zbr := rfl
@[simp] theorem withHwn_spt (s : State) (x : Hwn) : (s.withHwn x).spt = s.spt := rfl
@[simp] theorem withPgs_pending (s : State) (x : Pgs) : (s.withPgs x).pending = s.pending := rfl
@[simp] theorem withPgs_now (s : State) (x : Pgs) : (s.withPgs x).now = s.now := rfl
@[simp] theorem withPgs_draws (s : State) (x : Pgs) : (s.withPgs x).draws = s.draws := rfl
@[simp] theorem withPgs_cfg (s : State) (x : Pgs) : (s.withPgs x).cfg = s.cfg := rfl
@[simp] theorem withPgs_lif (s : State) (x : Pgs) : (s.withPgs x).lif = s.lif := rfl
@[simp] theorem withPgs_ptb (s : State) (x : Pgs) : (s.withPgs x).ptb = s.ptb := rfl
@[simp] theorem withPgs_scu (s : State) (x : Pgs) : (s.withPgs x).scu = s.scu := rfl
@[simp] theorem withPgs_hwn (s : State) (x : Pgs) : (s.withPgs x).hwn = s.hwn := rfl
@[simp] theorem withPgs_pgs (s : State) (x : Pgs) : (s.withPgs x).pgs = x := rfl
@[simp] theorem withPgs_dsq (s : State) (x : Pgs) : (s.withPgs x).dsq = s.dsq := rfl
@[simp] theorem withPgs_mpt (s : State) (x : Pgs) : (s.withPgs x).mpt = s.mpt := rfl
@[simp] theorem withPgs_wch (s : State) (x : Pgs) : (s.withPgs x).wch = s.wch := rfl
@[simp] theorem withPgs_pku (s : State) (x : Pgs) : (s.withPgs x).pku = s.pku := rfl
@[simp] theorem withPgs_zbr (s : State) (x : Pgs) : (s.withPgs x).zbr = s.zbr := rfl
@[simp] theorem withPgs_spt (s : State) (x : Pgs) : (s.withPgs x).spt = s.spt := rfl
@[simp] theorem withDsq_pending (s : State) (x : Dsq) : (s.withDsq x).pending = s.pending := rfl
@[simp] theorem withDsq_now (s : State) (x : Dsq) : (s.withDsq x).now = s.now := rfl
@[simp] theorem withDsq_draws (s : State) (x : Dsq) : (s.withDsq x).draws = s.draws := rfl
@[simp] theorem withDsq_cfg (s : State) (x : Dsq) : (s.withDsq x).cfg = s.cfg := rfl
@[simp] theorem withDsq_lif (s : State) (x : Dsq) : (s.withDsq x).lif = s.lif := rfl
@[simp] theorem withDsq_ptb (s : State) (x : Dsq) : (s.withDsq x).ptb = s.ptb := rfl
@[simp] theorem withDsq_scu (s : State) (x : Dsq) : (s.withDsq x).scu = s.scu := rfl
@[simp] theorem withDsq_hwn (s : State) (x : Dsq) : (s.withDsq x).hwn = s.hwn := rfl
@[simp] theorem withDsq_pgs (s : State) (x : Dsq) : (s.withDsq x).pgs = s.pgs := rfl
@[simp] theorem withDsq_dsq (s : State) (x : Dsq) : (s.withDsq x).dsq = x := rfl
@[simp] theorem withDsq_mpt (s : State) (x : Dsq) : (s.withDsq x).mpt = s.mpt := rfl
@[simp] theorem withDsq_wch (s : State) (x : Dsq) : (s.withDsq x).wch = s.wch := rfl
@[simp] theorem withDsq_pku (s : State) (x : Dsq) : (s.withDsq x).pku = s.pku := rfl
@[simp] theorem withDsq_zbr (s : State) (x : Dsq) : (s.withDsq x).zbr = s.zbr := rfl
@[simp] theorem withDsq_spt (s : State) (x : Dsq) : (s.withDsq x).spt = s.spt := rfl
@[simp] theorem withMpt_pending (s : State) (x : Mpt) : (s.withMpt x).pending = s.pending := rfl
@[simp] theorem withMpt_now (s : State) (x : Mpt) : (s.withMpt x).now = s.now := rfl
@[simp] theorem withMpt_draws (s : State) (x : Mpt) : (s.withMpt x).draws = s.draws := rfl
@[simp] theorem withMpt_cfg (s : State) (x : Mpt) : (s.withMpt x).cfg = s.cfg := rfl
@[simp] theorem withMpt_lif (s : State) (x : Mpt) : (s.withMpt x).lif = s.lif := rfl
@[simp] theorem withMpt_ptb (s : State) (x : Mpt) : (s.withMpt x).ptb = s.ptb := rfl
@[simp] theorem withMpt_scu (s : State) (x : Mpt) : (s.withMpt x).scu = s.scu := rfl
@[simp] theorem withMpt_hwn (s : State) (x : Mpt) : (s.withMpt x).hwn = s.hwn := rfl
@[simp] theorem withMpt_pgs (s : State) (x : Mpt) : (s.withMpt x).pgs = s.pgs := rfl
@[simp] theorem withMpt_dsq (s : State) (x : Mpt) : (s.withMpt x).dsq = s.dsq := rfl
@[simp] theorem withMpt_mpt (s : State) (x : Mpt) : (s.withMpt x).mpt = x := rfl
@[simp] theorem withMpt_wch (s : State) (x : Mpt) : (s.withMpt x).wch = s.wch := rfl
@[simp] theorem withMpt_pku (s : State) (x : Mpt) : (s.withMpt x).pku = s.pku := rfl
@[simp] theorem withMpt_zbr (s : State) (x : Mpt) : (s.withMpt x).zbr = s.zbr := rfl
@[simp] theorem withMpt_spt (s : State) (x : Mpt) : (s.withMpt x).spt = s.spt := rfl
@[simp] theorem withWch_pending (s : State) (x : Wch) : (s.withWch x).pending = s.pending := rfl
@[simp] theorem withWch_now (s : State) (x : Wch) : (s.withWch x).now = s.now := rfl
@[simp] theorem withWch_draws (s : State) (x : Wch) : (s.withWch x).draws = s.draws := rfl
@[simp] theorem withWch_cfg (s : State) (x : Wch) : (s.withWch x).cfg = s.cfg := rfl
@[simp] theorem withWch_lif (s : State) (x : Wch) : (s.withWch x).lif = s.lif := rfl
@[simp] theorem withWch_ptb (s : State) (x : Wch) : (s.withWch x).ptb = s.ptb := rfl
@[simp] theorem withWch_scu (s : State) (x : Wch) : (s.withWch x).scu = s.scu := rfl
@[simp] theorem withWch_hwn (s : State) (x : Wch) : (s.withWch x).hwn = s.hwn := rfl
@[simp] theorem withWch_pgs (s : State) (x : Wch) : (s.withWch x).pgs = s.pgs := rfl
@[simp] theorem withWch_dsq (s : State) (x : Wch) : (s.withWch x).dsq = s.dsq := rfl
@[simp] theorem withWch_mpt (s : State) (x : Wch) : (s.withWch x).mpt = s.mpt := rfl
@[simp] theorem withWch_wch (s : State) (x : Wch) : (s.withWch x).wch = x := rfl
@[simp] theorem withWch_pku (s : State) (x : Wch) : (s.withWch x).pku = s.pku := rfl
@[simp] theorem withWch_zbr (s : State) (x : Wch) : (s.withWch x).zbr = s.zbr := rfl
@[simp] theorem withWch_spt (s : State) (x : Wch) : (s.withWch x).spt = s.spt := rfl
@[simp] theorem withPku_pending (s : State) (x : Pku) : (s.withPku x).pending = s.pending := rfl
@[simp] theorem withPku_now (s : State) (x : Pku) : (s.withPku x).now = s.now := rfl
@[simp] theorem withPku_draws (s : State) (x : Pku) : (s.withPku x).draws = s.draws := rfl
@[simp] theorem withPku_cfg (s : State) (x : Pku) : (s.withPku x).cfg = s.cfg := rfl
@[simp] theorem withPku_lif (s : State) (x : Pku) : (s.withPku x).lif = s.lif := rfl
@[simp] theorem withPku_ptb (s : State) (x : Pku) : (s.withPku x).ptb = s.ptb := rfl
@[simp] theorem withPku_scu (s : State) (x : Pku) : (s.withPku x).scu = s.scu := rfl
@[simp] theorem withPku_hwn (s : State) (x : Pku) : (s.withPku x).hwn = s.hwn := rfl
@[simp] theorem withPku_pgs (s : State) (x : Pku) : (s.withPku x).pgs = s.pgs := rfl
@[simp] theorem withPku_dsq (s : State) (x : Pku) : (s.withPku x).dsq = s.dsq := rfl
@[simp] theorem withPku_mpt (s : State) (x : Pku) : (s.withPku x).mpt = s.mpt := rfl
@[simp] theorem withPku_wch (s : State) (x : Pku) : (s.withPku x).wch = s.wch := rfl
@[simp] theorem withPku_pku (s : State) (x : Pku) : (s.withPku x).pku = x := rfl
@[simp] theorem withPku_zbr (s : State) (x : Pku) : (s.withPku x).zbr = s.zbr := rfl
@[simp] theorem withPku_spt (s : State) (x : Pku) : (s.withPku x).spt = s.spt := rfl
@[simp] theorem withZbr_pending (s : State) (x : Zbr) : (s.withZbr x).pending = s.pending := rfl
@[simp] theorem withZbr_now (s : State) (x : Zbr) : (s.withZbr x).now = s.now := rfl
@[simp] theorem withZbr_draws (s : State) (x : Zbr) : (s.withZbr x).draws = s.draws := rfl
@[simp] theorem withZbr_cfg (s : State) (x : Zbr) : (s.withZbr x).cfg = s.cfg := rfl
@[simp] theorem withZbr_lif (s : State) (x : Zbr) : (s.withZbr x).lif = s.lif := rfl
@[simp] theorem withZbr_ptb (s : State) (x : Zbr) : (s.withZbr x).ptb = s.ptb := rfl
@[simp] theorem withZbr_scu (s : State) (x : Zbr) : (s.withZbr x).scu = s.scu := rfl
@[simp] theorem withZbr_hwn (s : State) (x : Zbr) : (s.withZbr x).hwn = s.hwn := rfl
@[simp] theorem withZbr_pgs (s : State) (x : Zbr) : (s.withZbr x).pgs = s.pgs := rfl
@[simp] theorem withZbr_dsq (s : State) (x : Zbr) : (s.withZbr x).dsq = s.dsq := rfl
@[simp] theorem withZbr_mpt (s : State) (x : Zbr) : (s.withZbr x).mpt = s.mpt := rfl
@[simp] theorem withZbr_wch (s : State) (x : Zbr) : (s.withZbr x).wch = s.wch := rfl
@[simp] theorem withZbr_pku (s : State) (x : Zbr) : (s.withZbr x).pku = s.pku := rfl
@[simp] theorem withZbr_zbr (s : State) (x : Zbr) : (s.withZbr x).zbr = x := rfl
@[simp] theorem withZbr_spt (s : State) (x : Zbr) : (s.withZbr x).spt = s.spt := rfl
@[simp] theorem withSpt_pending (s : State) (x : Spt) : (s.withSpt x).pending = s.pending := rfl
@[simp] theorem withSpt_now (s : State) (x : Spt) : (s.withSpt x).now = s.now := rfl
@[simp] theorem withSpt_draws (s : State) (x : Spt) : (s.withSpt x).draws = s.draws := rfl
@[simp] theorem withSpt_cfg (s : State) (x : Spt) : (s.withSpt x).cfg = s.cfg := rfl
@[simp] theorem withSpt_lif (s : State) (x : Spt) : (s.withSpt x).lif = s.lif := rfl
@[simp] theorem withSpt_ptb (s : State) (x : Spt) : (s.withSpt x).ptb = s.ptb := rfl
@[simp] theorem withSpt_scu (s : State) (x : Spt) : (s.withSpt x).scu = s.scu := rfl
@[simp] theorem withSpt_hwn (s : State) (x : Spt) : (s.withSpt x).hwn = s.hwn := rfl
@[simp] theorem withSpt_pgs (s : State) (x : Spt) : (s.withSpt x).pgs = s.pgs := rfl
@[simp] theorem withSpt_dsq (s : State) (x : Spt) : (s.withSpt x).dsq = s.dsq := rfl
@[simp] theorem withSpt_mpt (s : State) (x : Spt) : (s.withSpt x).mpt = s.mpt := rfl
@[simp] theorem withSpt_wch (s : State) (x : Spt) : (s.withSpt x).wch = s.wch := rfl
@[simp] theorem withSpt_pku (s : State) (x : Spt) : (s.withSpt x).pku = s.pku := rfl
@[simp] theorem withSpt_zbr (s : State) (x : Spt) : (s.withSpt x).zbr = s.zbr := rfl
@[simp] theorem withSpt_spt (s : State) (x : Spt) : (s.withSpt x).spt = x := rfl

end Sys2Proof.Machine.State
end

