-- ==== Sys2Proof/Laws/Stores.lean ====
section
/-! SUPPORT. What the operations of the heat window, the record ring and the lot table keep. -/

namespace Sys2Proof.Machine

/-! ### Heat window -/

theorem hwn_request_keeps (h : Hwn) (r : HeatRequest) (w : WindowOk h) : WindowOk { h with request := r } := w

theorem hwn_take_keeps (h : Hwn) (src : StationId) (m i now : Nat) (w : WindowOk h) :
    WindowOk (h.take src m i now) := by
  obtain ⟨hl, hs⟩ := w
  unfold Hwn.take
  split
  · rename_i hlt
    simp only [Config.windowPlaces] at hlt
    refine ⟨?_, ?_⟩
    · simp only [List.length_append, List.length_cons, List.length_nil]; omega
    · simp [hs]
  · split
    · rename_i e he
      have hd : h.entries.dropLast ++ [e] = h.entries := List.dropLast_append_getLast? e he
      have h1 := congrArg List.length hd
      have h2 := congrArg (fun l => (l.map HeatEntry.mass).sum) hd
      simp only [List.length_append, List.length_cons, List.length_nil, List.map_append, List.sum_append,
        List.map_cons, List.map_nil, List.sum_cons, List.sum_nil] at h1 h2
      refine ⟨?_, ?_⟩
      · simp only [List.length_append, List.length_cons, List.length_nil]; omega
      · simp only [List.map_append, List.sum_append, List.map_cons, List.map_nil, List.sum_cons, List.sum_nil]
        omega
    · exact ⟨hl, hs⟩

theorem sum_eraseIdx (f : HeatEntry → Nat) (l : List HeatEntry) (i : Nat) :
    ((l.eraseIdx i).map f).sum = (l.map f).sum - ((l[i]?).map f).getD 0 ∧
      ((l[i]?).map f).getD 0 ≤ (l.map f).sum := by
  induction l generalizing i with
  | nil => simp
  | cons e rest ih =>
    cases i with
    | zero => simp
    | succ i =>
      obtain ⟨h1, h2⟩ := ih i
      simp only [List.eraseIdx_cons_succ, List.map_cons, List.sum_cons, List.getElem?_cons_succ]
      omega

theorem hwn_removeAt_keeps (h : Hwn) (i : Nat) (w : WindowOk h) : WindowOk (h.removeAt i) := by
  obtain ⟨hl, hs⟩ := w
  unfold Hwn.removeAt
  refine ⟨(List.length_eraseIdx_le _ _).trans hl, ?_⟩
  simp only [hs]
  exact (sum_eraseIdx HeatEntry.mass h.entries i).1.symm

/-! ### Record ring -/

theorem numbersRise_of_numbers (n : BitVec 32) (a b : List DipRecord)
    (hm : a.map DipRecord.number = b.map DipRecord.number) (hr : numbersRise n b) : numbersRise n a := by
  induction a generalizing b with
  | nil => simp [numbersRise]
  | cons r rest ih =>
    cases b with
    | nil => simp at hm
    | cons q brest =>
      obtain ⟨h1, h2⟩ := List.cons.inj hm
      cases rest with
      | nil =>
        cases brest with
        | nil => simp only [numbersRise] at hr ⊢; rw [h1]; exact hr
        | cons _ _ => simp at h2
      | cons r2 rest2 =>
        cases brest with
        | nil => simp at h2
        | cons q2 brest2 =>
          simp only [numbersRise] at hr ⊢
          refine ⟨?_, ih (q2 :: brest2) h2 hr.2⟩
          rw [(List.cons.inj h2).1, h1]; exact hr.1

/-- An update of ZBR that leaves the ring's length and numbers and the next dip number. -/
theorem ring_of_numbers {z x : Zbr} (hm : x.ring.map DipRecord.number = z.ring.map DipRecord.number)
    (hn : x.nextNumber = z.nextNumber) (h : RingOk z) : RingOk x := by
  refine ⟨?_, ?_⟩
  · have := congrArg List.length hm
    simp only [List.length_map] at this
    rw [this]; exact h.1
  · rw [hn]; exact numbersRise_of_numbers _ _ _ hm h.2

theorem numbersRise_tail (n : BitVec 32) (r : DipRecord) (rest : List DipRecord) (h : numbersRise n (r :: rest)) :
    numbersRise n rest := by
  match rest, h with
  | [], _ => trivial
  | _ :: _, h => simp only [numbersRise] at h; exact h.2

theorem numbersRise_snoc (n : BitVec 32) (ring : List DipRecord) (r : DipRecord) (hr : r.number = n)
    (h : numbersRise n ring) : numbersRise (n + 1) (ring ++ [r]) := by
  induction ring with
  | nil => simp only [List.nil_append, numbersRise, hr]
  | cons q rest ih =>
    match rest, h, ih with
    | [], h, _ =>
      simp only [numbersRise] at h
      simp only [List.cons_append, List.nil_append, numbersRise]
      exact ⟨by rw [hr, h], by rw [hr]⟩
    | q2 :: rest2, h, ih =>
      simp only [List.cons_append] at ih ⊢
      simp only [numbersRise] at h ⊢
      exact ⟨h.1, ih h.2⟩

theorem ringAppend_keeps (z : Zbr) (r : DipRecord) (hr : r.number = z.nextNumber) (h : RingOk z) :
    (ringAppend z.ring r).length ≤ 32 ∧ numbersRise (z.nextNumber + 1) (ringAppend z.ring r) := by
  obtain ⟨hl, hn⟩ := h
  by_cases hlt : z.ring.length < 32
  · simp only [ringAppend, Config.ringPlaces, hlt, if_true]
    exact ⟨by simp only [List.length_append, List.length_cons, List.length_nil]; omega, numbersRise_snoc _ _ _ hr hn⟩
  · simp only [ringAppend, Config.ringPlaces, hlt, if_false]
    refine ⟨by simp only [List.length_append, List.length_drop, List.length_cons, List.length_nil]; omega, ?_⟩
    apply numbersRise_snoc _ _ _ hr
    match hz : z.ring, hn with
    | [], _ => simp [numbersRise]
    | q :: rest, hn => simpa using numbersRise_tail _ _ _ hn

theorem markDropped_numbers (z : Zbr) (serial : BitVec 32) :
    (z.markDropped serial).ring.map DipRecord.number = z.ring.map DipRecord.number := by
  simp only [Zbr.markDropped, List.map_map]
  apply List.map_congr_left
  intro r _
  simp only [Function.comp_apply]
  split <;> rfl

theorem ring_drop_keeps (z : Zbr) (r : DipRecord) (rest : List DipRecord) (he : z.ring = r :: rest) (h : RingOk z) :
    RingOk { z with ring := rest } := by
  obtain ⟨hl, hn⟩ := h
  rw [he] at hl hn
  exact ⟨by simp only [List.length_cons] at hl; show rest.length ≤ 32; omega, numbersRise_tail _ _ _ hn⟩

/-! ### Lot table -/

theorem lotOf_tag {k : Pku} {tag : Nat} {l : Lot} (h : k.lotOf tag = some l) : l ∈ k.lots ∧ l.tag = tag := by
  unfold Pku.lotOf at h
  refine ⟨List.mem_of_find?_eq_some h, ?_⟩
  have := List.find?_some h
  simpa using this

theorem lotOf_none {k : Pku} {tag : Nat} (h : k.lotOf tag = none) : tag ∉ k.lots.map Lot.tag := by
  unfold Pku.lotOf at h
  rw [List.find?_eq_none] at h
  intro hm
  obtain ⟨l, hl, ht⟩ := List.mem_map.mp hm
  exact h l hl (by simpa using ht)

theorem removeLot_sublist (tag : Nat) (ls : List Lot) : (removeLot tag ls).Sublist ls := List.filter_sublist

theorem removeLot_length (ls : List Lot) (l : Lot) (h : l ∈ ls) : (removeLot l.tag ls).length < ls.length := by
  unfold removeLot
  rw [List.length_filter_lt_length_iff_exists]
  exact ⟨l, h, by simp⟩

theorem removeLot_not_mem (tag : Nat) (ls : List Lot) : tag ∉ (removeLot tag ls).map Lot.tag := by
  unfold removeLot
  intro hm
  obtain ⟨l, hl, ht⟩ := List.mem_map.mp hm
  rw [List.mem_filter] at hl
  simp [ht] at hl

theorem putFirst_keeps (k : Pku) (l m : Lot) (hm : m ∈ k.lots) (ht : m.tag = l.tag) (h : LotsOk k) :
    LotsOk (k.putFirst l) := by
  obtain ⟨hl, hn, hz⟩ := h
  unfold Pku.putFirst
  refine ⟨?_, ?_, ?_⟩
  · have := removeLot_length k.lots m hm
    rw [ht] at this
    simp only [List.length_cons]; omega
  · simp only [List.map_cons, List.nodup_cons]
    exact ⟨removeLot_not_mem _ _, hn.sublist ((removeLot_sublist _ _).map _)⟩
  · intro x hx
    simp only [List.mem_cons] at hx
    rcases hx with rfl | hx
    · rw [← ht]; exact hz m hm
    · exact hz x ((removeLot_sublist _ _).subset hx)

theorem evictLast_sublist (ls : List Lot) : (evictLast ls).Sublist ls := by
  induction ls with
  | nil => exact List.Sublist.refl _
  | cons l rest ih =>
    unfold evictLast
    split
    · exact ih.cons_cons l
    · exact List.sublist_cons_self l rest

theorem evictLast_length (ls : List Lot) : (evictLast ls).length = ls.length - 1 := by
  induction ls with
  | nil => rfl
  | cons l rest ih =>
    unfold evictLast
    split
    · rename_i h
      have : rest ≠ [] := by intro e; simp [e] at h
      have := List.length_pos_iff.mpr this
      simp only [List.length_cons, ih]; omega
    · simp

theorem openLot_keeps (k : Pku) (tag : Nat) (mask : BitVec 5) (h0 : tag ≠ 0) (h : LotsOk k) :
    LotsOk (k.openLot tag mask) := by
  unfold Pku.openLot
  split
  · rename_i l hl
    obtain ⟨hm, ht⟩ := lotOf_tag hl
    exact putFirst_keeps k _ l hm ht h
  · rename_i hl
    have hnot := lotOf_none hl
    obtain ⟨hlen, hn, hz⟩ := h
    have hsub : ((if k.lots.length < Config.lotPlaces then k.lots else evictLast k.lots)).Sublist k.lots := by
      split
      · exact List.Sublist.refl _
      · exact evictLast_sublist _
    refine ⟨?_, ?_, ?_⟩
    · by_cases hlt : k.lots.length < 8
      · simp only [List.length_cons, Config.lotPlaces, hlt, if_true]; omega
      · simp only [List.length_cons, Config.lotPlaces, hlt, if_false, evictLast_length]; omega
    · simp only [List.map_cons, List.nodup_cons]
      exact ⟨fun hm => hnot ((hsub.map _).subset hm), hn.sublist (hsub.map _)⟩
    · intro x hx
      simp only [List.mem_cons] at hx
      rcases hx with rfl | hx
      · exact h0
      · exact hz x (hsub.subset hx)

/-- A change of lots that leaves their tags. -/
theorem lots_map_keeps (k : Pku) (f : Lot → Lot) (hf : ∀ l, (f l).tag = l.tag) (h : LotsOk k) :
    LotsOk { k with lots := k.lots.map f } := by
  obtain ⟨hlen, hn, hz⟩ := h
  have ht : (k.lots.map f).map Lot.tag = k.lots.map Lot.tag := by
    simp only [List.map_map]
    exact List.map_congr_left (fun l _ => hf l)
  refine ⟨by simpa using hlen, by rw [ht]; exact hn, ?_⟩
  intro x hx
  obtain ⟨l, hl, rfl⟩ := List.mem_map.mp hx
  rw [hf]; exact hz l hl

theorem useLot_keeps (k : Pku) (tag : Nat) (mask : BitVec 5) (h : LotsOk k) : LotsOk (k.useLot tag mask) := by
  unfold Pku.useLot
  split
  · exact h
  · rename_i h0
    split
    · rename_i l hl
      exact putFirst_keeps k _ l (lotOf_tag hl).1 rfl h
    · exact lots_map_keeps _ _ (fun l => by split <;> rfl) (openLot_keeps k tag mask h0 h)

theorem clearUse_keeps (k : Pku) (h : LotsOk k) : LotsOk k.clearUse := lots_map_keeps k _ (fun _ => rfl) h

theorem setClassifier_keeps (k : Pku) (l : Lot) (c : Classifier) (hl : l ∈ k.lots) (h : LotsOk k) :
    LotsOk (k.setClassifier l c) := putFirst_keeps k _ l hl rfl h

theorem afterRecord_keeps (k : Pku) (n tag : Nat) (d : Option DipClass) (h : LotsOk k) :
    LotsOk (k.afterRecord n tag d) := by
  unfold Pku.afterRecord
  split
  · exact h
  · exact lots_map_keeps k _ (fun l => by split <;> rfl) h

end Sys2Proof.Machine
end

