-- ==== Sys2Proof/Laws/Quiet.lean ====
section
/-! SUPPORT. `Quiet s t`: a move inside LIF, SCU, HWN, PKU, ZBR or the event stage. It leaves the queue of commands, the
time base, the commissioning set, the peers, the peer entries of the span table, the programs, the motion port, the
weigh channel, and DSQ's state and load position, and it keeps the invariants of the stores. One lemma per shared operation. -/

namespace Sys2Proof.Machine

theorem groupGrows_trans {g x y : Group} (h : GroupGrows g x) (k : GroupGrows x y) : GroupGrows g y := by
  refine ⟨k.1.trans h.1, k.2.1.trans h.2.1, ?_⟩
  rw [← k.2.2, ← BitVec.or_assoc, h.2.2]

theorem groupGrows_refl (g : Group) : GroupGrows g g := ⟨rfl, rfl, BitVec.or_self⟩

theorem EventsGrow.refl (t : Spt) : EventsGrow t t :=
  ⟨rfl, rfl, rfl, groupGrows_refl _, groupGrows_refl _, groupGrows_refl _, groupGrows_refl _⟩

theorem EventsGrow.trans {t x y : Spt} (h : EventsGrow t x) (k : EventsGrow x y) : EventsGrow t y :=
  ⟨k.store.trans h.store, k.rxBytes.trans h.rxBytes, k.responses.trans h.responses, groupGrows_trans h.g1 k.g1,
    groupGrows_trans h.g2 k.g2, groupGrows_trans h.g3 k.g3, groupGrows_trans h.g4 k.g4⟩

theorem groupGrows_or (g : Group) (b : Byte) : GroupGrows g { g with flags := g.flags ||| b } :=
  ⟨rfl, rfl, by rw [← BitVec.or_assoc, BitVec.or_self]⟩

theorem eventsGrow_raise (t : Spt) (e : Event) : EventsGrow t (t.raise e) := by
  cases e <;>
    exact ⟨rfl, rfl, rfl, by first | exact groupGrows_refl _ | exact groupGrows_or _ _,
      by first | exact groupGrows_refl _ | exact groupGrows_or _ _,
      by first | exact groupGrows_refl _ | exact groupGrows_or _ _,
      by first | exact groupGrows_refl _ | exact groupGrows_or _ _⟩

/-- What a move of the inner blocks leaves and keeps. -/
structure Quiet (s t : State) : Prop where
  pending : t.pending = s.pending
  draws : t.draws = s.draws
  now : t.now = s.now
  cfg : t.cfg = s.cfg
  ptb : t.ptb = s.ptb
  pgs : t.pgs = s.pgs
  mpt : t.mpt = s.mpt
  wch : t.wch = s.wch
  dsqState : t.dsq.state = s.dsq.state
  position : t.dsq.position = s.dsq.position
  entries : t.scu.entries = s.scu.entries
  events : EventsGrow s.spt t.spt
  stores : StoresOk s → StoresOk t

theorem Quiet.refl (s : State) : Quiet s s :=
  ⟨rfl, rfl, rfl, rfl, rfl, rfl, rfl, rfl, rfl, rfl, rfl, EventsGrow.refl _, id⟩

theorem Quiet.trans {s t u : State} (h : Quiet s t) (k : Quiet t u) : Quiet s u :=
  ⟨k.pending.trans h.pending, k.draws.trans h.draws, k.now.trans h.now, k.cfg.trans h.cfg, k.ptb.trans h.ptb,
    k.pgs.trans h.pgs, k.mpt.trans h.mpt, k.wch.trans h.wch, k.dsqState.trans h.dsqState,
    k.position.trans h.position, k.entries.trans h.entries, h.events.trans k.events, fun o => k.stores (h.stores o)⟩

/-! ### Block updates -/

/-- An update of SCU that leaves the peer entries. -/
theorem quiet_scu (s : State) (x : Scu) (h : x.entries = s.scu.entries) : Quiet s (s.withScu x) :=
  ⟨rfl, rfl, rfl, rfl, rfl, rfl, rfl, rfl, rfl, rfl, h, EventsGrow.refl _, fun o =>
    ⟨o.window, o.queue, o.ring, o.lots, o.balance⟩⟩

theorem quiet_spt (s : State) (x : Spt) (h : EventsGrow s.spt x) : Quiet s (s.withSpt x) :=
  ⟨rfl, rfl, rfl, rfl, rfl, rfl, rfl, rfl, rfl, rfl, rfl, h, fun o => ⟨o.window, o.queue, o.ring, o.lots, o.balance⟩⟩

theorem quiet_lif (s : State) (x : Lif) (h : LifKeeps s.lif x) : Quiet s (s.withLif x) :=
  ⟨rfl, rfl, rfl, rfl, rfl, rfl, rfl, rfl, rfl, rfl, rfl, EventsGrow.refl _, fun o => ⟨o.window, h.1 o.queue, o.ring, o.lots,
    o.balance.1, fun r => ⟨(o.balance.2 r).1, h.2 (o.balance.2 r).2.1 (o.balance.2 r).2.2⟩⟩⟩

theorem quiet_hwn (s : State) (x : Hwn) (h : WindowOk s.hwn → WindowOk x) : Quiet s (s.withHwn x) :=
  ⟨rfl, rfl, rfl, rfl, rfl, rfl, rfl, rfl, rfl, rfl, rfl, EventsGrow.refl _, fun o => ⟨h o.window, o.queue, o.ring, o.lots, o.balance⟩⟩

theorem quiet_pku (s : State) (x : Pku) (h : LotsOk s.pku → LotsOk x) : Quiet s (s.withPku x) :=
  ⟨rfl, rfl, rfl, rfl, rfl, rfl, rfl, rfl, rfl, rfl, rfl, EventsGrow.refl _, fun o => ⟨o.window, o.queue, o.ring, h o.lots, o.balance⟩⟩

/-- An update of ZBR that keeps the ring, with a value of Z that the balance allows. -/
theorem quiet_zbr (s : State) (x : Zbr) (h : RingOk s.zbr → RingOk x)
    (hz : BalanceOk s → x.z ≤ s.cfg.params.zMax ∧ (s.cfg.ready = false → x.z = 0)) : Quiet s (s.withZbr x) :=
  ⟨rfl, rfl, rfl, rfl, rfl, rfl, rfl, rfl, rfl, rfl, rfl, EventsGrow.refl _, fun o => ⟨o.window, o.queue, h o.ring, o.lots,
    (hz o.balance).1, fun r => ⟨(hz o.balance).2 r, (o.balance.2 r).2⟩⟩⟩

/-- An update of ZBR that keeps the ring and leaves Z. -/
theorem quiet_zbr_same (s : State) (x : Zbr) (h : RingOk s.zbr → RingOk x) (hz : x.z = s.zbr.z) :
    Quiet s (s.withZbr x) := by
  refine quiet_zbr s x h fun b => ?_
  rw [hz]; exact ⟨b.1, fun r => (b.2 r).1⟩

/-- An update of the dip context alone. -/
theorem quiet_dsq (s : State) (x : Dsq) (h1 : x.state = s.dsq.state) (h2 : x.position = s.dsq.position) :
    Quiet s (s.withDsq x) :=
  ⟨rfl, rfl, rfl, rfl, rfl, rfl, rfl, rfl, h1, h2, rfl, EventsGrow.refl _, fun o => ⟨o.window, o.queue, o.ring, o.lots, o.balance⟩⟩

theorem quiet_raise (s : State) (e : Event) : Quiet s (s.raise e) := quiet_spt s _ (eventsGrow_raise _ _)

theorem quiet_raiseAll (s : State) (es : List Event) : Quiet s (s.raiseAll es) := by
  induction es generalizing s with
  | nil => exact Quiet.refl s
  | cons e rest ih => exact (quiet_raise s e).trans (ih _)

/-! ### Frames that were not sent -/

theorem quiet_markPickup (s : State) (n : BitVec 32) : Quiet s (s.markPickup n) :=
  quiet_zbr_same s _ (ring_of_numbers (markDropped_numbers s.zbr n) rfl) rfl

theorem quiet_markEntry (s : State) (n : BitVec 32) : Quiet s (s.markEntry n) :=
  (quiet_dsq s (s.dsq.markDropped n) rfl rfl).trans
    (quiet_zbr_same (s.withDsq (s.dsq.markDropped n)) _ (ring_of_numbers (markDropped_numbers s.zbr n) rfl) rfl)

/-! ### Offers and the start of a claim -/

theorem stopBlocked_entries (c : Scu) (now : Nat) : (c.stopBlocked now).entries = c.entries := by
  unfold Scu.stopBlocked; split <;> rfl

theorem resumeBlocked_entries (c : Scu) (now : Nat) : (c.resumeBlocked now).entries = c.entries := by
  unfold Scu.resumeBlocked; split <;> rfl

theorem quiet_enterRetry (s : State) : Quiet s s.enterRetry := quiet_scu s _ (resumeBlocked_entries s.scu s.now)

theorem quiet_intentGone (s : State) (n : Byte) : Quiet s (s.intentGone n) := by
  unfold State.intentGone; split
  · exact quiet_scu s _ (by rfl)
  · exact Quiet.refl s

theorem quiet_holdGone (s : State) (n : Byte) : Quiet s (s.holdGone n) := by
  unfold State.holdGone; split
  · exact quiet_enterRetry s
  · exact Quiet.refl s

theorem quiet_reportDrop (s : State) (f : TxFrame) : Quiet s (s.reportDrop f) := by
  cases f <;> simp only [State.reportDrop]
  case hold sp n => exact quiet_holdGone s n
  case intent sp a n => exact quiet_intentGone s n
  case entry m i n => exact quiet_markEntry s n
  case pickup q c k n => exact quiet_markPickup s n
  all_goals exact Quiet.refl s

theorem quiet_offerBase (s : State) (f : TxFrame) : Quiet s (s.offerBase f) := by
  have hp := place_keeps s.lif f
  unfold State.offerBase
  generalize s.lif.place f = r at hp
  obtain ⟨l, o⟩ := r
  have hl := quiet_lif s l.takeCurrent (hp.trans (takeCurrent_keeps l))
  cases o with
  | none => exact hl
  | some g => exact hl.trans (quiet_reportDrop _ g)

theorem quiet_startClaim (s : State) (w : Span) : Quiet s (s.startClaim w) :=
  (quiet_scu s _ (by rfl)).trans (quiet_offerBase _ _)

theorem quiet_evalStart (s : State) : Quiet s s.evalStart := by
  unfold State.evalStart; split
  · split
    · exact quiet_startClaim s _
    · exact Quiet.refl s
  · exact Quiet.refl s

theorem quiet_offer (s : State) (f : TxFrame) : Quiet s (s.offer f) := by
  unfold State.offer; split
  · exact (quiet_offerBase s f).trans (quiet_evalStart _)
  · exact quiet_offerBase s f

/-! ### The own claim machine -/

theorem quiet_yieldClaim (s : State) : Quiet s s.yieldClaim := (quiet_offer s _).trans (quiet_enterRetry _)

theorem quiet_loseClaim (s : State) : Quiet s s.loseClaim :=
  ((quiet_offer s _).trans (quiet_enterRetry _)).trans (quiet_raise _ _)

theorem quiet_enterBlocked (s : State) (w : Span) : Quiet s (s.enterBlocked w) :=
  (quiet_scu s _ (by rfl)).trans (quiet_evalStart _)

theorem quiet_endClaim (s : State) : Quiet s s.endClaim := by
  unfold State.endClaim; split
  · exact quiet_scu s _ (stopBlocked_entries s.scu s.now)
  · exact (quiet_scu s _ (by exact stopBlocked_entries s.scu s.now)).trans (quiet_enterBlocked _ _)

theorem quiet_requestSpan (s : State) (n : Nat) (w : Bool) : Quiet s (s.requestSpan n w).1 := by
  unfold State.requestSpan
  split
  · split
    · exact Quiet.refl s
    · exact (quiet_scu s _ (by rfl)).trans (quiet_enterBlocked _ _)
  · split
    · split
      · exact Quiet.refl s
      · exact quiet_scu s _ (by rfl)
    · exact Quiet.refl s

theorem quiet_startRelease (s : State) : Quiet s s.startRelease :=
  (quiet_offer s _).trans (quiet_scu _ _ (stopBlocked_entries _ _))

theorem quiet_releaseSpan (s : State) : Quiet s s.releaseSpan := by
  unfold State.releaseSpan; split <;> first | exact quiet_startRelease s | exact Quiet.refl s

theorem quiet_awaitCancel (s : State) : Quiet s s.awaitCancel := quiet_scu s _ (stopBlocked_entries s.scu s.now)

theorem quiet_cancelClaim (s : State) : Quiet s s.cancelClaim := by
  unfold State.cancelClaim
  split
  · exact Quiet.refl s
  · exact quiet_endClaim s
  · exact quiet_endClaim s
  · split
    · exact quiet_scu s _ (by rfl)
    · exact quiet_awaitCancel s
    · have hw := withdraw_keeps s.lif s.ownClaim
      generalize s.lif.withdraw s.ownClaim = r at hw
      obtain ⟨l, o⟩ := r
      have hl := quiet_lif s l hw
      cases o
      · exact hl.trans (quiet_endClaim _)
      · exact hl.trans (quiet_awaitCancel _)
      · exact hl.trans (quiet_awaitCancel _)
  · exact (quiet_offer s _).trans (quiet_endClaim _)
  · exact quiet_startRelease s
  · exact quiet_startRelease s
  · exact quiet_startRelease s
  · exact quiet_scu s _ (by rfl)

theorem quiet_intentWithdrawn (s : State) : Quiet s s.intentWithdrawn := (quiet_scu s _ (by rfl)).trans (quiet_evalStart _)

theorem quiet_withdrawIntent (s : State) : Quiet s s.withdrawIntent := by
  unfold State.withdrawIntent; split
  · have hw := withdraw_keeps s.lif s.ownClaim
    generalize s.lif.withdraw s.ownClaim = r at hw
    obtain ⟨l, o⟩ := r
    have hl := quiet_lif s l hw
    cases o
    · exact hl.trans (quiet_intentWithdrawn _)
    · exact hl.trans (quiet_scu _ _ (by rfl))
    · exact hl.trans (quiet_scu _ _ (by rfl))
  · exact Quiet.refl s

theorem quiet_meetIntent (s : State) (src : StationId) (a : Option Nat) : Quiet s (s.meetIntent src a) := by
  unfold State.meetIntent
  split
  · exact quiet_withdrawIntent s
  · split
    · split
      · exact quiet_yieldClaim s
      · exact Quiet.refl s
    · exact Quiet.refl s
  · exact Quiet.refl s

theorem quiet_lowerIdKeeps (s : State) (src : StationId) : Quiet s (s.lowerIdKeeps src).1 := by
  unfold State.lowerIdKeeps; split
  · exact Quiet.refl s
  · exact quiet_loseClaim s

theorem quiet_meetHeld (s : State) (src : StationId) : Quiet s (s.meetHeld src).1 := by
  unfold State.meetHeld
  split
  · exact quiet_withdrawIntent s
  · exact quiet_yieldClaim s
  · exact quiet_lowerIdKeeps s src
  · exact quiet_lowerIdKeeps s src
  · split
    · exact quiet_raise s _
    · exact quiet_lowerIdKeeps s src
  · exact Quiet.refl s

theorem quiet_lineNotice (s : State) : Quiet s s.lineNotice :=
  (quiet_lif s _ (takeCurrent_keeps _)).trans (quiet_evalStart _)

theorem quiet_zincNotice (s : State) : Quiet s s.zincNotice := by
  unfold State.zincNotice; split
  · exact quiet_evalStart s
  · exact quiet_withdrawIntent s

theorem quiet_intentSent (s : State) (n : Byte) : Quiet s (s.intentSent n).1 := by
  unfold State.intentSent
  split
  · split
    · exact (quiet_offer s _).trans (quiet_endClaim _)
    · have key : ∀ t : State, Quiet s t → Quiet s (if t.standingLoss then t.yieldClaim else t) := by
        intro t h
        split
        · exact h.trans (quiet_yieldClaim _)
        · exact h
      exact key _ (quiet_scu s _ (by rfl))
    · exact quiet_scu s _ (by rfl)
  · exact Quiet.refl s

theorem quiet_holdSent (s : State) (n : Byte) : Quiet s (s.holdSent n) := by
  unfold State.holdSent; split
  · exact quiet_scu s _ (stopBlocked_entries s.scu s.now)
  · exact Quiet.refl s

theorem quiet_freeSent (s : State) (n : Byte) : Quiet s (s.freeSent n).1 := by
  unfold State.freeSent; split
  · exact quiet_endClaim s
  · exact Quiet.refl s

theorem quiet_sendCompletion (s : State) (f : TxFrame) : Quiet s (s.sendCompletion f).1 := by
  cases f <;> simp only [State.sendCompletion]
  case hold sp n => exact quiet_holdSent s n
  case intent sp a n => exact quiet_intentSent s n
  case free n => exact quiet_freeSent s n
  all_goals exact Quiet.refl s

theorem quiet_reportDiscard (s : State) (f : TxFrame) : Quiet s (s.reportDiscard f) := by
  cases f <;> simp only [State.reportDiscard]
  case hold sp n =>
    split
    · exact quiet_offer s _
    · exact Quiet.refl s
  case free n =>
    split
    · exact quiet_offer s _
    · exact Quiet.refl s
  case intent sp a n => exact (quiet_intentGone s n).trans (quiet_evalStart _)
  case entry m i n => exact quiet_markEntry s n
  case pickup q c k n => exact quiet_markPickup s n
  all_goals exact Quiet.refl s

theorem quiet_withdrawalSucceeds (s : State) : Quiet s s.withdrawalSucceeds.1 := by
  unfold State.withdrawalSucceeds
  split
  · exact quiet_endClaim s
  · split
    · exact quiet_intentWithdrawn s
    · exact Quiet.refl s

theorem quiet_placeFreed (s : State) : Quiet s s.placeFreed := by
  unfold State.placeFreed
  refine Quiet.trans ?_ (quiet_evalStart _)
  split
  · split
    · exact Quiet.refl s
    · exact quiet_offer s _
  · exact Quiet.refl s

/-! ### Heat window -/

theorem quiet_takeEntry (s : State) (src : StationId) (m i : Nat) : Quiet s (s.takeEntry src m i) :=
  (quiet_hwn s _ (hwn_take_keeps _ _ _ _ _)).trans (quiet_scu _ _ (by rfl))

theorem quiet_offerEntry (s : State) (m i : Nat) : Quiet s (s.offerEntry m i) :=
  (quiet_takeEntry s _ _ _).trans (quiet_offer _ _)

theorem quiet_withdrawHeat (s : State) : Quiet s s.withdrawHeat := quiet_hwn s _ id

theorem quiet_grantEntry (s : State) (m i : Nat) (b : Bool) : Quiet s (s.grantEntry m i b) := by
  have h := (quiet_withdrawHeat s).trans (quiet_offerEntry (s.withHwn { s.hwn with request := .none }) m i)
  unfold State.grantEntry
  split
  · exact h.trans (quiet_raise _ _)
  · exact h

theorem quiet_requestHeat (s : State) (m i : Nat) : Quiet s (s.requestHeat m i).1 := by
  unfold State.requestHeat
  split
  · split
    · split
      · exact quiet_grantEntry s m i false
      · exact quiet_hwn s _ id
    · split
      · exact quiet_grantEntry s m i true
      · exact quiet_hwn s _ id
  · exact Quiet.refl s

theorem quiet_retryHeat (s : State) : Quiet s s.retryHeat.1 := by
  unfold State.retryHeat
  split
  · exact Quiet.refl s
  · rename_i r _
    split
    · exact quiet_grantEntry s r.mass r.index false
    · exact Quiet.refl s
  · rename_i r _
    split
    · exact quiet_grantEntry s r.mass r.index true
    · exact Quiet.refl s

theorem quiet_removeAt (s : State) (i : Nat) : Quiet s (s.withHwn (s.hwn.removeAt i)) :=
  quiet_hwn s _ (hwn_removeAt_keeps _ _)

/-! ### Zinc balance and records -/

theorem quiet_evalLevel (s : State) : Quiet s s.evalLevel := by
  unfold State.evalLevel
  split
  · exact Quiet.refl s
  · have key : ∀ t : State, Quiet s t → Quiet s (if s.zbr.isOpen = t.zbr.isOpen then t else t.zincNotice) := by
      intro t h
      split
      · exact h
      · exact h.trans (quiet_zincNotice _)
    exact key _ ((quiet_zbr_same s
      { s.zbr with level := nextLevel s.zbr.level s.zbr.z s.cfg.params.zStop s.cfg.params.zLow } id rfl).trans
      (quiet_raiseAll _ _))

/-- Z takes a value the balance allows. -/
theorem quiet_putZ (s : State) (z : Nat)
    (hz : BalanceOk s → z ≤ s.cfg.params.zMax ∧ (s.cfg.ready = false → z = 0)) : Quiet s (s.putZ z) :=
  (quiet_zbr s { s.zbr with z := z } id hz).trans (quiet_evalLevel _)

theorem quiet_consume (s : State) (c : Nat) : Quiet s (s.consume c) := by
  exact quiet_putZ s _ fun b => ⟨(Nat.sub_le _ _).trans b.1, fun r => by simp [(b.2 r).1]⟩

/-- Zinc is added in READY, or while the line is not OFF. -/
theorem quiet_addZinc (s : State) (m : Nat) (h : s.cfg.ready = true ∨ s.lif.line ≠ .off) : Quiet s (s.addZinc m) := by
  refine quiet_putZ s _ fun b => ⟨Nat.min_le_left _ _, fun r => ?_⟩
  rcases h with h | h
  · rw [r] at h; cases h
  · exact absurd (b.2 r).2.1 h

theorem quiet_offerIngot (s : State) (m : Nat) (h : s.cfg.ready = true) : Quiet s (s.offerIngot m) :=
  (quiet_addZinc s m (.inl h)).trans (quiet_offer _ _)

theorem quiet_putBalance (s : State) (v : Nat) (h : s.cfg.ready = true) (hv : v ≤ s.cfg.params.zMax) :
    Quiet s (s.putBalance v) := by
  refine Quiet.trans (quiet_zbr s { s.zbr with z := v, unset := false, gap := false } id
    fun _ => ⟨hv, fun r => ?_⟩) (quiet_evalLevel _)
  rw [r] at h; cases h

theorem quiet_offerPickup (s : State) (c : Nat) (k : Option SteelClass) (n : BitVec 32) :
    Quiet s (s.offerPickup c k n) :=
  ((quiet_consume s c).trans (quiet_zbr_same (s.consume c)
    { (s.consume c).zbr with ownSeq := (s.consume c).zbr.ownSeq + 1 } id rfl)).trans (quiet_offer _ _)

theorem quiet_appendRecord (s : State) (r : DipRecord) : Quiet s (s.appendRecord r) := by
  unfold State.appendRecord
  have h1 := quiet_zbr_same s
    { s.zbr with ring := ringAppend s.zbr.ring { r with number := s.zbr.nextNumber },
                 nextNumber := s.zbr.nextNumber + 1 }
    (fun o => ringAppend_keeps s.zbr { r with number := s.zbr.nextNumber } rfl o) rfl
  refine Quiet.trans (Quiet.trans ?_ (quiet_raise _ _)) (quiet_offerPickup _ _ _ _)
  split
  · exact h1
  · exact h1.trans (quiet_raise _ _)

theorem quiet_recordDip (s : State) (c : DipCtx) (o : DipOutcome) : Quiet s (s.recordDip c o) :=
  ((quiet_pku s _ (afterRecord_keeps _ _ _ _)).trans (quiet_raiseAll _ _)).trans (quiet_appendRecord _ _)

theorem quiet_createRecord (s : State) (o : DipOutcome) : Quiet s (s.createRecord o) := by
  unfold State.createRecord
  split
  · split
    · exact Quiet.refl s
    · exact quiet_recordDip s _ o
  · exact Quiet.refl s

end Sys2Proof.Machine
end

