-- ==== Sys2Proof/Laws/Aside.lean ====
section
/-! SUPPORT. `Aside s t`: a move of the transmit queue and the own claim alone. The line itself, the peers, the heat
window, the estimate, the drive, the converter, the lots and the station port stand; the dip context and the ring take no
more than a mark for a frame not sent. -/

namespace Sys2Proof.Machine

/-- A context but for its mark of a frame not sent. -/
def DipCtx.unmarked (c : DipCtx) : DipCtx := { c with txDropped := false }

/-- A record but for its mark of a frame not sent. -/
def DipRecord.unmarked (r : DipRecord) : DipRecord := { r with flags := { r.flags with txDropped := false } }

/-- What such a move leaves. -/
structure Aside (s t : State) : Prop where
  pending : t.pending = s.pending
  now : t.now = s.now
  draws : t.draws = s.draws
  cfg : t.cfg = s.cfg
  pgs : t.pgs = s.pgs
  ptb : t.ptb = s.ptb
  mpt : t.mpt = s.mpt
  wch : t.wch = s.wch
  pku : t.pku = s.pku
  hwn : t.hwn = s.hwn
  spt : t.spt = s.spt
  line : t.lif.line = s.lif.line
  score : t.lif.score = s.lif.score
  seq : t.lif.seq = s.lif.seq
  joinEnd : t.lif.joinEnd = s.lif.joinEnd
  beaconNext : t.lif.beaconNext = s.lif.beaconNext
  clashEnd : t.lif.clashEnd = s.lif.clashEnd
  dsq : t.dsq = { s.dsq with ctx := t.dsq.ctx }
  ctx : t.dsq.ctx.map DipCtx.unmarked = s.dsq.ctx.map DipCtx.unmarked
  zbr : t.zbr = { s.zbr with ring := t.zbr.ring }
  ring : t.zbr.ring.map DipRecord.unmarked = s.zbr.ring.map DipRecord.unmarked
  entries : t.scu.entries = s.scu.entries
  requestTime : t.scu.requestTime = s.scu.requestTime
  longMark : t.scu.blockedLongMark = s.scu.blockedLongMark
  lastEntry : t.scu.lastEntry = s.scu.lastEntry

theorem Aside.refl (s : State) : Aside s s := by constructor <;> rfl

theorem Aside.trans {s t u : State} (h : Aside s t) (k : Aside t u) : Aside s u := by
  refine ⟨k.pending.trans h.pending, k.now.trans h.now, k.draws.trans h.draws, k.cfg.trans h.cfg, k.pgs.trans h.pgs,
    k.ptb.trans h.ptb, k.mpt.trans h.mpt, k.wch.trans h.wch, k.pku.trans h.pku, k.hwn.trans h.hwn, k.spt.trans h.spt,
    k.line.trans h.line, k.score.trans h.score, k.seq.trans h.seq, k.joinEnd.trans h.joinEnd,
    k.beaconNext.trans h.beaconNext, k.clashEnd.trans h.clashEnd, ?_, k.ctx.trans h.ctx, ?_, k.ring.trans h.ring,
    k.entries.trans h.entries, k.requestTime.trans h.requestTime, k.longMark.trans h.longMark,
    k.lastEntry.trans h.lastEntry⟩
  · rw [k.dsq, h.dsq]
  · rw [k.zbr, h.zbr]

/-- An update of the queue that leaves the line. -/
theorem aside_lif (s : State) (x : Lif) (h1 : x.line = s.lif.line) (h2 : x.score = s.lif.score)
    (h3 : x.seq = s.lif.seq) (h4 : x.joinEnd = s.lif.joinEnd) (h5 : x.beaconNext = s.lif.beaconNext)
    (h6 : x.clashEnd = s.lif.clashEnd) : Aside s (s.withLif x) := by
  constructor <;> first | rfl | assumption

/-- An update of SCU that leaves the span table, the marks of the dip and the last-entry ID. -/
theorem aside_scu (s : State) (x : Scu) (h1 : x.entries = s.scu.entries) (h2 : x.requestTime = s.scu.requestTime)
    (h3 : x.blockedLongMark = s.scu.blockedLongMark) (h4 : x.lastEntry = s.scu.lastEntry) :
    Aside s (s.withScu x) := by
  constructor <;> first | rfl | assumption

theorem markDropped_ring (n : BitVec 32) (rs : List DipRecord) :
    (rs.map (fun r => if r.serial = n then { r with flags := { r.flags with txDropped := true } } else r)).map
      DipRecord.unmarked = rs.map DipRecord.unmarked := by
  rw [List.map_map]
  apply List.map_congr_left
  intro r _
  show DipRecord.unmarked (if r.serial = n then _ else r) = _
  split <;> rfl

theorem markDropped_ctx (n : BitVec 32) (o : Option DipCtx) :
    (o.map (fun c => if c.serial = n then { c with txDropped := true } else c)).map DipCtx.unmarked =
      o.map DipCtx.unmarked := by
  cases o with
  | none => rfl
  | some c =>
    show some (DipCtx.unmarked (if c.serial = n then _ else c)) = _
    split <;> rfl

theorem aside_markPickup (s : State) (n : BitVec 32) : Aside s (s.markPickup n) := by
  constructor <;> first | rfl | exact markDropped_ring n s.zbr.ring

theorem aside_markEntry (s : State) (n : BitVec 32) : Aside s (s.markEntry n) := by
  constructor <;> first | rfl | exact markDropped_ring n s.zbr.ring | exact markDropped_ctx n s.dsq.ctx

/-! ### The queue keeps the line -/

theorem takeCurrent_line (l : Lif) :
    l.takeCurrent.line = l.line ∧ l.takeCurrent.score = l.score ∧ l.takeCurrent.seq = l.seq ∧
      l.takeCurrent.joinEnd = l.joinEnd ∧ l.takeCurrent.beaconNext = l.beaconNext ∧
      l.takeCurrent.clashEnd = l.clashEnd := by
  unfold Lif.takeCurrent
  split
  · exact ⟨rfl, rfl, rfl, rfl, rfl, rfl⟩
  · split
    · exact ⟨rfl, rfl, rfl, rfl, rfl, rfl⟩
    · split <;> exact ⟨rfl, rfl, rfl, rfl, rfl, rfl⟩

theorem place_line (l : Lif) (f : TxFrame) :
    (l.place f).1.line = l.line ∧ (l.place f).1.score = l.score ∧ (l.place f).1.seq = l.seq ∧
      (l.place f).1.joinEnd = l.joinEnd ∧ (l.place f).1.beaconNext = l.beaconNext ∧
      (l.place f).1.clashEnd = l.clashEnd := by
  unfold Lif.place
  split
  · exact ⟨rfl, rfl, rfl, rfl, rfl, rfl⟩
  · split
    · exact ⟨rfl, rfl, rfl, rfl, rfl, rfl⟩
    · split
      · split <;> exact ⟨rfl, rfl, rfl, rfl, rfl, rfl⟩
      · exact ⟨rfl, rfl, rfl, rfl, rfl, rfl⟩

theorem withdraw_line (l : Lif) (n : Byte) :
    (l.withdraw n).1.line = l.line ∧ (l.withdraw n).1.score = l.score ∧ (l.withdraw n).1.seq = l.seq ∧
      (l.withdraw n).1.joinEnd = l.joinEnd ∧ (l.withdraw n).1.beaconNext = l.beaconNext ∧
      (l.withdraw n).1.clashEnd = l.clashEnd := by
  unfold Lif.withdraw
  split
  · exact ⟨rfl, rfl, rfl, rfl, rfl, rfl⟩
  · split
    · split
      · split
        · exact ⟨rfl, rfl, rfl, rfl, rfl, rfl⟩
        · exact takeCurrent_line { l with current := none }
      · exact ⟨rfl, rfl, rfl, rfl, rfl, rfl⟩
    · exact ⟨rfl, rfl, rfl, rfl, rfl, rfl⟩

theorem aside_takeCurrent (s : State) : Aside s (s.withLif s.lif.takeCurrent) := by
  obtain ⟨h1, h2, h3, h4, h5, h6⟩ := takeCurrent_line s.lif
  exact aside_lif s _ h1 h2 h3 h4 h5 h6

theorem aside_withdraw (s : State) (n : Byte) : Aside s (s.withLif (s.lif.withdraw n).1) := by
  obtain ⟨h1, h2, h3, h4, h5, h6⟩ := withdraw_line s.lif n
  exact aside_lif s _ h1 h2 h3 h4 h5 h6

theorem aside_placed (s : State) (f : TxFrame) : Aside s (s.withLif (s.lif.place f).1.takeCurrent) := by
  obtain ⟨h1, h2, h3, h4, h5, h6⟩ := place_line s.lif f
  obtain ⟨k1, k2, k3, k4, k5, k6⟩ := takeCurrent_line (s.lif.place f).1
  exact aside_lif s _ (k1.trans h1) (k2.trans h2) (k3.trans h3) (k4.trans h4) (k5.trans h5) (k6.trans h6)

/-! ### Offers and the own claim -/

theorem aside_enterRetry (s : State) : Aside s s.enterRetry := by
  have h : ∀ c : Scu, c.entries = s.scu.entries → c.requestTime = s.scu.requestTime →
      c.blockedLongMark = s.scu.blockedLongMark → c.lastEntry = s.scu.lastEntry → ∀ e,
      Aside s (s.withScu { c with state := .retry, own := none, withdrawal := .none, windowEnd := none,
                                  guardEnd := none, retryEnd := e }) :=
    fun c h1 h2 h3 h4 e => aside_scu s _ h1 h2 h3 h4
  unfold State.enterRetry Scu.resumeBlocked
  split
  · exact h s.scu rfl rfl rfl rfl _
  · exact h { s.scu with blockedSince := some (s.now - s.scu.blockedHeld) } rfl rfl rfl rfl _

theorem aside_intentGone (s : State) (n : Byte) : Aside s (s.intentGone n) := by
  unfold State.intentGone
  split
  · exact aside_scu s _ rfl rfl rfl rfl
  · exact Aside.refl s

theorem aside_holdGone (s : State) (n : Byte) : Aside s (s.holdGone n) := by
  unfold State.holdGone
  split
  · exact aside_enterRetry s
  · exact Aside.refl s

theorem aside_reportDrop (s : State) (f : TxFrame) : Aside s (s.reportDrop f) := by
  cases f <;> first | exact Aside.refl s | exact aside_holdGone s _ | exact aside_intentGone s _ |
    exact aside_markEntry s _ | exact aside_markPickup s _

theorem aside_offerBase (s : State) (f : TxFrame) : Aside s (s.offerBase f) := by
  have h := aside_placed s f
  unfold State.offerBase
  split
  · rename_i l e; rw [e] at h; exact h
  · rename_i l g e; rw [e] at h; exact h.trans (aside_reportDrop _ g)

theorem aside_startClaim (s : State) (w : Span) : Aside s (s.startClaim w) :=
  (aside_scu s _ (by rfl) (by rfl) (by rfl) (by rfl)).trans (aside_offerBase _ _)

theorem aside_evalStart (s : State) : Aside s s.evalStart := by
  unfold State.evalStart
  split
  · split
    · exact aside_startClaim s _
    · exact Aside.refl s
  · exact Aside.refl s

theorem aside_offer (s : State) (f : TxFrame) : Aside s (s.offer f) := by
  unfold State.offer
  split
  · exact (aside_offerBase s f).trans (aside_evalStart _)
  · exact aside_offerBase s f

theorem aside_yieldClaim (s : State) : Aside s s.yieldClaim := (aside_offer s _).trans (aside_enterRetry _)

theorem aside_enterBlocked (s : State) (w : Span) : Aside s (s.enterBlocked w) :=
  (aside_scu s _ (by rfl) (by rfl) (by rfl) (by rfl)).trans (aside_evalStart _)

theorem stopBlocked_kept (c : Scu) (now : Nat) :
    (c.stopBlocked now).entries = c.entries ∧ (c.stopBlocked now).requestTime = c.requestTime ∧
      (c.stopBlocked now).blockedLongMark = c.blockedLongMark ∧ (c.stopBlocked now).lastEntry = c.lastEntry := by
  unfold Scu.stopBlocked
  split <;> exact ⟨rfl, rfl, rfl, rfl⟩

theorem aside_endClaim (s : State) : Aside s s.endClaim := by
  obtain ⟨h1, h2, h3, h4⟩ := stopBlocked_kept s.scu s.now
  unfold State.endClaim
  split
  · exact aside_scu s _ h1 h2 h3 h4
  · refine Aside.trans ?_ (aside_enterBlocked _ _)
    exact aside_scu s _ h1 h2 h3 h4

theorem aside_startRelease (s : State) : Aside s s.startRelease := by
  obtain ⟨h1, h2, h3, h4⟩ := stopBlocked_kept (s.offer (.free s.ownClaim)).scu (s.offer (.free s.ownClaim)).now
  exact (aside_offer s _).trans (aside_scu _ _ h1 h2 h3 h4)

theorem aside_releaseSpan (s : State) : Aside s s.releaseSpan := by
  unfold State.releaseSpan
  split <;> first | exact Aside.refl s | exact aside_startRelease s

theorem aside_awaitCancel (s : State) : Aside s s.awaitCancel := by
  obtain ⟨h1, h2, h3, h4⟩ := stopBlocked_kept s.scu s.now
  exact aside_scu s _ h1 h2 h3 h4

theorem aside_cancelClaim (s : State) : Aside s s.cancelClaim := by
  unfold State.cancelClaim
  split
  · exact Aside.refl s
  · exact aside_endClaim s
  · exact aside_endClaim s
  · split
    · exact aside_scu s _ rfl rfl rfl rfl
    · exact aside_awaitCancel s
    · have h := aside_withdraw s s.ownClaim
      split
      · rename_i l e; rw [e] at h; exact h.trans (aside_endClaim _)
      · rename_i l a _ e; rw [e] at h; exact h.trans (aside_awaitCancel _)
  · exact (aside_offer s _).trans (aside_endClaim _)
  · exact aside_startRelease s
  · exact aside_startRelease s
  · exact aside_startRelease s
  · exact aside_scu s _ rfl rfl rfl rfl

theorem aside_cancelUnheld (s : State) : Aside s s.cancelUnheld := by
  unfold State.cancelUnheld
  split
  · exact aside_cancelClaim s
  · exact Aside.refl s

theorem aside_giveBack (s : State) : Aside s s.giveBack := (aside_cancelUnheld s).trans (aside_releaseSpan _)

theorem aside_intentWithdrawn (s : State) : Aside s s.intentWithdrawn :=
  (aside_scu s _ (by rfl) (by rfl) (by rfl) (by rfl)).trans (aside_evalStart _)

theorem aside_withdrawIntent (s : State) : Aside s s.withdrawIntent := by
  unfold State.withdrawIntent
  split
  · have h := aside_withdraw s s.ownClaim
    split
    · rename_i l e; rw [e] at h; exact h.trans (aside_intentWithdrawn _)
    · rename_i l a _ e; rw [e] at h; exact h.trans (aside_scu _ _ rfl rfl rfl rfl)
  · exact Aside.refl s

theorem aside_meetIntent (s : State) (src : StationId) (a : Option Nat) : Aside s (s.meetIntent src a) := by
  unfold State.meetIntent
  split
  · exact aside_withdrawIntent s
  · split
    · split
      · exact aside_yieldClaim s
      · exact Aside.refl s
    · exact Aside.refl s
  · exact Aside.refl s

theorem aside_lineNotice (s : State) : Aside s s.lineNotice := (aside_takeCurrent s).trans (aside_evalStart _)

theorem aside_zincNotice (s : State) : Aside s s.zincNotice := by
  unfold State.zincNotice
  split
  · exact aside_evalStart s
  · exact aside_withdrawIntent s

theorem aside_placeFreed (s : State) : Aside s s.placeFreed := by
  have h : ∀ t, Aside s t → Aside s t.evalStart := fun t h => h.trans (aside_evalStart t)
  unfold State.placeFreed
  apply h
  split
  · split
    · exact Aside.refl s
    · exact aside_offer s _
  · exact Aside.refl s

/-! ### A claim that offers leave as it is -/

/-- A claim state that no drop and no evaluation moves. -/
def ClaimState.isStill (c : ClaimState) : Bool :=
  match c with
  | .blocked => false
  | .pending => false
  | .claimingHoldQueued => false
  | _ => true

theorem reportDrop_scu (s : State) (f : TxFrame) (h : s.scu.state.isStill = true) :
    (s.reportDrop f).scu = s.scu := by
  cases f <;> try rfl
  · show (s.holdGone _).scu = _
    unfold State.holdGone
    split
    · rename_i e; rw [e.1] at h; cases h
    · rfl
  · show (s.intentGone _).scu = _
    unfold State.intentGone
    split
    · rename_i e; rw [e.1] at h; cases h
    · rfl

theorem offerBase_scu (s : State) (f : TxFrame) (h : s.scu.state.isStill = true) : (s.offerBase f).scu = s.scu := by
  unfold State.offerBase
  split
  · rfl
  · exact reportDrop_scu _ _ h

theorem evalStart_still (s : State) (h : s.scu.state.isStill = true) : s.evalStart = s := by
  unfold State.evalStart
  split
  · rename_i e _; rw [e] at h; cases h
  · rfl

/-- An offer in a state that no drop moves leaves the claim as it was. -/
theorem offer_scu (s : State) (f : TxFrame) (h : s.scu.state.isStill = true) : (s.offer f).scu = s.scu := by
  unfold State.offer
  have h1 := offerBase_scu s f h
  split
  · rw [evalStart_still]
    · exact h1
    · rw [h1]; exact h
  · exact h1

end Sys2Proof.Machine
end

