-- ==== Sys2Proof/Laws/Calm.lean ====
section
/-! SUPPORT. `Calm s t`: a move of any block within one command that writes neither the peer table nor the peer entries of
the span table. It leaves the queue of commands, the draw counter, the commissioning store and the programs, it never sets
the time base back, it clears no event flag, and it keeps the invariants of the stores. One lemma per shared operation of
DSQ and of the commands of the line, the timers, the drive and the converter. -/

namespace Sys2Proof.Machine

/-- What such a move leaves and keeps. -/
structure Calm (s t : State) : Prop where
  pending : t.pending = s.pending
  draws : t.draws = s.draws
  cfg : t.cfg = s.cfg
  pgs : t.pgs = s.pgs
  now : s.now ≤ t.now
  ptb : t.ptb = s.ptb
  entries : t.scu.entries = s.scu.entries
  events : EventsGrow s.spt t.spt
  stores : StoresOk s → StoresOk t

theorem Calm.refl (s : State) : Calm s s := ⟨rfl, rfl, rfl, rfl, le_refl _, rfl, rfl, EventsGrow.refl _, id⟩

theorem Calm.trans {s t u : State} (h : Calm s t) (k : Calm t u) : Calm s u :=
  ⟨k.pending.trans h.pending, k.draws.trans h.draws, k.cfg.trans h.cfg, k.pgs.trans h.pgs, h.now.trans k.now, k.ptb.trans h.ptb,
    k.entries.trans h.entries,
    h.events.trans k.events, fun o => k.stores (h.stores o)⟩

theorem Quiet.calm {s t : State} (h : Quiet s t) : Calm s t :=
  ⟨h.pending, h.draws, h.cfg, h.pgs, le_of_eq h.now.symm, h.ptb, h.entries, h.events, h.stores⟩

/-! ### Block updates -/

theorem calm_dsq (s : State) (x : Dsq) : Calm s (s.withDsq x) :=
  ⟨rfl, rfl, rfl, rfl, le_refl _, rfl, rfl, EventsGrow.refl _, fun o => ⟨o.window, o.queue, o.ring, o.lots, o.balance⟩⟩

theorem calm_mpt (s : State) (x : Mpt) : Calm s (s.withMpt x) :=
  ⟨rfl, rfl, rfl, rfl, le_refl _, rfl, rfl, EventsGrow.refl _, fun o => ⟨o.window, o.queue, o.ring, o.lots, o.balance⟩⟩

theorem calm_wch (s : State) (x : Wch) : Calm s (s.withWch x) :=
  ⟨rfl, rfl, rfl, rfl, le_refl _, rfl, rfl, EventsGrow.refl _, fun o => ⟨o.window, o.queue, o.ring, o.lots, o.balance⟩⟩

theorem calm_scu (s : State) (x : Scu) (h : x.entries = s.scu.entries) : Calm s (s.withScu x) :=
  (quiet_scu s x h).calm

theorem calm_raise (s : State) (e : Event) : Calm s (s.raise e) := (quiet_raise s e).calm

theorem calm_reach (s : State) (t : Nat) : Calm s (s.reach t) :=
  ⟨rfl, rfl, rfl, rfl, Nat.le_max_left _ _, rfl, rfl, EventsGrow.refl _, fun o => ⟨o.window, o.queue, o.ring, o.lots, o.balance⟩⟩

/-! ### Dip sequencer -/

theorem calm_toDsq (s : State) (d : DsqState) : Calm s (s.toDsq d) := calm_dsq s _

theorem calm_modCtx (s : State) (f : DipCtx → DipCtx) : Calm s (s.modCtx f) := calm_dsq s _

theorem calm_setPosition (s : State) (p : Position) : Calm s (s.setPosition p) := calm_dsq s _

theorem calm_startImmersion (s : State) : Calm s s.startImmersion := calm_dsq s _

theorem calm_stopImmersion (s : State) : Calm s s.stopImmersion := by
  unfold State.stopImmersion; split
  · exact (calm_modCtx s _).trans (calm_dsq _ _)
  · exact Calm.refl s

theorem calm_endWeighTask (s : State) : Calm s s.endWeighTask := by
  unfold State.endWeighTask; split
  · exact (calm_wch s _).trans (calm_modCtx _ _)
  · exact calm_wch s _

theorem calm_stopDwell (s : State) : Calm s s.stopDwell := calm_dsq s _

theorem calm_returnIdle (s : State) : Calm s s.returnIdle :=
  ((calm_dsq s _).trans (calm_scu _ _ (by rfl))).trans (quiet_pku _ _ (clearUse_keeps _)).calm

theorem calm_cancelUnheld (s : State) : Calm s s.cancelUnheld := by
  unfold State.cancelUnheld; split
  · exact (quiet_cancelClaim s).calm
  · exact Calm.refl s

theorem calm_haltDip (s : State) (f : DipFault) : Calm s (s.haltDip f) := by
  have key : ∀ (a : State), Calm s a → ∀ (p : Position),
      Calm s (((((((a.stopImmersion.stopDwell).withDsq { (a.stopImmersion.stopDwell).dsq with
        drainEnd := none }).endWeighTask).withdrawHeat.cancelUnheld).setPosition p).toDsq .halted).raise f.event |>.raise
          .haltedEv) := by
    intro a h p
    refine Calm.trans (Calm.trans (Calm.trans (Calm.trans ?_ (calm_setPosition _ p)) (calm_toDsq _ _)) (calm_raise _ _))
      (calm_raise _ _)
    exact (((((h.trans (calm_stopImmersion a)).trans (calm_stopDwell _)).trans (calm_dsq _ _)).trans
      (calm_endWeighTask _)).trans (quiet_withdrawHeat _).calm).trans (calm_cancelUnheld _)
  exact key _ (calm_dsq s { s.dsq with cause := s.dsq.ctx.map (fun c => ⟨f, c.slot, c.index⟩) }) _

theorem calm_sendMotion (s : State) (r : MotionRequest) : Calm s (s.sendMotion r) := calm_mpt s _

theorem calm_takeGrant (s : State) (p : LowerArgs) (b : Bool) : Calm s (s.takeGrant p b) := by
  have key : ∀ a : State, Calm s a →
      Calm s (if a.firmAndClear then (a.sendMotion (.lower p.depth p.speed)).toDsq .lowering
        else a.toDsq (.awaitLower p)) := by
    intro a h
    split
    · exact (h.trans (calm_sendMotion _ _)).trans (calm_toDsq _ _)
    · exact h.trans (calm_toDsq _ _)
  refine key _ ?_
  split
  · exact calm_modCtx s _
  · exact Calm.refl s

theorem calm_askHeat (s : State) (p : LowerArgs) : Calm s (s.askHeat p) := by
  unfold State.askHeat
  split
  · exact Calm.refl s
  · rename_i c _
    have h := (quiet_requestHeat s (enteringMass c.dry c.nominal p.fraction) (if c.immersions = 0 then 1 else 2)).calm
    split
    · rename_i t ht; rw [ht] at h; exact h.trans (calm_takeGrant t p false)
    · rename_i t ht; rw [ht] at h; exact h.trans (calm_takeGrant t p true)
    · rename_i t ht; rw [ht] at h; exact h.trans (calm_toDsq t _)
    · rename_i t ht; rw [ht] at h; exact h

theorem calm_tryLower (s : State) (p : LowerArgs) : Calm s (s.tryLower p) := by
  unfold State.tryLower; split
  · exact calm_askHeat s p
  · exact calm_toDsq s _

theorem calm_takeEnd (s : State) : Calm s s.takeEnd := by
  have key : ∀ a : State, Calm s a →
      Calm s (if a.scu.state.isHeld then ((a.createRecord .complete).toDsq .parked).raise .parkedEv
        else (a.createRecord .complete).returnIdle.raise .dipDone) := by
    intro a h
    split
    · exact ((h.trans (quiet_createRecord a _).calm).trans (calm_toDsq _ _)).trans (calm_raise _ _)
    · exact ((h.trans (quiet_createRecord a _).calm).trans (calm_returnIdle _)).trans (calm_raise _ _)
  refine key _ ?_
  split
  · exact (calm_stopImmersion s).trans (quiet_cancelClaim _).calm
  · exact calm_stopImmersion s

theorem calm_takeRelease (s : State) : Calm s s.takeRelease.1 := by
  unfold State.takeRelease
  split
  · exact (quiet_releaseSpan s).calm.trans (calm_toDsq _ _)
  · split
    · split
      · exact (quiet_cancelClaim s).calm
      · exact (quiet_cancelClaim s).calm.trans (calm_toDsq _ .awaitRelease)
    · exact calm_setPosition s .clear

theorem calm_takeClaim (s : State) (n : Nat) (w : Bool) : Calm s (s.takeClaim n w) := by
  have h := (quiet_requestSpan s n w).calm
  unfold State.takeClaim
  split
  · rename_i t ht; rw [ht] at h; exact h.trans (calm_haltDip t _)
  · rename_i t ht; rw [ht] at h; exact h.trans (calm_haltDip t _)
  · rename_i t ht; rw [ht] at h; exact (h.trans (calm_modCtx t _)).trans (calm_toDsq _ _)

theorem calm_takeStep (s : State) (st : DipStep) : Calm s (s.takeStep st).1 := by
  cases st <;> simp only [State.takeStep]
  case weighDry t => exact (calm_wch s _).trans (calm_toDsq _ .weighingDry)
  case travel c =>
    split
    · exact calm_haltDip s _
    · exact (calm_sendMotion s _).trans (calm_toDsq _ .traveling)
  case claim l w => exact calm_takeClaim s l w
  case lower d v f =>
    split
    · exact calm_haltDip s _
    · exact calm_tryLower s _
  case dwell d => exact calm_dsq s _
  case raise v => exact ((calm_stopImmersion s).trans (calm_sendMotion _ _)).trans (calm_toDsq _ .raising)
  case drain mn mx h l q => exact (calm_wch s _).trans (calm_toDsq _ .draining)
  case vibrate n => exact (calm_sendMotion s _).trans (calm_toDsq _ .vibrating)
  case weighOut t => exact (calm_wch s _).trans (calm_toDsq _ .weighingOut)
  case release =>
    split
    · exact calm_haltDip s _
    · exact calm_takeRelease s
  case finish => exact calm_takeEnd s
  case chain t =>
    split
    · exact calm_haltDip s _
    · exact calm_modCtx s _

theorem calm_runSteps (n : Nat) (s : State) : Calm s (State.runSteps n s) := by
  induction n generalizing s with
  | zero => exact Calm.refl s
  | succ n ih =>
    unfold State.runSteps
    split
    · exact Calm.refl s
    · rename_i st _
      have h := calm_takeStep s st
      split
      · rename_i t ht; rw [ht] at h; exact h
      · rename_i t ht; rw [ht] at h; exact (h.trans (calm_modCtx t _)).trans (ih _)
      · rename_i t ht; rw [ht] at h; exact h.trans (ih _)

theorem calm_endStep (s : State) : Calm s s.endStep := (calm_modCtx s _).trans (calm_runSteps _ _)

theorem calm_startDip (s : State) (slot tag m : Nat) (p : Program) : Calm s (s.startDip slot tag m p) := by
  unfold State.startDip
  have h1 := (quiet_zbr_same s { s.zbr with serial := s.zbr.serial + 1 } id rfl).calm
  exact ((((h1.trans (calm_scu _ _ (by rfl))).trans (quiet_pku _ _ (useLot_keeps _ _ _)).calm).trans (calm_dsq _ _)).trans
    (calm_runSteps _ _))

theorem calm_endAbortAtRelease (s : State) : Calm s s.endAbortAtRelease :=
  (quiet_createRecord s _).calm.trans (calm_returnIdle _)

theorem calm_onNotice (s : State) (n : SpanNotice) : Calm s (s.onNotice n) := by
  cases n <;> simp only [State.onNotice]
  case firm =>
    split
    · exact calm_endStep s
    · exact calm_tryLower s _
    · exact Calm.refl s
  case lost =>
    split
    · exact (quiet_withdrawHeat s).calm.trans (calm_toDsq _ _)
    · exact (quiet_cancelClaim s).calm
    · exact (quiet_cancelClaim s).calm
    · exact Calm.refl s
  case gone =>
    split
    · split
      · exact (calm_setPosition s _).trans (calm_endAbortAtRelease _)
      · exact (calm_setPosition s _).trans (calm_endStep _)
    · exact calm_setPosition s _
  case ended =>
    split
    · exact calm_endStep s
    · exact Calm.refl s
  case clearChanged b =>
    split
    · exact calm_tryLower s _
    · split
      · exact (quiet_withdrawHeat s).calm.trans (calm_toDsq _ _)
      · exact Calm.refl s
    · exact Calm.refl s

theorem calm_onNotices (s : State) (ns : List SpanNotice) : Calm s (s.onNotices ns) := by
  induction ns generalizing s with
  | nil => exact Calm.refl s
  | cons n rest ih => exact (calm_onNotice s n).trans (ih _)

/-- A taking of SCU with its notices. -/
theorem calm_notify (s : State) (r : State × List SpanNotice) (h : Quiet s r.1) : Calm s (notify r) :=
  h.calm.trans (calm_onNotices _ _)

/-! ### Aborts -/

theorem calm_completeQuick (s : State) : Calm s s.completeQuick :=
  (quiet_createRecord s _).calm.trans (calm_returnIdle _)

theorem calm_abortWeigh (s : State) : Calm s s.abortWeigh := (calm_wch s _).trans (calm_toDsq _ _)

theorem calm_startAbortDrain (s : State) : Calm s s.startAbortDrain := by
  unfold State.startAbortDrain; split
  · exact calm_abortWeigh s
  · exact calm_dsq s _

theorem calm_continueAbort (s : State) : Calm s s.continueAbort := by
  unfold State.continueAbort; split
  · exact ((calm_stopImmersion s).trans (calm_sendMotion _ _)).trans (calm_toDsq _ _)
  · exact calm_startAbortDrain s

theorem calm_stopAccepted (s : State) : Calm s s.stopAccepted := by
  unfold State.stopAccepted
  split
  · exact calm_completeQuick s
  · refine Calm.trans ?_ (calm_continueAbort _)
    split
    · exact calm_startImmersion s
    · exact Calm.refl s
  · exact Calm.refl s

theorem calm_stopMotion (s : State) (p : AbortPhase) : Calm s (s.stopMotion p) := by
  have h : Calm s ((s.withMpt s.mpt.stop).toDsq (.aborting p)) := (calm_mpt s _).trans (calm_toDsq _ _)
  unfold State.stopMotion
  simp only []
  split
  · exact h.trans (calm_stopAccepted _)
  · exact h

theorem calm_giveBack (s : State) : Calm s s.giveBack :=
  (calm_cancelUnheld s).trans (quiet_releaseSpan _).calm

theorem calm_quickAbort (s : State) : Calm s s.quickAbort := by
  have h : Calm s s.withdrawHeat.endWeighTask.stopDwell.giveBack :=
    (((quiet_withdrawHeat s).calm.trans (calm_endWeighTask _)).trans (calm_stopDwell _)).trans (calm_giveBack _)
  unfold State.quickAbort
  simp only []
  split
  · exact h.trans (calm_stopMotion _ _)
  · exact h.trans (calm_completeQuick _)

theorem calm_abortPath (s : State) : Calm s s.abortPath := by
  unfold State.abortPath
  split
  · have h : Calm s (if s.mpt.lowerUnaccepted then s.modCtx DipCtx.countImmersion else s) := by
      split
      · exact calm_modCtx s _
      · exact Calm.refl s
    exact (h.trans (calm_setPosition _ _)).trans (calm_stopMotion _ _)
  · exact (calm_stopDwell s).trans (calm_continueAbort _)
  · exact calm_toDsq s _
  · exact ((calm_endWeighTask s).trans (calm_modCtx _ _)).trans (calm_continueAbort _)
  · exact calm_stopMotion s _
  · exact calm_stopMotion s _
  · exact (calm_endWeighTask s).trans (calm_continueAbort _)
  · exact (calm_endWeighTask s).trans (calm_continueAbort _)
  · exact (quiet_withdrawHeat s).calm.trans (calm_continueAbort _)

/-! ### Notices of MPT and WCH -/

theorem calm_motionAccepted (s : State) (k : MotionKind) : Calm s (s.motionAccepted k) := by
  unfold State.motionAccepted; split
  · exact (calm_setPosition s _).trans (calm_modCtx _ _)
  · exact Calm.refl s

theorem calm_raised (s : State) : Calm s s.raised := by
  unfold State.raised; split
  · exact calm_setPosition s _
  · exact Calm.refl s

theorem calm_motionCompleted (s : State) : Calm s s.motionCompleted := by
  unfold State.motionCompleted
  split
  · exact calm_endStep s
  · exact (calm_startImmersion s).trans (calm_endStep _)
  · exact (calm_raised s).trans (calm_endStep _)
  · exact calm_endStep s
  · exact (calm_raised s).trans (calm_startAbortDrain _)
  · exact Calm.refl s

theorem calm_motionFaulted (s : State) (r : MotionReason) (k : MotionKind) (b : Bool) :
    Calm s (s.motionFaulted r k b) := (calm_mpt s _).trans (calm_haltDip _ _)

theorem calm_onWeighResult (s : State) (r : WeighResult) : Calm s (s.onWeighResult r) := by
  unfold State.onWeighResult
  split
  · exact (calm_modCtx s _).trans (calm_endStep _)
  · exact (calm_modCtx s _).trans (calm_endStep _)
  · exact (calm_modCtx s _).trans (calm_endStep _)
  · exact (((calm_modCtx s _).trans (quiet_createRecord _ _).calm).trans (calm_toDsq _ _)).trans (calm_raise _ _)
  · exact Calm.refl s

theorem calm_noteWeighLost (s : State) : Calm s s.noteWeighLost := by
  unfold State.noteWeighLost; split
  · exact Calm.refl s
  · exact calm_modCtx s _

/-! ### Peers and the line -/

/-- The line moves from a state other than OFF. -/
theorem calm_toLine (s : State) (l : LineState) (h : s.lif.line ≠ .off) : Calm s (s.toLine l) :=
  (quiet_lif s { s.lif with line := l } (LifKeeps.of_line rfl rfl h)).calm.trans (quiet_lineNotice _).calm

theorem calm_evalHealth (s : State) : Calm s s.evalHealth := by
  unfold State.evalHealth
  split
  · rename_i h
    split
    · exact (calm_toLine s _ (by rw [h]; decide)).trans (calm_raise _ _)
    · exact Calm.refl s
  · rename_i h
    split
    · exact (calm_toLine s _ (by rw [h]; decide)).trans (calm_raise _ _)
    · exact Calm.refl s
  · exact Calm.refl s

theorem calm_discardFrame (s : State) : Calm s s.discardFrame :=
  (quiet_lif s s.lif.scoreUp (LifKeeps.of_same rfl rfl rfl)).calm.trans (calm_evalHealth _)

theorem calm_countGood (s : State) : Calm s s.countGood :=
  (quiet_lif s s.lif.scoreDown (LifKeeps.of_same rfl rfl rfl)).calm.trans (calm_evalHealth _)

theorem calm_clash (s : State) : Calm s s.clash :=
  ((quiet_lif s { s.lif with clashEnd := some (s.now + 10 * s.cfg.params.beaconPeriod) }
    (LifKeeps.of_same rfl rfl rfl)).calm.trans (calm_raise _ _)).trans (quiet_evalStart _).calm

/-- A line that is not OFF is not OFF after the health score is evaluated. -/
theorem evalStart_line (s : State) : s.evalStart.lif.line = s.lif.line := by
  have hb : ∀ (t : State) (f : TxFrame), (t.offerBase f).lif.line = t.lif.line := by
    intro t f
    have hp : (t.lif.place f).1.line = t.lif.line := by
      unfold Lif.place
      split
      · rfl
      · split
        · rfl
        · split
          · split <;> rfl
          · rfl
    have hc : ∀ l : Lif, l.takeCurrent.line = l.line := by
      intro l
      unfold Lif.takeCurrent
      split
      · rfl
      · split
        · rfl
        · split <;> rfl
    have hr : ∀ (u : State) (g : TxFrame), (u.reportDrop g).lif = u.lif := by
      intro u g
      cases g <;> simp only [State.reportDrop, State.holdGone, State.intentGone, State.markEntry, State.markPickup]
      · split <;> rfl
      · split <;> rfl
      · rfl
      · rfl
    unfold State.offerBase
    generalize t.lif.place f = r at hp
    obtain ⟨l, o⟩ := r
    cases o with
    | none => simp only [State.withLif_lif, hc]; exact hp
    | some g => simp only [hr, State.withLif_lif, hc]; exact hp
  unfold State.evalStart
  split
  · split
    · unfold State.startClaim
      rw [hb]; rfl
    · rfl
  · rfl

theorem calm_heardIngot (s : State) (src : StationId) (m : Nat) (h : s.lif.line ≠ .off) :
    Calm s (s.heardIngot src m) := by
  have h1 : Calm s (s.withZbr { s.zbr with lastIngot := some ⟨src, m⟩ }) := by
    apply Quiet.calm
    apply quiet_zbr_same
    · exact id
    · rfl
  have h2 : ((s.withZbr { s.zbr with lastIngot := some ⟨src, m⟩ }).raise .ingotHeard).lif.line ≠ .off := h
  exact (h1.trans (calm_raise _ _)).trans (quiet_addZinc _ m (.inr h2)).calm

/-! ### Sending -/

theorem calm_toPhase (s : State) (c : Current) (p : TxPhase) (h : s.lif.current = some c) :
    Calm s (s.toPhase c p) := by
  apply Quiet.calm
  apply quiet_lif
  exact sameFrame_keeps s.lif c _ h rfl

theorem calm_removeCurrent (s : State) : Calm s s.removeCurrent := (quiet_lif s _ (dropCurrent_keeps _)).calm

/-- The line of a station that has a current frame enters FAULT. -/
theorem fault_keeps (l : Lif) (c : Current) (x : LineState) (h : l.current = some c) :
    LifKeeps l { l with current := none, line := x } := by
  refine ⟨fun q => ?_, fun _ n => by rw [h] at n; cases n⟩
  have := (dropFrame_keeps l).1 q
  unfold QueueOk Lif.places Lif.beacons at *
  exact this

theorem calm_discardCurrent (s : State) (c : Current) (h : s.lif.current = some c) : Calm s (s.discardCurrent c) := by
  unfold State.discardCurrent State.enterFault
  have h1 : Calm s ((s.withLif { s.lif with current := none }).withLif
      { (s.withLif { s.lif with current := none }).lif with line := .fault }) :=
    (quiet_lif s { s.lif with current := none, line := .fault } (fault_keeps s.lif c _ h)).calm
  refine Calm.trans (Calm.trans (Calm.trans (h1.trans ?_) (quiet_reportDiscard _ _).calm)
    (quiet_lif _ _ (takeCurrent_keeps _)).calm) (quiet_placeFreed _).calm
  exact (calm_raise _ _).trans (quiet_evalStart _).calm

theorem calm_failAttempt (s : State) (c : Current) (h : s.lif.current = some c) : Calm s (s.failAttempt c) := by
  unfold State.failAttempt
  split
  · exact (calm_removeCurrent s).trans (quiet_placeFreed _).calm
  · split
    · exact ((calm_removeCurrent s).trans (calm_notify _ _ (quiet_withdrawalSucceeds _))).trans (quiet_placeFreed _).calm
    · split
      · apply Quiet.calm
        apply quiet_lif
        exact sameFrame_keeps s.lif c _ h rfl
      · exact calm_discardCurrent s c h

theorem calm_frameSent (s : State) (c : Current) (h : s.lif.current = some c) : Calm s (s.frameSent c) := by
  have h1 : Calm s ((s.withLif { s.lif with current := none, seq := s.lif.seq + 1 }).endFault) := by
    unfold State.endFault
    split
    · have h2 : Calm s ((s.withLif { s.lif with current := none, seq := s.lif.seq + 1 }).withLif
          { (s.withLif { s.lif with current := none, seq := s.lif.seq + 1 }).lif with
            line := (s.withLif { s.lif with current := none, seq := s.lif.seq + 1 }).lif.afterFault }) := by
        refine (quiet_lif s { s.lif with current := none, seq := s.lif.seq + 1, line := _ } ?_).calm
        exact (fault_keeps s.lif c _ h).trans (LifKeeps.of_same rfl rfl rfl)
      refine Calm.trans ?_ (quiet_evalStart _).calm
      split
      · exact (h2.trans (calm_raise _ _)).trans (calm_raise _ _)
      · exact h2.trans (calm_raise _ _)
    · apply Quiet.calm
      apply quiet_lif
      exact (dropFrame_keeps s.lif).trans (LifKeeps.of_same rfl rfl rfl)
  unfold State.frameSent
  exact ((h1.trans (calm_notify _ _ (quiet_sendCompletion _ _))).trans
    (quiet_lif _ _ (takeCurrent_keeps _)).calm).trans (quiet_placeFreed _).calm

/-! ### Timers, the drive and the converter -/

theorem calm_beaconDue (s : State) : Calm s s.beaconDue :=
  (quiet_lif s { s.lif with beaconNext := s.lif.beaconNext.map (· + s.cfg.params.beaconPeriod) }
    (LifKeeps.of_same rfl rfl rfl)).calm.trans (quiet_offer _ _).calm

theorem calm_joinOver (s : State) : Calm s s.joinOver := by
  have h1 : Calm s (s.withLif { s.lif with joinEnd := none }) := by
    apply Quiet.calm
    apply quiet_lif
    exact LifKeeps.of_same rfl rfl rfl
  unfold State.joinOver
  simp only []
  split
  · rename_i h
    have hl : (s.withLif { s.lif with joinEnd := none }).lif.line ≠ .off := by
      simp only [State.withLif_lif, h]; decide
    split
    · exact (h1.trans (calm_toLine _ _ hl)).trans (calm_raise _ _)
    · exact h1.trans (calm_toLine _ _ hl)
  · exact h1

theorem calm_windowOver (s : State) : Calm s s.windowOver := by
  unfold State.windowOver
  simp only []
  split
  · exact ((calm_scu s _ (by rfl)).trans (calm_scu _ _ (by rfl))).trans (quiet_offer _ _).calm
  · exact calm_scu s _ (by rfl)

theorem calm_guardOver (s : State) : Calm s s.guardOver := by
  unfold State.guardOver
  simp only []
  split
  · exact ((calm_scu s _ (by rfl)).trans (calm_scu _ _ (by rfl))).trans (calm_onNotice _ _)
  · exact calm_scu s _ (by rfl)

theorem calm_retryOver (s : State) : Calm s s.retryOver := by
  unfold State.retryOver
  simp only []
  split
  · exact ((calm_scu s _ (by rfl)).trans (calm_scu _ _ (by rfl))).trans (quiet_evalStart _).calm
  · exact calm_scu s _ (by rfl)

theorem calm_takeAdmission (s : State) (b : Bool) : Calm s (s.takeAdmission b) := by
  unfold State.takeAdmission; split
  · exact calm_takeGrant s _ b
  · exact Calm.refl s

theorem calm_entryOver (s : State) (i : Nat) : Calm s (s.entryOver i) := by
  have h : Calm s (s.withHwn (s.hwn.removeAt i)).retryHeat.1 := (quiet_removeAt s i).calm.trans (quiet_retryHeat _).calm
  unfold State.entryOver
  split
  · rename_i t b ht; rw [ht] at h; exact h.trans (calm_takeAdmission t b)
  · rename_i t ht; rw [ht] at h; exact h

theorem calm_abortDrainOver (s : State) : Calm s s.abortDrainOver :=
  ((calm_dsq s _).trans (calm_modCtx _ _)).trans (calm_abortWeigh _)

theorem calm_requestFault (s : State) (r : MotionRequest) (x : MotionReason) (b : Bool) :
    Calm s (s.requestFault r x b) := (calm_mpt s _).trans (calm_motionFaulted _ _ _ _)

theorem calm_stopFault (s : State) (x : MotionReason) : Calm s (s.stopFault x) := calm_motionFaulted s _ _ _

theorem calm_takeStop (s : State) : Calm s s.takeStop := (calm_mpt s _).trans (calm_stopAccepted _)

theorem calm_takeAccept (s : State) (r : MotionRequest) : Calm s (s.takeAccept r) :=
  (calm_mpt s _).trans (calm_motionAccepted _ _)

theorem calm_completeRequest (s : State) (r : MotionRequest) (b : Bool) : Calm s (s.completeRequest r b) := by
  unfold State.completeRequest
  refine Calm.trans ?_ (calm_motionCompleted _)
  split
  · exact calm_mpt s _
  · exact (calm_mpt s _).trans (calm_motionAccepted _ _)

theorem calm_takeDone (s : State) (r : MotionRequest) (b : Bool) (cell : Byte) : Calm s (s.takeDone r b cell) := by
  unfold State.takeDone
  split
  · split
    · exact (calm_mpt s _).trans (calm_completeRequest _ _ _)
    · exact calm_requestFault s _ _ _
  · exact calm_completeRequest s _ _

theorem calm_raiseOpt (s : State) (e : Option Event) : Calm s (s.raiseOpt e) := by
  cases e with
  | none => exact Calm.refl s
  | some e => exact calm_raise s e

theorem calm_takeEffect (s : State) (e : SampleEffect) : Calm s (s.takeEffect e) := by
  unfold State.takeEffect State.resultNotice State.channelNotice
  have h1 := (calm_wch s e.wch).trans (calm_raiseOpt _ e.event)
  have h2 : Calm s (match e.event with
      | some .weighLost => ((s.withWch e.wch).raiseOpt e.event).noteWeighLost
      | _ => (s.withWch e.wch).raiseOpt e.event) := by
    split
    · exact h1.trans (calm_noteWeighLost _)
    · exact h1
  split
  · exact h2.trans (calm_onWeighResult _ _)
  · exact h2

theorem calm_finishTask (s : State) (r : WeighResult) : Calm s (s.finishTask r) :=
  ((calm_wch s _).trans (calm_raiseOpt _ _)).trans (calm_onWeighResult _ _)

theorem calm_minimumReached (s : State) (t : DrainTask) : Calm s (s.minimumReached t) := by
  unfold State.minimumReached; split
  · exact calm_finishTask s _
  · exact calm_wch s _

theorem calm_maximumReached (s : State) (t : DrainTask) : Calm s (s.maximumReached t) := calm_finishTask s _

end Sys2Proof.Machine
end

