-- ==== Sys2Proof/Laws/Kept.lean ====
section
/-! SUPPORT. `Kept s t`: a move of any block within one command, the peers and the span table among them. It leaves the
queue of commands, the draw counter, the commissioning store and the programs, it never sets the time base back, it clears
no event flag, and it keeps the invariants of the stores. -/

namespace Sys2Proof.Machine

/-- What such a move leaves and keeps. -/
structure Kept (s t : State) : Prop where
  pending : t.pending = s.pending
  draws : t.draws = s.draws
  cfg : t.cfg = s.cfg
  pgs : t.pgs = s.pgs
  now : s.now ≤ t.now
  events : EventsGrow s.spt t.spt
  stores : StoresOk s → StoresOk t

theorem Kept.refl (s : State) : Kept s s := ⟨rfl, rfl, rfl, rfl, le_refl _, EventsGrow.refl _, id⟩

theorem Kept.trans {s t u : State} (h : Kept s t) (k : Kept t u) : Kept s u :=
  ⟨k.pending.trans h.pending, k.draws.trans h.draws, k.cfg.trans h.cfg, k.pgs.trans h.pgs, h.now.trans k.now,
    h.events.trans k.events, fun o => k.stores (h.stores o)⟩

theorem Calm.kept {s t : State} (h : Calm s t) : Kept s t :=
  ⟨h.pending, h.draws, h.cfg, h.pgs, h.now, h.events, h.stores⟩

theorem Quiet.kept {s t : State} (h : Quiet s t) : Kept s t := h.calm.kept

theorem kept_scu (s : State) (x : Scu) : Kept s (s.withScu x) :=
  ⟨rfl, rfl, rfl, rfl, le_refl _, EventsGrow.refl _, fun o => ⟨o.window, o.queue, o.ring, o.lots, o.balance⟩⟩

theorem kept_ptb (s : State) (x : Ptb) : Kept s (s.withPtb x) :=
  ⟨rfl, rfl, rfl, rfl, le_refl _, EventsGrow.refl _, fun o => ⟨o.window, o.queue, o.ring, o.lots, o.balance⟩⟩

/-! ### The span table -/

theorem kept_putEntry (s : State) (e : PeerEntry) : Kept s (s.putEntry e) := kept_scu s _

theorem kept_removeEntry (s : State) (h : StationId) : Kept s (s.removeEntry h) := kept_scu s _

theorem kept_scuIntent (s : State) (src : StationId) (i : ClaimInfo) : Kept s (s.scuIntent src i).1 := by
  have key : ∀ t, Kept s t →
      Kept s (if t.scu.meets i.span then t.meetIntent src (some i.age) else t).evalStart := by
    intro t h
    refine Kept.trans ?_ (quiet_evalStart _).kept
    split
    · exact h.trans (quiet_meetIntent _ _ _).kept
    · exact h
  exact key _ (kept_putEntry s _)

theorem kept_scuHold (s : State) (src : StationId) (i : ClaimInfo) : Kept s (s.scuHold src i).1 := by
  have key : ∀ t, Kept s t →
      Kept s (if t.scu.meets i.span then t.meetHeld src else (t, [])).1.evalStart := by
    intro t h
    refine Kept.trans ?_ (quiet_evalStart _).kept
    split
    · exact h.trans (quiet_meetHeld _ _).kept
    · exact h
  exact key _ (kept_putEntry s _)

theorem kept_entryLeaves (s : State) (h : StationId) : Kept s (s.entryLeaves h).1 :=
  (kept_removeEntry s h).trans (quiet_evalStart _).kept

theorem kept_scuFree (s : State) (src : StationId) (n : Byte) : Kept s (s.scuFree src n).1 := by
  unfold State.scuFree
  split
  · exact Kept.refl s
  · split
    · exact kept_entryLeaves s src
    · exact Kept.refl s

theorem kept_scuBeacon (s : State) (src : StationId) (b : BeaconInfo) : Kept s (s.scuBeacon src b).1 := by
  have key : ∀ (t : State) (p q : Bool), Kept s t →
      Kept s (if p then t.meetHeld src else if q then (t.meetIntent src none, []) else (t, [])).1.evalStart := by
    intro t p q h
    refine Kept.trans ?_ (quiet_evalStart _).kept
    split
    · exact h.trans (quiet_meetHeld _ _).kept
    · split
      · exact h.trans (quiet_meetIntent t src none).kept
      · exact h
  refine key _ _ _ ?_
  split
  · exact kept_putEntry s _
  · exact kept_removeEntry s _

theorem kept_scuSilence (s : State) (h : StationId) : Kept s (s.scuSilence h) :=
  (kept_scu s _).trans (quiet_evalStart _).kept


/-- A taking of SCU with its notices. -/
theorem kept_notify (s : State) (r : State × List SpanNotice) (h : Kept s r.1) : Kept s (notify r) :=
  h.trans (calm_onNotices _ _).kept

/-! ### Peers and frames -/

theorem kept_hearPeer (s : State) (src : StationId) (seq : Byte) (c : Option Condition) :
    Kept s (s.hearPeer src seq c) := by
  unfold State.hearPeer
  split
  · exact kept_ptb s _
  · split
    · exact kept_ptb s _
    · exact (kept_ptb s _).trans (calm_raise _ _).kept

theorem kept_losePeer (s : State) (p : Peer) : Kept s (s.losePeer p) :=
  ((kept_ptb s _).trans (calm_raise _ _).kept).trans (kept_scuSilence _ _)

theorem kept_dropPeer (s : State) (id : StationId) : Kept s (s.dropPeer id) :=
  (kept_ptb s _).trans (kept_notify _ _ (kept_entryLeaves _ _))

/-- A frame taken on a line that is not OFF, its delivery keeping what it must on such a line. -/
theorem kept_takeFrame {α : Type} (s : State) (src : StationId) (seq : Byte) (p : Option α)
    (cond : α → Option Condition) (deliver : State → α → State)
    (h : ∀ t a, t.lif.line ≠ .off → Kept t (deliver t a)) : Kept s (s.takeFrame src seq p cond deliver) := by
  unfold State.takeFrame
  split
  · exact Kept.refl s
  · rename_i hoff
    have hline : s.countGood.lif.line ≠ .off := by
      have hl : ∀ (t : State) (l : LineState), (t.toLine l).lif.line = l := by
        intro t l
        have hc : ∀ l : Lif, l.takeCurrent.line = l.line := by
          intro l
          unfold Lif.takeCurrent
          split
          · rfl
          · split
            · rfl
            · split <;> rfl
        unfold State.toLine State.lineNotice
        rw [evalStart_line]
        simp only [State.withLif_lif, hc]
      unfold State.countGood State.evalHealth
      split
      · split
        · show ((State.toLine _ _).raise _).lif.line ≠ _
          simp only [State.raise, State.withSpt_lif, hl]; decide
        · rename_i h1 _; rw [h1]; decide
      · split
        · show ((State.toLine _ _).raise _).lif.line ≠ _
          simp only [State.raise, State.withSpt_lif, hl]; decide
        · rename_i h1 _; rw [h1]; decide
      · exact fun e => hoff e
    split
    · exact (calm_discardFrame s).kept
    · split
      · exact (calm_countGood s).kept.trans (calm_clash _).kept
      · refine ((calm_countGood s).kept.trans (kept_hearPeer _ _ _ _)).trans (h _ _ ?_)
        have : ∀ (t : State) (c : Option Condition), (t.hearPeer src seq c).lif = t.lif := by
          intro t c
          unfold State.hearPeer
          split
          · rfl
          · split <;> rfl
        rw [this]; exact hline

/-- Zinc is taken for a PICKUP whose sequence is noted. -/
theorem kept_applyPickup (s t : State) (p : Ptb) (c : Nat) (h : Kept s t) : Kept s ((t.withPtb p).consume c) :=
  (h.trans (kept_ptb t p)).trans (quiet_consume _ c).kept

theorem kept_gapPickup (s t : State) (p : Ptb) (c : Nat) (h : Kept s t) :
    Kept s ((((t.withPtb p).withZbr { (t.withPtb p).zbr with gap := true }).raise .balanceGap).consume c) := by
  have h1 : Kept s ((t.withPtb p).withZbr { (t.withPtb p).zbr with gap := true }) := by
    refine (h.trans (kept_ptb t p)).trans (Quiet.kept ?_)
    apply quiet_zbr_same
    · exact id
    · rfl
  exact (h1.trans (calm_raise _ _).kept).trans (quiet_consume _ c).kept

theorem kept_heardPickup (s : State) (src : StationId) (p : PickupInfo) : Kept s (s.heardPickup src p) := by
  have h1 : Kept s (s.withZbr { s.zbr with lastPickup := some ⟨src, p.seq, p.consumption, p.cls,
      checkPickup ((s.ptb.recordOf src).bind Peer.expected) p.seq⟩ }) := by
    apply Quiet.kept
    apply quiet_zbr_same
    · exact id
    · rfl
  unfold State.heardPickup
  simp only []
  split
  · exact h1
  · exact kept_gapPickup s _ _ _ h1
  · exact kept_applyPickup s _ _ _ h1
  · exact kept_applyPickup s _ _ _ h1

end Sys2Proof.Machine
end

