-- ==== Sys2Proof/Laws/Frames.lean ====
section
/-! SUPPORT. A good peer frame before it is delivered: what the count of the frame and the refresh of its peer leave (R6,
R10, R27 to R31), and what a put does to the peer table and the span table. -/

namespace Sys2Proof.Machine

/-! ### Tables in ascending ID -/

theorem recordOf_putPeer (p : Peer) (ps : List Peer) :
    (putPeer p ps).find? (fun r => r.id == p.id) = some p := by
  induction ps with
  | nil => simp [putPeer]
  | cons q rest ih =>
    unfold putPeer
    split
    · simp
    · split
      · simp
      · rename_i h
        rw [List.find?_cons_of_neg]
        · exact ih
        · simpa using fun e : q.id = p.id => h e.symm

theorem recordOf_putPeer_other (p : Peer) (ps : List Peer) (h : StationId) (hne : h ≠ p.id) :
    (putPeer p ps).find? (fun r => r.id == h) = ps.find? (fun r => r.id == h) := by
  have hp : (p.id == h) = false := by simpa using fun e : p.id = h => hne e.symm
  induction ps with
  | nil => simp [putPeer, hp]
  | cons q rest ih =>
    unfold putPeer
    split
    · rw [List.find?_cons, hp]
    · split
      · rename_i e
        rw [List.find?_cons, List.find?_cons, ← e, hp]
      · rw [List.find?_cons, List.find?_cons, ih]

theorem entryOf_putEntry (e : PeerEntry) (es : List PeerEntry) :
    (putEntry e es).find? (fun x => x.holder == e.holder) = some e := by
  induction es with
  | nil => simp [putEntry]
  | cons q rest ih =>
    unfold putEntry
    split
    · simp
    · split
      · simp
      · rename_i h
        rw [List.find?_cons_of_neg]
        · exact ih
        · simpa using fun x : q.holder = e.holder => h x.symm

theorem entryOf_putEntry_other (e : PeerEntry) (es : List PeerEntry) (h : StationId) (hne : h ≠ e.holder) :
    (putEntry e es).find? (fun x => x.holder == h) = es.find? (fun x => x.holder == h) := by
  have hp : (e.holder == h) = false := by simpa using fun x : e.holder = h => hne x.symm
  induction es with
  | nil => simp [putEntry, hp]
  | cons q rest ih =>
    unfold putEntry
    split
    · rw [List.find?_cons, hp]
    · split
      · rename_i x
        rw [List.find?_cons, List.find?_cons, ← x, hp]
      · rw [List.find?_cons, List.find?_cons, ih]

theorem entryOf_removeEntry (h : StationId) (es : List PeerEntry) :
    (removeEntry h es).find? (fun x => x.holder == h) = none := by
  rw [List.find?_eq_none]
  intro x hx
  simp only [removeEntry, List.mem_filter] at hx
  simpa using hx.2

theorem entryOf_removeEntry_other (h k : StationId) (es : List PeerEntry) (hne : k ≠ h) :
    (removeEntry h es).find? (fun x => x.holder == k) = es.find? (fun x => x.holder == k) := by
  unfold removeEntry
  rw [List.find?_filter]
  congr 1
  funext x
  by_cases e : x.holder = k
  · simp [e, hne]
  · have : (x.holder == k) = false := by simpa using e
    simp [this]

/-! ### The count of a good frame -/

/-- What the count of a good frame leaves: the score one lower, the line state as R10 has it, the claim perhaps started. -/
structure Counted (s t : State) : Prop where
  pending : t.pending = s.pending
  now : t.now = s.now
  cfg : t.cfg = s.cfg
  pgs : t.pgs = s.pgs
  ptb : t.ptb = s.ptb
  mpt : t.mpt = s.mpt
  wch : t.wch = s.wch
  pku : t.pku = s.pku
  hwn : t.hwn = s.hwn
  score : t.lif.score = s.lif.score - 1
  seq : t.lif.seq = s.lif.seq
  clashEnd : t.lif.clashEnd = s.lif.clashEnd
  dsq : t.dsq = { s.dsq with ctx := t.dsq.ctx }
  ctx : t.dsq.ctx.map DipCtx.unmarked = s.dsq.ctx.map DipCtx.unmarked
  zbr : t.zbr = { s.zbr with ring := t.zbr.ring }
  ring : t.zbr.ring.map DipRecord.unmarked = s.zbr.ring.map DipRecord.unmarked
  entries : t.scu.entries = s.scu.entries
  requestTime : t.scu.requestTime = s.scu.requestTime
  lastEntry : t.scu.lastEntry = s.scu.lastEntry
  events : EventsGrow s.spt t.spt
  still : s.scu.state.isStill = true → t.scu = s.scu

theorem counted_line (s : State) (l : LineState) (es : List Event) :
    Counted s ((((s.withLif s.lif.scoreDown).withLif
      { (s.withLif s.lif.scoreDown).lif with line := l }).lineNotice).raiseAll es) := by
  have a := aside_lineNotice ((s.withLif s.lif.scoreDown).withLif { (s.withLif s.lif.scoreDown).lif with line := l })
  have g : ∀ (es : List Event) (u : State), u.raiseAll es = u.withSpt (u.raiseAll es).spt ∧
      EventsGrow u.spt (u.raiseAll es).spt := by
    intro es
    induction es with
    | nil => intro u; exact ⟨rfl, EventsGrow.refl _⟩
    | cons e rest ih =>
      intro u
      obtain ⟨h1, h2⟩ := ih (u.raise e)
      refine ⟨?_, (eventsGrow_raise u.spt e).trans h2⟩
      show (u.raise e).raiseAll rest = _
      rw [h1]; rfl
  have st : s.scu.state.isStill = true → ((s.withLif s.lif.scoreDown).withLif
      { (s.withLif s.lif.scoreDown).lif with line := l }).lineNotice.scu = s.scu := by
    intro h
    unfold State.lineNotice
    rw [evalStart_still]
    · rfl
    · exact h
  obtain ⟨h1, h2⟩ := g es (((s.withLif s.lif.scoreDown).withLif
      { (s.withLif s.lif.scoreDown).lif with line := l }).lineNotice)
  generalize ((s.withLif s.lif.scoreDown).withLif
      { (s.withLif s.lif.scoreDown).lif with line := l }).lineNotice = u at a st h1 h2
  generalize u.raiseAll es = v at h1 h2
  rw [h1]
  exact ⟨a.pending, a.now, a.cfg, a.pgs, a.ptb, a.mpt, a.wch, a.pku, a.hwn, a.score, a.seq, a.clashEnd, a.dsq, a.ctx,
    a.zbr, a.ring, a.entries, a.requestTime, a.lastEntry, by rw [a.spt] at h2; exact h2, st⟩

theorem countGood_counted (s : State) : Counted s s.countGood := by
  have same : Counted s (s.withLif s.lif.scoreDown) :=
    ⟨rfl, rfl, rfl, rfl, rfl, rfl, rfl, rfl, rfl, rfl, rfl, rfl, rfl, rfl, rfl, rfl, rfl, rfl, rfl, EventsGrow.refl _,
      fun _ => rfl⟩
  unfold State.countGood State.evalHealth
  split
  · split
    · exact counted_line s .degraded [.lineDegraded]
    · exact same
  · split
    · exact counted_line s .active [.lineRestored]
    · exact same
  · exact same

/-- A count that does not move the line state. -/
theorem countGood_still (s : State) (h : s.lif.line = .active) (hs : s.lif.score ≤ 64) :
    s.countGood = s.withLif s.lif.scoreDown := by
  have hl : (s.withLif s.lif.scoreDown).lif.line = .active := h
  unfold State.countGood State.evalHealth
  rw [hl]
  simp only []
  rw [if_neg]
  show ¬(64 ≤ s.lif.score - 1)
  omega

/-! ### The refresh of a peer -/

/-- The refresh changes the peer table and raises events, no more. -/
theorem hearPeer_eq (s : State) (src : StationId) (seq : Byte) (c : Option Condition) :
    ∃ p x, s.hearPeer src seq c = (s.putPeer p).withSpt x ∧ EventsGrow s.spt x ∧ p.id = src ∧
      p.presence = .present ∧ p.lastArrival = s.now ∧ p.lastSeq = seq ∧ p.silenceEnd = some (s.now + s.silenceLimit) ∧
      (∀ k, c = some k → p.condition = k) ∧ p.expected = (s.ptb.recordOf src).bind Peer.expected := by
  unfold State.hearPeer
  split
  · rename_i h
    refine ⟨_, s.spt, rfl, EventsGrow.refl _, rfl, rfl, rfl, rfl, rfl, ?_, by rw [h]; rfl⟩
    intro k h; rw [h]; rfl
  · rename_i p h
    have hid : p.id = src := by
      have := List.find?_some h
      simpa using this
    have hc : ∀ k, c = some k → (p.heard s.now s.silenceLimit seq c).condition = k := by
      intro k h; rw [h]; rfl
    split
    · exact ⟨_, s.spt, rfl, EventsGrow.refl _, hid, rfl, rfl, rfl, rfl, hc, by rw [h]; rfl⟩
    · exact ⟨_, _, rfl, eventsGrow_raise s.spt .peerBack, hid, rfl, rfl, rfl, rfl, hc, by rw [h]; rfl⟩

/-- A good frame from a peer is delivered in the state its count and the refresh of its peer have left (R6, R29). -/
theorem takeFrame_hears {α : Type} (s : State) (src : StationId) (seq : Byte) (a : α) (cond : α → Option Condition)
    (deliver : State → α → State) (h : s.hears src) :
    s.takeFrame src seq (some a) cond deliver = deliver (s.countGood.hearPeer src seq (cond a)) a := by
  unfold State.takeFrame
  split
  · rename_i e; exact absurd e h.1
  · simp only []
    rw [if_neg h.2]

end Sys2Proof.Machine
end

