-- ==== Sys2Proof/Laws/Halts.lean ====
section
/-! SUPPORT. Entering HALTED: everything the halt of a dip leaves behind (R125). -/

namespace Sys2Proof.Machine

/-- The state a halt has come to once the work of the dip has ended. -/
structure Halted (s : State) (f : DipFault) (t : State) : Prop where
  state : t.dsq.state = .halted
  cause : t.dsq.cause = s.dsq.ctx.map (fun c => ⟨f, c.slot, c.index⟩)
  position : t.dsq.position = haltPosition s.dsq.position f
  dwellEnd : t.dsq.dwellEnd = none
  drainEnd : t.dsq.drainEnd = none
  immersionSince : t.dsq.immersionSince = none
  task : t.wch.task = .none
  request : t.hwn.request = .none
  mpt : t.mpt = s.mpt
  now : t.now = s.now
  cfg : t.cfg = s.cfg
  spt : t.spt = (s.spt.raise f.event).raise .haltedEv

theorem endTask_none (w : Wch) (now : Nat) : (w.endTask now).1.task = .none := by
  unfold Wch.endTask
  split
  · assumption
  · rfl
  · rfl

theorem stopImmersion_none (s : State) : s.stopImmersion.dsq.immersionSince = none := by
  unfold State.stopImmersion
  split
  · rfl
  · assumption

theorem stopImmersion_eq (s : State) : s.stopImmersion = s.withDsq s.stopImmersion.dsq ∧
    s.stopImmersion.dsq.cause = s.dsq.cause := by
  unfold State.stopImmersion
  split <;> exact ⟨rfl, rfl⟩

theorem endWeighTask_dsq (s : State) :
    s.endWeighTask.wch.task = .none ∧ s.endWeighTask.hwn = s.hwn ∧ s.endWeighTask.mpt = s.mpt ∧
      s.endWeighTask.now = s.now ∧ s.endWeighTask.cfg = s.cfg ∧ s.endWeighTask.spt = s.spt ∧
      s.endWeighTask.dsq.cause = s.dsq.cause ∧ s.endWeighTask.dsq.dwellEnd = s.dsq.dwellEnd ∧
      s.endWeighTask.dsq.drainEnd = s.dsq.drainEnd ∧ s.endWeighTask.dsq.immersionSince = s.dsq.immersionSince := by
  have h := endTask_none s.wch s.now
  unfold State.endWeighTask
  split
  · rename_i w ms e; rw [e] at h; exact ⟨h, rfl, rfl, rfl, rfl, rfl, rfl, rfl, rfl, rfl⟩
  · rename_i w e; rw [e] at h; exact ⟨h, rfl, rfl, rfl, rfl, rfl, rfl, rfl, rfl, rfl⟩

/-- A dip whose timers have stopped on the way into HALTED. -/
structure Stopped (s : State) (f : DipFault) (a : State) : Prop where
  cause : a.dsq.cause = s.dsq.ctx.map (fun c => ⟨f, c.slot, c.index⟩)
  dwellEnd : a.dsq.dwellEnd = none
  drainEnd : a.dsq.drainEnd = none
  immersionSince : a.dsq.immersionSince = none
  mpt : a.mpt = s.mpt
  now : a.now = s.now
  cfg : a.cfg = s.cfg
  spt : a.spt = s.spt

theorem Stopped.endTask {s a : State} {f : DipFault} (h : Stopped s f a) :
    Stopped s f a.endWeighTask ∧ a.endWeighTask.wch.task = .none := by
  obtain ⟨e1, _, e3, e4, e5, e6, e7, e8, e9, e10⟩ := endWeighTask_dsq a
  exact ⟨⟨e7.trans h.cause, e8.trans h.dwellEnd, e9.trans h.drainEnd, e10.trans h.immersionSince, e3.trans h.mpt,
    e4.trans h.now, e5.trans h.cfg, e6.trans h.spt⟩, e1⟩

theorem Stopped.withdrawHeat {s a : State} {f : DipFault} (h : Stopped s f a) :
    Stopped s f a.withdrawHeat :=
  ⟨h.cause, h.dwellEnd, h.drainEnd, h.immersionSince, h.mpt, h.now, h.cfg, h.spt⟩

theorem Stopped.cancelUnheld {s a : State} {f : DipFault} (h : Stopped s f a) : Stopped s f a.cancelUnheld := by
  have q := aside_cancelUnheld a
  have d := q.dsq
  exact ⟨by rw [d]; exact h.cause, by rw [d]; exact h.dwellEnd, by rw [d]; exact h.drainEnd,
    by rw [d]; exact h.immersionSince, q.mpt.trans h.mpt, q.now.trans h.now, q.cfg.trans h.cfg, q.spt.trans h.spt⟩

theorem Stopped.halted {s a : State} {f : DipFault} (h : Stopped s f a) (ht : a.wch.task = .none)
    (hr : a.hwn.request = .none) (p : Position) (hp : p = haltPosition s.dsq.position f) :
    Halted s f ((((a.setPosition p).toDsq .halted).raise f.event).raise .haltedEv) :=
  ⟨rfl, h.cause, hp, h.dwellEnd, h.drainEnd, h.immersionSince, ht, hr, h.mpt, h.now, h.cfg,
    congrArg (fun t : Spt => (t.raise f.event).raise .haltedEv) h.spt⟩

theorem Stopped.rest {s a : State} {f : DipFault} (h : Stopped s f a) :
    Halted s f ((((a.endWeighTask.withdrawHeat.cancelUnheld.setPosition (haltPosition s.dsq.position f)).toDsq
      .halted).raise f.event).raise .haltedEv) := by
  have h1 := h.endTask
  have q := aside_cancelUnheld a.endWeighTask.withdrawHeat
  refine h1.1.withdrawHeat.cancelUnheld.halted ?_ ?_ _ rfl
  · rw [q.wch]; exact h1.2
  · rw [q.hwn]; rfl

theorem stopped_timers (s a : State) (f : DipFault) (h : a = s.withDsq { s.dsq with
      cause := s.dsq.ctx.map (fun c => ⟨f, c.slot, c.index⟩) }) :
    Stopped s f (a.stopImmersion.stopDwell.withDsq { a.stopImmersion.stopDwell.dsq with drainEnd := none }) := by
  obtain ⟨e1, e2⟩ := stopImmersion_eq a
  have e3 := stopImmersion_none a
  generalize a.stopImmersion = b at e1 e2 e3
  subst h
  exact ⟨e2, rfl, rfl, e3, by rw [e1]; rfl, by rw [e1]; rfl, by rw [e1]; rfl, by rw [e1]; rfl⟩

/-- A halt leaves the dip halted. -/
theorem haltDip_halted (s : State) (f : DipFault) : Halted s f (s.haltDip f) :=
  (stopped_timers s _ f rfl).rest

/-- The events of a halt are raised. -/
theorem Halted.raised {s t : State} {f : DipFault} (h : Halted s f t) :
    t.spt.isRaised f.event = true ∧ t.spt.isRaised .haltedEv = true := by
  rw [h.spt]
  cases f <;> refine ⟨?_, ?_⟩ <;>
    simp [Spt.isRaised, Spt.raise, DipFault.event, Event.address, Spt.group, Spt.withGroup, placeBit]

end Sys2Proof.Machine
end

