-- ==== Sys2Proof/Laws/Records.lean ====
section
/-! SUPPORT. What making a dip record does, said once: `createRecord_made` gives RecordMade for every state in which a dip
that was immersed ends, and `RecordMade.after` carries it over what follows the record. Beside it, what a change of Z does
(`putZ_eq`, `putZ_evaluated`, `putZ_aside`), what an offer does to a settled claim, and the release of a held span. -/

namespace Sys2Proof.Machine

/-! ### Room in the transmit queue -/

theorem takeFirst_any (p r : TxFrame → Bool) (q : List TxFrame) {x : TxFrame × List TxFrame}
    (h : takeFirst p q = some x) :
    q.any r = (r x.1 || x.2.any r) := by
  have := (takeFirst_perm p q h)
  rw [this.any_eq]; rfl

/-- Taking the current frame leaves what the queue holds. -/
theorem takeCurrent_holds (l : Lif) (p : TxFrame → Bool) : l.takeCurrent.holds p = l.holds p := by
  unfold Lif.takeCurrent Lif.holds
  split
  · rfl
  · rename_i hn
    split
    · rfl
    · split
      · rename_i r hr
        simp only [takeFirst_any _ p _ hr, hn, Option.map_some, Option.map_none, Option.getD, Bool.or_false]
        rw [Bool.or_comm]; rfl
      · rfl

/-- Taking the current frame leaves the places the queue fills. -/
theorem takeCurrent_places (l : Lif) : l.takeCurrent.places = l.places := by
  unfold Lif.takeCurrent Lif.places
  split
  · rfl
  · rename_i hn
    split
    · rfl
    · split
      · rename_i r hr
        have := (takeFirst_perm _ _ hr).length_eq
        simp only [List.length_cons] at this
        simp [hn, this]
      · rfl

/-- With room, a frame but a BEACON is placed and nothing drops. -/
theorem place_room (l : Lif) (f : TxFrame) (h : l.places < 8) (hb : f ≠ .beacon) :
    l.place f = ({ l with waiting := insertFrame f l.waiting }, none) := by
  unfold Lif.place
  rw [if_neg (fun e => hb e.1), if_pos (show l.places < Config.queuePlaces from h)]

/-- With room, an offer is the frame's placing alone. -/
theorem offer_room (s : State) (f : TxFrame) (h : s.lif.places < 8) (hb : f ≠ .beacon) :
    s.offer f = s.withLif ({ s.lif with waiting := insertFrame f s.lif.waiting }.takeCurrent) := by
  unfold State.offer State.offerBase
  rw [place_room s.lif f h hb]

/-- With room, the queue holds the frame offered and what it held. -/
theorem offer_holds (s : State) (f : TxFrame) (p : TxFrame → Bool) (h : s.lif.places < 8) (hb : f ≠ .beacon) :
    (s.offer f).lif.holds p = (p f || s.lif.holds p) := by
  rw [offer_room s f h hb]
  show Lif.holds (Lif.takeCurrent _) _ = _
  rw [takeCurrent_holds]
  unfold Lif.holds
  simp only
  rw [(insertFrame_perm f s.lif.waiting).any_eq, List.any_cons, Bool.or_assoc]

/-- A frame fills at most one place more. -/
theorem place_places (l : Lif) (f : TxFrame) : (l.place f).1.places ≤ l.places + 1 := by
  unfold Lif.place
  split
  · exact Nat.le_succ _
  · split
    · show (insertFrame f l.waiting).length + _ ≤ _
      rw [(insertFrame_perm f l.waiting).length_eq]
      unfold Lif.places; simp only [List.length_cons]; omega
    · split
      · rename_i v hv
        split
        · show (insertFrame f l.waiting.dropLast).length + _ ≤ _
          rw [(insertFrame_perm f _).length_eq]
          unfold Lif.places; simp only [List.length_cons, List.length_dropLast]; omega
        · exact Nat.le_succ _
      · exact Nat.le_succ _

theorem reportDrop_lif (s : State) (f : TxFrame) : (s.reportDrop f).lif = s.lif := by
  cases f <;> try rfl
  · show (s.holdGone _).lif = _; unfold State.holdGone; split <;> rfl
  · show (s.intentGone _).lif = _; unfold State.intentGone; split <;> rfl

theorem offerBase_places (s : State) (f : TxFrame) : (s.offerBase f).lif.places ≤ s.lif.places + 1 := by
  have h := place_places s.lif f
  unfold State.offerBase
  split
  · rename_i l e
    rw [e] at h
    show Lif.places (Lif.takeCurrent _) ≤ _
    rw [takeCurrent_places]; exact h
  · rename_i l g e
    rw [e] at h
    rw [reportDrop_lif]
    show Lif.places (Lif.takeCurrent _) ≤ _
    rw [takeCurrent_places]; exact h

theorem evalStart_places (s : State) : s.evalStart.lif.places ≤ s.lif.places + 1 := by
  unfold State.evalStart
  split
  · split
    · exact offerBase_places _ _
    · exact Nat.le_succ _
  · exact Nat.le_succ _

theorem withdraw_places (l : Lif) (n : Byte) : (l.withdraw n).1.places ≤ l.places := by
  unfold Lif.withdraw
  split
  · rename_i r hr
    have := (takeFirst_perm _ _ hr).length_eq
    unfold Lif.places; simp only [List.length_cons] at *; omega
  · split
    · rename_i c hc
      split
      · split
        · unfold Lif.places; simp [hc]
        · show Lif.places (Lif.takeCurrent _) ≤ _
          rw [takeCurrent_places]
          unfold Lif.places; simp [hc]
      · exact Nat.le_refl _
    · exact Nat.le_refl _

theorem withdrawIntent_places (s : State) : s.withdrawIntent.lif.places ≤ s.lif.places + 1 := by
  have h := withdraw_places s.lif s.ownClaim
  unfold State.withdrawIntent
  split
  · split
    · rename_i l e
      rw [e] at h
      exact Nat.le_trans (evalStart_places _) (Nat.succ_le_succ h)
    · rename_i l _ _ e
      rw [e] at h
      exact Nat.le_succ_of_le h
  · exact Nat.le_succ _

/-! ### Marks for frames not sent -/

theorem unmarked_eq {c d : DipCtx} (h : c.unmarked = d.unmarked) : d = { c with txDropped := d.txDropped } := by
  cases c; cases d
  simp only [DipCtx.unmarked, DipCtx.mk.injEq] at h
  obtain ⟨rfl, rfl, rfl, rfl, rfl, rfl, rfl, rfl, rfl, rfl, rfl, rfl, rfl, rfl, rfl, rfl, _, rfl, rfl⟩ := h
  rfl

theorem unmarked_record {r q : DipRecord} (h : r.unmarked = q.unmarked) :
    q = { r with flags := { r.flags with txDropped := q.flags.txDropped } } := by
  have m : ∀ f g : RecordFlags, { f with txDropped := false } = { g with txDropped := false } →
      g = { f with txDropped := g.txDropped } := by
    intro f g e
    cases f; cases g
    simp only [RecordFlags.mk.injEq] at e
    simp [e]
  have e := m _ _ (congrArg DipRecord.flags h)
  cases r; cases q
  simp only [DipRecord.unmarked, DipRecord.mk.injEq] at h
  obtain ⟨rfl, rfl, rfl, rfl, rfl, rfl, rfl, rfl, rfl, rfl, rfl, rfl, rfl, rfl, rfl, -, rfl⟩ := h
  simp only [DipRecord.mk.injEq, true_and, and_true]
  exact e

/-- The mark of the context goes to the record's flag and to nothing else of it. -/
theorem makeRecord_mark (p : Params) (k : Pku) (c : DipCtx) (o : DipOutcome) (m : Bool) :
    makeRecord p k { c with txDropped := m } o =
      { makeRecord p k c o with flags := { (makeRecord p k c o).flags with txDropped := m } } := by
  obtain ⟨c1, c2, c3, c4, c5, c6, c7, c8, dry, wet, c11, c12, c13, c14, c15, c16, c17, c18, c19⟩ := c
  cases o <;> cases dry <;> cases wet <;> rfl

/-! ### Events -/

theorem or_bit {f g : Byte} (h : f ||| g = g) (i : Nat) (e : f.getLsbD i = true) : g.getLsbD i = true := by
  rw [← h, BitVec.getLsbD_or, e]; rfl

/-- An event that is raised stays so while events are only added. -/
theorem EventsGrow.raised {t x : Spt} (h : EventsGrow t x) (e : Event) (r : t.isRaised e = true) :
    x.isRaised e = true := by
  cases e <;> first
    | exact or_bit h.g1.2.2 _ r
    | exact or_bit h.g2.2.2 _ r
    | exact or_bit h.g3.2.2 _ r
    | exact or_bit h.g4.2.2 _ r

theorem raise_raised (t : Spt) (e : Event) : (t.raise e).isRaised e = true := by
  cases e <;> simp [Spt.isRaised, Spt.raise, Event.address, Spt.group, Spt.withGroup, placeBit]

/-- Raising events is an update of the station port alone, in which they are raised. -/
theorem raiseAll_eq (s : State) (es : List Event) : ∃ x, s.raiseAll es = s.withSpt x ∧ EventsGrow s.spt x ∧
    ∀ e ∈ es, x.isRaised e = true := by
  induction es generalizing s with
  | nil => exact ⟨s.spt, rfl, EventsGrow.refl _, fun _ h => by cases h⟩
  | cons a rest ih =>
    obtain ⟨x, h1, h2, h3⟩ := ih (s.raise a)
    refine ⟨x, h1, (eventsGrow_raise _ _).trans h2, ?_⟩
    intro e he
    rcases List.mem_cons.1 he with rfl | he
    · exact h2.raised _ (raise_raised _ _)
    · exact h3 e he

/-! ### The estimate and the own PICKUP -/

/-- What an evaluation of the level state leaves. -/
structure Leveled (s t : State) : Prop where
  cfg : t.cfg = s.cfg
  pku : t.pku = s.pku
  zbr : t.zbr = { s.zbr with level := t.zbr.level, ring := t.zbr.ring }
  ring : t.zbr.ring.map DipRecord.unmarked = s.zbr.ring.map DipRecord.unmarked
  events : EventsGrow s.spt t.spt
  places : t.lif.places ≤ s.lif.places + 1

theorem zincNotice_places (s : State) : s.zincNotice.lif.places ≤ s.lif.places + 1 := by
  unfold State.zincNotice
  split
  · exact evalStart_places s
  · exact withdrawIntent_places s

theorem evalLevel_leveled (s : State) : Leveled s s.evalLevel := by
  unfold State.evalLevel
  split
  · exact ⟨rfl, rfl, rfl, rfl, EventsGrow.refl _, Nat.le_succ _⟩
  · simp only
    generalize nextLevel s.zbr.level s.zbr.z s.cfg.params.zStop s.cfg.params.zLow = l
    obtain ⟨x, h1, h2, -⟩ := raiseAll_eq (s.withZbr { s.zbr with level := l }) (levelEvents s.zbr.level l)
    rw [h1]
    split
    · exact ⟨rfl, rfl, rfl, rfl, h2, Nat.le_succ _⟩
    · have a := aside_zincNotice ((s.withZbr { s.zbr with level := l }).withSpt x)
      refine ⟨a.cfg, a.pku, ?_, a.ring, ?_, zincNotice_places _⟩
      · rw [a.zbr]; rfl
      · rw [a.spt]; exact h2

/-- The next level state is the one of the table of R180. -/
theorem nextLevel_levelAt (s : State) (z : Nat) :
    nextLevel s.zbr.level z s.cfg.params.zStop s.cfg.params.zLow = s.levelAt z := by
  unfold nextLevel State.levelAt
  cases s.zbr.level <;> simp

/-- An evaluation stays one when the level state stands and events are only added. -/
theorem levelEvaluated_after {s t u : State} {z : Nat} (h : s.levelEvaluated z t) (hl : u.zbr.level = t.zbr.level)
    (he : EventsGrow t.spt u.spt) : s.levelEvaluated z u :=
  ⟨hl.trans h.1, fun a b => he.raised _ (h.2.1 a (hl ▸ b)), fun a b => he.raised _ (h.2.2.1 a (hl ▸ b)),
    fun a b => he.raised _ (h.2.2.2 a (hl ▸ b))⟩

/-- What follows an evaluation: nothing of the balance but marks in the ring, and the events stand. -/
theorem levelEvaluated_aside {s t u : State} {z : Nat} (h : s.levelEvaluated z t) (a : Aside t u) :
    s.levelEvaluated z u :=
  levelEvaluated_after h (by rw [a.zbr]) (by rw [a.spt]; exact EventsGrow.refl _)

/-- Z takes a value: the level state is evaluated for it, with its events, and SCU is told where admission changed. -/
theorem putZ_eq (s : State) (z : Nat) : ∃ l x, EventsGrow s.spt x ∧
    s.levelEvaluated z ((s.withZbr { s.zbr with z := z, level := l }).withSpt x) ∧
    (s.putZ z = (s.withZbr { s.zbr with z := z, level := l }).withSpt x ∨
      s.putZ z = ((s.withZbr { s.zbr with z := z, level := l }).withSpt x).zincNotice) := by
  by_cases hu : s.zbr.unset = true
  · refine ⟨s.zbr.level, s.spt, EventsGrow.refl _, ⟨by rw [hu]; rfl, fun a b => absurd a b, fun a b => absurd b a, ?_⟩,
      Or.inl (if_pos hu)⟩
    intro a b
    have b : s.zbr.level = .normal := b
    rw [a] at b; cases b
  · obtain ⟨x, h1, h2, h3⟩ := raiseAll_eq (s.withZbr { s.zbr with z := z, level := s.levelAt z })
      (levelEvents s.zbr.level (s.levelAt z))
    refine ⟨s.levelAt z, x, h2, ⟨by simp only [hu]; rfl, fun a b => h3 _ ?_, fun a b => h3 _ ?_, fun a b => h3 _ ?_⟩, ?_⟩
    · change s.levelAt z ≠ .normal at b
      rw [a]; revert b; cases s.levelAt z <;> simp [levelEvents]
    · change s.levelAt z = .stopped at b
      rw [b]; revert a; cases s.zbr.level <;> simp [levelEvents]
    · change s.levelAt z = .normal at b
      rw [a, b]; simp [levelEvents]
    · have e : s.putZ z =
          (let t := (s.withZbr { s.zbr with z := z, level := s.levelAt z }).raiseAll
            (levelEvents s.zbr.level (s.levelAt z))
           if s.zbr.isOpen = t.zbr.isOpen then t else t.zincNotice) := by
        rw [← nextLevel_levelAt]; exact if_neg hu
      rw [e, h1]
      simp only
      split
      · exact Or.inl rfl
      · exact Or.inr rfl

theorem putZ_evaluated (s : State) (z : Nat) : s.levelEvaluated z (s.putZ z) := by
  obtain ⟨l, x, -, h, e⟩ := putZ_eq s z
  rcases e with e | e
  · rw [e]; exact h
  · rw [e]; exact levelEvaluated_aside h (aside_zincNotice _)

/-- Beside Z, the level state and the events, a change of Z moves only what SCU and LIF do at a change of admission. -/
theorem putZ_aside (s : State) (z : Nat) : ∃ l x, EventsGrow s.spt x ∧
    Aside ((s.withZbr { s.zbr with z := z, level := l }).withSpt x) (s.putZ z) := by
  obtain ⟨l, x, g, -, e⟩ := putZ_eq s z
  refine ⟨l, x, g, ?_⟩
  rcases e with e | e <;> rw [e]
  · exact Aside.refl _
  · exact aside_zincNotice _

/-- An own PICKUP: Z falls by its consumption, the own sequence rises by one, and with two places free it stands in the
queue. -/
theorem offerPickup_made (s : State) (n : Nat) (k : Option SteelClass) (serial : BitVec 32) :
    let t := s.offerPickup n k serial
    t.pku = s.pku ∧ t.cfg = s.cfg ∧ EventsGrow s.spt t.spt ∧ t.zbr.z = s.zbr.z - n ∧ t.zbr.ownSeq = s.zbr.ownSeq + 1 ∧
      t.zbr.nextNumber = s.zbr.nextNumber ∧ t.zbr.ring.map DipRecord.unmarked = s.zbr.ring.map DipRecord.unmarked ∧
      (s.lif.places < 7 → t.lif.holds (· == .pickup s.zbr.ownSeq n k serial) = true) := by
  intro t
  have h := evalLevel_leveled (s.withZbr { s.zbr with z := s.zbr.z - n })
  have e : t = ((State.evalLevel (s.withZbr { s.zbr with z := s.zbr.z - n })).withZbr
      { (State.evalLevel (s.withZbr { s.zbr with z := s.zbr.z - n })).zbr with
        ownSeq := (State.evalLevel (s.withZbr { s.zbr with z := s.zbr.z - n })).zbr.ownSeq + 1 }).offer
      (.pickup s.zbr.ownSeq n k serial) := rfl
  generalize State.evalLevel (s.withZbr { s.zbr with z := s.zbr.z - n }) = u at h e
  have a := aside_offer (u.withZbr { u.zbr with ownSeq := u.zbr.ownSeq + 1 }) (.pickup s.zbr.ownSeq n k serial)
  rw [← e] at a
  refine ⟨a.pku.trans h.pku, a.cfg.trans h.cfg, ?_, ?_, ?_, ?_, a.ring.trans h.ring, ?_⟩
  · rw [a.spt]; exact h.events
  · rw [a.zbr]; show u.zbr.z = _; rw [h.zbr]; rfl
  · rw [a.zbr]; show u.zbr.ownSeq + 1 = _; rw [h.zbr]; rfl
  · rw [a.zbr]; show u.zbr.nextNumber = _; rw [h.zbr]; rfl
  · intro hp
    have : u.lif.places < 8 := Nat.lt_of_le_of_lt h.places (Nat.succ_lt_succ hp)
    rw [e, offer_holds _ _ _ (by exact this) (by simp)]
    simp

/-! ### The record -/

theorem map_number {as bs : List DipRecord} (h : as.map DipRecord.unmarked = bs.map DipRecord.unmarked) :
    as.map DipRecord.number = bs.map DipRecord.number := by
  have := congrArg (List.map DipRecord.number) h
  simpa [List.map_map, Function.comp_def, DipRecord.unmarked] using this

theorem getLast_mark {as bs : List DipRecord} {r : DipRecord}
    (h : as.map DipRecord.unmarked = (bs ++ [r]).map DipRecord.unmarked) :
    ∃ m, as.getLast? = some { r with flags := { r.flags with txDropped := m } } := by
  have e := congrArg List.getLast? h
  rw [List.getLast?_map, List.getLast?_map, List.getLast?_concat] at e
  cases ha : as.getLast? with
  | none => rw [ha] at e; cases e
  | some q =>
    rw [ha] at e
    have := unmarked_record (Option.some.inj e).symm
    exact ⟨_, congrArg some this⟩

/-- ZBR takes a finished record: up to the own PICKUP it is an update of the ring, the number and the event flags. -/
theorem appendRecord_eq (s : State) (r : DipRecord) : ∃ y, EventsGrow s.spt y ∧ y.isRaised .recordReady = true ∧
    (32 ≤ s.zbr.ring.length → y.isRaised .ringOverrun = true) ∧
    s.appendRecord r = ((s.withZbr { s.zbr with
      ring := ringAppend s.zbr.ring { r with number := s.zbr.nextNumber },
      nextNumber := s.zbr.nextNumber + 1 }).withSpt y).offerPickup r.consumption (reportedClass r.dipClass) r.serial := by
  unfold State.appendRecord
  by_cases hl : s.zbr.ring.length < 32
  · refine ⟨s.spt.raise .recordReady, eventsGrow_raise _ _, raise_raised _ _, fun h => absurd hl (Nat.not_lt.2 h), ?_⟩
    simp only
    rw [if_pos (show s.zbr.ring.length < Config.ringPlaces from hl)]
    rfl
  · refine ⟨(s.spt.raise .ringOverrun).raise .recordReady, (eventsGrow_raise _ _).trans (eventsGrow_raise _ _),
      raise_raised _ _, fun _ => (eventsGrow_raise _ _).raised _ (raise_raised _ _), ?_⟩
    simp only
    rw [if_neg (show ¬ s.zbr.ring.length < Config.ringPlaces from hl)]
    rfl

/-- The record of a dip that was immersed, made after moves of the queue and the own claim alone. -/
theorem createRecord_made (s u : State) (d : DipCtx) (o : DipOutcome) (placed : Prop) (hcfg : u.cfg = s.cfg)
    (hpku : u.pku = s.pku) (hz : u.zbr = { s.zbr with ring := u.zbr.ring })
    (hr : u.zbr.ring.map DipRecord.unmarked = s.zbr.ring.map DipRecord.unmarked)
    (hc : u.dsq.ctx.map DipCtx.unmarked = some d.unmarked) (hi : d.immersions ≠ 0)
    (hp : placed → u.lif.places < 7) : RecordMade s d o placed (u.createRecord o) := by
  cases hx : u.dsq.ctx with
  | none => rw [hx] at hc; cases hc
  | some c =>
    rw [hx] at hc
    have hcd := unmarked_eq (Option.some.inj hc).symm
    unfold State.createRecord
    rw [hx]
    have him : c.immersions ≠ 0 := by rw [hcd]; exact hi
    have hlot : c.lot = d.lot := by rw [hcd]
    have hser : c.serial = d.serial := by rw [hcd]
    simp only [him, if_false]
    unfold State.recordDip
    rw [hcfg, hpku, hcd, makeRecord_mark]
    rw [← hcd, hlot]
    simp only
    generalize hR : makeRecord s.cfg.params s.pku d o = R
    have hRs : R.serial = d.serial := by
      rw [← hR]; unfold makeRecord measuredRecord estimatedRecord recordOf
      cases o <;> cases d.dry <;> cases d.wet <;> rfl
    obtain ⟨x, h1, h2, h3⟩ := raiseAll_eq (u.withPku (s.pku.afterRecord s.cfg.params.lockCount d.lot R.dipClass))
      (s.pku.recordEvents s.cfg.params.lockCount d.lot R.dipClass)
    rw [h1]
    have hlen : u.zbr.ring.length = s.zbr.ring.length := by
      have := congrArg List.length hr; simpa using this
    have hn : u.zbr.nextNumber = s.zbr.nextNumber := by rw [hz]
    have hq : u.zbr.ownSeq = s.zbr.ownSeq := by rw [hz]
    have hzz : u.zbr.z = s.zbr.z := by rw [hz]
    obtain ⟨y, g1, g2, g3, g4⟩ := appendRecord_eq ((u.withPku
      (s.pku.afterRecord s.cfg.params.lockCount d.lot R.dipClass)).withSpt x)
      { R with flags := { R.flags with txDropped := c.txDropped } }
    rw [g4]
    obtain ⟨a1, -, a3, a4, a5, a6, a7, a8⟩ := offerPickup_made ((((u.withPku
      (s.pku.afterRecord s.cfg.params.lockCount d.lot R.dipClass)).withSpt x).withZbr { u.zbr with
        ring := ringAppend u.zbr.ring
          { { R with flags := { R.flags with txDropped := c.txDropped } } with number := u.zbr.nextNumber },
        nextNumber := u.zbr.nextNumber + 1 }).withSpt y) R.consumption (reportedClass R.dipClass) R.serial
    have hring : (ringAppend u.zbr.ring
          { { R with flags := { R.flags with txDropped := c.txDropped } } with number := u.zbr.nextNumber }).map
          DipRecord.unmarked =
        (ringAppend s.zbr.ring { R with number := s.zbr.nextNumber }).map DipRecord.unmarked := by
      unfold ringAppend
      rw [hlen, hn, List.map_append, List.map_append]
      congr 1
      split
      · exact hr
      · rw [List.map_drop, List.map_drop, hr]
    have hring2 := a7.trans hring
    subst hR
    refine ⟨a6.trans (by rw [← hn]; rfl), ?_, ?_, a3.raised _ g2, fun h => a3.raised _ (g3 (by rw [← hlen] at h; exact h)),
      a4.trans (by rw [← hzz]; rfl), a5.trans (by rw [← hq]; rfl), ?_, ?_, ?_⟩
    · refine (map_number hring2).trans ?_
      unfold ringAppend
      rw [List.map_append]; rfl
    · obtain ⟨m, hm⟩ := getLast_mark hring2
      exact ⟨_, m, hm, rfl⟩
    · intro h
      have := a8 (hp h)
      rw [← hq, ← hRs]; exact this
    · refine (congrArg (fun k : Pku => k.lots.map (fun x => (x.tag, x.mask, x.dips, x.classifier))) a1).trans ?_
      show (s.pku.afterRecord s.cfg.params.lockCount d.lot _).lots.map _ = _
      unfold Pku.afterRecord
      split
      · rename_i h0; simp [h0]
      · rename_i h0
        rw [List.map_map]
        apply List.map_congr_left
        intro l _
        by_cases ht : l.tag = d.lot
        · simp [h0, ht, Lot.afterRecord, satNat]
        · simp [h0, ht]
    · intro w h0 hw e he
      have : e ∈ s.pku.recordEvents s.cfg.params.lockCount d.lot
          (makeRecord s.cfg.params s.pku d o).dipClass := by
        unfold Pku.recordEvents; rw [if_neg h0, hw]; exact he
      exact a3.raised _ (g1.raised _ (h3 e this))

/-- What follows a record keeps it: nothing that comes after moves the estimate, the ring or the queue, or clears an
event, and the lots lose no more than their marks. -/
theorem RecordMade.after {s t v : State} {d : DipCtx} {o : DipOutcome} {placed : Prop} (h : RecordMade s d o placed t)
    (hz : v.zbr = t.zbr) (hl : v.lif = t.lif) (he : EventsGrow t.spt v.spt)
    (hk : v.pku.lots.map (fun x => (x.tag, x.mask, x.dips, x.classifier)) =
      t.pku.lots.map (fun x => (x.tag, x.mask, x.dips, x.classifier))) : RecordMade s d o placed v := by
  obtain ⟨h1, h2, h3, h4, h5, h6, h7, h8, h9, h10⟩ := h
  rw [← hz] at h1 h2 h3 h6 h7
  rw [← hl] at h8
  exact ⟨h1, h2, h3, he.raised _ h4, fun h => he.raised _ (h5 h), h6, h7, h8, hk.trans h9,
    fun x h0 hx e hm => he.raised _ (h10 x h0 hx e hm)⟩

/-- The return to IDLE clears the marks of the lots in use and nothing else of them. -/
theorem returnIdle_lots (s : State) : s.returnIdle.pku.lots.map (fun x => (x.tag, x.mask, x.dips, x.classifier)) =
    s.pku.lots.map (fun x => (x.tag, x.mask, x.dips, x.classifier)) := by
  show (s.pku.lots.map _).map _ = _
  rw [List.map_map]; rfl

/-! ### The record and a claim that stands still -/

/-- A held span, or no claim. -/
def ClaimState.isSettled (c : ClaimState) : Prop := c.isHeld = true ∨ c = .none

/-- What the record leaves while the claim is settled. -/
structure RecordAside (s t : State) : Prop where
  scu : t.scu = s.scu
  dsq : t.dsq = s.dsq
  mpt : t.mpt = s.mpt
  wch : t.wch = s.wch
  hwn : t.hwn = s.hwn
  now : t.now = s.now

theorem RecordAside.trans {s t u : State} (h : RecordAside s t) (k : RecordAside t u) : RecordAside s u :=
  ⟨k.scu.trans h.scu, k.dsq.trans h.dsq, k.mpt.trans h.mpt, k.wch.trans h.wch, k.hwn.trans h.hwn, k.now.trans h.now⟩

theorem zincNotice_settled (s : State) (h : s.scu.state.isSettled) : s.zincNotice = s := by
  unfold State.zincNotice State.evalStart State.withdrawIntent
  rcases h with h | h <;> cases hs : s.scu.state <;> simp [hs, ClaimState.isHeld] at h ⊢

theorem evalLevel_settled (s : State) (h : s.scu.state.isSettled) : RecordAside s s.evalLevel := by
  unfold State.evalLevel
  split
  · exact ⟨rfl, rfl, rfl, rfl, rfl, rfl⟩
  · simp only
    generalize nextLevel s.zbr.level s.zbr.z s.cfg.params.zStop s.cfg.params.zLow = l
    obtain ⟨x, h1, -, -⟩ := raiseAll_eq (s.withZbr { s.zbr with level := l }) (levelEvents s.zbr.level l)
    rw [h1]
    split
    · exact ⟨rfl, rfl, rfl, rfl, rfl, rfl⟩
    · rw [zincNotice_settled _ (by exact h)]; exact ⟨rfl, rfl, rfl, rfl, rfl, rfl⟩

/-- A PICKUP that finds no room drops itself or the BEACON, and its own drop marks the ring alone. -/
theorem offerFrame_pickup (s : State) (q : BitVec 16) (n : Nat) (k : Option SteelClass) (x : BitVec 32) :
    RecordAside s (s.offer (.pickup q n k x)) := by
  have key : (s.lif.place (.pickup q n k x)).2 = none ∨
      (s.lif.place (.pickup q n k x)).2 = some (.pickup q n k x) ∨
      (s.lif.place (.pickup q n k x)).2 = some .beacon := by
    unfold Lif.place
    rw [if_neg (by simp)]
    split
    · exact Or.inl rfl
    · split
      · rename_i v _
        split
        · rename_i hu
          right; right
          cases v <;> simp [TxFrame.urgency] at hu ⊢
        · exact Or.inr (Or.inl rfl)
      · exact Or.inr (Or.inl rfl)
  unfold State.offer State.offerBase
  generalize s.lif.place (.pickup q n k x) = p at key
  obtain ⟨l, f⟩ := p
  rcases key with h1 | h1 | h1 <;> simp only at h1 <;> subst h1 <;> exact ⟨rfl, rfl, rfl, rfl, rfl, rfl⟩

/-- While the claim is settled, a record moves neither the claim, nor the dip, the drive, the channel or the window. -/
theorem createRecord_settled (s : State) (o : DipOutcome) (h : s.scu.state.isSettled) :
    RecordAside s (s.createRecord o) := by
  unfold State.createRecord
  split
  · split
    · exact ⟨rfl, rfl, rfl, rfl, rfl, rfl⟩
    · rename_i c _ _
      unfold State.recordDip
      generalize makeRecord _ _ _ _ = r
      simp only
      obtain ⟨x, h1, -, -⟩ := raiseAll_eq (s.withPku (s.pku.afterRecord s.cfg.params.lockCount c.lot r.dipClass))
        (s.pku.recordEvents s.cfg.params.lockCount c.lot r.dipClass)
      rw [h1]
      obtain ⟨y, -, -, -, h5⟩ := appendRecord_eq
        ((s.withPku (s.pku.afterRecord s.cfg.params.lockCount c.lot r.dipClass)).withSpt x) r
      rw [h5]
      generalize hv : State.withSpt _ y = v
      have e : RecordAside s v := by rw [← hv]; exact ⟨rfl, rfl, rfl, rfl, rfl, rfl⟩
      have hs : v.scu.state.isSettled := by rw [e.scu]; exact h
      have f := evalLevel_settled (v.withZbr { v.zbr with z := v.zbr.z - r.consumption }) hs
      have f2 : RecordAside v (v.consume r.consumption) := ⟨f.scu, f.dsq, f.mpt, f.wch, f.hwn, f.now⟩
      have g := offerFrame_pickup ((v.consume r.consumption).withZbr
        { (v.consume r.consumption).zbr with ownSeq := (v.consume r.consumption).zbr.ownSeq + 1 })
        v.zbr.ownSeq r.consumption (reportedClass r.dipClass) r.serial
      exact (e.trans f2).trans ⟨g.scu, g.dsq, g.mpt, g.wch, g.hwn, g.now⟩
  · exact ⟨rfl, rfl, rfl, rfl, rfl, rfl⟩

/-- A frame leaves the queue at an offer because it is the one offered, or a less urgent one (R18). -/
theorem place_dropped (l : Lif) (f g : TxFrame) (h : (l.place f).2 = some g) : g = f ∨ f.urgency < g.urgency := by
  unfold Lif.place at h
  split at h
  · cases h
  · split at h
    · cases h
    · split at h
      · split at h
        · rename_i hu; cases h; exact Or.inr hu
        · cases h; exact Or.inl rfl
      · cases h; exact Or.inl rfl

/-- While the claim is settled, no offer but that of a HOLD moves it. -/
theorem offerBase_scu_settled (s : State) (f : TxFrame) (h : s.scu.state ≠ .pending) (hf : ∀ sp n, f ≠ .hold sp n) :
    (s.offerBase f).scu = s.scu := by
  unfold State.offerBase
  have hd := place_dropped s.lif f
  generalize s.lif.place f = r at hd
  obtain ⟨l, g⟩ := r
  cases g with
  | none => rfl
  | some g =>
    cases g <;> simp only [State.reportDrop] <;> try rfl
    · rcases hd _ rfl with e | e
      · exact absurd e.symm (hf _ _)
      · cases f <;> simp [TxFrame.urgency] at e
    · unfold State.intentGone
      rw [if_neg (fun e => h e.1)]; rfl

theorem offer_settled (s : State) (f : TxFrame) (h : s.scu.state.isSettled) (hf : ∀ sp n, f ≠ .hold sp n) :
    s.offer f = s.offerBase f := by
  have hp : s.scu.state ≠ .pending ∧ s.scu.state ≠ .blocked := by
    rcases h with h | h <;> cases hs : s.scu.state <;> simp [hs, ClaimState.isHeld] at h ⊢
  unfold State.offer
  split
  · unfold State.evalStart
    rw [offerBase_scu_settled s f hp.1 hf]
    split
    · rename_i e _; exact absurd e hp.2
    · rfl
  · rfl

theorem offer_scu_settled (s : State) (f : TxFrame) (h : s.scu.state.isSettled) (hf : ∀ sp n, f ≠ .hold sp n) :
    (s.offer f).scu = s.scu := by
  rw [offer_settled s f h hf]
  refine offerBase_scu_settled s f ?_ hf
  rcases h with h | h <;> cases hs : s.scu.state <;> simp [hs, ClaimState.isHeld] at h ⊢

/-- While the claim is settled, a record fills at most one place more: that of its PICKUP. -/
theorem createRecord_places (s : State) (o : DipOutcome) (h : s.scu.state.isSettled) :
    (s.createRecord o).lif.places ≤ s.lif.places + 1 := by
  unfold State.createRecord
  split
  · split
    · exact Nat.le_succ _
    · rename_i c _ _
      unfold State.recordDip
      generalize makeRecord _ _ _ _ = r
      simp only
      obtain ⟨x, h1, -, -⟩ := raiseAll_eq (s.withPku (s.pku.afterRecord s.cfg.params.lockCount c.lot r.dipClass))
        (s.pku.recordEvents s.cfg.params.lockCount c.lot r.dipClass)
      rw [h1]
      obtain ⟨y, -, -, -, h5⟩ := appendRecord_eq
        ((s.withPku (s.pku.afterRecord s.cfg.params.lockCount c.lot r.dipClass)).withSpt x) r
      rw [h5]
      generalize hv : State.withSpt _ y = v
      have hl : v.lif = s.lif := by rw [← hv]; rfl
      have hs : v.scu = s.scu := by rw [← hv]; rfl
      have hc : (v.consume r.consumption).lif = v.lif ∧ (v.consume r.consumption).scu = v.scu := by
        obtain ⟨l, z, -, -, e⟩ := putZ_eq v (v.zbr.z - r.consumption)
        show (v.putZ _).lif = _ ∧ (v.putZ _).scu = _
        rcases e with e | e <;> rw [e]
        · exact ⟨rfl, rfl⟩
        · rw [zincNotice_settled _ (by show v.scu.state.isSettled; rw [hs]; exact h)]; exact ⟨rfl, rfl⟩
      unfold State.offerPickup
      simp only
      rw [offer_settled _ _ (by show (v.consume r.consumption).scu.state.isSettled; rw [hc.2, hs]; exact h) (by simp)]
      refine Nat.le_trans (offerBase_places _ _) ?_
      show (v.consume r.consumption).lif.places + 1 ≤ _
      rw [hc.1, hl]
  · exact Nat.le_succ _

/-! ### Giving a held span back -/

/-- A release of a span that is held and not yet given back: RELEASING with the own entry, the guard stopped, and with
room the FREE of the claim number in the queue (R55). -/
theorem releaseSpan_held (s : State) (own : OwnEntry) (ho : s.scu.own = some own)
    (hs : s.scu.state = .claimingHoldQueued ∨ s.scu.state = .guard ∨ s.scu.state = .firm) :
    s.releaseSpan.scu.state = .releasing ∧ s.releaseSpan.scu.own = some own ∧ s.releaseSpan.scu.guardEnd = none ∧
      (s.lif.places < 8 → s.releaseSpan.lif.holds (· == .free own.claim) = true) := by
  have e : s.releaseSpan = s.startRelease := by unfold State.releaseSpan; rcases hs with h | h | h <;> rw [h]
  have hset : s.scu.state.isSettled := Or.inl (by rcases hs with h | h | h <;> rw [h] <;> rfl)
  have hoc : s.ownClaim = own.claim := by unfold State.ownClaim; rw [ho]; rfl
  have hown : ∀ (c : Scu) (n : Nat), (c.stopBlocked n).own = c.own := by
    intro c n; unfold Scu.stopBlocked; split <;> rfl
  rw [e]
  refine ⟨rfl, ?_, rfl, ?_⟩
  · show (Scu.stopBlocked _ _).own = _
    rw [hown, offer_scu_settled _ _ hset (by simp), ho]
  · intro hp
    show (s.offer _).lif.holds _ = true
    rw [offer_holds _ _ _ hp (by simp), hoc]; simp

/-- A release in RELEASING and in NONE changes nothing (R55). -/
theorem releaseSpan_stands (s : State) (hs : s.scu.state = .releasing ∨ s.scu.state = .none) : s.releaseSpan = s := by
  unfold State.releaseSpan; rcases hs with h | h <;> rw [h]

/-! ### Cancelling an open claim before the record -/

theorem endClaim_places (s : State) : s.endClaim.lif.places ≤ s.lif.places + 1 := by
  unfold State.endClaim
  split
  · exact Nat.le_succ _
  · exact evalStart_places _

/-- A cancel fills at most two places: its YIELD, and the INTENT of a held request. -/
theorem cancelClaim_places (s : State) (h : s.scu.state.isOpen = true) :
    s.cancelClaim.lif.places ≤ s.lif.places + 1 + 1 := by
  unfold State.cancelClaim
  cases hs : s.scu.state <;> simp only [hs, ClaimState.isOpen] at h ⊢
  any_goals cases h
  · exact Nat.le_succ_of_le (endClaim_places s)
  · cases s.scu.withdrawal <;> simp only
    · generalize hr : s.lif.withdraw s.ownClaim = r
      have hp := withdraw_places s.lif s.ownClaim
      rw [hr] at hp
      obtain ⟨l, a⟩ := r
      simp only at hp
      cases a <;> simp only
      · exact Nat.le_trans (endClaim_places _) (by show l.places + 1 ≤ _; omega)
      · show l.places ≤ _; omega
      · show l.places ≤ _; omega
    · show s.lif.places ≤ _; omega
    · show s.lif.places ≤ _; omega
  · refine Nat.le_trans (endClaim_places _) (Nat.succ_le_succ ?_)
    unfold State.offer
    split
    · rw [evalStart_still]
      · exact offerBase_places _ _
      · rw [offerBase_scu _ _ (by rw [hs]; rfl), hs]; rfl
    · exact offerBase_places _ _
  · exact Nat.le_succ_of_le (endClaim_places s)

theorem evalStart_blocked (s : State) (h : s.scu.state = .blocked) : s.evalStart.scu.state.isHeld = false := by
  unfold State.evalStart
  split
  · split
    · unfold State.startClaim State.offerBase
      generalize Lif.place _ _ = r
      obtain ⟨l, f⟩ := r
      cases f with
      | none => rfl
      | some g =>
        cases g <;> simp only [State.reportDrop] <;> try rfl
        unfold State.intentGone; split <;> rfl
    · rw [h]; rfl
  · rw [h]; rfl

theorem endClaim_open (s : State) : s.endClaim.scu.state.isHeld = false := by
  unfold State.endClaim
  split
  · rfl
  · exact evalStart_blocked _ rfl

/-- A cancelled claim that was open holds no span. -/
theorem cancelClaim_open (s : State) (h : s.scu.state.isOpen = true) : s.cancelClaim.scu.state.isHeld = false := by
  have hw : ∀ u : State, u.scu.state = .pending → u.awaitCancel.scu.state.isHeld = false := by
    intro u hu
    show (Scu.stopBlocked u.scu u.now).state.isHeld = false
    unfold Scu.stopBlocked
    split <;> (show u.scu.state.isHeld = false; rw [hu]; rfl)
  unfold State.cancelClaim
  cases hs : s.scu.state <;> simp only [hs, ClaimState.isOpen] at h ⊢
  any_goals cases h
  · exact endClaim_open s
  · cases s.scu.withdrawal <;> simp only
    · generalize s.lif.withdraw s.ownClaim = r
      obtain ⟨l, a⟩ := r
      cases a
      · exact endClaim_open _
      · exact hw _ hs
      · exact hw _ hs
    · exact hw s hs
    · rfl
  · exact endClaim_open _
  · exact endClaim_open s

/-- A BLOCKED claim, one in its window and one in RETRY end in NONE where no request is held. -/
theorem cancelClaim_none (s : State)
    (h : s.scu.state = .blocked ∨ s.scu.state = .retry ∨ s.scu.state = .claimingWindow) (hh : s.scu.held = none) :
    s.cancelClaim.scu.state = .none := by
  unfold State.cancelClaim
  rcases h with h | h | h <;> rw [h] <;> simp only
  · unfold State.endClaim; rw [hh]; rfl
  · unfold State.endClaim; rw [hh]; rfl
  · unfold State.endClaim; rw [offer_scu _ _ (by rw [h]; rfl), hh]; rfl

end Sys2Proof.Machine
end

