-- ==== Sys2Proof/Laws/Requests.lean ====
section
/-! SUPPORT. The exchange on the station port in one lemma each way: what taking a fresh request and a repeat gives, and
what the decoder answers. -/

namespace Sys2Proof.Machine

theorem repeatOf_fresh (s : State) (tag code : Byte) (h : s.isFresh tag code) : s.spt.repeatOf tag code = none := by
  unfold Spt.repeatOf
  split
  · rename_i r hr
    rw [if_neg]
    rintro ⟨h1, h2⟩
    exact h r hr h1 h2
  · rfl

/-- A fresh request is carried out and answered (R195). -/
theorem takeRequest_fresh (s : State) (tag code : Byte) (act : State → State × List Byte) (h : s.isFresh tag code) :
    s.takeRequest tag code act = (act s).1.answered tag code (act s).2 := by
  unfold State.takeRequest
  rw [repeatOf_fresh s tag code h]
  rfl

/-- A repeat is answered with the stored response (R195). -/
theorem takeRequest_repeat (s : State) (tag code : Byte) (act : State → State × List Byte) (r : Response)
    (h : s.spt.store = some r) (ht : r.tag = tag) (hc : r.code = code) :
    s.takeRequest tag code act = { s with spt := { s.spt with responses := s.spt.responses ++ [r] } } := by
  unfold State.takeRequest Spt.repeatOf
  rw [h]
  simp only [ht, hc, and_self, if_true]
  rfl

/-- A request whose arguments agree with its code, in a mode it is taken in, reaches its owner (R196). -/
theorem request_taken {α : Type} (s : State) (tag : Byte) (code : Req) (a : α) (m : Modes)
    (owner : α → State → State × List Byte) (h : s.isFresh tag code.code) (hm : m.allow s.cfg.ready = true) :
    s.request tag code (some a) m owner = (owner a s).1.answered tag code.code (owner a s).2 := by
  unfold State.request
  rw [takeRequest_fresh s tag code.code _ h]
  simp only [decodeRequest, hm, if_true]

/-- A request in a mode it is not taken in is answered BAD_STATE (R196). -/
theorem request_badState {α : Type} (s : State) (tag : Byte) (code : Req) (a : α) (m : Modes)
    (owner : α → State → State × List Byte) (h : s.isFresh tag code.code) (hm : m.allow s.cfg.ready = false) :
    s.request tag code (some a) m owner = s.answered tag code.code [5] := by
  unfold State.request
  rw [takeRequest_fresh s tag code.code _ h]
  simp only [decodeRequest, hm, Bool.false_eq_true, if_false]
  rfl

/-- A request whose length does not agree with its code is answered BAD_ARG (R196). -/
theorem request_badLength {α : Type} (s : State) (tag : Byte) (code : Req) (m : Modes)
    (owner : α → State → State × List Byte) (h : s.isFresh tag code.code) :
    s.request tag code none m owner = s.answered tag code.code [4] := by
  unfold State.request
  rw [takeRequest_fresh s tag code.code _ h]
  rfl

end Sys2Proof.Machine
end

