-- ==== Sys2Proof/Laws/Steps.lean ====
section
/-! SUPPORT. Taking steps: what the end of a step comes to, by how the next step stands after it is taken (R103). -/

namespace Sys2Proof.Machine

/-- The state in which the current step of a dip has ended: the next step is current. -/
def State.atNext (s : State) (c : DipCtx) : State := s.withDsq { s.dsq with ctx := some c.next }

theorem advance_eq (s : State) (c : DipCtx) (h : s.dsq.ctx = some c) : s.advance = s.atNext c := by
  unfold State.advance State.modCtx State.atNext
  rw [h]
  rfl

theorem atNext_currentStep (s : State) (c : DipCtx) : (s.atNext c).currentStep = s.nextStep c := rfl

/-- The next step waits after it is taken. -/
theorem endStep_waits (s t : State) (c : DipCtx) (st : DipStep) (hc : s.dsq.ctx = some c)
    (hn : s.nextStep c = some st) (ht : (s.atNext c).takeStep st = (t, .waits)) : s.endStep = t := by
  unfold State.endStep
  rw [advance_eq s c hc]
  show State.runSteps (95 + 1) _ = t
  unfold State.runSteps
  rw [atNext_currentStep, hn]
  simp only [ht]

/-- The next step ends as it is taken, and the steps after it follow. -/
theorem endStep_ends (s t : State) (c : DipCtx) (st : DipStep) (hc : s.dsq.ctx = some c)
    (hn : s.nextStep c = some st) (ht : (s.atNext c).takeStep st = (t, .ends)) :
    s.endStep = State.runSteps 95 t.advance := by
  unfold State.endStep
  rw [advance_eq s c hc]
  show State.runSteps (95 + 1) _ = _
  rw [State.runSteps, atNext_currentStep, hn]
  simp only [ht]

/-- A dip whose first step waits after it is taken. -/
theorem runSteps_waits (s t : State) (n : Nat) (st : DipStep) (hn : s.currentStep = some st)
    (ht : s.takeStep st = (t, .waits)) : State.runSteps (n + 1) s = t := by
  unfold State.runSteps
  rw [hn]
  simp only [ht]

end Sys2Proof.Machine
end

