-- ==== Sys2Proof/Laws/Weigh.lean ====
section
/-! SUPPORT. Weigh results, said once: what a settle timeout and a completed block give, what a result does to the dip
context, and what follows it where the next step is a TRAVEL. -/

namespace Sys2Proof.Machine

/-! ### Results and the dip context -/

theorem weighed_settled (c : DipCtx) (m : Int) (o : Bool) :
    c.takeDry (.settled m o) = c.weighed false (some m) o false ∧
      c.takeWet (.settled m o) = c.weighed true (some m) o false := by
  simp [DipCtx.takeWet, DipCtx.takeDry, DipCtx.weighed]

theorem weighed_unsettled (c : DipCtx) (m : Int) (o : Bool) :
    c.takeDry (.unsettled m o) = c.weighed false (some m) o true ∧
      c.takeWet (.unsettled m o) = c.weighed true (some m) o true := by
  simp [DipCtx.takeWet, DipCtx.takeDry, DipCtx.weighed]

theorem weighed_noMass (c : DipCtx) :
    c.takeDry .noMass = c.weighed false none false false ∧ c.takeWet .noMass = c.weighed true none false false := by
  simp [DipCtx.takeWet, DipCtx.takeDry, DipCtx.weighed]

/-- A result on the mass of a WEIGH_DRY, or of a weigh-out where `out` is set (R104). -/
def DipCtx.takeMass (c : DipCtx) (out : Bool) (r : WeighResult) : DipCtx := if out then c.takeWet r else c.takeDry r

theorem takeMass_step (c : DipCtx) (out : Bool) (r : WeighResult) :
    (c.takeMass out r).slot = c.slot ∧ (c.takeMass out r).index = c.index := by
  cases out <;> cases r <;> exact ⟨rfl, rfl⟩

/-- The result of a weigh step that a TRAVEL follows: the context has it, the MOVE is handed over, nothing else moves. -/
theorem onWeighResult_travel (s : State) (c : DipCtx) (cell : Nat) (out : Bool) (r : WeighResult)
    (hc : s.dsq.ctx = some c) (hn : s.nextStep c = some (.travel cell)) (hp : s.dsq.position ≠ .below)
    (hd : s.dsq.state = (if out then .weighingOut else .weighingDry)) :
    s.onWeighResult r = { s with
      dsq := { s.dsq with state := .traveling, ctx := some (c.takeMass out r).next },
      mpt := s.mpt.handed (.move cell) } := by
  have e : s.onWeighResult r = (s.modCtx (fun c => c.takeMass out r)).endStep := by
    unfold State.onWeighResult
    rw [hd]; cases out <;> rfl
  rw [e]
  have hx : s.modCtx (fun c => c.takeMass out r) = s.withDsq { s.dsq with ctx := some (c.takeMass out r) } := by
    unfold State.modCtx; rw [hc]; rfl
  rw [hx]
  refine endStep_waits _ _ (c.takeMass out r) (.travel cell) rfl ?_ ?_
  · obtain ⟨h1, h2⟩ := takeMass_step c out r
    unfold State.nextStep at hn ⊢
    rw [h1, h2]; exact hn
  · unfold State.takeStep
    simp only
    rw [if_neg (by exact hp)]
    rfl

/-! ### A settle timeout -/

theorem newest_append (older bs : List Block) (k : Nat) (h : bs.length = k) : newest k (older ++ bs) = bs := by
  subst h; simp [newest]

theorem settleTimeoutResult_none (p : Params) (w : SettleTask) (h : List Block) (h0 : w.stepCount = 0) :
    settleTimeoutResult p w h = .noMass := by
  unfold settleTimeoutResult; rw [if_pos h0]

theorem settleTimeoutResult_some (p : Params) (w : SettleTask) (older bs : List Block) (h0 : w.stepCount ≠ 0)
    (hl : bs.length = min p.settleBlocks w.stepCount) :
    settleTimeoutResult p w (older ++ bs) =
      .unsettled (roundInt (bs.map Block.value).sum bs.length) (bs.any Block.overMark) := by
  unfold settleTimeoutResult
  rw [if_neg h0, newest_append older bs _ hl]
  simp [reading, meanOf]

/-! ### A completed block -/

/-- WCH with the block being formed completed by a valid sample, before the running task takes it (R142, R146, R147). -/
def State.blockDone (s : State) (raw : BitVec 24) : Wch :=
  { s.wch with transfer := false, lastSample := some ⟨raw, true⟩, lastValid := some (scale s.cfg.params raw),
               invalidRun := 0, forming := [], history := s.historyWith raw }

theorem settles_iff (s : State) (w : SettleTask) (older bs : List Block) (hl : bs.length = s.cfg.params.settleBlocks)
    (h2 : w.runCount < 255) :
    s.settles w bs ↔ s.cfg.params.settleBlocks ≤ satNat 255 (w.runCount + 1) ∧
      withinBand s.cfg.params.settleBand ((newest s.cfg.params.settleBlocks (older ++ bs)).map Block.value) = true := by
  rw [newest_append older bs _ hl, show satNat 255 (w.runCount + 1) = w.runCount + 1 by unfold satNat; omega]
  simp [State.settles, withinBand, List.all_eq_true]

/-- What a sample that completes a block comes to in a settle wait: the settled mass, or one block more counted. -/
theorem sampleTaken_settling (s : State) (status : Byte) (raw : BitVec 24) (w : SettleTask) (older bs : List Block)
    (h : s.completesBlock status) (ht : s.wch.task = .settle w) (hh : s.historyWith raw = older ++ bs)
    (hl : bs.length = s.cfg.params.settleBlocks) (h1 : w.stepCount < 255) (h2 : w.runCount < 255) :
    (s.settles w bs → exec (.sampleTaken status raw) s =
      .next ((s.withWch { s.blockDone raw with task := .none }).onWeighResult
        (.settled (roundInt (bs.map Block.value).sum bs.length) (bs.any Block.overMark)))) ∧
    (¬s.settles w bs → exec (.sampleTaken status raw) s =
      .next (s.withWch { s.blockDone raw with
        task := .settle { w with stepCount := w.stepCount + 1, runCount := w.runCount + 1 } })) := by
  obtain ⟨a1, a2, a3, a4⟩ := h
  have hv : sampleValid status = true := by unfold sampleValid; rw [a1, a2]; rfl
  have hs := settles_iff s w older bs hl h2
  rw [← hh] at hs
  have hex : exec (.sampleTaken status raw) s = .next (s.takeEffect (s.wch.valid s.cfg.params s.now raw)) := by
    show execSampleTaken _ _ _ = _
    unfold execSampleTaken; rw [hv]; rfl
  have heff : s.wch.valid s.cfg.params s.now raw =
      ⟨(match settleTest s.cfg.params { w with stepCount := satNat 255 (w.stepCount + 1),
                                               runCount := satNat 255 (w.runCount + 1) } (s.historyWith raw) with
        | some _ => { s.blockDone raw with task := .none }
        | none => { s.blockDone raw with task := .settle { w with stepCount := satNat 255 (w.stepCount + 1),
                                                                  runCount := satNat 255 (w.runCount + 1) } }),
        none,
        (settleTest s.cfg.params { w with stepCount := satNat 255 (w.stepCount + 1),
                                          runCount := satNat 255 (w.runCount + 1) } (s.historyWith raw)).map
          (fun r => .settled r.1 r.2)⟩ := by
    unfold Wch.valid
    simp only [a3, Bool.false_eq_true, if_false]
    rw [if_neg (by simp; omega)]
    unfold Wch.block
    simp only [ht]
    have hb : historyAppend s.wch.history (blockOf (s.wch.forming ++ [scale s.cfg.params raw]) s.now) =
        s.historyWith raw := rfl
    rw [hb]
    cases settleTest _ _ _ <;> simp only [State.blockDone, a3] <;> rfl
  rw [hex, heff]
  refine ⟨fun h => ?_, fun h => ?_⟩
  · have he : settleTest s.cfg.params { w with stepCount := satNat 255 (w.stepCount + 1),
                                               runCount := satNat 255 (w.runCount + 1) } (s.historyWith raw) =
        some (roundInt (bs.map Block.value).sum bs.length, bs.any Block.overMark) := by
      unfold settleTest
      rw [if_pos (hs.1 h), hh, newest_append older bs _ hl]
      simp [reading, meanOf]
    rw [he]; rfl
  · have he : settleTest s.cfg.params { w with stepCount := satNat 255 (w.stepCount + 1),
                                               runCount := satNat 255 (w.runCount + 1) } (s.historyWith raw) = none := by
      unfold settleTest
      rw [if_neg (fun k => h (hs.2 k))]
    rw [he, show satNat 255 (w.stepCount + 1) = w.stepCount + 1 by unfold satNat; omega,
      show satNat 255 (w.runCount + 1) = w.runCount + 1 by unfold satNat; omega]
    rfl

end Sys2Proof.Machine
end

