-- ==== Sys2Proof/WellFormed.lean ====
section
/-! DEFINITION. Which commands can arrive as the row they are named for: what the ports' layouts fix about a command
whatever the station's state is. What depends on the state (a cell within the sealed N, a parameter's range, the
station's mode) is tested by the command's meaning, which answers every command, well formed or not. -/

namespace Sys2Proof

/-- The largest argument body of a request frame: its 2-byte length counts the bytes from the tag through the body
(R211), and the tag and the code take two. -/
def maxBody : Nat := 65533

/-- The command has the form its row's layout gives it (R210, R211, R212). -/
def Instr.wellFormed (c : Instr) : Bool :=
  match c with
  | .powerOnReset => true
  | .requestFrameTimeout => true
  | .requestCheckFail => true
  | .unknownRequest _ code body => (code.toNat == 0 || decide (26 < code.toNat)) && decide (body.length ≤ maxBody)
  | .setParam _ body => decide (body.length ≤ maxBody)
  | .sealRequest _ body => decide (body.length ≤ maxBody)
  | .readParam _ body => decide (body.length ≤ maxBody)
  | .readStatus _ body => decide (body.length ≤ maxBody)
  | .readEvent _ body => decide (body.length ≤ maxBody)
  | .ackGroup _ body => decide (body.length ≤ maxBody)
  | .setEnable _ body => decide (body.length ≤ maxBody)
  | .powerInfo _ body => decide (body.length ≤ maxBody)
  | .loadProgram _ body => decide (body.length ≤ maxBody)
  | .readProgram _ body => decide (body.length ≤ maxBody)
  | .lotOpen _ body => decide (body.length ≤ maxBody)
  | .lotFix _ body => decide (body.length ≤ maxBody)
  | .lotFreeClass _ body => decide (body.length ≤ maxBody)
  | .readLots _ body => decide (body.length ≤ maxBody)
  | .startDip _ body => decide (body.length ≤ maxBody)
  | .abortDip _ body => decide (body.length ≤ maxBody)
  | .confirmClear _ body => decide (body.length ≤ maxBody)
  | .ingot _ body => decide (body.length ≤ maxBody)
  | .setBalance _ body => decide (body.length ≤ maxBody)
  | .readRecord _ body => decide (body.length ≤ maxBody)
  | .peekRecord _ body => decide (body.length ≤ maxBody)
  | .clearPeer _ body => decide (body.length ≤ maxBody)
  | .readPeers _ body => decide (body.length ≤ maxBody)
  | .readSpans _ body => decide (body.length ≤ maxBody)
  | .readHeat _ body => decide (body.length ≤ maxBody)
  | .stationReset _ body => decide (body.length ≤ maxBody)
  | .lineFrameDiscarded => true
  | .beaconFrame _ _ payload => payload.length == 4
  | .intentFrame _ _ payload => payload.length == 5
  | .holdFrame _ _ payload => payload.length == 4
  | .yieldFrame _ _ payload => payload.length == 1
  | .freeFrame _ _ payload => payload.length == 1
  | .entryFrame _ _ payload => payload.length == 3
  | .pickupFrame _ _ payload => payload.length == 6
  | .ingotFrame _ _ payload => payload.length == 2
  | .attemptStart => true
  | .collision => true
  | .deferTimeout => true
  | .backoffExpiry => true
  | .sendSuccess => true
  | .beaconTimerExpiry => true
  | .joinTimerExpiry => true
  | .clashTimerExpiry => true
  | .peerSilenceExpiry _ => true
  | .claimWindowExpiry => true
  | .guardExpiry => true
  | .retryDelayExpiry => true
  | .blockedLong => true
  | .intentLapse _ => true
  | .entryExpiry place => decide (place < 24)
  | .dwellExpiry => true
  | .abortDrainExpiry => true
  | .motionRequestSent => true
  | .motionAccept _ => true
  | .motionDone _ _ => true
  | .motionFail _ detail => decide (1 ≤ detail.toNat) && decide (detail.toNat ≤ 4)
  | .motionFrameDiscarded => true
  | .acceptTimeout => true
  | .doneTimeout => true
  | .stopAcceptTimeout => true
  | .pollTimer => true
  | .sampleTaken _ _ => true
  | .settleTimeout => true
  | .drainMinimum => true
  | .drainMaximum => true

end Sys2Proof
end

