-- ==== Sys2Proof/Tests/Slice0.lean ====
section
/-! SUPPORT. Tests of the model: ill-formed commands, the worked values of the spec, one step of the commands on small
states, and for every statement with hypotheses a state and operands that meet them. -/

namespace Sys2Proof.Tests

open Sys2Proof Sys2Proof.Machine

/-! ### Ill-formed commands are refused by the well-formedness check -/

theorem test_known_code_is_no_unknown_request : Instr.wellFormed (.unknownRequest 0 5 []) = false := by decide
theorem test_unknown_code_is_an_unknown_request :
    Instr.wellFormed (.unknownRequest 0 0 []) = true ∧ Instr.wellFormed (.unknownRequest 0 27 []) = true := by decide
theorem test_last_known_code_is_no_unknown_request : Instr.wellFormed (.unknownRequest 0 26 []) = false := by decide
theorem test_longest_body : ∀ n : Nat, n = 65533 →
    Instr.wellFormed (.setParam 0 (List.replicate n 0)) = true ∧
      Instr.wellFormed (.setParam 0 (List.replicate (n + 1) 0)) = false := by
  intro n h; subst h; simp only [Instr.wellFormed, List.length_replicate, maxBody]; decide
theorem test_beacon_length : Instr.wellFormed (.beaconFrame 1 0 [1, 0, 0]) = false := by decide
theorem test_intent_length : Instr.wellFormed (.intentFrame 1 0 [0, 0, 0, 0]) = false := by decide
theorem test_hold_length : Instr.wellFormed (.holdFrame 1 0 [0, 0, 0, 0, 0]) = false := by decide
theorem test_yield_length : Instr.wellFormed (.yieldFrame 1 0 []) = false := by decide
theorem test_free_length : Instr.wellFormed (.freeFrame 1 0 [1, 2]) = false := by decide
theorem test_entry_length : Instr.wellFormed (.entryFrame 1 0 [0, 0]) = false := by decide
theorem test_pickup_length : Instr.wellFormed (.pickupFrame 1 0 [0, 0, 0, 0, 0]) = false := by decide
theorem test_ingot_length : Instr.wellFormed (.ingotFrame 1 0 [10]) = false := by decide
theorem test_expiry_place : Instr.wellFormed (.entryExpiry 24) = false := by decide
theorem test_fail_detail :
    Instr.wellFormed (.motionFail 0 0) = false ∧ Instr.wellFormed (.motionFail 0 5) = false := by decide
theorem test_body_limit_of_every_request : ∀ body : List Byte, maxBody < body.length →
    ∀ c ∈ ([.sealRequest 0 body, .readParam 0 body, .readStatus 0 body, .readEvent 0 body, .ackGroup 0 body,
      .setEnable 0 body, .powerInfo 0 body, .loadProgram 0 body, .readProgram 0 body, .lotOpen 0 body, .lotFix 0 body,
      .lotFreeClass 0 body, .readLots 0 body, .startDip 0 body, .abortDip 0 body, .confirmClear 0 body, .ingot 0 body,
      .setBalance 0 body, .readRecord 0 body, .peekRecord 0 body, .clearPeer 0 body, .readPeers 0 body,
      .readSpans 0 body, .readHeat 0 body, .stationReset 0 body, .unknownRequest 0 0 body] : List Instr),
      c.wellFormed = false := by
  intro body h c hc
  have : decide (body.length ≤ maxBody) = false := by simpa using h
  simp only [List.mem_cons, List.not_mem_nil, or_false] at hc
  rcases hc with rfl | rfl | rfl | rfl | rfl | rfl | rfl | rfl | rfl | rfl | rfl | rfl | rfl | rfl | rfl | rfl | rfl |
    rfl | rfl | rfl | rfl | rfl | rfl | rfl | rfl | rfl <;> simp [Instr.wellFormed, this]

/-! ### Worked values of the spec -/

/-- The table of R41. -/
theorem test_wanted_spans :
    wantedSpan 40 2 (some 20) 6 false = some ⟨16, 25, false⟩ ∧ wantedSpan 40 2 (some 1) 3 false = some ⟨0, 4, false⟩ ∧
      wantedSpan 40 2 (some 39) 1 false = some ⟨37, 39, false⟩ ∧
      wantedSpan 40 2 (some 19) 40 false = some ⟨0, 39, false⟩ ∧ wantedSpan 40 2 (some 20) 40 false = none ∧
      wantedSpan 40 2 (some 38) 4 false = none ∧ wantedSpan 40 2 none 1 false = none ∧
      wantedSpan 40 2 none 0 true = some ⟨0, 39, true⟩ := by decide

/-- The table of R47. -/
theorem test_rotation_distances :
    (rotation 2 3, rotation 2 10) = (0, 7) ∧ (rotation 5 3, rotation 5 10) = (13, 4) ∧
      (rotation 9 3, rotation 9 10) = (9, 0) ∧ (rotation 3 3, rotation 3 10) = (15, 6) := by decide

/-- The table of R13. -/
theorem test_backoffs :
    backoffSlots 0 1 = 17 ∧ backoffSlots 7 2 = 40 ∧ backoffSlots 15 8 = 144 ∧ backoffSlots 15 15 = 256 := by decide

/-- The table of R164. -/
theorem test_expected_ratios :
    (SteelClass.all.map (fun c => expectedRatio Params.reset c 300)) = [60, 105, 185, 100, 255] ∧
      (SteelClass.all.map (fun c => expectedRatio Params.reset c 600)) = [75, 150, 275, 130, 380] := by decide

/-- The tie of R166, and the times of R161. -/
theorem test_tie_goes_to_the_lower_class :
    classify Params.reset 31 0 65 = .cls .r3 ∧ immersionSeconds 1485 = 149 ∧ immersionSeconds 20000 = 1800 := by decide

/-- The dip of section 6.9: masses 12,480 and 13,214, flux 8, pickup 834, ratio 67. -/
theorem test_worked_pickup :
    measuredYield 12480 13214 8 =
      { pickup := 834, ratio := some 67, negPickup := false, ratioSat := false, smallDry := false } := by decide

/-- The check value of the CRC of R210. -/
theorem test_crc_check_value : crc16 [0x31, 0x32, 0x33, 0x34, 0x35, 0x36, 0x37, 0x38, 0x39] = 0x29B1 := by decide +kernel

/-- A receiver's remainder over the kind to the end of the CRC is zero (R210). -/
theorem test_crc_remainder : crc16 (withCrc (lineBody 3 5 9 [22])) = 0 := by decide +kernel

/-- The record of the worked dip of section 6.9. -/
def workedRecord : DipRecord where
  number := 1
  outcome := .complete
  slot := 2
  lot := 315
  dry := some 12480
  wet := some 13214
  pickup := 834
  dross := 67
  consumption := 901
  ratio := some 67
  dipClass := some (.cls .r2)
  drossClass := .r2
  immersionTime := 3000
  immersions := 1
  drainTime := 750
  flags := ⟨false, false, false, false, false, false, false, false, false, false, false, false, false, false⟩
  serial := 1

/-- Its 37 bytes by the table of section 12.3. -/
theorem test_record_bytes :
    workedRecord.bytes =
      [0, 0, 0, 1, 0, 2, 1, 59, 1, 0, 48, 192, 1, 0, 51, 158, 0, 3, 66, 0, 67, 0, 3, 133, 1, 0, 67, 1, 1, 1, 11, 184, 1,
        2, 238, 0, 0] ∧ workedRecord.bytes.length = 37 := by decide +kernel

/-! ### Small states -/

/-- A commissioned station in READY on an ACTIVE line: ID 5, 40 cells, a balance of 300,000.0 kg. -/
def station : State where
  pending := []
  now := 10000
  draws := 0
  cfg := { ready := true, isSealed := true,
           params := { Params.reset with stationId := some 5, cells := some 40 } }
  lif := { Lif.reset with line := .active }
  ptb := Ptb.reset
  scu := Scu.reset
  hwn := Hwn.reset
  pgs := Pgs.reset
  dsq := Dsq.reset
  mpt := { Mpt.reset with hook := some 20 }
  wch := Wch.reset
  pku := Pku.reset
  zbr := { Zbr.reset with z := 3000000, unset := false }
  spt := Spt.reset

/-- A program in which every kind of step but VIBRATE and CHAIN stands once or more. -/
def tour : Program where
  continuation := false
  defaultClass := .r3
  flux := 8
  steps := [.travel 4, .weighDry 20, .travel 5, .claim 6 false, .travel 7, .lower 2400 3 1000, .dwell 300, .raise 2,
    .weighOut 30, .drain 60 300 20 5 5, .travel 39, .release, .finish]

/-- A program that begins with a dry weighing. -/
def weighFirst : Program where
  continuation := false
  defaultClass := .r2
  flux := 0
  steps := [.weighDry 20, .finish]

/-- The station with `tour` in slot 2 and `weighFirst` in slot 15. -/
def loaded : State :=
  station.withPgs { slots := (station.pgs.slots.setIfInBounds 2 (some tour)).setIfInBounds 15 (some weighFirst) }

/-- A dip of `tour` at a step. -/
def ctxAt (i : Nat) : DipCtx := { newContext 2 315 1300 tour false 1 with index := i }

/-- The station in that dip. -/
def dipping (d : DsqState) (i : Nat) (p : Position) : State :=
  loaded.withDsq { Dsq.reset with state := d, ctx := some (ctxAt i), position := p }

/-- The station with its claim in a state over the cells 17 to 24. -/
def claiming (s : State) (c : ClaimState) : State :=
  s.withScu { s.scu with state := c, wanted := some ⟨17, 24, false⟩, own := some ⟨22, 61⟩ }

/-- The station with its motion port in a phase. -/
def moving (s : State) (p : MptPhase) : State := s.withMpt { s.mpt with phase := p, counter := 8 }

/-- The station with a current frame in a phase after some failed attempts. -/
def sending (s : State) (f : TxFrame) (n : Nat) (p : TxPhase) : State :=
  s.withLif { s.lif with current := some { Current.start f with attempts := n, phase := p } }

/-- The station with the entry of peer 9 in its table, in a state. -/
def besideNine (s : State) (e : EntryState) (claim : Option Byte) : State :=
  s.withScu { s.scu with entries := [{ holder := 9, state := e, span := ⟨20, 27, false⟩, claim := claim, age := none,
                                       arrival := 9000, lapseEnd := some 11000, lastEntry := none }] }

/-- The record of peer 9. -/
def nine (p : Presence) (expected : Option (BitVec 16)) : Peer where
  id := 9
  presence := p
  lastArrival := 9000
  condition := .readyBusy
  lastSeq := 213
  expected := expected
  silenceEnd := some 11000

/-- The station with that record. -/
def hearingNine (s : State) (p : Presence) (expected : Option (BitVec 16)) : State :=
  s.withPtb { peers := [nine p expected] }

def lot (tag : Nat) (inUse : Bool) : Lot := { tag := tag, mask := 31, classifier := .search, dips := 3, inUse := inUse }

/-- The outcome's state; the station where there is none. -/
def after (o : Host.Outcome State Fault Refusal) : State :=
  match o with
  | .next s => s
  | _ => station

/-- The station in a dip of `tour`'s header whose DWELL, step 0, is followed by some steps; its dwell timer runs. -/
def dwellThen (steps : List DipStep) (p : Position) : State :=
  let t := loaded.withPgs { slots :=
    loaded.pgs.slots.setIfInBounds 2 (some { tour with steps := .dwell 300 :: steps }) }
  t.withDsq { Dsq.reset with state := .dwelling, ctx := some (ctxAt 0), position := p, dwellEnd := some 310000 }

/-- A dip context after some immersions. -/
def immersed (s : State) (n : Nat) : State := s.modCtx (fun c => { c with immersions := n })

/-- The station with some frames waiting. -/
def waiting (s : State) (fs : List TxFrame) : State := s.withLif { s.lif with waiting := fs }

theorem fresh (s : State) (tag code : Byte) (h : s.spt.store = none) : s.isFresh tag code := by
  intro r hr; rw [h] at hr; cases hr

/-! ### Each statement's hypotheses are met -/

theorem witness_StepTakesTheFrontCommand :
    (station.withPending [.pollTimer, .collision]).pending = .pollTimer :: [.collision] := rfl

theorem witness_EmptyQueueStepCountsTheTimeBase :
    (State.reset.pending = [] ∧ State.reset.due = []) ∧
      ((State.reset.withNow 20).pending = [] ∧ (State.reset.withNow 20).due ≠ []) := by decide +kernel

theorem witness_PowerOnResetTakesTheResetValues : exec .powerOnReset station = .next State.reset := rfl

theorem witness_StoresAreKeptByEveryStep : StoresOk station ∧ ∃ t, step station = .next t :=
  ⟨⟨⟨by decide, by decide⟩, ⟨by decide, by decide⟩, ⟨by decide, trivial⟩,
    ⟨by decide, by decide, fun l h => by cases h⟩, ⟨by decide, fun h => by cases h⟩⟩, _, rfl⟩

theorem witness_SealedSetAndProgramsAreFixed :
    (Instr.pollTimer ≠ .powerOnReset ∧ station.cfg.ready = true) ∧
      ∀ tag body, Instr.pollTimer ≠ .loadProgram tag body := by
  refine ⟨by decide +kernel, ?_⟩; intro _ _ h; cases h

theorem witness_EventFlagsStandUntilRead :
    Instr.pollTimer ≠ .powerOnReset ∧ ∀ tag body, Instr.pollTimer ≠ .readEvent tag body ∧
      Instr.pollTimer ≠ .ackGroup tag body ∧ Instr.pollTimer ≠ .setEnable tag body ∧
      Instr.pollTimer ≠ .stationReset tag body := by
  refine ⟨by decide, ?_⟩; intro _ _; refine ⟨?_, ?_, ?_, ?_⟩ <;> intro h <;> cases h

theorem witness_RepeatIsAnsweredFromTheStore :
    requestHead (.powerInfo 3 []) = some (3, 8) ∧
      (station.withSpt { Spt.reset with store := some ⟨3, 8, [0]⟩ }).spt.store = some ⟨3, 8, [0]⟩ ∧
      station.isFresh 3 8 := ⟨rfl, rfl, fresh _ _ _ rfl⟩

theorem witness_UnfittingRequestsHaveNoEffect :
    (station.isFresh 3 27 ∧ requestHead (.ingot 3 [1]) = some (3, 18) ∧ station.isFresh 3 18 ∧
      lengthAgrees (.ingot 3 [1]) = false ∧ lengthAgrees (.loadProgram 3 [0, 0, 1, 0, 1]) = false) ∧
    (∀ b ∈ ([0, 0x5A, 0xA4, 0xA6] : List Byte), b ≠ 0xA5) ∧ ([3, 8] : List Byte).length = beNat [0, 2] ∧
      crc16 [0, 2, 3, 8, 0, 0] ≠ 0 ∧ crc16 (withCrc [0, 2, 3, 8]) = 0 ∧ (withCrc [0, 2, 3, 8]).length = 6 :=
  ⟨⟨fresh _ _ _ rfl, rfl, fresh _ _ _ rfl, rfl, rfl⟩, by decide +kernel⟩

theorem witness_ModeNotShownIsBadState :
    (requestHead (.ingot 3 [0, 50]) = some (3, 18) ∧ State.reset.isFresh 3 18 ∧
      (∀ body, Instr.ingot 3 [0, 50] ≠ .unknownRequest 3 18 body) ∧ lengthAgrees (.ingot 3 [0, 50]) = true ∧
      codeAllowed State.reset.cfg.ready 18 = false) ∧
    requestHead (.sealRequest 3 []) = some (3, 2) ∧ station.isFresh 3 2 ∧
      (∀ body, Instr.sealRequest 3 [] ≠ .unknownRequest 3 2 body) ∧ lengthAgrees (.sealRequest 3 []) = true ∧
      codeAllowed station.cfg.ready 2 = false :=
  ⟨⟨rfl, fresh _ _ _ rfl, fun _ h => (by cases h), rfl, rfl⟩, rfl, fresh _ _ _ rfl, fun _ h => (by cases h), rfl, rfl⟩

theorem witness_SetParamWritesOneParameter :
    State.reset.asksSetup 3 1 ∧
      (paramKind 4 = some (.quantity 200 2000) ∧ (200 : Int) = max 200 (min 2000 (beInt32 [0, 0, 0, 199])) ∧
        (200 : Int) ≠ beInt32 [0, 0, 0, 199] ∧ (2000 : Int) = max 200 (min 2000 (beInt32 [0, 0, 7, 208]))) ∧
      (beInt32 [0, 0, 0, 0] = 0 ∧ beInt32 [0, 0, 0, 15] = 15) ∧ (beInt32 [0, 0, 0, 1] = 1 ∧ beInt32 [0, 0, 0, 31] = 31) ∧
      paramKind 25 = none ∧ 15 < beInt32 [0, 0, 0, 16] ∧ beInt32 [255, 255, 255, 255] < 0 ∧
      beInt32 [0, 0, 0, 0] < 1 ∧ 31 < beInt32 [0, 0, 0, 32] :=
  ⟨⟨rfl, fresh _ _ _ rfl⟩, by decide +kernel⟩

/-- A station in SETUP with parameters. -/
def setup (p : Params) : State := State.reset.withCfg { Cfg.reset with params := p }

theorem witness_SealRefusesTheFirstFailingCheck :
    (∀ p, (setup p).asksSetup 3 2) ∧ Params.reset.stationId = none ∧
      (let p := { Params.reset with stationId := some 5 }
       p.stationId ≠ none ∧ p.cells = none ∧
        (∃ q, q = { p with cells := some 16, margin := 4 } ∧ 16 ≤ 4 * q.margin) ∧
        (∃ q, q = { p with cells := some 16, zMax := 2000000 } ∧ 4 * q.margin < 16 ∧ q.zMax ≤ q.zLow) ∧
        ∃ q, q = { p with cells := some 16, zStop := 2000000 } ∧ 4 * q.margin < 16 ∧ q.zLow < q.zMax ∧
          q.zLow ≤ q.zStop) :=
  ⟨fun _ => ⟨rfl, fresh _ _ _ rfl⟩, rfl, by decide, rfl, ⟨_, rfl, by decide⟩, ⟨_, rfl, by decide, by decide⟩,
    ⟨_, rfl, by decide, by decide, by decide⟩⟩

theorem witness_SealJoinsTheLine :
    (setup { Params.reset with stationId := some 0, cells := some 17, margin := 4 }).asksSetup 3 2 ∧
      (4 * 4 < 17 ∧ Params.reset.zLow < Params.reset.zMax ∧ Params.reset.zStop < Params.reset.zLow) ∧
      State.reset.lif.waiting = [] ∧ State.reset.lif.current = none ∧ State.reset.scu.state = .none :=
  ⟨⟨rfl, fresh _ _ _ rfl⟩, by decide⟩

theorem witness_ReadingRequestsChangeNothing :
    station.isFresh 3 3 ∧ station.isFresh 3 4 ∧ station.asksReady 3 10 ∧ station.asksReady 3 14 ∧
      station.asksReady 3 23 ∧ station.asksReady 3 24 ∧ station.asksReady 3 25 :=
  ⟨fresh _ _ _ rfl, fresh _ _ _ rfl, ⟨rfl, fresh _ _ _ rfl⟩, ⟨rfl, fresh _ _ _ rfl⟩, ⟨rfl, fresh _ _ _ rfl⟩,
    ⟨rfl, fresh _ _ _ rfl⟩, rfl, fresh _ _ _ rfl⟩

theorem witness_PowerInfoGivesTheIdentity : State.reset.isFresh 3 8 ∧ station.isFresh 3 8 :=
  ⟨fresh _ _ _ rfl, fresh _ _ _ rfl⟩

theorem witness_ReadEventServesTheFirstPresentableEvent :
    let t := (station.raise .ingotHeard).raise .weighBack
    t.isFresh 3 5 ∧ (∀ h, 1 ≤ h → h < 3 → (t.spt.group h).presentable = 0) ∧
      (t.spt.group 3).presentable.getLsbD 0 = false ∧ (t.spt.group 3).presentable.getLsbD 1 = true ∧
      ∀ g, 1 ≤ g → g ≤ 4 → (station.spt.group g).presentable = 0 := by
  refine ⟨fresh _ _ _ rfl, ?_, by decide, by decide, ?_⟩
  · intro h h1 h2; obtain rfl | rfl : h = 1 ∨ h = 2 := by omega
    all_goals decide
  · intro g h1 h2; obtain rfl | rfl | rfl | rfl : g = 1 ∨ g = 2 ∨ g = 3 ∨ g = 4 := by omega
    all_goals decide

theorem witness_AckGroupAndSetEnable : station.isFresh 3 6 ∧ station.isFresh 3 7 :=
  ⟨fresh _ _ _ rfl, fresh _ _ _ rfl⟩

theorem witness_StationResetReturnsToRest :
    station.asksReady 3 26 ∧ (station.dsq.state = .idle ∧ station.scu.state = .none) ∧
      (dipping .halted 4 .above).asksReady 3 26 ∧ (dipping .halted 4 .above).dsq.state = .halted ∧
      (dipping .traveling 0 .clear).asksReady 3 26 ∧
      ¬(((dipping .traveling 0 .clear).dsq.state = .idle ∨ (dipping .traveling 0 .clear).dsq.state = .halted) ∧
        (dipping .traveling 0 .clear).scu.state = .none) ∧
      ¬((station.dsq.state = .idle ∨ station.dsq.state = .halted) ∧ (claiming station .releasing).scu.state = .none) :=
  ⟨⟨rfl, fresh _ _ _ rfl⟩, by decide, ⟨rfl, fresh _ _ _ rfl⟩, rfl, ⟨rfl, fresh _ _ _ rfl⟩, by decide, by decide⟩

theorem tour_ok : ProgramOk 40 tour := by
  refine ⟨by decide, by decide, ?_, ?_, ?_⟩
  · intro st h
    simp only [tour, List.mem_cons, List.not_mem_nil, or_false] at h
    rcases h with rfl | rfl | rfl | rfl | rfl | rfl | rfl | rfl | rfl | rfl | rfl | rfl | rfl <;> simp [StepOk]
  · intro i st h
    rcases i with _ | _ | _ | _ | _ | _ | _ | _ | _ | _ | _ | _ | _ | i <;> simp [tour] at h <;> subst h <;> decide
  · intro _ i st h
    rcases i with _ | _ | _ | _ | _ | _ | _ | _ | _ | _ | _ | _ | _ | i <;> simp [tour] at h <;> subst h <;>
      refine ⟨fun h => ?_, fun h => ?_⟩ <;> cases h
    · refine ⟨3, by decide, rfl, fun k h1 h2 => ?_⟩
      obtain rfl : k = 4 := by omega
      decide
    · exact ⟨3, by decide, rfl⟩

theorem witness_ValidProgramIsLoaded :
    station.asksReady 3 9 ∧ (15 : Byte).toNat ≤ 15 ∧ ProgramOk station.cells tour ∧ station.dsq.state = .idle ∧
      ∀ c, (dipping .traveling 0 .clear).dsq.ctx = some c → c.slot ≠ (15 : Byte).toNat :=
  ⟨⟨rfl, fresh _ _ _ rfl⟩, by decide, tour_ok, rfl, fun c h => by cases h; decide⟩

/-- The station with `tour` in slot 2 alone. -/
def holdingTour : State := station.withPgs { slots := station.pgs.slots.setIfInBounds 2 (some tour) }

theorem witness_LoadedProgramsAreValid :
    holdingTour.cfg.ready = true ∧ holdingTour.pgs.programAt 2 = some tour ∧
      (∀ slot p, holdingTour.pgs.programAt slot = some p → ProgramOk holdingTour.cells p) ∧
      ∃ t, step holdingTour = .next t := by
  refine ⟨rfl, by decide, ?_, _, rfl⟩
  intro slot p h
  have others : ∀ n, n < 16 → n ≠ 2 → holdingTour.pgs.programAt n = none := by decide
  by_cases h2 : slot = 2
  · subst h2; cases h; exact tour_ok
  · by_cases h16 : slot < 16
    · rw [others slot h16 h2] at h; cases h
    · have : holdingTour.pgs.slots[slot]? = none := by simpa using h16
      simp [Pgs.programAt, this] at h

/-- The station with lots. -/
def withLots (ls : List Lot) : State := loaded.withPku { lots := ls }

/-- Eight lots, the last two as told. -/
def eight (u v : Bool) : List Lot :=
  [lot 1 false, lot 2 false, lot 3 false, lot 4 false, lot 5 false, lot 6 false, lot 7 u, lot 8 v]

theorem eight_ok (u v : Bool) : LotsOk (withLots (eight u v)).pku := by
  refine ⟨Nat.le_refl 8, by cases u <;> cases v <;> decide, ?_⟩
  intro l h
  simp only [withLots, eight, State.withPku, List.mem_cons, List.not_mem_nil, or_false] at h
  rcases h with rfl | rfl | rfl | rfl | rfl | rfl | rfl | rfl <;> simp [lot]

theorem witness_LotOpenTakesPlaceOne :
    (∀ ls, (withLots ls).asksReady 3 11) ∧ beNat [0, 8] = 8 ∧ beNat [1, 59] = 315 ∧
      ((31 : Byte).extractLsb' 0 5 &&& ~~~loaded.cfg.params.mask = 0 ∧ 1 ≤ (1 : Byte).toNat ∧ (31 : Byte).toNat ≤ 31) ∧
      (LotsOk (withLots (eight false true)).pku ∧ lot 8 true ∈ eight false true ∧ lot 7 false ∈ eight false true) ∧
      (LotsOk (withLots []).pku ∧ 315 ∉ ([] : List Lot).map Lot.tag) ∧
      (315 ∉ (eight false false).map Lot.tag ∧
        eight false false = [lot 1 false, lot 2 false, lot 3 false, lot 4 false, lot 5 false, lot 6 false, lot 7 false]
          ++ [lot 8 false]) ∧
      eight false true = [lot 1 false, lot 2 false, lot 3 false, lot 4 false, lot 5 false, lot 6 false]
          ++ [lot 7 false, lot 8 true] :=
  ⟨fun _ => ⟨rfl, fresh _ _ _ rfl⟩, by decide, by decide, by decide, ⟨eight_ok _ _, by decide, by decide⟩,
    ⟨⟨by decide, by decide, fun _ h => by cases h⟩, by decide⟩, by decide, by decide⟩

theorem witness_LotFixAndFreeClassSetTheClassifier :
    LotsOk (withLots (eight false true)).pku ∧ (withLots (eight false true)).asksReady 3 12 ∧
      (withLots (eight false true)).asksReady 3 13 ∧ SteelClass.ofCode (1 : Byte).toNat = some .r2 ∧
      SteelClass.ofCode (5 : Byte).toNat = some .r6 ∧ lot 8 true ∈ eight false true ∧
      315 ∉ (eight false true).map Lot.tag :=
  ⟨eight_ok _ _, ⟨rfl, fresh _ _ _ rfl⟩, ⟨rfl, fresh _ _ _ rfl⟩, by decide, by decide, by decide, by decide⟩

theorem witness_StartDipCreatesTheContext :
    loaded.asksReady 3 15 ∧ 15 < (16 : Byte).toNat ∧ (dipping .halted 0 .clear).asksReady 3 15 ∧
      (dipping .halted 0 .clear).dsq.state ≠ .idle ∧
      (loaded.dsq.state = .idle ∧ loaded.pgs.programAt (0 : Byte).toNat = none) ∧
      loaded.pgs.programAt (15 : Byte).toNat = some weighFirst ∧ weighFirst.steps[0]? = some (.weighDry 20) ∧
      beNat [0, 0] = 0 ∧ beNat [1, 59] ≠ 0 :=
  ⟨⟨rfl, fresh _ _ _ rfl⟩, by decide, ⟨rfl, fresh _ _ _ rfl⟩, by decide, by decide, by decide, by decide, by decide,
    by decide⟩

/-- The lots that a START_DIP of tag 315 finds: the lot itself, a table with room, and full tables, the last lot in use or
not. -/
theorem witness_StartDipCreatesTheContext_lots :
    (withLots [lot 7 false, lot 315 false]).pku.lotOf (beNat [1, 59]) = some (lot 315 false) ∧
      (withLots []).pku.lotOf (beNat [1, 59]) = none ∧ (withLots []).pku.lots.length < 8 ∧
      (∀ b, 8 ≤ (withLots (eight false b)).pku.lots.length ∧
        (withLots (eight false b)).pku.lotOf (beNat [1, 59]) = none) ∧
      (withLots (eight false false)).pku.lots = (eight false false).take 7 ++ lot 8 false :: [] ∧
      (withLots (eight false true)).pku.lots = (eight false true).take 6 ++ lot 7 false :: [lot 8 true] ∧
      (∀ y ∈ [lot 8 true], y.inUse = true) := by decide

theorem working_at (s : State) (h : s.dsq.state ≠ .idle ∧ s.dsq.state ≠ .parked ∧ s.dsq.state ≠ .halted)
    (h1 : (match s.dsq.state with
      | .aborting _ => false
      | _ => true) = true) (h2 : s.dsq.state = .awaitRelease → s.scu.state.isHeld = false) : s.working := by
  refine ⟨h.1, h.2.1, h.2.2, fun p e => ?_, h2⟩
  rw [e] at h1; cases h1

/-- The states ABORT_DIP tells apart without a look at the load. -/
theorem witness_AbortDipByItsRows :
    (∀ d i p, (dipping d i p).asksReady 3 16) ∧ loaded.asksReady 3 16 ∧ loaded.dsq.state = .idle ∧
      (dipping (.aborting .draining) 5 .above).dsq.state = .aborting .draining ∧
      (dipping .parked 12 .above).dsq.state = .parked ∧ (dipping .halted 12 .above).dsq.state = .halted ∧
      ((claiming (dipping .awaitRelease 11 .above) .releasing).asksReady 3 16 ∧
        (claiming (dipping .awaitRelease 11 .above) .releasing).scu.state.isHeld = true) :=
  ⟨fun _ _ _ => ⟨rfl, fresh _ _ _ rfl⟩, ⟨rfl, fresh _ _ _ rfl⟩, rfl, rfl, rfl, rfl, ⟨rfl, fresh _ _ _ rfl⟩, rfl⟩

/-- The quick abort: a request outstanding; none, before and after an immersion; and a claim in each of its states. -/
theorem witness_AbortDipByItsRows_quick :
    (let t := moving (dipping .traveling 0 .clear) (.running (.move 4) 7)
     t.asksReady 3 16 ∧ t.working ∧ t.lowered = false ∧ t.mpt.phase.outstanding = some (.move 4, 7) ∧
      t.scu.state = .none ∧ t.scu.held = none) ∧
    (let t := dipping .weighingDry 1 .clear
     t.asksReady 3 16 ∧ t.working ∧ t.lowered = false ∧ t.mpt.phase.outstanding = none ∧ t.scu.state = .none ∧
      t.scu.held = none ∧ (ctxAt 1).immersions = 0) ∧
    (let t := immersed (dipping .weighingDry 1 .clear) 2
     t.asksReady 3 16 ∧ t.working ∧ t.lowered = false ∧ t.dsq.ctx.map DipCtx.immersions = some 2 ∧ t.lif.places < 5) ∧
    (∀ k, (claiming (dipping .awaitClaim 3 .clear) k).asksReady 3 16 ∧
      (claiming (dipping .awaitClaim 3 .clear) k).working ∧
      (claiming (dipping .awaitClaim 3 .clear) k).lowered = false ∧
      (claiming (dipping .awaitClaim 3 .clear) k).mpt.phase.outstanding = none ∧
      (claiming (dipping .awaitClaim 3 .clear) k).scu.state = k ∧
      (claiming (dipping .awaitClaim 3 .clear) k).scu.own = some ⟨22, 61⟩ ∧
      (claiming (dipping .awaitClaim 3 .clear) k).scu.held = none ∧
      (claiming (dipping .awaitClaim 3 .clear) k).scu.withdrawal = .none) ∧
    (waiting station [.intent ⟨17, 24, false⟩ 61 22]).lif.waiting.any (TxFrame.isIntentOf 22) = true ∧
    (let t := sending (claiming (dipping .awaitClaim 3 .clear) .pending) (.intent ⟨17, 24, false⟩ 61 22) 0 (.onLine [90])
     t.lif.waiting.any (TxFrame.isIntentOf 22) = false ∧
      t.lif.current.map (fun c => (c.frame.isIntentOf 22, c.phase)) = some (true, .onLine [90])) :=
  ⟨⟨⟨rfl, fresh _ _ _ rfl⟩, working_at _ (by decide) (by decide) (by decide), by decide⟩,
    ⟨⟨rfl, fresh _ _ _ rfl⟩, working_at _ (by decide) (by decide) (by decide), by decide⟩,
    ⟨⟨rfl, fresh _ _ _ rfl⟩, working_at _ (by decide) (by decide) (by decide), by decide⟩,
    fun k => ⟨⟨rfl, fresh _ _ _ rfl⟩, working_at _ (by cases k <;> decide) (by cases k <;> decide)
      (by cases k <;> decide), rfl, rfl, rfl, rfl, rfl, rfl⟩, by decide, by decide⟩

/-- The abort path, a state for each row. -/
theorem witness_AbortDipByItsRows_path :
    (∀ r, r = MptPhase.awaitAccept (.lower 2400 3) 7 ∨ r = .running (.lower 2400 3) 7 →
      (moving (dipping .lowering 5 .below) r).asksReady 3 16 ∧ (moving (dipping .lowering 5 .below) r).working ∧
      (moving (dipping .lowering 5 .below) r).lowered = true) ∧
    (moving (dipping .lowering 5 .clear) (.awaitAccept (.lower 2400 3) 7)).lowered = true ∧
    (∀ d, d = .dwelling ∨ d = .raising ∨ d = .draining ∨ d = .weighingDry ∨ d = .weighingOut ∨ d = .awaitClaim ∨
        d = .awaitLower ⟨2400, 3, 1000⟩ ∨ d = .awaitRelease ∨ d = .heatWait ⟨2400, 3, 1000⟩ →
      ∀ p, p = .below ∨ p = .above ∨ p = .unknown →
      (dipping d 6 p).asksReady 3 16 ∧ (dipping d 6 p).working ∧ (dipping d 6 p).lowered = true) ∧
    ∀ d, d = .vibrating ∨ d = .traveling →
      (moving (dipping d 6 .above) (.running (.vibrate 60) 7)).asksReady 3 16 ∧
      (moving (dipping d 6 .above) (.running (.vibrate 60) 7)).working ∧
      (moving (dipping d 6 .above) (.running (.vibrate 60) 7)).lowered = true ∧
      (moving (dipping d 6 .above) (.running (.vibrate 60) 7)).mpt.phase.outstanding = some (.vibrate 60, 7) := by
  refine ⟨?_, by decide, ?_, ?_⟩
  · rintro r (rfl | rfl) <;>
      exact ⟨⟨rfl, fresh _ _ _ rfl⟩, working_at _ (by decide) (by decide) (by decide), by decide⟩
  · rintro d (rfl | rfl | rfl | rfl | rfl | rfl | rfl | rfl | rfl) p (rfl | rfl | rfl) <;>
      exact ⟨⟨rfl, fresh _ _ _ rfl⟩, working_at _ (by decide) (by decide) (by decide), by decide⟩
  · rintro d (rfl | rfl) <;>
      exact ⟨⟨rfl, fresh _ _ _ rfl⟩, working_at _ (by decide) (by decide) (by decide), by decide⟩

/-- A dip halted after one immersion. -/
def haltedOnce : State :=
  (dipping .halted 7 .unknown).modCtx (fun c => { c with immersions := 1 })

theorem witness_ConfirmClearReturnsToIdle :
    loaded.asksReady 3 17 ∧ loaded.dsq.state ≠ .parked ∧ loaded.dsq.state ≠ .halted ∧
      ((claiming (dipping .parked 12 .above) .firm).asksReady 3 17 ∧
        (claiming (dipping .parked 12 .above) .firm).dsq.state = .parked ∧
        (claiming (dipping .parked 12 .above) .firm).scu.state = .firm) ∧
      (dipping .halted 3 .clear).asksReady 3 17 ∧ (ctxAt 3).immersions = 0 ∧ haltedOnce.asksReady 3 17 ∧
      haltedOnce.dsq.state = .halted ∧ haltedOnce.dsq.ctx.map DipCtx.immersions = some 1 :=
  ⟨⟨rfl, fresh _ _ _ rfl⟩, by decide, by decide, ⟨⟨rfl, fresh _ _ _ rfl⟩, rfl, rfl⟩, ⟨rfl, fresh _ _ _ rfl⟩, rfl,
    ⟨rfl, fresh _ _ _ rfl⟩, rfl, rfl⟩

/-- Every state of a held span, and of none, in PARKED and in HALTED. -/
theorem witness_ConfirmClearReturnsToIdle_release :
    ∀ d, d = .parked ∨ d = .halted → ∀ c, c = .claimingHoldQueued ∨ c = .guard ∨ c = .firm ∨ c = .releasing ∨ c = .none →
      let t := claiming (dipping d 12 .clear) c
      t.asksReady 3 17 ∧ t.dsq.state = d ∧ t.scu.state = c ∧ t.scu.own = some ⟨22, 61⟩ ∧ t.lif.places < 7 :=
  fun _ _ _ _ => ⟨⟨rfl, fresh _ _ _ rfl⟩, rfl, rfl, rfl, by show loaded.lif.places < 7; decide⟩

theorem witness_IngotRequestRaisesTheEstimate :
    station.asksReady 3 18 ∧ station.scu.state = .none ∧ station.lif.places < 8 := ⟨⟨rfl, fresh _ _ _ rfl⟩, rfl, by decide⟩

/-- A level in STOPPED and the estimate one below Z_low and at it: the two outcomes of the evaluation. -/
theorem witness_levelEvaluated :
    let t := station.withZbr { station.zbr with unset := false, level := .stopped }
    t.levelAt (t.cfg.params.zLow - 1) = .stopped ∧ t.levelAt t.cfg.params.zLow = .normal ∧ station.zbr.level = .normal ∧
      station.levelAt (t.cfg.params.zLow - 1) = .low ∧ station.levelAt (t.cfg.params.zStop - 1) = .stopped := by decide

theorem witness_SetBalanceSetsTheEstimate :
    station.asksReady 3 19 ∧ station.zbr.level = .normal ∧
      min station.cfg.params.zMax (beNat [0, 22, 227, 95]) < station.cfg.params.zStop :=
  ⟨⟨rfl, fresh _ _ _ rfl⟩, rfl, by decide⟩

theorem witness_ReadAndPeekTheOldestRecord :
    State.reset.asksSetup 3 20 ∧ State.reset.asksSetup 3 21 ∧ (station.asksReady 3 20 ∧ station.asksReady 3 21) ∧
      station.zbr.ring = [] ∧
      (let t := station.withZbr { station.zbr with ring := [workedRecord] }
       t.asksReady 3 20 ∧ t.asksReady 3 21 ∧ t.zbr.ring = workedRecord :: []) :=
  ⟨⟨rfl, fresh _ _ _ rfl⟩, ⟨rfl, fresh _ _ _ rfl⟩, ⟨⟨rfl, fresh _ _ _ rfl⟩, rfl, fresh _ _ _ rfl⟩, rfl,
    ⟨rfl, fresh _ _ _ rfl⟩, ⟨rfl, fresh _ _ _ rfl⟩, rfl⟩

theorem witness_ClearPeerRemovesASilentPeer :
    (∀ p e, (hearingNine station p e).asksReady 3 22) ∧ 15 < (16 : Byte).toNat ∧ BitVec.ofNat 4 5 = station.ownId ∧
      BitVec.ofNat 4 9 ≠ station.ownId ∧ (hearingNine station .silent none).ptb.recordOf 15 = none ∧
      (hearingNine station .present none).ptb.recordOf 9 = some (nine .present none) ∧
      (hearingNine station .silent none).ptb.recordOf 9 = some (nine .silent none) :=
  ⟨fun _ _ => ⟨rfl, fresh _ _ _ rfl⟩, by decide⟩

theorem witness_DiscardedFramesRaiseTheScore :
    (State.reset.lif.line = .off ∧ framePayload (.freeFrame 9 0 [1]) ≠ none) ∧
      (station.lif.line ≠ .off ∧ framePayload (.beaconFrame 9 0 [0, 0, 0, 0]) ≠ none ∧
        goodFrame station.cells (.beaconFrame 9 0 [0, 0, 0, 0]) = none) ∧
      (let t := station.withLif { station.lif with score := 60 }
       t.lif.line = .active ∧ 64 ≤ t.lif.score + 4) ∧
      (let t := station.withLif { station.lif with score := 59 }
       ¬(t.lif.line = .active ∧ 64 ≤ t.lif.score + 4) ∧ ¬(t.lif.line = .degraded ∧ t.lif.score + 4 ≤ 16)) := by decide

theorem witness_GoodFrameRefreshesItsPeer :
    goodFrame station.cells (.freeFrame 9 4 [1]) = some (9, 4) ∧ station.hears 9 ∧ station.hears 15 := by
  refine ⟨by decide, ⟨by decide, by decide⟩, by decide, by decide⟩

theorem witness_OwnIdFrameIsAClash :
    goodFrame station.cells (.freeFrame 5 4 [1]) = some (station.ownId, 4) ∧ station.lif.line ≠ .off := by decide

theorem nine_heard (s : State) (h : s.lif.line = .active) (i : s.cfg.params.stationId = some 5) : s.hears 9 := by
  refine ⟨?_, ?_⟩
  · rw [h]; decide
  · simp only [State.ownId, i]; decide

theorem witness_ForeignIntentAndHoldSetTheEntry :
    station.hears 9 ∧ SpanInRange station.cells 0 39 false ∧ SpanInRange station.cells 200 3 true :=
  ⟨nine_heard _ rfl rfl, Or.inr (by decide), Or.inl rfl⟩

/-- A claim BLOCKED by peer 9's entry alone. -/
def blockedByNine : State :=
  let t := claiming (besideNine station .held (some 7)) .blocked
  t.withScu { t.scu with own := none }

theorem witness_YieldOrFreeRemovesTheEntry :
    (∀ c, (besideNine station .held c).hears 9) ∧ ((besideNine station .stale none).scu.entryOf 9).isSome = true ∧
      ((besideNine station .held (some 7)).scu.entryOf 9).map PeerEntry.claim = some (some 7) ∧ (7 : Byte) ≠ 8 ∧
      station.scu.entryOf 9 = none ∧
      (blockedByNine.hears 9 ∧ blockedByNine.scu.state = .blocked ∧
        blockedByNine.scu.wanted = some ⟨17, 24, false⟩ ∧
        (∀ x ∈ blockedByNine.scu.entries, x.holder ≠ 9 → x.span.overlaps ⟨17, 24, false⟩ = false) ∧
        blockedByNine.lif.line = .active ∧ blockedByNine.lif.score ≤ 64 ∧ blockedByNine.lif.clashEnd = none ∧
        blockedByNine.zbr.level ≠ .stopped ∧ blockedByNine.lif.places < 8) :=
  ⟨fun _ => nine_heard _ rfl rfl, by decide, by decide, by decide, by decide, nine_heard _ rfl rfl, by decide, by decide,
    by decide, by decide, by decide, by decide, by decide, by decide⟩

theorem witness_ForeignHoldOnAFirmSpan :
    (let t := claiming (dipping .dwelling 6 .below) .firm
     t.hears 9 ∧ SpanInRange t.cells 20 27 false ∧ t.scu.state = .firm ∧ t.scu.wanted = some ⟨17, 24, false⟩ ∧
      Span.overlaps ⟨20, 27, false⟩ ⟨17, 24, false⟩ = true ∧ t.dsq.state ≠ .parked ∧ t.dsq.state ≠ .halted ∧
      t.lowered = true) ∧
    (∀ d, d = .traveling ∨ d = .heatWait ⟨2400, 3, 1000⟩ ∨ d = .parked ∨ d = .halted →
      let t := claiming (dipping d 4 .clear) .firm
      t.lowered = false ∧ t.ownId.toNat < (9 : StationId).toNat ∧ (4 : StationId).toNat < t.ownId.toNat ∧
        t.dsq.state = d ∧ t.scu.own = some ⟨22, 61⟩ ∧ t.scu.held = none ∧ t.lif.places < 8) :=
  ⟨⟨nine_heard _ rfl rfl, Or.inr (by decide), by decide⟩, by
    intro d h; rcases h with rfl | rfl | rfl | rfl <;> decide⟩

theorem witness_OutrankedClaimYields :
    let t := claiming (dipping .awaitClaim 3 .clear) .claimingWindow
    t.hears 9 ∧ SpanInRange t.cells 20 27 false ∧ t.scu.state = .claimingWindow ∧
      t.scu.wanted = some ⟨17, 24, false⟩ ∧ t.scu.own = some ⟨22, 61⟩ ∧
      Span.overlaps ⟨20, 27, false⟩ ⟨17, 24, false⟩ = true ∧ (61 < (62 : Byte).toNat) ∧ t.lif.places < 8 ∧
      ¬((9 : StationId) - (t.scu.lastEntry + 1)).toNat < (t.ownId - (t.scu.lastEntry + 1)).toNat :=
  ⟨nine_heard _ rfl rfl, Or.inr (by decide), by decide⟩

theorem witness_PeerEntryEntersTheWindow :
    station.hears 9 ∧ beNat [31, 64] = 8000 ∧ ((1 : Byte).toNat = 1 ∨ (1 : Byte).toNat = 2) ∧
      ((2 : Byte).toNat = 1 ∨ (2 : Byte).toNat = 2) ∧ station.hwn.entries.length < 24 ∧
      (let e : HeatEntry := { src := 9, mass := 60000, arrival := 0, index := 1, merges := 255 }
       List.replicate 24 e = List.replicate 23 e ++ [e]) :=
  ⟨nine_heard _ rfl rfl, by decide, by decide, by decide, by decide, by decide⟩

theorem witness_PickupLowersTheEstimate :
    (∀ e, (hearingNine station .present e).hears 9) ∧ beNat [1, 255, 254] = 131070 ∧ (5 : Byte).toNat ≤ 5 ∧
      ((hearingNine station .present (some 58)).ptb.recordOf 9).bind Peer.expected =
        some (BitVec.ofNat 16 (beNat [0, 57]) + 1) ∧
      ((hearingNine station .present (some 58)).ptb.recordOf 9).bind Peer.expected ≠
        some (BitVec.ofNat 16 (beNat [0, 58]) + 1) ∧
      (58 : BitVec 16) ≠ BitVec.ofNat 16 (beNat [0, 0]) ∧ (58 : BitVec 16) ≠ BitVec.ofNat 16 (beNat [0, 0]) + 1 :=
  ⟨fun _ => nine_heard _ rfl rfl, by decide, by decide, by decide, by decide, by decide, by decide⟩

theorem witness_HeardIngotRaisesTheEstimate :
    station.hears 9 ∧ 10 ≤ beNat [0, 10] ∧ beNat [195, 80] ≤ 50000 := ⟨nine_heard _ rfl rfl, by decide, by decide⟩

theorem witness_BeaconReconcilesTheEntry :
    (∀ e, (besideNine station e none).hears 9) ∧
      (decodeBeacon 40 [1, 0, 0, 15]).map BeaconInfo.spanState = some .none ∧
      (decodeBeacon 40 [18, 20, 27, 15]).map (fun b => (b.spanState, b.span)) = some (.intent, ⟨20, 27, false⟩) ∧
      (decodeBeacon 40 [34, 20, 27, 15]).map (fun b => (b.spanState, b.span)) = some (.held, ⟨20, 27, false⟩) ∧
      (decodeBeacon 40 [98, 0, 39, 15]).map (fun b => (b.spanState, b.span)) = some (.held, ⟨0, 39, true⟩) ∧
      (((besideNine station .intent none).scu.entryOf 9).map (fun e => (e.state, e.span)) =
        some (.intent, ⟨20, 27, false⟩)) ∧
      (((besideNine station .held none).scu.entryOf 9).map (fun e => (e.state, e.span)) =
        some (.held, ⟨20, 27, false⟩)) :=
  ⟨fun _ => nine_heard _ rfl rfl, by decide, by decide, by decide, by decide, by decide, by decide⟩

theorem witness_AttemptDrivesTheCurrentFrame :
    (let t := sending station .beacon 0 .deferring
     (TxFrame.beacon.isIntent = false) ∧ t.lif.current = some (Current.start .beacon)) ∧
    (let t := sending station (.intent ⟨17, 24, false⟩ 61 22) 2 (.backoff 38)
     t.lif.line = .active ∧ t.lif.clashEnd = none ∧ (TxFrame.intent ⟨17, 24, false⟩ 61 22).isIntent = true ∧
      t.lif.current.map Current.phase = some (.backoff 38)) ∧
    (let t := sending (station.withLif { station.lif with line := .degraded }) (.intent ⟨17, 24, false⟩ 61 22) 2 .deferring
     ¬(t.lif.line = .active ∧ t.lif.clashEnd = none) ∧ t.lif.current.map Current.phase = some .deferring) ∧
    ((∀ g ∈ [TxFrame.hold ⟨17, 24, false⟩ 22], g.urgency < (TxFrame.intent ⟨17, 24, false⟩ 61 22).urgency) ∧
      ∀ g ∈ [TxFrame.intent ⟨0, 4, false⟩ 3 21, .beacon],
        (TxFrame.intent ⟨17, 24, false⟩ 61 22).urgency ≤ g.urgency) ∧
    ((0 : Nat) < 16 ∧ 15 < 16) := by decide

theorem witness_FailedAttemptBacksOffOrFaults :
    ∀ n, n = 14 ∨ n = 15 →
      (let t := sending station .beacon n (.onLine [90])
       t.lif.current = some { Current.start .beacon with attempts := n, phase := .onLine [90] }) ∧
      (let t := sending station .beacon n .deferring
       t.lif.current = some { Current.start .beacon with attempts := n, phase := .deferring }) ∧
      (Current.start .beacon).withdrawHeld = false ∧ (Current.start .beacon).removeOnFail = false := by
  intro n _; exact ⟨rfl, rfl, rfl, rfl⟩

/-- The frames whose discard is reported, each with its claim; two releases; and a withdrawal of each kind. -/
theorem witness_FailedAttemptBacksOffOrFaults_reports :
    (let t := sending (claiming station .claimingHoldQueued) (.hold ⟨17, 24, false⟩ 22) 15 .deferring
     t.scu.own = some ⟨22, 61⟩ ∧ t.scu.state = .claimingHoldQueued ∧ t.lif.places ≤ 8) ∧
    (let t := sending (claiming station .pending) (.intent ⟨17, 24, false⟩ 61 22) 15 .deferring
     t.scu.own = some ⟨22, 61⟩ ∧ t.scu.state = .pending) ∧
    (∀ f, (sending station f 15 .deferring).scu.state ≠ .releasing ∧
      (sending station f 15 .deferring).scu.state ≠ .claimingHoldQueued) ∧
    (let t := sending (claiming station .releasing) (.free 22) 15 .deferring
     t.scu.own = some ⟨22, 61⟩ ∧ t.scu.state = .releasing ∧ t.lif.places ≤ 8) ∧
    (let t := sending (waiting (claiming station .releasing) [.free 22]) .beacon 15 .deferring
     t.scu.state = .releasing ∧ TxFrame.beacon ≠ .free 22 ∧ t.lif.waiting.any (TxFrame.isFreeOf 22) = true) ∧
    (let t := claiming (besideNine station .held none) .pending
     let u := t.withScu { t.scu with withdrawal := .conflict }
     u.scu.state = .pending ∧ u.scu.withdrawal = .conflict ∧ u.scu.overlapped = true ∧
      (u.scu.entries.all (fun e => e.state == .held && u.scu.meets e.span)) = true) ∧
    (let t := claiming station .pending
     (t.withScu { t.scu with withdrawal := .conflict }).scu.overlapped = false ∧
      (t.withScu { t.scu with withdrawal := .cancel }).scu.withdrawal = .cancel ∧ t.scu.held = none ∧
      t.dsq.state ≠ .awaitRelease ∧ t.lif.places ≤ 8 ∧ t.scu.own = some ⟨22, 61⟩) ∧
    (∀ age, let t := claiming (besideNine station .intent none) .pending
      let u := t.withScu { t.scu with withdrawal := .conflict,
                                      entries := t.scu.entries.map (fun e => { e with age := some age }) }
      u.scu.own = some ⟨22, 61⟩ ∧ (u.scu.entries.all (fun e => e.state == .intent && u.scu.meets e.span)) = true ∧
        u.scu.entries.map PeerEntry.age = [some age]) :=
  ⟨by decide, by decide, fun _ => ⟨by show ClaimState.none ≠ _; decide, by show ClaimState.none ≠ _; decide⟩, by decide, by decide,
    by decide, by decide, fun _ => ⟨rfl, by
      show ((besideNine station .intent none).scu.entries.all
        (fun e => e.state == .intent && (claiming station .pending).scu.meets e.span)) = true
      decide, rfl⟩⟩

theorem witness_SendSuccessCompletesTheFrame :
    (let t := sending (claiming station .pending) (.intent ⟨17, 24, false⟩ 61 22) 0 (.onLine [])
     t.lif.line ≠ .fault ∧ t.scu.own = some ⟨22, 61⟩ ∧ t.scu.state = .pending ∧ t.scu.withdrawal = .none) ∧
    (let t := sending (claiming station .claimingHoldQueued) (.hold ⟨17, 24, false⟩ 22) 0 (.onLine [])
     t.scu.own = some ⟨22, 61⟩ ∧ t.scu.state = .claimingHoldQueued) ∧
    (let t := sending (claiming (station.withLif { station.lif with line := .fault }) .releasing) (.free 22) 3 (.onLine [])
     t.lif.line = .fault ∧ t.scu.own = some ⟨22, 61⟩ ∧ t.scu.state = .releasing ∧ t.scu.held = none ∧
      t.dsq.state = .idle ∧ t.lif.current.map Current.phase = some (.onLine [])) := by decide

/-- A sent BEACON of a dip that claims nothing, a BLOCKED claim that may not start, a release whose FREE waits, a cancelled
INTENT, and the waiting frames among which the next is taken. -/
theorem witness_SendSuccessCompletesTheFrame_next :
    (let t := sending station .beacon 0 (.onLine [])
     t.scu.state ≠ .blocked ∧ t.scu.state ≠ .releasing ∧ t.scu.withdrawal = .none) ∧
    (let t := claiming (besideNine station .held none) .blocked
     t.scu.state = .blocked ∧ t.scu.overlapped = true) ∧
    (let t := sending (waiting (claiming station .releasing) [.free 22]) .beacon 0 (.onLine [])
     t.scu.state = .releasing ∧ t.scu.own = some ⟨22, 61⟩ ∧ t.scu.held = none ∧ t.dsq.state ≠ .awaitRelease ∧
      t.lif.waiting.any (TxFrame.isFreeOf 22) = true) ∧
    (let t := sending (claiming station .pending) (.intent ⟨17, 24, false⟩ 61 22) 0 (.onLine [])
     (t.withScu { t.scu with withdrawal := .cancel }).scu.withdrawal = .cancel ∧ t.lif.places ≤ 8) ∧
    (let l : Lif := { Lif.reset with line := .degraded, waiting := [.intent ⟨17, 24, false⟩ 61 22, .ingot 10, .beacon] }
     l.current = none ∧ l.line ≠ .off ∧ l.waiting = [.intent ⟨17, 24, false⟩ 61 22] ++ .ingot 10 :: [.beacon] ∧
      (TxFrame.intent ⟨17, 24, false⟩ 61 22).isIntent = true ∧ ¬(l.line = .active ∧ l.clashEnd = none) ∧
      (TxFrame.ingot 10).isIntent = false) := by decide

/-- The line's timers running, the score as told. -/
def joining (score : Nat) (l : LineState) : State :=
  station.withLif { Lif.reset with line := l, score := score, joinEnd := some 12000, beaconNext := some 10500,
                                   clashEnd := some 15000 }

theorem witness_LineTimersExpire :
    (joining 64 .joining).lif.beaconNext = some 10500 ∧ (joining 64 .joining).lif.joinEnd = some 12000 ∧
      (joining 64 .joining).lif.clashEnd = some 15000 ∧ (joining 64 .joining).lif.line = .joining ∧
      64 ≤ (joining 64 .joining).lif.score ∧ (joining 63 .joining).lif.score < 64 ∧
      (joining 0 .fault).lif.line = .fault ∧ (joining 0 .fault).lif.places < 8 ∧
      (sending (joining 0 .fault) .beacon 0 .deferring).lif.holds (· == .beacon) = true := by decide

theorem witness_SilencesAndLapsesChangeTheEntry :
    (((besideNine station .intent none).scu.entryOf 9).map PeerEntry.lapseEnd = some (some 11000) ∧
      (hearingNine station .present none).ptb.recordOf 9 = some (nine .present none) ∧
      (nine .present none).silenceEnd = some 11000) ∧
    (station.hears 9 ∧ goodFrame station.cells (.freeFrame 9 4 [1]) = some (9, 4) ∧ station.ptb.recordOf 9 = none ∧
      reportedCondition station.cells (.freeFrame 9 4 [1]) = none ∧
      goodFrame station.cells (.beaconFrame 9 4 [3, 0, 0, 15]) = some (9, 4) ∧
      reportedCondition station.cells (.beaconFrame 9 4 [3, 0, 0, 15]) = some .halted ∧
      ∀ payload, Instr.freeFrame 9 4 [1] ≠ .pickupFrame 9 4 payload) ∧
    (∀ e, (hearingNine station .silent e).hears 9 ∧
      (hearingNine station .silent e).ptb.recordOf 9 = some (nine .silent e)) :=
  ⟨by decide, ⟨nine_heard _ rfl rfl, by decide, by decide, by decide, by decide, by decide, fun _ h => by cases h⟩,
    fun _ => ⟨nine_heard _ rfl rfl, rfl⟩⟩

/-- A claim at the end of its window, some frames waiting. -/
def windowEnding (fs : List TxFrame) : State :=
  let s := claiming (waiting station fs) .claimingWindow
  s.withScu { s.scu with windowEnd := some 10300 }

theorem witness_ClaimWindowAndGuardEnd :
    (∀ fs, (windowEnding fs).scu.own = some ⟨22, 61⟩ ∧ (windowEnding fs).scu.wanted = some ⟨17, 24, false⟩ ∧
      (windowEnding fs).scu.windowEnd = some 10300 ∧ (windowEnding fs).scu.state = .claimingWindow) ∧
    (windowEnding []).lif.places < 8 ∧
    (let fs : List TxFrame := List.replicate 7 (.yield 3)
     (∀ v, 8 ≤ (windowEnding (fs ++ [v])).lif.places ∧ (windowEnding (fs ++ [v])).lif.waiting = fs ++ [v]) ∧
      1 < (TxFrame.intent ⟨0, 4, false⟩ 3 21).urgency ∧ 1 < (TxFrame.entry 100 1 1).urgency ∧
      1 < (TxFrame.pickup 3 901 none 1).urgency ∧ (TxFrame.free 3).urgency = 1) ∧
    (let s := claiming (dipping .awaitClaim 3 .clear) .guard
     let t := s.withScu { s.scu with guardEnd := some 10100 }
     t.scu.guardEnd = some 10100 ∧ t.scu.state = .guard ∧ t.dsq.state = .awaitClaim ∧ t.dsq.ctx = some (ctxAt 3) ∧
      t.nextStep (ctxAt 3) = some (.travel 7) ∧ t.dsq.position ≠ .below) ∧
    (dipping (.awaitLower ⟨2400, 3, 1000⟩) 5 .clear).dsq.state ≠ .awaitClaim :=
  ⟨fun _ => ⟨rfl, rfl, rfl, rfl⟩, by decide, ⟨fun _ => ⟨by show 8 ≤ 8; omega, rfl⟩, by decide⟩, by decide, by decide⟩

/-- A claim in RETRY. -/
def retrying (s : State) : State :=
  let t := claiming s .retry
  t.withScu { t.scu with own := none, retryEnd := some 10450, blockedSince := some 3000 }

theorem witness_RetryAndBlockedTimersEnd :
    ((retrying station).scu.retryEnd = some 10450 ∧ (retrying station).scu.state = .retry ∧
      (retrying station).scu.wanted = some ⟨17, 24, false⟩ ∧ (retrying station).scu.overlapped = false ∧
      (retrying station).lif.line = .active ∧ (retrying station).lif.clashEnd = none ∧
      (retrying station).zbr.level ≠ .stopped ∧ (retrying station).lif.places < 8) ∧
    (retrying (besideNine station .stale none)).scu.overlapped = true ∧
      (retrying (besideNine station .stale none)).scu.retryEnd = some 10450 ∧
      ((retrying station).scu.blockedSince = some 3000 ∧ (retrying station).scu.blockedLongMark = false) ∧
      (let t := (retrying station).withScu { (retrying station).scu with blockedLongMark := true }
       t.scu.blockedSince = some 3000 ∧ t.scu.blockedLongMark = true) := by decide

/-- A CLAIM step: the whole kettle; a span at either end of the kettle; a free claim, a blocked one, a releasing one. -/
theorem witness_RetryAndBlockedTimersEnd_claim :
    (let t := dwellThen [.claim 0 true] .clear
     t.dsq.ctx = some (ctxAt 0) ∧ t.dsq.dwellEnd = some 310000 ∧ t.nextStep (ctxAt 0) = some (.claim 0 true) ∧
      t.cells - 1 = 39) ∧
    (let t := dwellThen [.claim 40 false] .clear
     t.nextStep (ctxAt 0) = some (.claim 40 false) ∧ t.mpt.hook = some 20 ∧
      (20 : Int) - ((41 - 1) / 2 : Nat) = 0 ∧ (0 : Int) + 40 - 1 ≤ (t.cells : Int) - 1) ∧
    (let t := dwellThen [.claim 6 false] .clear
     t.scu.state = .none ∧ t.scu.entries.all (fun x => !x.span.overlaps ⟨17, 24, false⟩) = true ∧
      t.lif.line = .active ∧ t.lif.clashEnd = none ∧ t.zbr.level ≠ .stopped ∧ t.lif.places < 8 ∧
      (besideNine t .stale none).scu.entries.any (fun x => x.span.overlaps ⟨17, 24, false⟩) = true ∧
      (claiming t .releasing).scu.state = .releasing ∧
      (let u := claiming t .pending
       (u.withScu { u.scu with withdrawal := .cancel }).scu.withdrawal = .cancel)) := by decide


/-- A window of 24 records of 500 kg each. -/
def fullWindow : List HeatEntry :=
  List.replicate 24 { src := 2, mass := 500, arrival := 5000, index := 1, merges := 0 }

/-- A dip waiting for 1,248 kg in a full window of a budget of 12,748 kg. -/
def waitingHeat : State :=
  let t := claiming (dipping (.heatWait ⟨2400, 3, 1000⟩) 5 .clear) .firm
  (t.withHwn { entries := fullWindow, sum := 12000, request := .waitSum ⟨1248, 1, 9000⟩ }).withCfg
    { t.cfg with params := { t.cfg.params with budget := 12748 } }

theorem witness_EntryExpiryAdmitsTheWaitingRequest :
    (∃ e rest, waitingHeat.hwn.entries = e :: rest ∧ rest.length < 24 ∧
      waitingHeat.hwn.sum - e.mass + 1248 ≤ waitingHeat.cfg.params.budget) ∧
      waitingHeat.hwn.request = .waitSum ⟨1248, 1, 9000⟩ ∧ waitingHeat.dsq.state = .heatWait ⟨2400, 3, 1000⟩ ∧
      waitingHeat.scu.state = .firm ∧ waitingHeat.scu.overlapped = false ∧
      (let t := waitingHeat.withHwn { waitingHeat.hwn with request := .none }
       t.hwn.entries = fullWindow ∧ t.hwn.request = .none) :=
  ⟨⟨_, _, rfl, by decide, by decide⟩, by decide⟩

/-- One record in the window, and the dip waits for an empty one. -/
def waitingEmpty : State :=
  waitingHeat.withHwn { entries := [{ src := 2, mass := 500, arrival := 5000, index := 1, merges := 0 }], sum := 500,
                        request := .waitEmpty ⟨13000, 1, 9000⟩ }

/-- The requests that wait on, the one that waited for an empty window, and the LOWER step in each of its cases. -/
theorem witness_EntryExpiryAdmitsTheWaitingRequest_steps :
    (let t := waitingHeat.withHwn { waitingHeat.hwn with request := .waitSum ⟨1249, 1, 9000⟩ }
     t.cfg.params.budget < t.hwn.sum - 500 + 1249) ∧
    (let t := waitingHeat.withHwn { waitingHeat.hwn with request := .waitEmpty ⟨13000, 1, 9000⟩ }
     t.hwn.entries.tail ≠ []) ∧
    (waitingEmpty.hwn.request = .waitEmpty ⟨13000, 1, 9000⟩ ∧ waitingEmpty.hwn.entries.tail = [] ∧
      waitingEmpty.dsq.state = .heatWait ⟨2400, 3, 1000⟩ ∧ waitingEmpty.scu.state = .firm ∧
      waitingEmpty.scu.overlapped = false) ∧
    (∀ k, (claiming (dwellThen [.lower 2400 3 1000] .clear) k).dsq.ctx = some (ctxAt 0) ∧
      (claiming (dwellThen [.lower 2400 3 1000] .clear) k).dsq.dwellEnd = some 310000 ∧
      (claiming (dwellThen [.lower 2400 3 1000] .clear) k).dsq.position ≠ .below ∧
      (claiming (dwellThen [.lower 2400 3 1000] .clear) k).scu.state = k) ∧
    (let t := claiming (dwellThen [.lower 2400 3 1000] .clear) .firm
     t.nextStep (ctxAt 0) = some (.lower 2400 3 1000) ∧ (ctxAt 0).immersions < 2 ∧ (ctxAt 0).dry = none ∧
      roundNat ((ctxAt 0).nominal * 1000) 1000 = 1300 ∧ t.hwn.request = .none ∧ t.scu.overlapped = false ∧
      t.hwn.sum + 1300 ≤ t.cfg.params.budget ∧ t.hwn.entries.length < 24 ∧
      t.cfg.params.budget < (t.withHwn { t.hwn with sum := 10701 }).hwn.sum + 1300 ∧
      (let u := t.withCfg { t.cfg with params := { t.cfg.params with budget := 1299 } }
       u.cfg.params.budget < 1300 ∧ u.hwn.entries = [] ∧ (u.withHwn { u.hwn with entries := fullWindow }).hwn.entries ≠ [])) :=
  ⟨by decide, by decide, by decide, fun _ => ⟨rfl, rfl, by show Position.clear ≠ _; decide, rfl⟩, by decide⟩


/-- The steps a DWELL may be followed by, the immersion timer running or not; a lot in each classifier state. -/
theorem witness_DipTimersExpire :
    (∀ st p, (dwellThen [st, .weighDry 20] p).dsq.ctx = some (ctxAt 0) ∧
      (dwellThen [st, .weighDry 20] p).dsq.dwellEnd = some 310000 ∧
      (dwellThen [st, .weighDry 20] p).dsq.immersionSince = none ∧
      (dwellThen [st, .weighDry 20] p).nextStep (ctxAt 0) = some st ∧
      (dwellThen [st, .weighDry 20] p).nextStep (ctxAt 0).next = some (.weighDry 20)) ∧
    (let s := dwellThen [.raise 4] .below
     (s.withDsq { s.dsq with immersionSince := some 10000 }).dsq.immersionSince = some 10000) ∧
    ((ctxAt 0).lot = 315 ∧ loaded.pku.lotOf 315 = none ∧
      (∀ k, ((loaded.withPku { lots := [{ lot 315 true with classifier := k }] }).pku.lotOf 315).map Lot.classifier =
        some k)) ∧
    (∀ k, (claiming (dwellThen [.release, .weighDry 20] .above) k).scu.own = some ⟨22, 61⟩ ∧
      (claiming (dwellThen [.release, .weighDry 20] .above) k).scu.state = k ∧
      (claiming (dwellThen [.release, .weighDry 20] .above) k).scu.held = none ∧
      (claiming (dwellThen [.release, .weighDry 20] .above) k).lif.places < 5) ∧
    (dwellThen [.release, .weighDry 20] .above).scu.state = .none ∧
    (∀ n, ((immersed (dwellThen [.finish] .above) n).dsq.ctx).map DipCtx.immersions = some n) ∧
    (let s := dipping (.aborting .draining) 6 .above
     let t := s.withDsq { s.dsq with drainEnd := some 40000 }
     t.dsq.ctx = some (ctxAt 6) ∧ t.dsq.drainEnd = some 40000) :=
  ⟨fun _ _ => ⟨rfl, rfl, rfl, rfl, rfl⟩, by decide, ⟨by decide, by decide, fun _ => rfl⟩,
    fun _ => ⟨rfl, rfl, rfl, by show 0 < 5; decide⟩, by decide, fun _ => rfl, by decide⟩

theorem witness_AcceptedRequestRuns :
    (let s := moving (dipping .traveling 0 .clear) (.awaitAccept (.move 4) 7)
     let t := s.withMpt { s.mpt with sending := [⟨7, []⟩] }
     t.mpt.sending = ⟨7, []⟩ :: [] ∧ t.mpt.phase = .awaitAccept (.move 4) 7) ∧
    (moving station (.awaitAccept (.raise 2) 7)).mpt.phase = .awaitAccept (.raise 2) 7 ∧
    (moving station (.awaitAccept (.vibrate 60) 7)).mpt.phase = .awaitAccept (.vibrate 60) 7 ∧
    (let t := moving (dipping .lowering 5 .clear) (.awaitAccept (.lower 2400 3) 7)
     t.mpt.phase = .awaitAccept (.lower 2400 3) 7 ∧ t.dsq.ctx = some (ctxAt 5)) ∧
    (∀ r, r = MptPhase.awaitAccept (.lower 2400 3) 7 ∨ r = .running (.lower 2400 3) 7 →
      let s := dwellThen [.weighOut 120] .below
      let t := moving (s.withDsq { s.dsq with state := .lowering }) r
      t.mpt.phase = r ∧ t.dsq.state = .lowering ∧ t.dsq.ctx = some (ctxAt 0) ∧
        t.nextStep (ctxAt 0) = some (.weighOut 120)) ∧
    (crc16 [1, 7, 0, 0, 0] ≠ 0 ∧ (∀ k d : Byte, k = 0 ∨ k = 1 ∨ k = 2 ∨ k = 3 ∨ k = 4 → d = 0 ∨ d = 1 ∨ d = 4 ∨ d = 5 →
      crc16 (withCrc [k, 7, d]) = 0 ∧ (withCrc [k, 7, d]).length = 5)) := by
  refine ⟨by decide, by decide, by decide, by decide, ?_, by decide +kernel, ?_⟩
  · rintro r (rfl | rfl) <;> decide
  · rintro k d (rfl | rfl | rfl | rfl | rfl) (rfl | rfl | rfl | rfl) <;> decide +kernel

theorem witness_CompletedRequestEndsItsStep :
    (let t := moving (dipping .traveling 0 .clear) (.running (.move 4) 7)
     t.dsq.ctx = some (ctxAt 0) ∧ t.mpt.phase = .running (.move 4) 7 ∧ (39 : Byte).toNat < t.cells ∧
      t.dsq.state = .traveling ∧ t.nextStep (ctxAt 0) = some (.weighDry 20)) ∧
    (let t := moving (dipping .raising 7 .below) (.awaitAccept (.raise 2) 7)
     t.dsq.ctx = some (ctxAt 7) ∧ t.mpt.phase = .awaitAccept (.raise 2) 7 ∧ t.dsq.state = .raising ∧
      t.dsq.position = .below ∧ t.nextStep (ctxAt 7) = some (.weighOut 30)) := by decide

theorem witness_MotionFaultHaltsTheDip :
    (failReason 1 = some .overload ∧ failReason 4 = some .refused) ∧
    (let t := moving (dipping .raising 7 .below) (.running (.raise 2) 7)
     t.dsq.ctx = some (ctxAt 7) ∧ t.mpt.phase = .running (.raise 2) 7 ∧ t.dsq.position = .below ∧
      (t.withMpt { t.mpt with doneEnd := some 99000 }).mpt.doneEnd = some 99000) ∧
    (let t := moving (dipping .traveling 0 .clear) (.running (.move 4) 7)
     t.mpt.phase = .running (.move 4) 7 ∧ t.cells ≤ (40 : Byte).toNat) ∧
    (let t := moving (dipping .traveling 0 .clear) (.awaitAccept (.move 4) 7)
     t.mpt.phase = .awaitAccept (.move 4) 7 ∧
      (t.withMpt { t.mpt with acceptEnd := some 10500 }).mpt.acceptEnd = some 10500) := by decide

/-- A station whose next step fails its check, or is a CHAIN to slot 15 that passes. -/
theorem witness_MotionFaultHaltsTheDip_program :
    (∀ st p, (dwellThen [st] p).dsq.ctx = some (ctxAt 0) ∧ (dwellThen [st] p).dsq.dwellEnd = some 310000 ∧
      (dwellThen [st] p).nextStep (ctxAt 0) = some st ∧ (dwellThen [st] p).dsq.position = p ∧
      (dwellThen [st] p).scu.state = .none ∧ (dwellThen [st] p).mpt.hook = some 20) ∧
    (immersed (dwellThen [.lower 2400 3 1000] .above) 2).dsq.ctx.map DipCtx.immersions = some 2 ∧
    (∀ k, k = ClaimState.blocked ∨ k = .firm →
      let t := claiming (dwellThen [.claim 6 false] .clear) k
      ¬(t.scu.state = .none ∨ t.scu.state = .releasing ∨ (t.scu.state = .pending ∧ t.scu.withdrawal = .cancel))) ∧
    ((20 : Int) - ((43 - 1) / 2 : Nat) < 0 ∧ ((40 : Nat) : Int) - 1 < (20 : Int) - ((41 - 1) / 2 : Nat) + 41 - 1) ∧
    ((ctxAt 0).depth < 4 ∧ (dwellThen [.chain 0] .clear).pgs.programAt 0 = none ∧
      (dwellThen [.chain 15] .clear).pgs.programAt 15 = some weighFirst ∧ weighFirst.continuation = false ∧
      (claiming (dwellThen [.chain 15] .clear) .firm).scu.state ≠ .none ∧ weighFirst.steps[0]? = some (.weighDry 20) ∧
      ((dwellThen [.chain 15] .clear).modCtx (fun c => { c with depth := 4 })).dsq.ctx.map DipCtx.depth = some 4) := by
  refine ⟨fun _ _ => ⟨rfl, rfl, rfl, rfl, rfl, rfl⟩, by decide, ?_, by decide, by decide⟩
  rintro k (rfl | rfl) <;> decide

theorem witness_StopEndsTheAbortOrFaults :
    (let t := moving (dipping (.aborting .quickStop) 0 .clear) (.stopping 7)
     t.dsq.ctx = some (ctxAt 0) ∧ t.mpt.phase = .stopping 7 ∧ t.dsq.state = .aborting .quickStop ∧
      (ctxAt 0).immersions = 0 ∧ failReason 3 = some .driveFault ∧
      (t.withMpt { t.mpt with acceptEnd := some 10500 }).mpt.acceptEnd = some 10500) ∧
    (let t := immersed (moving (dipping (.aborting .quickStop) 0 .clear) (.stopping 7)) 2
     t.mpt.phase = .stopping 7 ∧ t.dsq.state = .aborting .quickStop ∧ t.dsq.ctx.map DipCtx.immersions = some 2 ∧
      t.lif.places < 6) ∧
    ∀ b, (moving (dipping (.aborting (.pathStop b)) 5 .below) (.stopping 7)).dsq.state = .aborting (.pathStop b) := by
  decide

theorem witness_StrayResponsesHaveNoEffect :
    (let t := station.withMpt { station.mpt with cancelled := some 3 }
     t.mpt.phase.outstanding.map Prod.snd ≠ some 3 ∧ t.mpt.phase.stopNumber ≠ some 3 ∧ t.mpt.lastStop ≠ some 3 ∧
      1 ≤ (1 : Byte).toNat ∧ (4 : Byte).toNat ≤ 4 ∧ t.mpt.cancelled = some 3) ∧
    station.mpt.cancelled ≠ some 3 := by decide

/-- The dip waits at its LOWER for a span just now firm, the window empty. -/
def guarding : State :=
  let t := claiming (dipping (.awaitLower ⟨2400, 3, 1000⟩) 5 .clear) .guard
  t.withScu { t.scu with guardEnd := some 10100 }

theorem witness_LowerNeedsAFirmAndClearSpan :
    exec .guardExpiry guarding = .next (after (exec .guardExpiry guarding)) ∧
      (after (exec .guardExpiry guarding)).mpt.phase = .awaitAccept (.lower 2400 3) 0 ∧
      guarding.mpt.phase = .idle := ⟨rfl, by decide +kernel, rfl⟩

theorem witness_SamplesReachTheChannel :
    ((2 : Byte).getLsbD 0 = false ∧ (2 : Byte).getLsbD 1 = true) ∧ ((3 : Byte).getLsbD 0 = true) ∧
      ((0 : Byte).getLsbD 1 = false) ∧ station.wch.lost = false ∧ station.wch.forming.length < 9 ∧
      station.wch.invalidRun < 2 ∧ (station.withWch { station.wch with invalidRun := 2 }).wch.invalidRun = 2 ∧
      (dipping .dwelling 6 .below).dsq.state ≠ .parked ∧ (dipping .dwelling 6 .below).dsq.ctx = some (ctxAt 6) ∧
      (∀ n, n = 8 ∨ n = 9 → (station.withWch { station.wch with lost := true, validRun := n }).wch.validRun = n ∧
        (station.withWch { station.wch with lost := true, validRun := n }).wch.lost = true) ∧
      (let t := station.withWch { station.wch with
         forming := List.replicate 9 ⟨100, false⟩, history := List.replicate 16 ⟨100, false, 9800⟩ }
       t.wch.forming.length = 9 ∧ t.wch.task = .none ∧ t.wch.history.length ≤ 16) := by
  refine ⟨by decide, by decide, by decide, by decide, by decide, by decide, by decide, by decide, by decide, ?_,
    by decide⟩
  rintro n (rfl | rfl) <;> decide

/-- A drain that began at 10,000 ms. -/
def draining (sl : Slicer) : State :=
  let t := dipping .draining 9 .above
  t.withWch { t.wch with
    task := .drain { start := 10000, minimum := 60, maximum := 300, high := 20, low := 5, quiet := 5,
                     minPending := true },
    slicer := sl }

theorem witness_WeighTasksEnd :
    (let s := dipping .weighingDry 1 .clear
     let t := s.withWch { s.wch with task := .settle { timeoutEnd := 30000, stepCount := 0, runCount := 0 } }
     t.dsq.ctx = some (ctxAt 1) ∧ t.nextStep (ctxAt 1) = some (.travel 5) ∧ t.dsq.position ≠ .below ∧
      t.wch.task = .settle { timeoutEnd := 30000, stepCount := 0, runCount := 0 } ∧ t.dsq.state = .weighingDry) ∧
    (let t := dipping .weighingOut 3 .above
     t.dsq.state = .weighingOut ∧ t.dsq.ctx = some (ctxAt 3) ∧ t.nextStep (ctxAt 3) = some (.travel 7) ∧
      t.dsq.position ≠ .below) ∧
    (let t := draining Slicer.reset
     t.dsq.ctx = some (ctxAt 9) ∧ t.nextStep (ctxAt 9) = some (.travel 39) ∧ t.dsq.position ≠ .below ∧
      t.dsq.state = .draining ∧ t.wch.slicer.isQuiet = false) ∧
    (let t := draining { Slicer.reset with isQuiet := true, drip := 1 }
     t.wch.slicer.isQuiet = true ∧ t.wch.lost = false ∧ 1 ≤ t.wch.slicer.drip) := by decide

/-- A settle wait of four blocks, at its timeout and at the block that ends it or does not. -/
def settlingAt (values : List Int) (k : SettleTask) : State :=
  let s := dipping .weighingDry 1 .clear
  s.withWch { s.wch with task := .settle k, history := values.map (fun v => ⟨v, false, 9800⟩),
                         forming := List.replicate 9 ⟨100, false⟩ }

theorem witness_WeighTasksEnd_blocks :
    (let t := settlingAt [100, 100, 101, 100] { timeoutEnd := 30000, stepCount := 4, runCount := 4 }
     t.completesBlock 2 ∧ t.wch.history = [] ++ t.wch.history ∧
      t.wch.history.length = min t.cfg.params.settleBlocks 4 ∧ t.historyWith 1600#24 = [] ++ t.historyWith 1600#24 ∧
      (t.historyWith 1600#24).length = t.cfg.params.settleBlocks ∧
      t.settles { timeoutEnd := 30000, stepCount := 4, runCount := 4 } (t.historyWith 1600#24) ∧
      ¬t.settles { timeoutEnd := 30000, stepCount := 4, runCount := 3 } (t.historyWith 1600#24)) ∧
    (let t := settlingAt [94, 100, 101, 100] { timeoutEnd := 30000, stepCount := 4, runCount := 4 }
     ¬t.settles { timeoutEnd := 30000, stepCount := 4, runCount := 4 } (t.historyWith 1600#24)) ∧
    (let t := draining { Slicer.reset with isQuiet := true, drip := 5 }
     t.dsq.state = .draining ∧ t.wch.lost = false ∧ t.now < 10000 + 60 * 1000 ∧
      10000 + 60 * 1000 ≤ (t.withNow 70000).now) ∧
    (let s := dipping (.aborting .weighing) 6 .above
     let t := s.withWch { s.wch with
       task := .settle { timeoutEnd := 30000, stepCount := 4, runCount := 4 },
       history := List.replicate 4 ⟨100, false, 9800⟩, forming := List.replicate 9 ⟨100, false⟩ }
     t.dsq.state = .aborting .weighing ∧ t.dsq.ctx = some (ctxAt 6) ∧ t.lif.places < 6 ∧
      (immersed t 1).dsq.ctx.map DipCtx.immersions = some 1 ∧ t.completesBlock 2 ∧
      t.wch.history.length = min t.cfg.params.settleBlocks 4 ∧
      (t.historyWith 1600#24).length = t.cfg.params.settleBlocks ∧
      t.settles { timeoutEnd := 30000, stepCount := 4, runCount := 4 } (t.historyWith 1600#24)) := by
  refine ⟨⟨⟨?_, ?_, ?_, ?_⟩, ?_⟩, ?_, ?_, ?_, ?_, ?_, ?_, ⟨?_, ?_, ?_, ?_⟩, ?_⟩ <;> (try unfold State.settles) <;> decide +kernel

/-- The context of the worked dip at its end. -/
def workedCtx : DipCtx :=
  { ctxAt 12 with dry := some 12480, wet := some 13214, immersions := 1, immersionTime := 3000, drainTime := 750 }

theorem witness_RecordArithmetic :
    DipOutcome.complete ≠ .faulted ∧ workedCtx.dry = some 12480 ∧ workedCtx.wet = some 13214 ∧ (10 : Int) ≤ 12480 ∧
      (ctxAt 12).dry = none ∧
      (makeRecord Params.reset Pku.reset workedCtx .complete).ratio = some 67 ∧
      (makeRecord Params.reset Pku.reset workedCtx .complete).dipClass ≠ none := by decide

/-- The lot of the worked dip, in a classifier state. -/
def lotIn (c : Classifier) : Pku := { lots := [{ lot 315 true with classifier := c }] }

/-- Its class is R2 at a distance of 7; with R6 alone in its mask none lies within the band; the dross class goes by its
lot, its class, and its program's default. -/
theorem witness_RecordArithmetic_classes :
    (workedCtx.quality.weighLost = false ∧ workedCtx.quality.unsettled = false ∧ workedCtx.quality.overMark = false ∧
      workedCtx.progressive = false ∧ workedCtx.lot ≠ 0 ∧
      ((lotIn .search).lotOf workedCtx.lot).map Lot.mask = some 31 ∧ { workedCtx with lot := 0 }.lot = 0) ∧
    (∀ y, inMask 31 y = true → expectedRatio Params.reset .r2 300 = 60 ∧ 67 - 60 ≤ Params.reset.acceptBand ∧
      (7 < classDistance Params.reset 300 67 y ∨ (7 = classDistance Params.reset 300 67 y ∧ SteelClass.r2.code ≤ y.code))) ∧
    (∀ x, inMask 16 x = true → Params.reset.acceptBand < classDistance Params.reset 300 67 x) ∧
    ((makeRecord Params.reset (lotIn .search) workedCtx .complete).dipClass = some (.cls .r2) ∧
      (makeRecord Params.reset (lotIn .search) workedCtx .complete).drossClass = .r2 ∧
      (makeRecord Params.reset (lotIn (.locked .r5 0)) workedCtx .complete).drossClass = .r5 ∧
      (makeRecord Params.reset (lotIn .search) workedCtx .aborted).drossClass = workedCtx.defaultClass) := by
  refine ⟨by decide, fun y => ?_, fun x => ?_, by decide⟩
  · cases y <;> decide
  · cases x <;> decide

theorem witness_OwnFramesReadBack :
    ((255 ≤ 255 ∧ (⟨255, 255, true⟩ : Span).whole = true) ∧ ((39 : Nat) ≤ 39 ∧ 39 < 40)) ∧
      (let t := claiming (dipping .dwelling 6 .below) .firm
       t.beaconSpan = ⟨17, 24, false⟩ ∧ t.scu.state.beacon = .held ∧ t.dsq.state = .dwelling) ∧
      (station.beaconSpan = ⟨0, 0, false⟩ ∧ station.scu.state.beacon = .none) := by decide

/-! ### The receivers, and points of single commands -/

/-- A request frame in answer to whose bytes POWER_INFO runs, after bytes that are skipped (R194, R211). -/
theorem test_request_bytes :
    receiveRequest ([0, 0x5A] ++ 0xA5 :: withCrc [0, 2, 3, 8] ++ [0xA5]) = .command (.powerInfo 3 []) [0xA5] ∧
      receiveRequest [0xA5, 0, 2, 3, 8, 0, 0] = .command .requestCheckFail [] ∧
      receiveRequest [0xA5, 0, 2, 3] = .incomplete ∧ receiveRequest [0x5A] = .nothing := by decide +kernel

/-- A DONE frame of number 7 at cell 4, and one whose code names no response (R212). -/
theorem test_response_bytes :
    receiveResponse (0x3E :: withCrc [2, 7, 4]) = .command (.motionDone 7 4) [] ∧
      receiveResponse (0x3E :: withCrc [4, 7, 0]) = .command .motionFrameDiscarded [] := by decide +kernel

/-- A peer reads the station's own YIELD frame from its burst; a burst of another pattern is no frame (R2, R5, R210). -/
theorem test_line_bytes :
    receiveLine (station.lineFrame (.yield 22)) = some (.yieldFrame 5 0 [22]) ∧
      receiveLine [0x5A, 0x35, 0, 1, 22, 0, 0] = some .lineFrameDiscarded ∧ receiveLine [0x5B] = none := by
  decide +kernel

/-- The reply of a transfer is a sample (R142). -/
theorem test_sample_bytes : receiveSample [2, 0, 1, 0] = some (.sampleTaken 2 256#24) := by decide

/-- A cancel in PENDING, its INTENT on the line, stops the blocked timer at once (R57). -/
theorem test_cancel_in_pending_stops_the_blocked_timer :
    let s := sending (claiming station .pending) (.intent ⟨17, 24, false⟩ 61 22) 0 (.onLine [90])
    let t := (s.withScu { s.scu with blockedSince := some 3000 }).cancelClaim
    t.scu.state = .pending ∧ t.scu.withdrawal = .cancel ∧ t.scu.blockedSince = none ∧ t.scu.blockedHeld = 7000 := by
  decide

/-- A second admission request is refused as already waiting, and the first stands (R74). -/
theorem test_second_heat_request_is_refused :
    waitingHeat.requestHeat 100 1 = (waitingHeat, .alreadyWaiting) := by decide +kernel

/-- The task fields of READ_STATUS in each task, and the waiting request of READ_HEAT, field by field (R79, R158,
R211). -/
theorem test_absent_fields_are_zeros :
    station.statusTask.all (· == 0) = true ∧
      (draining Slicer.reset).statusTask.length = station.statusTask.length ∧
      HeatRequest.none.bytes 10000 = List.replicate (HeatRequest.none.bytes 10000).length 0 ∧
      ((HeatRequest.waitSum ⟨1248, 1, 9000⟩).bytes 10000).length = (HeatRequest.none.bytes 10000).length := by
  decide +kernel

/-- A dip that ends at END with a held span parks, its record made and its PICKUP queued (R118, R188). -/
theorem test_end_parks_and_makes_the_record :
    let t := after (exec .dwellExpiry (claiming (immersed (dwellThen [.finish] .above) 1) .firm))
    t.dsq.state = .parked ∧ t.zbr.ring.length = 1 ∧ t.zbr.nextNumber = 2 ∧ t.spt.isRaised .recordReady = true ∧
      t.spt.isRaised .parkedEv = true ∧ t.lif.current.map (fun c => c.frame.urgency) = some 3 := by decide +kernel

end Sys2Proof.Tests
end

section
/-! The foreign YIELD and FREE (R60): what their delivery does to the span table, and what the removal of an entry
means for an own claim that is BLOCKED or in RETRY (R43, R54). -/

namespace Sys2Proof.Machine

/-! ### The state a good frame is delivered in -/

/-- The refresh of a peer reaches neither the transmit queue nor the own claim nor the estimate (R27 to R31). -/
theorem hearPeer_leaves (s : State) (src : StationId) (seq : Byte) (c : Option Condition) :
    (s.hearPeer src seq c).lif = s.lif ∧ (s.hearPeer src seq c).scu = s.scu ∧ (s.hearPeer src seq c).zbr = s.zbr := by
  obtain ⟨p, x, heq, -⟩ := hearPeer_eq s src seq c
  rw [heq]
  exact ⟨rfl, rfl, rfl⟩

/-- A heard YIELD or FREE is delivered to SCU after the count of the frame and the refresh of its peer. -/
theorem exec_yield_free_hears (s : State) (src : StationId) (seq n : Byte) (h : s.hears src) :
    exec (.yieldFrame src seq [n]) s = .next (notify ((s.countGood.hearPeer src seq none).scuFree src n)) ∧
      exec (.freeFrame src seq [n]) s = .next (notify ((s.countGood.hearPeer src seq none).scuFree src n)) :=
  have taken := takeFrame_hears s src seq n noCondition (fun t n => notify (t.scuFree src n)) h
  ⟨congrArg Host.Outcome.next taken, congrArg Host.Outcome.next taken⟩

/-! ### SCU takes a YIELD or FREE (R60) -/

theorem scuFree_absent (s : State) (src : StationId) (n : Byte) (h : s.scu.entryOf src = none) :
    s.scuFree src n = (s, []) := by
  simp only [State.scuFree, h]

theorem scuFree_differs (s : State) (src : StationId) (n m : Byte) (e : PeerEntry) (h : s.scu.entryOf src = some e)
    (hm : e.claim = some m) (hne : m ≠ n) : s.scuFree src n = (s, []) := by
  simp [State.scuFree, h, hm, hne]

theorem scuFree_matches (s : State) (src : StationId) (n : Byte) (e : PeerEntry) (h : s.scu.entryOf src = some e)
    (hm : e.claim = none ∨ e.claim = some n) : s.scuFree src n = s.entryLeaves src := by
  simp only [State.scuFree, h, if_pos hm]

/-- Whatever the own claim, a YIELD or FREE either leaves SCU alone or removes its sender's entry. -/
theorem scuFree_cases (s : State) (src : StationId) (n : Byte) :
    s.scuFree src n = (s, []) ∨ s.scuFree src n = s.entryLeaves src := by
  cases h : s.scu.entryOf src with
  | none => exact .inl (scuFree_absent s src n h)
  | some e =>
    by_cases hm : e.claim = none ∨ e.claim = some n
    · exact .inr (scuFree_matches s src n e h hm)
    · exact .inl (by simp only [State.scuFree, h, if_neg hm])

/-! ### An entry leaves the table -/

/-- The evaluation of the start conditions and what DSQ does with the notice add no entry and take none. -/
theorem notify_entryLeaves_entries (s : State) (h : StationId) :
    (notify (s.entryLeaves h)).scu.entries = s.scu.entries.filter (fun x => x.holder != h) :=
  calc (notify (s.entryLeaves h)).scu.entries
      = (s.removeEntry h).evalStart.scu.entries := (calm_onNotices _ _).entries
    _ = (s.removeEntry h).scu.entries := (quiet_evalStart _).entries

/-- Outside GUARD and FIRM the change of an overlap is no news for DSQ (R65). -/
theorem clearNotices_unguarded (s t : State) (h : s.scu.state.guardOrFirm = false) : clearNotices s t = [] := by
  simp [clearNotices, h]

/-- Outside GUARD and FIRM the removal comes to the new evaluation of the start conditions alone (R43). -/
theorem notify_entryLeaves_unguarded (s : State) (h : StationId) (hg : s.scu.state.guardOrFirm = false) :
    notify (s.entryLeaves h) = (s.removeEntry h).evalStart := by
  show (s.removeEntry h).evalStart.onNotices (clearNotices s (s.removeEntry h).evalStart) = _
  rw [clearNotices_unguarded _ _ hg]
  rfl

/-- In RETRY the evaluation waits for the delay to end (R54). -/
theorem notify_entryLeaves_retry (s : State) (h : StationId) (hr : s.scu.state = .retry) :
    (notify (s.entryLeaves h)).scu.state = .retry := by
  rw [notify_entryLeaves_unguarded s h (by rw [hr]; rfl), evalStart_still]
  · exact hr
  · show s.scu.state.isStill = true
    rw [hr]; rfl

/-! ### A BLOCKED claim starts -/

/-- With room in the queue the INTENT of a starting claim is placed, and the claim is PENDING. -/
theorem startClaim_pending (s : State) (w : Span) (h : s.lif.places < 8) : (s.startClaim w).scu.state = .pending := by
  unfold State.startClaim State.offerBase
  rw [State.withScu_lif, place_room s.lif _ h (by simp)]
  rfl

/-- The four start conditions of R43, each in its block's own terms. -/
theorem mayStart_of_clear (s : State) (hclear : s.scu.overlapped = false) (hline : s.lif.line = .active)
    (hclash : s.lif.clashEnd = none) (hz : s.zbr.level ≠ .stopped) : s.mayStart = true := by
  simp [State.mayStart, hclear, hline, hclash, Zbr.isOpen, hz]

/-- The start conditions hold, so a BLOCKED claim starts (R43). -/
theorem evalStart_starts (s : State) (w : Span) (hb : s.scu.state = .blocked) (hw : s.scu.wanted = some w)
    (hm : s.mayStart = true) : s.evalStart = s.startClaim w := by
  simp only [State.evalStart, hb, hw, hm, if_true]

/-- No entry but a holder's own overlaps the wanted span, so none does once that entry is removed. -/
theorem removeEntry_not_overlapped (s : State) (h : StationId) (w : Span) (hw : s.scu.wanted = some w)
    (hover : ∀ x ∈ s.scu.entries, x.holder ≠ h → x.span.overlaps w = false) :
    (s.removeEntry h).scu.overlapped = false := by
  have hwanted : (s.removeEntry h).scu.wanted = some w := hw
  rw [Scu.overlapped, List.any_eq_false]
  intro x hx
  obtain ⟨hmem, hne⟩ := List.mem_filter.mp hx
  have hapart := hover x hmem (by simpa using hne)
  simp [Scu.meets, hwanted, hapart]

/-- The removal of the last entry in its way makes a BLOCKED claim start, the other start conditions holding (R43). -/
theorem notify_entryLeaves_starts (s : State) (h : StationId) (w : Span) (hb : s.scu.state = .blocked)
    (hw : s.scu.wanted = some w)
    (hover : ∀ x ∈ s.scu.entries, x.holder ≠ h → x.span.overlaps w = false) (hline : s.lif.line = .active)
    (hclash : s.lif.clashEnd = none) (hz : s.zbr.level ≠ .stopped) (hroom : s.lif.places < 8) :
    (notify (s.entryLeaves h)).scu.state = .pending := by
  have hclear := removeEntry_not_overlapped s h w hw hover
  have hmay : (s.removeEntry h).mayStart = true := mayStart_of_clear _ hclear hline hclash hz
  rw [notify_entryLeaves_unguarded s h (by rw [hb]; rfl), evalStart_starts (s.removeEntry h) w hb hw hmay]
  exact startClaim_pending (s.removeEntry h) w hroom

/-! ### The statement -/

/-- Settles O35: the count of the frame and the refresh of its peer leave the span table as it was, so SCU judges the
entry the statement speaks of; each clause is then one of the lemmas above. -/
theorem yieldOrFreeRemovesTheEntry : Obligations.YieldOrFreeRemovesTheEntry := by
  intro s src seq n heard
  obtain ⟨hyield, hfree⟩ := exec_yield_free_hears s src seq n heard
  have counted := countGood_counted s
  obtain ⟨hlif, hscu, hzbr⟩ := hearPeer_leaves s.countGood src seq none
  refine ⟨_, hyield, hfree, ?_⟩
  generalize s.countGood.hearPeer src seq none = u at hlif hscu hzbr ⊢
  have hentries : u.scu.entries = s.scu.entries := by rw [hscu, counted.entries]
  have hentry : u.scu.entryOf src = s.scu.entryOf src := by simp only [Scu.entryOf, hentries]
  refine ⟨?removes, ?differs, ?absent, ?retry, ?blocked⟩
  case removes =>
    intro e he hm
    rw [scuFree_matches u src n e (hentry.trans he) hm, notify_entryLeaves_entries, hentries]
  case differs =>
    intro e m he hm hne
    rw [scuFree_differs u src n m e (hentry.trans he) hm hne]
    exact hentries
  case absent =>
    intro he
    rw [scuFree_absent u src n (hentry.trans he)]
    exact hentries
  case retry =>
    intro hr
    have hu : u.scu.state = .retry := by rw [hscu, counted.still (by rw [hr]; rfl), hr]
    obtain h | h := scuFree_cases u src n
    · rw [h]; exact hu
    · rw [h]; exact notify_entryLeaves_retry u src hu
  case blocked =>
    intro e w he hm hb hw hover hline hscore hclash hz hroom
    rw [countGood_still s hline hscore] at hlif hscu hzbr
    rw [scuFree_matches u src n e (hentry.trans he) hm]
    apply notify_entryLeaves_starts u src w <;> simp only [hlif, hscu, hzbr]
    exacts [hb, hw, hover, hline, hclash, hz, hroom]

end Sys2Proof.Machine
end

section
/-! The reading of the record ring: what READ_RECORD and PEEK_RECORD answer, by the ring they find (R190). -/

namespace Sys2Proof.Machine

/-! ### A request that READY alone takes -/

/-- In READY a request of a code that READY takes reaches its owner (R197). -/
theorem request_asksReady {α : Type} (s : State) (tag : Byte) (code : Req) (a : α)
    (owner : α → State → State × List Byte) (h : s.asksReady tag code.code) :
    s.request tag code (some a) .ready owner = (owner a s).1.answered tag code.code (owner a s).2 := by
  obtain ⟨hready, hfresh⟩ := h
  exact request_taken s tag code a .ready owner hfresh hready

/-- In SETUP a request of a code that READY alone takes is answered BAD_STATE (R197). -/
theorem request_asksSetup {α : Type} (s : State) (tag : Byte) (code : Req) (a : α)
    (owner : α → State → State × List Byte) (h : s.asksSetup tag code.code) :
    s.request tag code (some a) .ready owner = s.answered tag code.code [5] := by
  obtain ⟨hsetup, hfresh⟩ := h
  exact request_badState s tag code a .ready owner hfresh hsetup

/-! ### The owners, by the ring -/

theorem readRecord_empty (s : State) (h : s.zbr.ring = []) : s.readRecord () = (s, [3, 6]) := by
  simp only [State.readRecord, h]
  rfl

theorem peekRecord_empty (s : State) (h : s.zbr.ring = []) : s.peekRecord () = (s, [3, 6]) := by
  simp only [State.peekRecord, h]
  rfl

/-- READ_RECORD answers the oldest record and takes it out of the ring. -/
theorem readRecord_oldest (s : State) (r : DipRecord) (rest : List DipRecord) (h : s.zbr.ring = r :: rest) :
    s.readRecord () = (s.withZbr { s.zbr with ring := rest }, 0 :: r.bytes) := by
  simp only [State.readRecord, h]
  rfl

/-- PEEK_RECORD answers the oldest record and leaves the state as it is. -/
theorem peekRecord_oldest (s : State) (r : DipRecord) (rest : List DipRecord) (h : s.zbr.ring = r :: rest) :
    s.peekRecord () = (s, 0 :: r.bytes) := by
  simp only [State.peekRecord, h]
  rfl

/-! ### The statement -/

/-- Settles O29: in SETUP the decoder answers both requests; in READY each reaches its owner, and the owner's answer and
state are those of the ring it finds, empty or with an oldest record. -/
theorem readAndPeekTheOldestRecord : Obligations.ReadAndPeekTheOldestRecord := by
  intro s tag
  have hread (h : s.asksReady tag 20) : exec (.readRecord tag []) s =
      .next ((s.readRecord ()).1.answered tag 20 (s.readRecord ()).2) :=
    congrArg Host.Outcome.next (request_asksReady s tag .readRecord () State.readRecord h)
  have hpeek (h : s.asksReady tag 21) : exec (.peekRecord tag []) s =
      .next ((s.peekRecord ()).1.answered tag 21 (s.peekRecord ()).2) :=
    congrArg Host.Outcome.next (request_asksReady s tag .peekRecord () State.peekRecord h)
  refine ⟨fun h => ?readSetup, fun h => ?peekSetup, fun hring => ⟨fun h => ?readEmpty, fun h => ?peekEmpty⟩,
    fun r rest hring => ⟨fun h => ?readOldest, fun h => ?peekOldest⟩⟩
  case readSetup => exact congrArg Host.Outcome.next (request_asksSetup s tag .readRecord () State.readRecord h)
  case peekSetup => exact congrArg Host.Outcome.next (request_asksSetup s tag .peekRecord () State.peekRecord h)
  case readEmpty => rw [hread h, readRecord_empty s hring]
  case peekEmpty => rw [hpeek h, peekRecord_empty s hring]
  case readOldest => rw [hread h, readRecord_oldest s r rest hring]; rfl
  case peekOldest => rw [hpeek h, peekRecord_oldest s r rest hring]

end Sys2Proof.Machine
end

section
/-! The heard INGOT (R185): the state it is delivered in has the estimate and the level state of the state before, and its
delivery raises the estimate, evaluates the level state and reports the frame. -/

namespace Sys2Proof.Machine

/-! ### The balance in the state a good frame is delivered in -/

/-- The count of a good frame and the refresh of its peer leave the parameters and, but for marks in the record ring, the
balance (R6, R29). -/
theorem delivered_balance (s : State) (src : StationId) (seq : Byte) (c : Option Condition) :
    (s.countGood.hearPeer src seq c).cfg = s.cfg ∧
      ∃ ring, (s.countGood.hearPeer src seq c).zbr = { s.zbr with ring := ring } := by
  have counted := countGood_counted s
  obtain ⟨p, x, heq, -⟩ := hearPeer_eq s.countGood src seq c
  rw [heq]
  exact ⟨counted.cfg, _, counted.zbr⟩

/-- An evaluation reads only the parameters, BALANCE_UNSET and the level state it starts from. -/
theorem levelEvaluated_from {s u t : State} {z : Nat} (hcfg : u.cfg = s.cfg) (hunset : u.zbr.unset = s.zbr.unset)
    (hlevel : u.zbr.level = s.zbr.level) (h : u.levelEvaluated z t) : s.levelEvaluated z t := by
  simpa only [State.levelEvaluated, State.levelAt, hcfg, hunset, hlevel] using h

/-! ### Z takes a value (R179) -/

/-- A change of Z leaves of the balance all but Z, the level state and marks in the record ring. -/
theorem putZ_zbr (s : State) (z : Nat) :
    (s.putZ z).zbr = { s.zbr with z := z, level := (s.putZ z).zbr.level, ring := (s.putZ z).zbr.ring } :=
  (evalLevel_leveled (s.withZbr { s.zbr with z := z })).zbr

/-- A change of Z takes no event back. -/
theorem putZ_events (s : State) (z : Nat) : EventsGrow s.spt (s.putZ z).spt :=
  (evalLevel_leveled (s.withZbr { s.zbr with z := z })).events

/-! ### ZBR takes the INGOT -/

/-- The payload of an INGOT whose mass lies in its range (R4). -/
theorem decodeIngot_inRange (a b : Byte) (hlo : 10 ≤ beNat [a, b]) (hhi : beNat [a, b] ≤ 50000) :
    decodeIngot [a, b] = some (beNat [a, b]) :=
  if_pos ⟨hlo, hhi⟩

/-- The state in which a heard INGOT is kept as the last one and reported, its mass not yet added to Z. -/
def State.noteIngot (s : State) (src : StationId) (m : Nat) : State :=
  (s.withZbr { s.zbr with lastIngot := some ⟨src, m⟩ }).raise .ingotHeard

theorem heardIngot_eq (s : State) (src : StationId) (m : Nat) :
    s.heardIngot src m = (s.noteIngot src m).putZ (min s.cfg.params.zMax (s.zbr.z + m)) := rfl

/-- What ZBR makes of a heard INGOT. -/
theorem heardIngot_taken (s : State) (src : StationId) (m : Nat) :
    let z := min s.cfg.params.zMax (s.zbr.z + m)
    let t := s.heardIngot src m
    t.zbr.z = z ∧ t.zbr.lastIngot = some ⟨src, m⟩ ∧ t.spt.isRaised .ingotHeard = true ∧ t.zbr.unset = s.zbr.unset ∧
      s.levelEvaluated z t := by
  intro z t
  have balance : t.zbr = { (s.noteIngot src m).zbr with z := z, level := t.zbr.level, ring := t.zbr.ring } :=
    putZ_zbr (s.noteIngot src m) z
  have reported : (s.noteIngot src m).spt.isRaised .ingotHeard = true := raise_raised s.spt .ingotHeard
  have evaluated : (s.noteIngot src m).levelEvaluated z t := putZ_evaluated (s.noteIngot src m) z
  refine ⟨by rw [balance], ?last, (putZ_events (s.noteIngot src m) z).raised _ reported, ?unset,
    levelEvaluated_from rfl rfl rfl evaluated⟩
  case last => rw [balance]; rfl
  case unset => rw [balance]; rfl

/-- A heard INGOT is delivered to ZBR after the count of the frame and the refresh of its peer. -/
theorem exec_ingot_hears (s : State) (src : StationId) (seq a b : Byte) (h : s.hears src) (hlo : 10 ≤ beNat [a, b])
    (hhi : beNat [a, b] ≤ 50000) :
    exec (.ingotFrame src seq [a, b]) s =
      .next ((s.countGood.hearPeer src seq none).heardIngot src (beNat [a, b])) := by
  show Host.Outcome.next (s.takeFrame src seq (decodeIngot [a, b]) noCondition (fun t m => t.heardIngot src m)) = _
  rw [decodeIngot_inRange a b hlo hhi, takeFrame_hears s src seq _ noCondition _ h]
  rfl

/-! ### The statement -/

/-- Settles O40: the INGOT finds the estimate, the balance flags and the level state as they stood before the frame, so
what ZBR makes of it there is what the statement says of the state before. -/
theorem heardIngotRaisesTheEstimate : Obligations.HeardIngotRaisesTheEstimate := by
  intro s src seq a b heard hlo hhi
  refine ⟨_, exec_ingot_hears s src seq a b heard hlo hhi, ?_⟩
  obtain ⟨hcfg, ring, hzbr⟩ := delivered_balance s src seq none
  generalize s.countGood.hearPeer src seq none = u at hcfg hzbr ⊢
  obtain ⟨hz, hlast, hraised, hunset, hlevel⟩ := heardIngot_taken u src (beNat [a, b])
  have hmax : min u.cfg.params.zMax (u.zbr.z + beNat [a, b]) = min s.cfg.params.zMax (s.zbr.z + beNat [a, b]) := by
    rw [hcfg, hzbr]
  rw [hmax] at hz hlevel
  exact ⟨hz, hlast, hraised, by rw [hunset, hzbr], levelEvaluated_from hcfg (by rw [hzbr]) (by rw [hzbr]) hlevel⟩

end Sys2Proof.Machine
end

section
/-! The exchange on the station port (R194, R195): whatever a request does, its owner gives no response of its own, so
the one answer to a fresh request is the response that is then stored. -/

namespace Sys2Proof.Machine

/-! ### Owners that move no more than a block's own store -/

theorem withGroup_responses (t : Spt) (g : Nat) (x : Group) : (t.withGroup g x).responses = t.responses := by
  unfold Spt.withGroup
  split <;> rfl

theorem takeParams_spt (s : State) (p : Params) : (s.takeParams p).spt = s.spt := by
  unfold State.takeParams
  split <;> rfl

theorem setParam_responses (a : Nat × Int) (s : State) : (s.setParam a).1.spt.responses = s.spt.responses := by
  unfold State.setParam
  split
  · rfl
  · split
    · rfl
    · exact congrArg Spt.responses (takeParams_spt s _)

theorem readParam_responses (n : Nat) (s : State) : (s.readParam n).1.spt.responses = s.spt.responses := by
  unfold State.readParam
  split <;> rfl

theorem readEvent_responses (s : State) : (s.readEvent ()).1.spt.responses = s.spt.responses := by
  unfold State.readEvent
  split
  · rfl
  · exact withGroup_responses s.spt _ _

theorem ackGroup_responses (g : Nat) (s : State) : (s.ackGroup g).1.spt.responses = s.spt.responses := by
  unfold State.ackGroup
  split
  · exact withGroup_responses s.spt _ _
  · rfl

theorem setEnable_responses (a : Nat × Byte) (s : State) : (s.setEnable a).1.spt.responses = s.spt.responses := by
  unfold State.setEnable
  split
  · exact withGroup_responses s.spt _ _
  · rfl

theorem loadProgram_responses (r : RawProgram) (s : State) :
    (s.loadProgram r).1.spt.responses = s.spt.responses := by
  unfold State.loadProgram
  repeat' split
  all_goals rfl

theorem readProgram_responses (n : Nat) (s : State) : (s.readProgram n).1.spt.responses = s.spt.responses := by
  unfold State.readProgram
  split <;> rfl

theorem lotOpen_responses (a : Nat × Byte) (s : State) : (s.lotOpen a).1.spt.responses = s.spt.responses := by
  unfold State.lotOpen
  repeat' split
  all_goals rfl

theorem lotFix_responses (a : Nat × Byte) (s : State) : (s.lotFix a).1.spt.responses = s.spt.responses := by
  unfold State.lotFix
  repeat' split
  all_goals rfl

theorem lotFreeClass_responses (n : Nat) (s : State) : (s.lotFreeClass n).1.spt.responses = s.spt.responses := by
  unfold State.lotFreeClass
  repeat' split
  all_goals rfl

theorem readRecord_responses (s : State) : (s.readRecord ()).1.spt.responses = s.spt.responses := by
  unfold State.readRecord
  split <;> rfl

theorem peekRecord_responses (s : State) : (s.peekRecord ()).1.spt.responses = s.spt.responses := by
  unfold State.peekRecord
  split <;> rfl

theorem resetRequest_responses (s : State) : (s.resetRequest ()).1.spt.responses = s.spt.responses := by
  unfold State.resetRequest
  split <;> rfl

/-! ### Owners that move the line, the dip or the balance -/

/-- The join raises at most events, whatever the line was before. -/
theorem sealStation_responses (s : State) : s.sealStation.spt.responses = s.spt.responses :=
  ((quiet_lineNotice _).trans (quiet_offer _ _)).events.responses

theorem sealSet_responses (s : State) : (s.sealSet ()).1.spt.responses = s.spt.responses := by
  unfold State.sealSet
  split
  · rfl
  · exact sealStation_responses s

theorem startRequest_responses (a : Nat × Nat × Nat) (s : State) :
    (s.startRequest a).1.spt.responses = s.spt.responses := by
  unfold State.startRequest
  split
  · rfl
  · split
    · rfl
    · split
      · rfl
      · split <;> exact (calm_startDip s _ _ _ _).events.responses

theorem abortByLoad_responses (s : State) : s.abortByLoad.spt.responses = s.spt.responses := by
  have marked : Calm s s.markAbort := calm_modCtx s _
  unfold State.abortByLoad
  split
  · exact (marked.trans (calm_abortPath _)).events.responses
  · exact (marked.trans (calm_quickAbort _)).events.responses

theorem abortDip_responses (s : State) : (s.abortDip ()).1.spt.responses = s.spt.responses := by
  unfold State.abortDip
  split
  · rfl
  · rfl
  · rfl
  · rfl
  · split
    · rfl
    · exact abortByLoad_responses s
  · exact abortByLoad_responses s

theorem confirmClear_responses (s : State) : (s.confirmClear ()).1.spt.responses = s.spt.responses := by
  have cleared (t : State) : Calm t t.releaseSpan.returnIdle := (quiet_releaseSpan t).calm.trans (calm_returnIdle _)
  unfold State.confirmClear
  split
  · exact (cleared s).events.responses
  · exact ((quiet_createRecord s .faulted).calm.trans (cleared _)).events.responses
  · rfl

theorem offerIngot_responses (s : State) (m : Nat) : (s.offerIngot m).spt.responses = s.spt.responses :=
  ((putZ_events s _).trans (quiet_offer _ _).events).responses

theorem ingotRequest_responses (m : Nat) (s : State) : (s.ingotRequest m).1.spt.responses = s.spt.responses := by
  unfold State.ingotRequest
  split
  · exact offerIngot_responses s _
  · split <;> exact offerIngot_responses s _

theorem putBalance_responses (s : State) (v : Nat) : (s.putBalance v).spt.responses = s.spt.responses :=
  (quiet_evalLevel _).events.responses

theorem setBalance_responses (v : Nat) (s : State) : (s.setBalance v).1.spt.responses = s.spt.responses := by
  unfold State.setBalance
  split <;> exact putBalance_responses s _

theorem clearPeer_responses (n : Nat) (s : State) : (s.clearPeer n).1.spt.responses = s.spt.responses := by
  unfold State.clearPeer
  split
  · rfl
  · split
    · rfl
    · split
      · rfl
      · split
        · rfl
        · exact (kept_dropPeer s _).events.responses

/-! ### Every request is one exchange -/

/-- The decoder gives no response of its own where the owner gives none. -/
theorem decodeRequest_responses {α : Type} {owner : α → State → State × List Byte}
    (h : ∀ a s, (owner a s).1.spt.responses = s.spt.responses) (args : Option α) (m : Modes) (s : State) :
    (decodeRequest args m owner s).1.spt.responses = s.spt.responses := by
  unfold decodeRequest
  split
  · rfl
  · split
    · exact h _ s
    · rfl

/-- A command is the request of a tag and a code: it does what `act` says where it is no repeat, and `act` gives no
response of its own. -/
def IsExchange (c : Instr) (tag code : Byte) (act : State → State × List Byte) : Prop :=
  (∀ s, exec c s = .next (s.takeRequest tag code act)) ∧ ∀ s, (act s).1.spt.responses = s.spt.responses

/-- A command that hands its arguments to an owner is an exchange where the owner gives no response of its own. -/
theorem isExchange_request {α : Type} {c : Instr} {tag : Byte} {code : Req} {args : Option α} {m : Modes}
    {owner : α → State → State × List Byte} (hc : ∀ s, exec c s = .next (s.request tag code args m owner))
    (h : ∀ a s, (owner a s).1.spt.responses = s.spt.responses) :
    ∃ act, IsExchange c tag code.code act :=
  ⟨decodeRequest args m owner, hc, decodeRequest_responses h args m⟩

/-- Every command with a tag and a request code is an exchange under them (R194 to R196). -/
theorem exists_isExchange {c : Instr} {tag code : Byte} (h : requestHead c = some (tag, code)) :
    ∃ act, IsExchange c tag code act := by
  cases c <;> cases h
  case unknownRequest body => exact ⟨fun s => (s, respBadArg), fun _ => rfl, fun _ => rfl⟩
  case setParam => exact isExchange_request (code := .setParam) (fun _ => rfl) setParam_responses
  case sealRequest => exact isExchange_request (code := .sealSet) (fun _ => rfl) fun _ => sealSet_responses
  case readParam => exact isExchange_request (code := .readParam) (fun _ => rfl) readParam_responses
  case readStatus => exact isExchange_request (code := .readStatus) (fun _ => rfl) fun _ _ => rfl
  case readEvent => exact isExchange_request (code := .readEvent) (fun _ => rfl) fun _ => readEvent_responses
  case ackGroup => exact isExchange_request (code := .ackGroup) (fun _ => rfl) ackGroup_responses
  case setEnable => exact isExchange_request (code := .setEnable) (fun _ => rfl) setEnable_responses
  case powerInfo => exact isExchange_request (code := .powerInfo) (fun _ => rfl) fun _ _ => rfl
  case loadProgram => exact isExchange_request (code := .loadProgram) (fun _ => rfl) loadProgram_responses
  case readProgram => exact isExchange_request (code := .readProgram) (fun _ => rfl) readProgram_responses
  case lotOpen => exact isExchange_request (code := .lotOpen) (fun _ => rfl) lotOpen_responses
  case lotFix => exact isExchange_request (code := .lotFix) (fun _ => rfl) lotFix_responses
  case lotFreeClass => exact isExchange_request (code := .lotFreeClass) (fun _ => rfl) lotFreeClass_responses
  case readLots => exact isExchange_request (code := .readLots) (fun _ => rfl) fun _ _ => rfl
  case startDip => exact isExchange_request (code := .startDip) (fun _ => rfl) startRequest_responses
  case abortDip => exact isExchange_request (code := .abortDip) (fun _ => rfl) fun _ => abortDip_responses
  case confirmClear => exact isExchange_request (code := .confirmClear) (fun _ => rfl) fun _ => confirmClear_responses
  case ingot => exact isExchange_request (code := .ingot) (fun _ => rfl) ingotRequest_responses
  case setBalance => exact isExchange_request (code := .setBalance) (fun _ => rfl) setBalance_responses
  case readRecord => exact isExchange_request (code := .readRecord) (fun _ => rfl) fun _ => readRecord_responses
  case peekRecord => exact isExchange_request (code := .peekRecord) (fun _ => rfl) fun _ => peekRecord_responses
  case clearPeer => exact isExchange_request (code := .clearPeer) (fun _ => rfl) clearPeer_responses
  case readPeers => exact isExchange_request (code := .readPeers) (fun _ => rfl) fun _ _ => rfl
  case readSpans => exact isExchange_request (code := .readSpans) (fun _ => rfl) fun _ _ => rfl
  case readHeat => exact isExchange_request (code := .readHeat) (fun _ => rfl) fun _ _ => rfl
  case stationReset => exact isExchange_request (code := .stationReset) (fun _ => rfl) fun _ => resetRequest_responses

/-! ### The statements -/

/-- Settles O9: every request is one exchange, so a repeat sends the stored response, and a fresh request sends and
stores its own after the responses that stood before it was carried out. -/
theorem repeatIsAnsweredFromTheStore : Obligations.RepeatIsAnsweredFromTheStore := by
  intro s c tag code hc
  obtain ⟨act, hexec, hact⟩ := exists_isExchange hc
  refine ⟨fun r hr htag hcode => ?again, fun hfresh => ?fresh, s.powerOn, rfl, rfl⟩
  case again => rw [hexec, takeRequest_repeat s tag code act r hr htag hcode]
  case fresh =>
    refine ⟨(act s).1.answered tag code (act s).2, (act s).2, ?_, rfl, ?_⟩
    · rw [hexec, takeRequest_fresh s tag code act hfresh]
    · exact congrArg (· ++ [(⟨tag, code, (act s).2⟩ : Response)]) (hact s)

/-- Settles O16: POWER_INFO reaches its owner in both modes, and the owner answers the identity from the state as it
is. -/
theorem powerInfoGivesTheIdentity : Obligations.PowerInfoGivesTheIdentity := by
  intro s tag hfresh
  have taken := request_taken s tag .powerInfo () .both State.powerInfo hfresh rfl
  exact congrArg Host.Outcome.next taken

end Sys2Proof.Machine
end

section
/-! What every command keeps (log 30): it answers a next state, leaves the queue of commands and the draw counter, does
not set the time base back, keeps the invariants of the stores, and changes the commissioning store, the programs and the
event stage only where its own rule says so. -/

namespace Sys2Proof.Machine

/-! ### The relation -/

/-- What a command leaves: `programs` says that it loads no program, `events` that it serves the event stage in no way. -/
structure Carried (programs events : Prop) (s t : State) : Prop where
  pending : t.pending = s.pending
  draws : t.draws = s.draws
  now : s.now ≤ t.now
  cfg : s.cfg.ready = true → t.cfg = s.cfg
  pgs : programs → t.pgs = s.pgs
  groups : events → GroupGrows s.spt.g1 t.spt.g1 ∧ GroupGrows s.spt.g2 t.spt.g2 ∧ GroupGrows s.spt.g3 t.spt.g3 ∧
    GroupGrows s.spt.g4 t.spt.g4
  stores : StoresOk s → StoresOk t

theorem groupsGrow_refl (t : Spt) :
    GroupGrows t.g1 t.g1 ∧ GroupGrows t.g2 t.g2 ∧ GroupGrows t.g3 t.g3 ∧ GroupGrows t.g4 t.g4 :=
  ⟨groupGrows_refl _, groupGrows_refl _, groupGrows_refl _, groupGrows_refl _⟩

theorem Kept.carried {s t : State} (h : Kept s t) (p e : Prop) : Carried p e s t :=
  ⟨h.pending, h.draws, h.now, fun _ => h.cfg, fun _ => h.pgs,
    fun _ => ⟨h.events.g1, h.events.g2, h.events.g3, h.events.g4⟩, h.stores⟩

theorem Calm.carried {s t : State} (h : Calm s t) (p e : Prop) : Carried p e s t := h.kept.carried p e

theorem Quiet.carried {s t : State} (h : Quiet s t) (p e : Prop) : Carried p e s t := h.kept.carried p e

theorem Carried.refl (p e : Prop) (s : State) : Carried p e s s := (Kept.refl s).carried p e

/-- An update of the station port that leaves the groups is followed by no change of what a command keeps. -/
theorem Carried.port {p e : Prop} {s t : State} (h : Carried p e s t) (x : Spt) (h1 : x.g1 = t.spt.g1)
    (h2 : x.g2 = t.spt.g2) (h3 : x.g3 = t.spt.g3) (h4 : x.g4 = t.spt.g4) : Carried p e s (t.withSpt x) := by
  refine ⟨h.pending, h.draws, h.now, h.cfg, h.pgs, ?_, fun o => ?_⟩
  · show e → GroupGrows _ x.g1 ∧ GroupGrows _ x.g2 ∧ GroupGrows _ x.g3 ∧ GroupGrows _ x.g4
    rw [h1, h2, h3, h4]
    exact h.groups
  · obtain ⟨window, queue, ring, lots, balance⟩ := h.stores o
    exact ⟨window, queue, ring, lots, balance⟩

/-! ### The exchange -/

/-- A request keeps what its action keeps: a repeat is answered from the store, any other answer is stored (R195). -/
theorem takeRequest_carried {p e : Prop} (s : State) (tag code : Byte) (act : State → State × List Byte)
    (h : Carried p e s (act s).1) : Carried p e s (s.takeRequest tag code act) := by
  unfold State.takeRequest
  split
  · exact (Carried.refl p e s).port _ rfl rfl rfl rfl
  · exact (h.port _ rfl rfl rfl rfl).port _ rfl rfl rfl rfl

/-- A request of a known code keeps what its owner keeps in a mode the request is taken in (R196). -/
theorem request_carried {p e : Prop} {α : Type} (s : State) (tag : Byte) (code : Req) (args : Option α) (m : Modes)
    (owner : α → State → State × List Byte)
    (h : m.allow s.cfg.ready = true → ∀ a, Carried p e s (owner a s).1) :
    Carried p e s (s.request tag code args m owner) := by
  refine takeRequest_carried s tag code.code _ ?_
  unfold decodeRequest
  split
  · exact Carried.refl p e s
  · split
    · rename_i hm
      exact h hm _
    · exact Carried.refl p e s

/-! ### Commissioning -/

theorem storesOk_withWch {s : State} (x : Wch) (h : StoresOk s) : StoresOk (s.withWch x) :=
  ⟨h.window, h.queue, h.ring, h.lots, h.balance⟩

/-- In SETUP the estimate is 0, so every Z_max bounds it. -/
theorem storesOk_params {s : State} (p : Params) (hsetup : s.cfg.ready = false) (h : StoresOk s) :
    StoresOk (s.withCfg { s.cfg with params := p }) := by
  obtain ⟨hz, hline⟩ := h.balance.2 hsetup
  exact ⟨h.window, h.queue, h.ring, h.lots, show s.zbr.z ≤ p.zMax by omega, fun _ => ⟨hz, hline⟩⟩

theorem takeParams_carried (pr e : Prop) (s : State) (p : Params) (hsetup : s.cfg.ready = false) :
    Carried pr e s (s.takeParams p) := by
  have hcfg : s.cfg.ready = true → (s.takeParams p).cfg = s.cfg := fun h => by simp [hsetup] at h
  unfold State.takeParams at hcfg ⊢
  simp only at hcfg ⊢
  split
  · exact ⟨rfl, rfl, le_rfl, fun h => by simp [hsetup] at h, fun _ => rfl, fun _ => groupsGrow_refl _,
      storesOk_params p hsetup⟩
  · exact ⟨rfl, rfl, le_rfl, fun h => by simp [hsetup] at h, fun _ => rfl, fun _ => groupsGrow_refl _,
      fun o => storesOk_withWch _ (storesOk_params p hsetup o)⟩

theorem setParam_carried (p e : Prop) (a : Nat × Int) (s : State) (hsetup : s.cfg.ready = false) :
    Carried p e s (s.setParam a).1 := by
  unfold State.setParam
  split
  · exact Carried.refl p e s
  · split
    · exact Carried.refl p e s
    · exact takeParams_carried p e s _ hsetup

/-- The station as SEAL leaves it before the line state is reported: READY, and LIF in JOINING. -/
theorem storesOk_joining {s : State} (j b : Option Nat) (h : StoresOk s) :
    StoresOk ((s.withCfg { s.cfg with ready := true, isSealed := true }).withLif
      { s.lif with line := .joining, joinEnd := j, beaconNext := b }) :=
  ⟨h.window, h.queue, h.ring, h.lots, h.balance.1, fun hready => by cases hready⟩

theorem sealStation_carried (p e : Prop) (s : State) (hsetup : s.cfg.ready = false) :
    Carried p e s s.sealStation := by
  have moves (t : State) : Quiet t (t.lineNotice.offer .beacon) := (quiet_lineNotice t).trans (quiet_offer _ _)
  have joined := moves ((s.withCfg { s.cfg with ready := true, isSealed := true }).withLif { s.lif with
    line := .joining, joinEnd := some (s.now + 4 * s.cfg.params.beaconPeriod),
    beaconNext := some (s.now + s.cfg.params.beaconPeriod) })
  exact ⟨joined.pending, joined.draws, le_of_eq joined.now.symm, fun h => by simp [hsetup] at h, fun _ => joined.pgs,
    fun _ => ⟨joined.events.g1, joined.events.g2, joined.events.g3, joined.events.g4⟩,
    fun o => joined.stores (storesOk_joining _ _ o)⟩

theorem sealSet_carried (p e : Prop) (s : State) (hsetup : s.cfg.ready = false) :
    Carried p e s (s.sealSet ()).1 := by
  unfold State.sealSet
  split
  · exact Carried.refl p e s
  · exact sealStation_carried p e s hsetup

/-! ### Requests of the event stage, programs and STATION_RESET -/

/-- An update of the station port by a command that serves the event stage. -/
theorem carried_served {p e : Prop} (he : ¬e) (s : State) (x : Spt) : Carried p e s (s.withSpt x) :=
  ⟨rfl, rfl, le_rfl, fun _ => rfl, fun _ => rfl, fun h => absurd h he,
    fun o => ⟨o.window, o.queue, o.ring, o.lots, o.balance⟩⟩

theorem readEvent_carried {p e : Prop} (he : ¬e) (s : State) : Carried p e s (s.readEvent ()).1 := by
  unfold State.readEvent
  split
  · exact Carried.refl p e s
  · exact carried_served he s _

theorem ackGroup_carried {p e : Prop} (he : ¬e) (g : Nat) (s : State) : Carried p e s (s.ackGroup g).1 := by
  unfold State.ackGroup
  split
  · exact carried_served he s _
  · exact Carried.refl p e s

theorem setEnable_carried {p e : Prop} (he : ¬e) (a : Nat × Byte) (s : State) : Carried p e s (s.setEnable a).1 := by
  unfold State.setEnable
  split
  · exact carried_served he s _
  · exact Carried.refl p e s

theorem carried_pgs {p e : Prop} (hp : ¬p) (s : State) (x : Pgs) : Carried p e s (s.withPgs x) :=
  ⟨rfl, rfl, le_rfl, fun _ => rfl, fun h => absurd h hp, fun _ => groupsGrow_refl _,
    fun o => ⟨o.window, o.queue, o.ring, o.lots, o.balance⟩⟩

theorem loadProgram_carried {p e : Prop} (hp : ¬p) (r : RawProgram) (s : State) :
    Carried p e s (s.loadProgram r).1 := by
  unfold State.loadProgram
  split
  · exact Carried.refl p e s
  · split
    · exact Carried.refl p e s
    · split
      · exact Carried.refl p e s
      · exact carried_pgs hp s _

theorem resetRequest_carried {p e : Prop} (he : ¬e) (s : State) (hready : s.cfg.ready = true) :
    Carried p e s (s.resetRequest ()).1 := by
  unfold State.resetRequest
  split
  · exact ⟨rfl, rfl, le_rfl, fun _ => rfl, fun _ => rfl, fun h => absurd h he, fun o =>
      ⟨o.window, (stationReset_keeps s.lif).1 o.queue, o.ring, clearUse_keeps _ o.lots, o.balance.1,
        fun h => by rw [show s.stationReset.cfg = s.cfg from rfl, hready] at h; cases h⟩⟩
  · exact Carried.refl p e s

/-! ### Lots and dips -/

theorem lotOpen_carried (p e : Prop) (a : Nat × Byte) (s : State) : Carried p e s (s.lotOpen a).1 := by
  have opened (mask : BitVec 5) (h0 : a.1 ≠ 0) : Carried p e s (s.withPku (s.pku.openLot a.1 mask)) :=
    (quiet_pku s _ (openLot_keeps _ _ _ h0)).carried p e
  unfold State.lotOpen
  split
  · exact Carried.refl p e s
  · rename_i h0
    split
    · exact Carried.refl p e s
    · split
      · exact Carried.refl p e s
      · split
        · split
          · exact Carried.refl p e s
          · exact opened _ h0
        · exact opened _ h0

theorem lotFix_carried (p e : Prop) (a : Nat × Byte) (s : State) : Carried p e s (s.lotFix a).1 := by
  unfold State.lotFix
  split
  · exact Carried.refl p e s
  · split
    · exact Carried.refl p e s
    · split
      · exact Carried.refl p e s
      · rename_i hl
        split
        · exact (quiet_pku s _ (setClassifier_keeps _ _ _ (lotOf_tag hl).1)).carried p e
        · exact Carried.refl p e s

theorem lotFreeClass_carried (p e : Prop) (n : Nat) (s : State) : Carried p e s (s.lotFreeClass n).1 := by
  unfold State.lotFreeClass
  split
  · exact Carried.refl p e s
  · split
    · exact Carried.refl p e s
    · rename_i hl
      exact (quiet_pku s _ (setClassifier_keeps _ _ _ (lotOf_tag hl).1)).carried p e

theorem startRequest_carried (p e : Prop) (a : Nat × Nat × Nat) (s : State) : Carried p e s (s.startRequest a).1 := by
  unfold State.startRequest
  split
  · exact Carried.refl p e s
  · split
    · exact Carried.refl p e s
    · split
      · exact Carried.refl p e s
      · split <;> exact (calm_startDip s _ _ _ _).carried p e

theorem abortByLoad_calm (s : State) : Calm s s.abortByLoad := by
  have marked : Calm s s.markAbort := calm_modCtx s _
  unfold State.abortByLoad
  split
  · exact marked.trans (calm_abortPath _)
  · exact marked.trans (calm_quickAbort _)

theorem abortDip_carried (p e : Prop) (s : State) : Carried p e s (s.abortDip ()).1 := by
  unfold State.abortDip
  split
  · exact Carried.refl p e s
  · exact Carried.refl p e s
  · exact Carried.refl p e s
  · exact Carried.refl p e s
  · split
    · exact (calm_modCtx s _).carried p e
    · exact (abortByLoad_calm s).carried p e
  · exact (abortByLoad_calm s).carried p e

theorem confirmClear_carried (p e : Prop) (s : State) : Carried p e s (s.confirmClear ()).1 := by
  have cleared (t : State) : Calm t t.releaseSpan.returnIdle := (quiet_releaseSpan t).calm.trans (calm_returnIdle _)
  unfold State.confirmClear
  split
  · exact (cleared s).carried p e
  · exact ((quiet_createRecord s .faulted).calm.trans (cleared _)).carried p e
  · exact Carried.refl p e s

/-! ### Zinc, records and peers -/

theorem ingotRequest_carried (p e : Prop) (m : Nat) (s : State) (hready : s.cfg.ready = true) :
    Carried p e s (s.ingotRequest m).1 := by
  unfold State.ingotRequest
  split
  · exact (quiet_offerIngot s _ hready).carried p e
  · split <;> exact (quiet_offerIngot s _ hready).carried p e

theorem setBalance_carried (p e : Prop) (v : Nat) (s : State) (hready : s.cfg.ready = true) :
    Carried p e s (s.setBalance v).1 := by
  unfold State.setBalance
  split
  · exact (quiet_putBalance s _ hready le_rfl).carried p e
  · rename_i hv
    exact (quiet_putBalance s _ hready (Nat.le_of_not_lt hv)).carried p e

theorem readRecord_carried (p e : Prop) (s : State) : Carried p e s (s.readRecord ()).1 := by
  unfold State.readRecord
  split
  · exact Carried.refl p e s
  · rename_i r rest hring
    exact (quiet_zbr_same s { s.zbr with ring := rest } (ring_drop_keeps s.zbr r rest hring) rfl).carried p e

theorem clearPeer_carried (p e : Prop) (n : Nat) (s : State) : Carried p e s (s.clearPeer n).1 := by
  unfold State.clearPeer
  split
  · exact Carried.refl p e s
  · split
    · exact Carried.refl p e s
    · split
      · exact Carried.refl p e s
      · split
        · exact Carried.refl p e s
        · exact (kept_dropPeer s _).carried p e

/-- A request that only reads leaves the state as it is. -/
theorem reading_carried {p e : Prop} {α : Type} (s : State) (tag : Byte) (code : Req) (args : Option α) (m : Modes)
    (owner : α → State → State × List Byte) (h : ∀ a, (owner a s).1 = s) :
    Carried p e s (s.request tag code args m owner) :=
  request_carried s tag code args m owner fun _ a => by rw [h a]; exact Carried.refl p e s

theorem readParam_state (n : Nat) (s : State) : (s.readParam n).1 = s := by
  unfold State.readParam
  split <;> rfl

theorem readProgram_state (n : Nat) (s : State) : (s.readProgram n).1 = s := by
  unfold State.readProgram
  split <;> rfl

theorem peekRecord_state (s : State) : (s.peekRecord ()).1 = s := by
  unfold State.peekRecord
  split <;> rfl

/-! ### Frames of the line -/

theorem beaconFrame_kept (s : State) (src : StationId) (seq : Byte) (payload : List Byte) :
    ∃ t, exec (.beaconFrame src seq payload) s = .next t ∧ Kept s t :=
  ⟨_, rfl, kept_takeFrame s _ _ _ _ _ fun t a _ => kept_notify t _ (kept_scuBeacon t _ a)⟩

theorem intentFrame_kept (s : State) (src : StationId) (seq : Byte) (payload : List Byte) :
    ∃ t, exec (.intentFrame src seq payload) s = .next t ∧ Kept s t :=
  ⟨_, rfl, kept_takeFrame s _ _ _ _ _ fun t a _ => kept_notify t _ (kept_scuIntent t _ a)⟩

theorem holdFrame_kept (s : State) (src : StationId) (seq : Byte) (payload : List Byte) :
    ∃ t, exec (.holdFrame src seq payload) s = .next t ∧ Kept s t :=
  ⟨_, rfl, kept_takeFrame s _ _ _ _ _ fun t a _ => kept_notify t _ (kept_scuHold t _ a)⟩

theorem freeFrame_kept (s : State) (src : StationId) (seq : Byte) (payload : List Byte) :
    (∃ t, exec (.yieldFrame src seq payload) s = .next t ∧ Kept s t) ∧
      ∃ t, exec (.freeFrame src seq payload) s = .next t ∧ Kept s t := by
  have h : Kept s (s.takeFrame src seq (decodeClaimNo payload) noCondition (fun t n => notify (t.scuFree src n))) :=
    kept_takeFrame s _ _ _ _ _ fun t a _ => kept_notify t _ (kept_scuFree t _ a)
  exact ⟨⟨_, rfl, h⟩, _, rfl, h⟩

theorem entryFrame_kept (s : State) (src : StationId) (seq : Byte) (payload : List Byte) :
    ∃ t, exec (.entryFrame src seq payload) s = .next t ∧ Kept s t :=
  ⟨_, rfl, kept_takeFrame s _ _ _ _ _ fun t a _ => (quiet_takeEntry t src a.mass a.index).kept⟩

theorem pickupFrame_kept (s : State) (src : StationId) (seq : Byte) (payload : List Byte) :
    ∃ t, exec (.pickupFrame src seq payload) s = .next t ∧ Kept s t :=
  ⟨_, rfl, kept_takeFrame s _ _ _ _ _ fun t a _ => kept_heardPickup t src a⟩

theorem ingotFrame_kept (s : State) (src : StationId) (seq : Byte) (payload : List Byte) :
    ∃ t, exec (.ingotFrame src seq payload) s = .next t ∧ Kept s t :=
  ⟨_, rfl, kept_takeFrame s _ _ _ _ _ fun t a hline => (calm_heardIngot t src a hline).kept⟩

theorem lineFrameDiscarded_kept (s : State) : ∃ t, exec .lineFrameDiscarded s = .next t ∧ Kept s t := by
  show ∃ t, execLineFrameDiscarded s = .next t ∧ Kept s t
  unfold execLineFrameDiscarded
  split
  · exact ⟨_, rfl, Kept.refl s⟩
  · exact ⟨_, rfl, (calm_discardFrame s).kept⟩

/-! ### Sending -/

theorem attemptStart_kept (s : State) : ∃ t, exec .attemptStart s = .next t ∧ Kept s t := by
  show ∃ t, execAttemptStart s = .next t ∧ Kept s t
  unfold execAttemptStart
  split
  · rename_i c hc
    split
    · split
      · exact ⟨_, rfl, (calm_toPhase s c _ hc).kept⟩
      · exact ⟨_, rfl, (quiet_lif s _ (putBack_keeps s.lif c hc)).kept⟩
    · exact ⟨_, rfl, Kept.refl s⟩
  · exact ⟨_, rfl, Kept.refl s⟩

theorem backoffExpiry_kept (s : State) : ∃ t, exec .backoffExpiry s = .next t ∧ Kept s t := by
  show ∃ t, execBackoffExpiry s = .next t ∧ Kept s t
  unfold execBackoffExpiry
  split
  · rename_i c hc
    split
    · split
      · exact ⟨_, rfl, (calm_toPhase s c _ hc).kept⟩
      · exact ⟨_, rfl, (quiet_lif s _ (putBack_keeps s.lif c hc)).kept⟩
    · exact ⟨_, rfl, Kept.refl s⟩
  · exact ⟨_, rfl, Kept.refl s⟩

theorem collision_kept (s : State) : ∃ t, exec .collision s = .next t ∧ Kept s t := by
  show ∃ t, execCollision s = .next t ∧ Kept s t
  unfold execCollision
  split
  · rename_i c hc
    split
    · exact ⟨_, rfl, (calm_failAttempt s c hc).kept⟩
    · exact ⟨_, rfl, Kept.refl s⟩
  · exact ⟨_, rfl, Kept.refl s⟩

theorem deferTimeout_kept (s : State) : ∃ t, exec .deferTimeout s = .next t ∧ Kept s t := by
  show ∃ t, execDeferTimeout s = .next t ∧ Kept s t
  unfold execDeferTimeout
  split
  · rename_i c hc
    split
    · exact ⟨_, rfl, (calm_failAttempt s c hc).kept⟩
    · exact ⟨_, rfl, Kept.refl s⟩
  · exact ⟨_, rfl, Kept.refl s⟩

theorem sendSuccess_kept (s : State) : ∃ t, exec .sendSuccess s = .next t ∧ Kept s t := by
  show ∃ t, execSendSuccess s = .next t ∧ Kept s t
  unfold execSendSuccess
  split
  · rename_i c hc
    split
    · exact ⟨_, rfl, (calm_frameSent s c hc).kept⟩
    · exact ⟨_, rfl, Kept.refl s⟩
  · exact ⟨_, rfl, Kept.refl s⟩

/-! ### Timers -/

/-- A timer's end is taken at the moment it stands for, and nothing happens where the timer does not run (logs 4, 5). -/
theorem kept_of_timer (s : State) (o : Option Nat) (f : Nat → State) (x : Host.Outcome State Fault Refusal)
    (h : ∀ e, Kept (s.reach e) (f e))
    (hx : x = match o with | some e => .next (f e) | none => .next s) : ∃ t, x = .next t ∧ Kept s t := by
  subst hx
  cases o with
  | none => exact ⟨_, rfl, Kept.refl s⟩
  | some e => exact ⟨_, rfl, (calm_reach s e).kept.trans (h e)⟩

theorem lineTimers_kept (s : State) :
    (∃ t, exec .beaconTimerExpiry s = .next t ∧ Kept s t) ∧ (∃ t, exec .joinTimerExpiry s = .next t ∧ Kept s t) ∧
      ∃ t, exec .clashTimerExpiry s = .next t ∧ Kept s t := by
  refine ⟨kept_of_timer s s.lif.beaconNext (fun e => (s.reach e).beaconDue) _ (fun e => (calm_beaconDue _).kept) ?_,
    kept_of_timer s s.lif.joinEnd (fun e => (s.reach e).joinOver) _ (fun e => (calm_joinOver _).kept) ?_,
    kept_of_timer s s.lif.clashEnd (fun e => ((s.reach e).withLif { s.lif with clashEnd := none }).lineNotice) _
      (fun e => (quiet_lif (s.reach e) { s.lif with clashEnd := none } (LifKeeps.of_same rfl rfl rfl)).kept.trans
        (quiet_lineNotice _).kept) ?_⟩
  · show execBeaconTimerExpiry s = _; unfold execBeaconTimerExpiry; rfl
  · show execJoinTimerExpiry s = _; unfold execJoinTimerExpiry; rfl
  · show execClashTimerExpiry s = _; unfold execClashTimerExpiry; rfl

theorem claimTimers_kept (s : State) :
    (∃ t, exec .claimWindowExpiry s = .next t ∧ Kept s t) ∧ (∃ t, exec .guardExpiry s = .next t ∧ Kept s t) ∧
      ∃ t, exec .retryDelayExpiry s = .next t ∧ Kept s t := by
  refine ⟨kept_of_timer s s.scu.windowEnd (fun e => (s.reach e).windowOver) _ (fun e => (calm_windowOver _).kept) ?_,
    kept_of_timer s s.scu.guardEnd (fun e => (s.reach e).guardOver) _ (fun e => (calm_guardOver _).kept) ?_,
    kept_of_timer s s.scu.retryEnd (fun e => (s.reach e).retryOver) _ (fun e => (calm_retryOver _).kept) ?_⟩
  · show execClaimWindowExpiry s = _; unfold execClaimWindowExpiry; rfl
  · show execGuardExpiry s = _; unfold execGuardExpiry; rfl
  · show execRetryDelayExpiry s = _; unfold execRetryDelayExpiry; rfl

theorem dipTimers_kept (s : State) :
    (∃ t, exec .dwellExpiry s = .next t ∧ Kept s t) ∧ ∃ t, exec .abortDrainExpiry s = .next t ∧ Kept s t := by
  refine ⟨kept_of_timer s s.dsq.dwellEnd (fun e => (s.reach e).stopDwell.endStep) _
      (fun e => ((calm_stopDwell _).trans (calm_endStep _)).kept) ?_,
    kept_of_timer s s.dsq.drainEnd (fun e => (s.reach e).abortDrainOver) _ (fun e => (calm_abortDrainOver _).kept) ?_⟩
  · show execDwellExpiry s = _; unfold execDwellExpiry; rfl
  · show execAbortDrainExpiry s = _; unfold execAbortDrainExpiry; rfl

theorem blockedLong_kept (s : State) : ∃ t, exec .blockedLong s = .next t ∧ Kept s t := by
  show ∃ t, execBlockedLong s = .next t ∧ Kept s t
  unfold execBlockedLong
  split
  · split
    · exact ⟨_, rfl, Kept.refl s⟩
    · exact ⟨_, rfl, ((calm_reach s _).kept.trans (kept_scu _ _)).trans (calm_raise _ _).kept⟩
  · exact ⟨_, rfl, Kept.refl s⟩

theorem intentLapse_kept (s : State) (holder : StationId) : ∃ t, exec (.intentLapse holder) s = .next t ∧ Kept s t := by
  show ∃ t, execIntentLapse holder s = .next t ∧ Kept s t
  unfold execIntentLapse
  split
  · split
    · exact ⟨_, rfl, (calm_reach s _).kept.trans (kept_notify _ _ (kept_entryLeaves _ holder))⟩
    · exact ⟨_, rfl, Kept.refl s⟩
  · exact ⟨_, rfl, Kept.refl s⟩

theorem peerSilence_kept (s : State) (peer : StationId) :
    ∃ t, exec (.peerSilenceExpiry peer) s = .next t ∧ Kept s t := by
  show ∃ t, execPeerSilenceExpiry peer s = .next t ∧ Kept s t
  unfold execPeerSilenceExpiry
  split
  · split
    · exact ⟨_, rfl, (calm_reach s _).kept.trans (kept_losePeer _ _)⟩
    · exact ⟨_, rfl, Kept.refl s⟩
  · exact ⟨_, rfl, Kept.refl s⟩

theorem entryExpiry_kept (s : State) (place : Nat) : ∃ t, exec (.entryExpiry place) s = .next t ∧ Kept s t := by
  show ∃ t, execEntryExpiry place s = .next t ∧ Kept s t
  unfold execEntryExpiry
  split
  · split
    · exact ⟨_, rfl, (calm_reach s _).kept.trans (calm_entryOver _ place).kept⟩
    · exact ⟨_, rfl, Kept.refl s⟩
  · exact ⟨_, rfl, Kept.refl s⟩

/-! ### The drive -/

theorem motionAccept_kept (s : State) (number : Byte) : ∃ t, exec (.motionAccept number) s = .next t ∧ Kept s t := by
  show ∃ t, execMotionAccept number s = .next t ∧ Kept s t
  unfold execMotionAccept
  split
  · exact ⟨_, rfl, (calm_takeAccept s _).kept⟩
  · exact ⟨_, rfl, Kept.refl s⟩
  · exact ⟨_, rfl, (calm_takeStop s).kept⟩
  · exact ⟨_, rfl, Kept.refl s⟩
  · exact ⟨_, rfl, Kept.refl s⟩
  · exact ⟨_, rfl, (calm_raise s _).kept⟩

theorem motionDone_kept (s : State) (number cell : Byte) :
    ∃ t, exec (.motionDone number cell) s = .next t ∧ Kept s t := by
  show ∃ t, execMotionDone number cell s = .next t ∧ Kept s t
  unfold execMotionDone
  split
  · exact ⟨_, rfl, (calm_takeDone s _ _ _).kept⟩
  · exact ⟨_, rfl, (calm_takeStop s).kept⟩
  · exact ⟨_, rfl, Kept.refl s⟩
  · exact ⟨_, rfl, Kept.refl s⟩
  · exact ⟨_, rfl, (calm_raise s _).kept⟩

theorem motionFail_kept (s : State) (number detail : Byte) :
    ∃ t, exec (.motionFail number detail) s = .next t ∧ Kept s t := by
  show ∃ t, execMotionFail number detail s = .next t ∧ Kept s t
  unfold execMotionFail
  split
  · exact ⟨_, rfl, Kept.refl s⟩
  · split
    · exact ⟨_, rfl, (calm_requestFault s _ _ _).kept⟩
    · exact ⟨_, rfl, (calm_stopFault s _).kept⟩
    · exact ⟨_, rfl, (calm_raise s _).kept⟩
    · exact ⟨_, rfl, Kept.refl s⟩
    · exact ⟨_, rfl, (calm_raise s _).kept⟩

theorem motionTimers_kept (s : State) :
    (∃ t, exec .acceptTimeout s = .next t ∧ Kept s t) ∧ (∃ t, exec .doneTimeout s = .next t ∧ Kept s t) ∧
      ∃ t, exec .stopAcceptTimeout s = .next t ∧ Kept s t := by
  refine ⟨?accept, ?done, ?stop⟩
  case accept =>
    show ∃ t, execAcceptTimeout s = .next t ∧ Kept s t
    unfold execAcceptTimeout
    split
    · exact ⟨_, rfl, ((calm_reach s _).trans (calm_requestFault _ _ _ _)).kept⟩
    · exact ⟨_, rfl, Kept.refl s⟩
  case done =>
    show ∃ t, execDoneTimeout s = .next t ∧ Kept s t
    unfold execDoneTimeout
    split
    · exact ⟨_, rfl, ((calm_reach s _).trans (calm_requestFault _ _ _ _)).kept⟩
    · exact ⟨_, rfl, Kept.refl s⟩
  case stop =>
    show ∃ t, execStopAcceptTimeout s = .next t ∧ Kept s t
    unfold execStopAcceptTimeout
    split
    · exact ⟨_, rfl, ((calm_reach s _).trans (calm_stopFault _ _)).kept⟩
    · exact ⟨_, rfl, Kept.refl s⟩

/-! ### The converter -/

theorem sampleTaken_kept (s : State) (status : Byte) (raw : BitVec 24) :
    ∃ t, exec (.sampleTaken status raw) s = .next t ∧ Kept s t := by
  show ∃ t, execSampleTaken status raw s = .next t ∧ Kept s t
  unfold execSampleTaken
  split <;> exact ⟨_, rfl, (calm_takeEffect s _).kept⟩

theorem settleTimeout_kept (s : State) : ∃ t, exec .settleTimeout s = .next t ∧ Kept s t := by
  show ∃ t, execSettleTimeout s = .next t ∧ Kept s t
  unfold execSettleTimeout
  split
  · exact ⟨_, rfl, ((calm_reach s _).trans (calm_finishTask _ _)).kept⟩
  · exact ⟨_, rfl, Kept.refl s⟩

theorem drainMinimum_kept (s : State) : ∃ t, exec .drainMinimum s = .next t ∧ Kept s t := by
  show ∃ t, execDrainMinimum s = .next t ∧ Kept s t
  unfold execDrainMinimum
  split
  · split
    · exact ⟨_, rfl, ((calm_reach s _).trans (calm_minimumReached _ _)).kept⟩
    · exact ⟨_, rfl, Kept.refl s⟩
  · exact ⟨_, rfl, Kept.refl s⟩

theorem drainMaximum_kept (s : State) : ∃ t, exec .drainMaximum s = .next t ∧ Kept s t := by
  show ∃ t, execDrainMaximum s = .next t ∧ Kept s t
  unfold execDrainMaximum
  split
  · exact ⟨_, rfl, ((calm_reach s _).trans (calm_maximumReached _ _)).kept⟩
  · exact ⟨_, rfl, Kept.refl s⟩

/-! ### Every command -/

/-- A command that is no request and no reset of the station moves no more than the blocks' own work does. -/
theorem exec_kept (c : Instr) (s : State) (hreq : requestHead c = none) (hpor : c ≠ .powerOnReset) :
    (∃ t, exec c s = .next t ∧ Kept s t) ∨ exec c s = .next s.dropPartial := by
  cases c <;> try cases hreq
  case powerOnReset => exact absurd rfl hpor
  case requestFrameTimeout => exact .inr rfl
  case requestCheckFail => exact .inr rfl
  all_goals left
  case lineFrameDiscarded => exact lineFrameDiscarded_kept s
  case beaconFrame src seq payload => exact beaconFrame_kept s src seq payload
  case intentFrame src seq payload => exact intentFrame_kept s src seq payload
  case holdFrame src seq payload => exact holdFrame_kept s src seq payload
  case yieldFrame src seq payload => exact (freeFrame_kept s src seq payload).1
  case freeFrame src seq payload => exact (freeFrame_kept s src seq payload).2
  case entryFrame src seq payload => exact entryFrame_kept s src seq payload
  case pickupFrame src seq payload => exact pickupFrame_kept s src seq payload
  case ingotFrame src seq payload => exact ingotFrame_kept s src seq payload
  case attemptStart => exact attemptStart_kept s
  case collision => exact collision_kept s
  case deferTimeout => exact deferTimeout_kept s
  case backoffExpiry => exact backoffExpiry_kept s
  case sendSuccess => exact sendSuccess_kept s
  case beaconTimerExpiry => exact (lineTimers_kept s).1
  case joinTimerExpiry => exact (lineTimers_kept s).2.1
  case clashTimerExpiry => exact (lineTimers_kept s).2.2
  case peerSilenceExpiry peer => exact peerSilence_kept s peer
  case claimWindowExpiry => exact (claimTimers_kept s).1
  case guardExpiry => exact (claimTimers_kept s).2.1
  case retryDelayExpiry => exact (claimTimers_kept s).2.2
  case blockedLong => exact blockedLong_kept s
  case intentLapse holder => exact intentLapse_kept s holder
  case entryExpiry place => exact entryExpiry_kept s place
  case dwellExpiry => exact (dipTimers_kept s).1
  case abortDrainExpiry => exact (dipTimers_kept s).2
  case motionRequestSent => exact ⟨_, rfl, (calm_mpt s _).kept⟩
  case motionAccept number => exact motionAccept_kept s number
  case motionDone number cell => exact motionDone_kept s number cell
  case motionFail number detail => exact motionFail_kept s number detail
  case motionFrameDiscarded => exact ⟨_, rfl, Kept.refl s⟩
  case acceptTimeout => exact (motionTimers_kept s).1
  case doneTimeout => exact (motionTimers_kept s).2.1
  case stopAcceptTimeout => exact (motionTimers_kept s).2.2
  case pollTimer => exact ⟨_, rfl, ((calm_reach s _).trans (calm_wch _ _)).kept⟩
  case sampleTaken status raw => exact sampleTaken_kept s status raw
  case settleTimeout => exact settleTimeout_kept s
  case drainMinimum => exact drainMinimum_kept s
  case drainMaximum => exact drainMaximum_kept s

/-- The command loads no program. -/
def sparesPrograms (c : Instr) : Prop := ∀ tag body, c ≠ .loadProgram tag body

/-- The command neither serves events nor resets the station. -/
def sparesEvents (c : Instr) : Prop :=
  ∀ tag body, c ≠ .readEvent tag body ∧ c ≠ .ackGroup tag body ∧ c ≠ .setEnable tag body ∧ c ≠ .stationReset tag body

theorem setup_of_allow {ready : Bool} (h : Modes.setup.allow ready = true) : ready = false := by
  simpa [Modes.allow] using h

/-- A request keeps what its owner keeps. -/
theorem exec_request_carried (c : Instr) (s : State) (hreq : requestHead c ≠ none) :
    ∃ t, exec c s = .next t ∧ Carried (sparesPrograms c) (sparesEvents c) s t := by
  cases c <;> try exact absurd rfl hreq
  all_goals refine ⟨_, rfl, ?_⟩
  case unknownRequest => exact takeRequest_carried s _ _ _ (Carried.refl _ _ s)
  case setParam => exact request_carried s _ _ _ _ _ fun h a => setParam_carried _ _ a s (setup_of_allow h)
  case sealRequest => exact request_carried s _ _ _ _ _ fun h _ => sealSet_carried _ _ s (setup_of_allow h)
  case readParam => exact reading_carried s _ _ _ _ _ fun a => readParam_state a s
  case readStatus => exact reading_carried s _ _ _ _ _ fun _ => rfl
  case readEvent tag body =>
    exact request_carried s _ _ _ _ _ fun _ _ => readEvent_carried (fun h => (h tag body).1 rfl) s
  case ackGroup tag body =>
    exact request_carried s _ _ _ _ _ fun _ a => ackGroup_carried (fun h => (h tag body).2.1 rfl) a s
  case setEnable tag body =>
    exact request_carried s _ _ _ _ _ fun _ a => setEnable_carried (fun h => (h tag body).2.2.1 rfl) a s
  case powerInfo => exact reading_carried s _ _ _ _ _ fun _ => rfl
  case loadProgram tag body =>
    exact request_carried s _ _ _ _ _ fun _ a => loadProgram_carried (fun h => h tag body rfl) a s
  case readProgram => exact reading_carried s _ _ _ _ _ fun a => readProgram_state a s
  case lotOpen => exact request_carried s _ _ _ _ _ fun _ a => lotOpen_carried _ _ a s
  case lotFix => exact request_carried s _ _ _ _ _ fun _ a => lotFix_carried _ _ a s
  case lotFreeClass => exact request_carried s _ _ _ _ _ fun _ a => lotFreeClass_carried _ _ a s
  case readLots => exact reading_carried s _ _ _ _ _ fun _ => rfl
  case startDip => exact request_carried s _ _ _ _ _ fun _ a => startRequest_carried _ _ a s
  case abortDip => exact request_carried s _ _ _ _ _ fun _ _ => abortDip_carried _ _ s
  case confirmClear => exact request_carried s _ _ _ _ _ fun _ _ => confirmClear_carried _ _ s
  case ingot => exact request_carried s _ _ _ _ _ fun h a => ingotRequest_carried _ _ a s h
  case setBalance => exact request_carried s _ _ _ _ _ fun h a => setBalance_carried _ _ a s h
  case readRecord => exact request_carried s _ _ _ _ _ fun _ _ => readRecord_carried _ _ s
  case peekRecord => exact reading_carried s _ _ _ _ _ fun _ => peekRecord_state s
  case clearPeer => exact request_carried s _ _ _ _ _ fun _ a => clearPeer_carried _ _ a s
  case readPeers => exact reading_carried s _ _ _ _ _ fun _ => rfl
  case readSpans => exact reading_carried s _ _ _ _ _ fun _ => rfl
  case readHeat => exact reading_carried s _ _ _ _ _ fun _ => rfl
  case stationReset tag body =>
    exact request_carried s _ _ _ _ _ fun h _ => resetRequest_carried (fun h => (h tag body).2.2.2 rfl) s h

/-- What every command but POWER_ON_RESET keeps. -/
theorem exec_carried (c : Instr) (s : State) (hpor : c ≠ .powerOnReset) :
    ∃ t, exec c s = .next t ∧ Carried (sparesPrograms c) (sparesEvents c) s t := by
  cases hreq : requestHead c with
  | some head => exact exec_request_carried c s (by rw [hreq]; simp)
  | none =>
    obtain ⟨t, hexec, kept⟩ | hexec := exec_kept c s hreq hpor
    · exact ⟨t, hexec, kept.carried _ _⟩
    · exact ⟨_, hexec, (Carried.refl _ _ s).port _ rfl rfl rfl rfl⟩

/-! ### The step with an empty queue -/

/-- The command chosen among those due is one of them. -/
theorem chooseDue_mem (draw : Nat) (c : Instr) (rest : List Instr) : (chooseDue draw c rest).1 ∈ c :: rest := by
  induction rest generalizing draw c with
  | nil => exact List.mem_singleton.mpr rfl
  | cons d more ih =>
    unfold chooseDue
    split
    · exact List.mem_cons_self
    · exact List.mem_cons_of_mem c (ih (draw + 1) d)

/-- The station left alone moves nothing but the time base, the draws and the queue of commands. -/
theorem tick_eq (s : State) : ∃ now draws pending, s.tick = { s with now := now, draws := draws, pending := pending } := by
  unfold State.tick
  split
  · exact ⟨_, s.draws, s.pending, rfl⟩
  · exact ⟨s.now, _, _, rfl⟩

/-! ### The statements -/

/-- Settles O1: the step is defined by the front of the queue. -/
theorem stepTakesTheFrontCommand : Obligations.StepTakesTheFrontCommand := by
  intro s c rest hfront
  simp only [step, hfront]
  rfl

/-- Settles O2: a tick with nothing due counts, and one with timers due queues the command `chooseDue` picks, which is one
of those due. -/
theorem emptyQueueStepCountsTheTimeBase : Obligations.EmptyQueueStepCountsTheTimeBase := by
  intro s hempty
  have hstep : step s = .next s.tick := by simp only [step, hempty]
  refine ⟨fun hdue => ?quiet, fun hdue => ?due⟩
  case quiet =>
    rw [hstep]
    simp only [State.tick, hdue]
    rfl
  case due =>
    obtain ⟨c, rest, hcons⟩ := List.exists_cons_of_ne_nil hdue
    refine ⟨_, hcons ▸ chooseDue_mem s.draws c rest, (chooseDue s.draws c rest).2, ?_⟩
    rw [hstep]
    simp only [State.tick, hcons]
    rfl

/-- Settles O3: POWER_ON_RESET by its definition, every other command by `exec_carried`. -/
theorem everyCommandAnswersANextState : Obligations.EveryCommandAnswersANextState := by
  intro c s
  by_cases hpor : c = .powerOnReset
  · subst hpor
    exact ⟨s.powerOn, rfl, rfl, rfl, fun h => absurd rfl h⟩
  · obtain ⟨t, hexec, carried⟩ := exec_carried c s hpor
    exact ⟨t, hexec, carried.pending, carried.draws, fun _ => carried.now⟩

/-- Settles O4: the reset tables are the definition of `State.reset`, value by value. -/
theorem powerOnResetTakesTheResetValues : Obligations.PowerOnResetTakesTheResetValues :=
  ⟨fun _ => rfl, rfl⟩

/-- Settles O5: the stores are empty after reset, and Z is 0 with the line OFF. -/
theorem storesHoldAtReset : Obligations.StoresHoldAtReset where
  window := ⟨Nat.zero_le _, rfl⟩
  queue := ⟨Nat.zero_le _, Nat.zero_le _⟩
  ring := ⟨Nat.zero_le _, trivial⟩
  lots := ⟨Nat.zero_le _, List.nodup_nil, fun _ h => absurd h List.not_mem_nil⟩
  balance := ⟨Nat.zero_le _, fun _ => ⟨rfl, rfl, rfl⟩⟩

/-- The invariants of the stores do not speak of the time base, the draws and the queue of commands. -/
theorem storesOk_tick {s : State} (h : StoresOk s) : StoresOk s.tick := by
  obtain ⟨now, draws, pending, htick⟩ := tick_eq s
  rw [htick]
  exact ⟨h.window, h.queue, h.ring, h.lots, h.balance⟩

/-- The invariants of the stores hold after a power-on reset, whatever the state before. -/
theorem storesOk_powerOn (s : State) : StoresOk s.powerOn := by
  obtain ⟨window, queue, ring, lots, balance⟩ := storesHoldAtReset
  exact ⟨window, queue, ring, lots, balance⟩

/-- Settles O6: a step is a tick, a power-on reset, or a command that `exec_carried` speaks of. -/
theorem storesAreKeptByEveryStep : Obligations.StoresAreKeptByEveryStep := by
  intro s t ok hstep
  cases hqueue : s.pending with
  | nil =>
    have htick : step s = .next s.tick := by simp only [step, hqueue]
    rw [htick] at hstep
    cases hstep
    exact storesOk_tick ok
  | cons c rest =>
    rw [stepTakesTheFrontCommand s c rest hqueue] at hstep
    have ok' : StoresOk { s with pending := rest } := ⟨ok.window, ok.queue, ok.ring, ok.lots, ok.balance⟩
    by_cases hpor : c = .powerOnReset
    · subst hpor
      cases hstep
      exact storesOk_powerOn _
    · obtain ⟨u, hexec, carried⟩ := exec_carried c { s with pending := rest } hpor
      rw [hexec] at hstep
      cases hstep
      exact carried.stores ok'

/-- Settles O7: `exec_carried` gives both parts. -/
theorem sealedSetAndProgramsAreFixed : Obligations.SealedSetAndProgramsAreFixed := by
  intro c s hpor
  obtain ⟨t, hexec, carried⟩ := exec_carried c s hpor
  exact ⟨t, hexec, carried.cfg, carried.pgs⟩

/-- Settles O8: `exec_carried` gives the four groups. -/
theorem eventFlagsStandUntilRead : Obligations.EventFlagsStandUntilRead := by
  intro c s hpor hspares
  obtain ⟨t, hexec, carried⟩ := exec_carried c s hpor
  exact ⟨t, hexec, carried.groups hspares⟩

end Sys2Proof.Machine
end

section
/-! The validator of LOAD_PROGRAM (R86 to R91): a program it lets through passes every check, every program that passes
them gets through, and the bytes of a program are those of its steps. -/

namespace Sys2Proof.Machine

/-! ### Numbers in bytes -/

theorem toNat_u8 {n : Nat} (h : n < 256) : (BitVec.ofNat 8 n).toNat = n := by
  simp only [BitVec.toNat_ofNat]
  omega

/-- A number below 65,536 is read back from its two bytes. -/
theorem beNat_u16 {n : Nat} (h : n < 65536) : beNat [BitVec.ofNat 8 (n / 256), BitVec.ofNat 8 n] = n := by
  simp only [beNat, List.foldl_cons, List.foldl_nil, BitVec.toNat_ofNat]
  omega

/-- A number below 2^24 is read back from its three bytes. -/
theorem beNat_u24 {n : Nat} (h : n < 16777216) :
    beNat [BitVec.ofNat 8 (n / 65536), BitVec.ofNat 8 (n / 256), BitVec.ofNat 8 n] = n := by
  simp only [beNat, List.foldl_cons, List.foldl_nil, BitVec.toNat_ofNat]
  omega

theorem beNat_pair_lt (a b : Byte) : beNat [a, b] < 65536 := by
  simp only [beNat, List.foldl_cons, List.foldl_nil]
  omega

/-! ### Step records (section 12.3) -/

/-- The byte that a record holds for a TRAVEL's cell and a CLAIM's length. -/
def stepByteBound (st : DipStep) : Prop :=
  match st with
  | .travel c => c ≤ 255
  | .claim l _ => l ≤ 255
  | _ => True

theorem byteBound_of_decode {r : List Byte} {st : DipStep} (h : decodeStep r = some st) : stepByteBound st := by
  unfold decodeStep at h
  repeat' split at h
  all_goals cases h
  all_goals first
    | trivial
    | exact Nat.le_of_lt_succ (BitVec.isLt _)

/-- A step within its ranges is read back from its record. -/
theorem decodeStep_encodeStep {n : Nat} {st : DipStep} (h : StepOk n st) : decodeStep (encodeStep st) = some st := by
  cases st <;> simp only [StepOk] at h <;>
    simp only [encodeStep, u8, u16, markByte, List.cons_append, List.nil_append, decodeStep,
      BitVec.reduceToNat]
  case weighDry => rw [toNat_u8 (by omega)]
  case travel => rw [toNat_u8 (by omega)]
  case claim l w => rw [toNat_u8 (by omega)]; cases w <;> rfl
  case lower => rw [beNat_u16 (by omega), toNat_u8 (by omega), beNat_u16 (by omega)]
  case dwell => rw [beNat_u16 (by omega)]
  case raise => rw [toNat_u8 (by omega)]
  case drain =>
    rw [beNat_u16 (by omega), beNat_u16 (by omega), beNat_u16 (by omega), beNat_u16 (by omega), toNat_u8 (by omega)]
  case vibrate => rw [toNat_u8 (by omega)]
  case weighOut => rw [toNat_u8 (by omega)]
  case chain => rw [toNat_u8 (by omega)]

/-- The record of a step begins with its kind, which gives the record's size. -/
theorem encodeStep_cons (st : DipStep) :
    ∃ k rest, encodeStep st = k :: rest ∧ recordSize k - 1 = rest.length := by
  cases st <;> exact ⟨_, _, rfl, rfl⟩

/-- The records of a program are cut out of its bytes. -/
theorem splitRecords_flatMap (steps : List DipStep) :
    splitRecords steps.length (steps.flatMap encodeStep) = some (steps.map encodeStep) := by
  induction steps with
  | nil => rfl
  | cons st rest ih =>
    obtain ⟨k, tail, henc, hsize⟩ := encodeStep_cons st
    rw [List.flatMap_cons, henc, List.length_cons, List.cons_append, splitRecords, hsize]
    simp [ih, henc]

theorem splitRecords_length {n : Nat} {bs : List Byte} {rs : List (List Byte)} (h : splitRecords n bs = some rs) :
    rs.length = n := by
  induction n generalizing bs rs with
  | zero =>
    cases bs with
    | nil => cases h; rfl
    | cons => cases h
  | succ m ih =>
    cases bs with
    | nil => cases h
    | cons k rest =>
      rw [splitRecords] at h
      split at h
      · cases h
      · obtain ⟨rs', hrs', rfl⟩ := Option.map_eq_some_iff.mp h
        exact congrArg (· + 1) (ih hrs')

/-! ### The checks of one step -/

theorem stepFailure_none {n : Nat} {continuation last : Bool} {w : HoldWalk} {st : DipStep} :
    stepFailure n continuation last w st = none ↔
      stepInRange n st = true ∧ drainOrderOk st = true ∧ st.isEnding = last ∧ w.failure continuation st = none := by
  unfold stepFailure
  cases stepInRange n st <;> cases drainOrderOk st <;> cases st.isEnding <;> cases last <;> simp

/-- The ranges of R82 and the order of R88 are what the range test and the order test of the validator say. -/
theorem stepOk_iff (n : Nat) (st : DipStep) :
    StepOk n st ↔ stepByteBound st ∧ stepInRange n st = true ∧ drainOrderOk st = true := by
  cases st <;> simp [StepOk, stepByteBound, stepInRange, drainOrderOk, within] <;> omega

/-! ### The hold walk (R90) -/

/-- What the hold walk has seen before the step at an index. -/
def walkAt (steps : List DipStep) (i : Nat) : HoldWalk := (steps.take i).foldl HoldWalk.next ⟨false, false⟩

theorem walkAt_succ (steps : List DipStep) (i : Nat) :
    walkAt steps (i + 1) = match steps[i]? with
      | some st => (walkAt steps i).next st
      | none => walkAt steps i := by
  unfold walkAt
  rw [List.take_add_one, List.foldl_append]
  cases steps[i]? <;> rfl

/-- A CLAIM stands before an index. -/
def ClaimBefore (steps : List DipStep) (i : Nat) : Prop :=
  ∃ j, j < i ∧ (steps[j]?.map DipStep.isClaim) = some true

/-- A CLAIM stands before an index with no RELEASE between. -/
def HeldBefore (steps : List DipStep) (i : Nat) : Prop :=
  ∃ j, j < i ∧ (steps[j]?.map DipStep.isClaim) = some true ∧ ∀ k, j < k → k < i → steps[k]? ≠ some .release

theorem claimBefore_succ (steps : List DipStep) (i : Nat) :
    ClaimBefore steps (i + 1) ↔ ClaimBefore steps i ∨ (steps[i]?.map DipStep.isClaim) = some true := by
  constructor
  · rintro ⟨j, hj, hclaim⟩
    by_cases h : j = i
    · exact .inr (h ▸ hclaim)
    · exact .inl ⟨j, by omega, hclaim⟩
  · rintro (⟨j, hj, hclaim⟩ | hclaim)
    · exact ⟨j, by omega, hclaim⟩
    · exact ⟨i, by omega, hclaim⟩

theorem heldBefore_succ (steps : List DipStep) (i : Nat) :
    HeldBefore steps (i + 1) ↔
      (HeldBefore steps i ∧ steps[i]? ≠ some .release) ∨ (steps[i]?.map DipStep.isClaim) = some true := by
  constructor
  · rintro ⟨j, hj, hclaim, hkeep⟩
    by_cases h : j = i
    · exact .inr (h ▸ hclaim)
    · exact .inl ⟨⟨j, by omega, hclaim, fun k hk hki => hkeep k hk (by omega)⟩, hkeep i (by omega) (by omega)⟩
  · rintro (⟨⟨j, hj, hclaim, hkeep⟩, hnot⟩ | hclaim)
    · refine ⟨j, by omega, hclaim, fun k hk hki => ?_⟩
      by_cases h : k = i
      · exact h ▸ hnot
      · exact hkeep k hk (by omega)
    · exact ⟨i, by omega, hclaim, fun k hk hki => by omega⟩

/-- The walk has seen a CLAIM, and holds a span, exactly where the steps before the index say so. -/
theorem walkAt_iff (steps : List DipStep) (i : Nat) :
    ((walkAt steps i).claimSeen = true ↔ ClaimBefore steps i) ∧
      ((walkAt steps i).holding = true ↔ HeldBefore steps i) := by
  induction i with
  | zero => simp [walkAt, ClaimBefore, HeldBefore]
  | succ i ih =>
    obtain ⟨hseen, hholding⟩ := ih
    rw [walkAt_succ, claimBefore_succ, heldBefore_succ, ← hseen, ← hholding]
    cases steps[i]? with
    | none => simp
    | some st => cases st <;> simp [HoldWalk.next, DipStep.isClaim]

/-- The hold checks of a step are those of R90. -/
theorem failure_none_iff (steps : List DipStep) (i : Nat) (st : DipStep) :
    (walkAt steps i).failure false st = none ↔ HoldsOk steps i st := by
  obtain ⟨hseen, hholding⟩ := walkAt_iff steps i
  unfold HoldsOk
  rw [← ClaimBefore, ← HeldBefore, ← hseen, ← hholding]
  cases st <;> simp [HoldWalk.failure, DipStep.isLower]

/-! ### The checks of all steps -/

/-- Every step of a list passes its checks, the walk over the steps before it having seen `w`. -/
def StepsPass (n : Nat) (continuation : Bool) (w : HoldWalk) (steps : List DipStep) : Prop :=
  match steps with
  | [] => True
  | st :: rest =>
    stepFailure n continuation rest.isEmpty w st = none ∧ StepsPass n continuation (w.next st) rest

/-- The validator answers the steps of the records where each record holds one and all of them pass. -/
theorem checkSteps_ok_iff (n : Nat) (continuation : Bool) (i : Nat) (w : HoldWalk) (rs : List (List Byte))
    (steps : List DipStep) :
    checkSteps n continuation i w rs = .ok steps ↔
      rs.map decodeStep = steps.map some ∧ StepsPass n continuation w steps := by
  induction rs generalizing i w steps with
  | nil => cases steps <;> simp [checkSteps, StepsPass]
  | cons r rest ih =>
    rw [checkSteps]
    cases hdec : decodeStep r with
    | none => cases steps <;> simp [hdec]
    | some st =>
      have hlen (more : List DipStep) (h : rest.map decodeStep = more.map some) : more.isEmpty = rest.isEmpty := by
        cases rest <;> cases more <;> simp_all
      cases steps with
      | nil =>
        simp only [List.map_cons, List.map_nil, reduceCtorEq, false_and, iff_false]
        split
        · simp
        · split <;> simp
      | cons st' more =>
        simp only [List.map_cons, hdec, List.cons.injEq, Option.some.injEq, StepsPass]
        cases hfail : stepFailure n continuation rest.isEmpty w st with
        | some c =>
          simp only [reduceCtorEq, false_iff]
          rintro ⟨⟨rfl, hmore⟩, hpass, -⟩
          rw [hlen more hmore, hfail] at hpass
          cases hpass
        | none =>
          have step := ih (i + 1) (w.next st) more
          constructor
          · intro h
            simp only at h
            split at h
            · rename_i ss hss
              simp only [Except.ok.injEq, List.cons.injEq] at h
              obtain ⟨rfl, rfl⟩ := h
              obtain ⟨hmap, hpass⟩ := step.mp hss
              exact ⟨⟨rfl, hmap⟩, by rw [hlen _ hmap]; exact hfail, hpass⟩
            · cases h
          · rintro ⟨⟨rfl, hmap⟩, -, hpass⟩
            simp only [step.mpr ⟨hmap, hpass⟩]

/-- The steps pass where each passes at its own place. -/
theorem stepsPass_iff (n : Nat) (continuation : Bool) (w : HoldWalk) (steps : List DipStep) :
    StepsPass n continuation w steps ↔ ∀ i st, steps[i]? = some st →
      stepFailure n continuation (decide (i + 1 = steps.length)) ((steps.take i).foldl HoldWalk.next w) st = none := by
  induction steps generalizing w with
  | nil => simp [StepsPass]
  | cons st rest ih =>
    have hlast : rest.isEmpty = decide (0 + 1 = (st :: rest).length) := by cases rest <;> simp
    rw [StepsPass, ih, hlast]
    constructor
    · rintro ⟨hfirst, hrest⟩ (_ | i) x hx
      · cases hx
        exact hfirst
      · simpa using hrest i x hx
    · intro h
      exact ⟨h 0 st rfl, fun i x hx => by simpa using h (i + 1) x hx⟩

/-- A program of a fitting length passes the checks of its header and its steps exactly where the rules let it. -/
theorem programOk_iff (n : Nat) (p : Program) (hcount : 1 ≤ p.steps.length ∧ p.steps.length ≤ 16) :
    ProgramOk n p ↔ p.flux ≤ 30 ∧ (∀ st ∈ p.steps, stepByteBound st) ∧
      StepsPass n p.continuation ⟨false, false⟩ p.steps := by
  rw [stepsPass_iff]
  constructor
  · intro ok
    refine ⟨ok.flux, fun st hst => ((stepOk_iff n st).mp (ok.steps st hst)).1, fun i st hst => ?_⟩
    obtain ⟨-, hrange, horder⟩ := (stepOk_iff n st).mp (ok.steps st (List.mem_of_getElem? hst))
    refine stepFailure_none.mpr ⟨hrange, horder, ?_, ?_⟩
    · exact Bool.eq_iff_iff.mpr ((ok.ending i st hst).trans decide_eq_true_iff.symm)
    · cases hcont : p.continuation with
      | true => rfl
      | false => exact (failure_none_iff p.steps i st).mpr (ok.holds hcont i st hst)
  · rintro ⟨hflux, hbyte, hpass⟩
    refine ⟨hcount, hflux, fun st hst => ?_, fun i st hst => ?_, fun hcont i st hst => ?_⟩
    · obtain ⟨i, hi⟩ := List.getElem?_of_mem hst
      obtain ⟨hrange, horder, -⟩ := stepFailure_none.mp (hpass i st hi)
      exact (stepOk_iff n st).mpr ⟨hbyte st hst, hrange, horder⟩
    · obtain ⟨-, -, hending, -⟩ := stepFailure_none.mp (hpass i st hst)
      rw [hending]
      exact decide_eq_true_iff
    · obtain ⟨-, -, -, hhold⟩ := stepFailure_none.mp (hpass i st hst)
      rw [hcont] at hhold
      exact (failure_none_iff p.steps i st).mp hhold

/-! ### The validator -/

theorem ofCode_code (c : SteelClass) : SteelClass.ofCode c.code = some c := by cases c <;> rfl

/-- A program the validator answers passes every check. -/
theorem validate_sound {n : Nat} {r : RawProgram} {p : Program} (hlen : r.records.length = r.count)
    (h : validate n r = .ok p) : ProgramOk n p := by
  unfold validate at h
  split at h
  · cases h
  · rename_i hcount
    split at h
    · cases h
    · split at h
      · cases h
      · rename_i hflux
        split at h
        · rename_i steps hsteps
          cases h
          obtain ⟨hmap, hpass⟩ := (checkSteps_ok_iff _ _ _ _ _ _).mp hsteps
          have hl : steps.length = r.count := by
            have := congrArg List.length hmap
            simpa [hlen] using this.symm
          refine (programOk_iff n _ ⟨by simp only; omega, by simp only; omega⟩).mpr
            ⟨Nat.le_of_not_lt hflux, fun st hst => ?_, hpass⟩
          have hmem : some st ∈ r.records.map decodeStep := hmap ▸ List.mem_map_of_mem hst
          obtain ⟨bytes, -, hdec⟩ := List.mem_map.mp hmem
          exact byteBound_of_decode hdec
        · cases h

/-- The arguments a program is sent as. -/
def rawOf (slot : Byte) (p : Program) : RawProgram where
  slot := slot.toNat
  flags := if p.continuation then 1 else 0
  defaultClass := p.defaultClass.code
  flux := p.flux
  count := p.steps.length
  records := p.steps.map encodeStep

theorem argsLoad_loadBody (slot : Byte) (p : Program) (hcount : p.steps.length ≤ 16) (hflux : p.flux ≤ 30) :
    argsLoad (loadBody slot p) = some (rawOf slot p) := by
  have hclass : p.defaultClass.code < 256 := by cases p.defaultClass <;> decide
  simp only [loadBody, List.cons_append, List.nil_append, argsLoad]
  rw [toNat_u8 (n := p.steps.length) (by omega), splitRecords_flatMap, toNat_u8 hclass,
    toNat_u8 (n := p.flux) (by omega)]
  rfl

/-- Every program that passes the checks is the validator's answer to the arguments it is sent as. -/
theorem validate_complete {n : Nat} {p : Program} (slot : Byte) (ok : ProgramOk n p) :
    validate n (rawOf slot p) = .ok p := by
  obtain ⟨hflux, -, hpass⟩ := (programOk_iff n p ok.count).mp ok
  obtain ⟨hlo, hhi⟩ := ok.count
  have hbit : (rawOf slot p).flags.getLsbD 0 = p.continuation := by
    simp only [rawOf]
    cases p.continuation <;> rfl
  have hmap : (rawOf slot p).records.map decodeStep = p.steps.map some := by
    simp only [rawOf, List.map_map]
    exact List.map_congr_left fun st hst => decodeStep_encodeStep (ok.steps st hst)
  have hsteps : checkSteps n p.continuation 0 ⟨false, false⟩ (rawOf slot p).records = .ok p.steps :=
    (checkSteps_ok_iff _ _ _ _ _ _).mpr ⟨hmap, hpass⟩
  unfold validate
  rw [if_neg (by simp only [rawOf]; omega), show (rawOf slot p).defaultClass = p.defaultClass.code from rfl,
    ofCode_code]
  simp only
  rw [if_neg (by simp only [rawOf]; omega), hbit, hsteps]
  rfl

/-! ### The statements -/

theorem isCurrentSlot_false (s : State) (slot : Nat)
    (h : s.dsq.state = .idle ∨ ∀ c, s.dsq.ctx = some c → c.slot ≠ slot) : s.isCurrentSlot slot = false := by
  unfold State.isCurrentSlot
  rcases h with h | h
  · simp [h]
  · cases hctx : s.dsq.ctx with
    | none => simp
    | some c => simp [h c hctx]

/-- Settles O20: the body of a valid program carries its arguments, and the validator answers the program. -/
theorem validProgramIsLoaded : Obligations.ValidProgramIsLoaded := by
  intro s tag slot p hasks hslot ok hfree
  have hargs := argsLoad_loadBody slot p ok.count.2 ok.flux
  have howner : s.loadProgram (rawOf slot p) = (s.withPgs (s.pgs.put slot.toNat p), [0]) := by
    unfold State.loadProgram
    rw [if_neg (show ¬15 < (rawOf slot p).slot from Nat.not_lt.mpr hslot),
      show (rawOf slot p).slot = slot.toNat from rfl, isCurrentSlot_false s _ hfree, validate_complete slot ok]
    rfl
  show Host.Outcome.next (s.request tag .loadProgram (argsLoad (loadBody slot p)) .ready State.loadProgram) = _
  rw [hargs, request_asksReady s tag .loadProgram _ _ hasks, howner]
  rfl

/-- LOAD_PROGRAM's owner leaves the store or puts a valid program in a slot. -/
theorem loadProgram_pgs (s : State) (r : RawProgram) (hlen : r.records.length = r.count) :
    (s.loadProgram r).1.pgs = s.pgs ∨ ∃ slot p, slot < 16 ∧ ProgramOk s.cells p ∧
      (s.loadProgram r).1.pgs = { s.pgs with slots := s.pgs.slots.setIfInBounds slot (some p) } := by
  unfold State.loadProgram
  split
  · exact .inl rfl
  · rename_i hslot
    split
    · exact .inl rfl
    · split
      · exact .inl rfl
      · rename_i p hp
        exact .inr ⟨r.slot, p, by omega, validate_sound hlen hp, rfl⟩

theorem argsLoad_length {body : List Byte} {r : RawProgram} (h : argsLoad body = some r) :
    r.records.length = r.count := by
  unfold argsLoad at h
  split at h
  · obtain ⟨rs, hrs, rfl⟩ := Option.map_eq_some_iff.mp h
    exact splitRecords_length hrs
  · cases h

/-- What LOAD_PROGRAM does to the program store. -/
theorem exec_loadProgram_pgs (s : State) (tag : Byte) (body : List Byte) :
    ∃ t, exec (.loadProgram tag body) s = .next t ∧ (t.pgs = s.pgs ∨ ∃ slot p, slot < 16 ∧ ProgramOk s.cells p ∧
      t.pgs = { s.pgs with slots := s.pgs.slots.setIfInBounds slot (some p) }) := by
  refine ⟨s.request tag .loadProgram (argsLoad body) .ready State.loadProgram, rfl, ?_⟩
  unfold State.request State.takeRequest
  split
  · exact .inl rfl
  · unfold decodeRequest
    split
    · exact .inl rfl
    · rename_i r hr
      split
      · exact loadProgram_pgs s r (argsLoad_length hr)
      · exact .inl rfl

theorem programAt_put {g : Pgs} {slot n : Nat} {p q : Program} (h : (Pgs.put g slot p).programAt n = some q) :
    q = p ∨ g.programAt n = some q := by
  unfold Pgs.programAt Pgs.put at h
  simp only [Vector.getElem?_setIfInBounds] at h
  split at h
  · split at h
    · cases h; exact .inl rfl
    · cases h
  · exact .inr h

theorem programAt_reset (n : Nat) : Pgs.reset.programAt n = none := by
  unfold Pgs.programAt Pgs.reset
  rw [Vector.getElem?_replicate]
  split <;> rfl

/-- In READY every command keeps the stored programs valid. -/
theorem exec_keeps_programs (c : Instr) (s t : State) (hready : s.cfg.ready = true)
    (ok : ∀ slot p, s.pgs.programAt slot = some p → ProgramOk s.cells p) (hexec : exec c s = .next t) :
    ∀ slot p, t.pgs.programAt slot = some p → ProgramOk t.cells p := by
  intro slot p hp
  by_cases hpor : c = .powerOnReset
  · subst hpor
    cases hexec
    rw [show s.powerOn.pgs = Pgs.reset from rfl, programAt_reset] at hp
    cases hp
  obtain ⟨u, hu, carried⟩ := exec_carried c s hpor
  rw [hexec] at hu
  cases hu
  have hcells : t.cells = s.cells := by unfold State.cells; rw [carried.cfg hready]
  rw [hcells]
  by_cases hload : sparesPrograms c
  · rw [carried.pgs hload] at hp
    exact ok slot p hp
  · obtain ⟨tag, body, rfl⟩ : ∃ tag body, c = .loadProgram tag body := by
      simpa [sparesPrograms] using hload
    obtain ⟨v, hv, hpgs⟩ := exec_loadProgram_pgs s tag body
    rw [hexec] at hv
    cases hv
    obtain hpgs | ⟨slot', q, -, hq, hpgs⟩ := hpgs
    · rw [hpgs] at hp
      exact ok slot p hp
    · rw [hpgs] at hp
      obtain rfl | hp := programAt_put (g := s.pgs) hp
      · exact hq
      · exact ok slot p hp

/-- Settles O21: a tick moves neither the programs nor N, a command is `exec_keeps_programs`. -/
theorem loadedProgramsAreValid : Obligations.LoadedProgramsAreValid := by
  refine ⟨fun s t hready ok hstep => ?_, exec_loadProgram_pgs⟩
  cases hqueue : s.pending with
  | nil =>
    have htick : step s = .next s.tick := by simp only [step, hqueue]
    rw [htick] at hstep
    cases hstep
    obtain ⟨now, draws, pending, heq⟩ := tick_eq s
    rw [heq]
    exact ok
  | cons c rest =>
    rw [stepTakesTheFrontCommand s c rest hqueue] at hstep
    exact exec_keeps_programs c { s with pending := rest } t hready ok hstep

end Sys2Proof.Machine
end

section
/-! A LOWER is issued only for a span that is FIRM and clear (R65, R107). `NoLower` says that a move issues none, and
`LowerSafe` that one it issues finds the span FIRM and clear, with DSQ in LOWERING, when the move ends. -/

namespace Sys2Proof.Machine

/-! ### The relations -/

/-- A LOWER that stands for acceptance after the move stood so before it. -/
def NoLower (s t : State) : Prop :=
  ∀ depth speed n, t.mpt.phase = .awaitAccept (.lower depth speed) n → s.mpt.phase = .awaitAccept (.lower depth speed) n

/-- A LOWER has just been issued: DSQ is LOWERING, and the span is FIRM and clear. -/
def State.issued (s : State) : Prop := s.firmAndClear = true ∧ s.dsq.state = .lowering

/-- A LOWER that stands for acceptance after the move stood so before it, or has just been issued. -/
def LowerSafe (s t : State) : Prop :=
  ∀ depth speed n, t.mpt.phase = .awaitAccept (.lower depth speed) n →
    s.mpt.phase = .awaitAccept (.lower depth speed) n ∨ t.issued

theorem NoLower.of_mpt {s t : State} (h : t.mpt = s.mpt) : NoLower s t := fun _ _ _ e => h ▸ e

theorem NoLower.refl (s : State) : NoLower s s := fun _ _ _ e => e

theorem NoLower.trans {s t u : State} (h : NoLower s t) (k : NoLower t u) : NoLower s u :=
  fun d v n e => h d v n (k d v n e)

/-- A move that ends with no LOWER in acceptance. -/
theorem NoLower.of_phase {s t : State} (h : ∀ depth speed n, t.mpt.phase ≠ .awaitAccept (.lower depth speed) n) :
    NoLower s t := fun d v n e => absurd e (h d v n)

theorem NoLower.safe {s t : State} (h : NoLower s t) : LowerSafe s t := fun d v n e => .inl (h d v n e)

/-- A move that issues no LOWER, then one that leaves MPT alone. -/
theorem LowerSafe.of_leads {s t u : State} (h : NoLower s t) (e : u.mpt = t.mpt) : LowerSafe s u :=
  (h.trans (.of_mpt e)).safe

theorem LowerSafe.refl (s : State) : LowerSafe s s := (NoLower.refl s).safe

theorem NoLower.then {s t u : State} (h : NoLower s t) (k : LowerSafe t u) : LowerSafe s u :=
  fun d v n e => (k d v n e).imp_left (h d v n)

/-- A move that leaves a LOWER just issued as it is. -/
theorem LowerSafe.after {s t u : State} (h : LowerSafe s t) (k : LowerSafe t u) (keep : t.issued → u.issued) :
    LowerSafe s u := by
  intro d v n e
  rcases k d v n e with e | e
  · exact (h d v n e).imp_right keep
  · exact .inr e

theorem Quiet.noLower {s t : State} (h : Quiet s t) : NoLower s t := .of_mpt h.mpt

theorem Aside.noLower {s t : State} (h : Aside s t) : NoLower s t := .of_mpt h.mpt

/-! ### Handing over requests -/

theorem noLower_sendMotion (s : State) (r : MotionRequest) (h : ∀ d v, r ≠ .lower d v) : NoLower s (s.sendMotion r) := by
  refine .of_phase fun d v n e => ?_
  have e : MptPhase.awaitAccept r s.mpt.counter = .awaitAccept (.lower d v) n := e
  injection e with e _
  exact h d v e

theorem noLower_haltDip (s : State) (f : DipFault) : NoLower s (s.haltDip f) := .of_mpt (haltDip_halted s f).mpt

theorem mpt_stopImmersion (s : State) : s.stopImmersion.mpt = s.mpt := by rw [(stopImmersion_eq s).1]; rfl

theorem mpt_endWeighTask (s : State) : s.endWeighTask.mpt = s.mpt := by
  unfold State.endWeighTask
  split <;> rfl

/-- The LOWER an admission issues finds its span FIRM and clear (R108). -/
theorem lowerSafe_takeGrant (s : State) (p : LowerArgs) (b : Bool) : LowerSafe s (s.takeGrant p b) := by
  have key (a : State) (h : NoLower s a) : LowerSafe s
      (if a.firmAndClear then (a.sendMotion (.lower p.depth p.speed)).toDsq .lowering else a.toDsq (.awaitLower p)) := by
    split
    · rename_i hclear
      exact fun _ _ _ _ => .inr ⟨hclear, rfl⟩
    · exact .of_leads h rfl
  refine key _ ?_
  split
  · exact .of_mpt rfl
  · exact .refl s

theorem lowerSafe_askHeat (s : State) (p : LowerArgs) : LowerSafe s (s.askHeat p) := by
  unfold State.askHeat
  split
  · exact .refl s
  · rename_i c _
    have asked := (quiet_requestHeat s (enteringMass c.dry c.nominal p.fraction)
      (if c.immersions = 0 then 1 else 2)).noLower
    split
    · rename_i t ht; rw [ht] at asked; exact asked.then (lowerSafe_takeGrant t p false)
    · rename_i t ht; rw [ht] at asked; exact asked.then (lowerSafe_takeGrant t p true)
    · rename_i t ht; rw [ht] at asked; exact .of_leads asked rfl
    · rename_i t ht; rw [ht] at asked; exact asked.safe

theorem lowerSafe_tryLower (s : State) (p : LowerArgs) : LowerSafe s (s.tryLower p) := by
  unfold State.tryLower
  split
  · exact lowerSafe_askHeat s p
  · exact (NoLower.of_mpt rfl).safe

/-! ### Taking steps -/

theorem mpt_createRecord (s : State) (o : DipOutcome) : (s.createRecord o).mpt = s.mpt := (quiet_createRecord s o).mpt

theorem noLower_takeEnd (s : State) : NoLower s s.takeEnd := by
  have key (a : State) (h : a.mpt = s.mpt) : NoLower s
      (if a.scu.state.isHeld then ((a.createRecord .complete).toDsq .parked).raise .parkedEv
        else (a.createRecord .complete).returnIdle.raise .dipDone) := by
    split
    · exact .of_mpt ((mpt_createRecord a _).trans h)
    · exact .of_mpt ((mpt_createRecord a _).trans h)
  refine key _ ?_
  split
  · exact (quiet_cancelClaim _).mpt.trans (mpt_stopImmersion s)
  · exact mpt_stopImmersion s

theorem mpt_takeRelease (s : State) : s.takeRelease.1.mpt = s.mpt := by
  unfold State.takeRelease
  split
  · exact (quiet_releaseSpan s).mpt
  · split
    · split <;> exact (quiet_cancelClaim s).mpt
    · rfl

theorem noLower_takeClaim (s : State) (n : Nat) (w : Bool) : NoLower s (s.takeClaim n w) := by
  have asked := (quiet_requestSpan s n w).noLower
  unfold State.takeClaim
  split
  · rename_i t ht; rw [ht] at asked; exact asked.trans (noLower_haltDip t _)
  · rename_i t ht; rw [ht] at asked; exact asked.trans (noLower_haltDip t _)
  · rename_i t ht; rw [ht] at asked; exact asked.trans (.of_mpt rfl)

theorem lowerSafe_takeStep (s : State) (st : DipStep) : LowerSafe s (s.takeStep st).1 := by
  cases st <;> simp only [State.takeStep]
  case weighDry t => exact (NoLower.of_mpt rfl).safe
  case travel c =>
    split
    · exact (noLower_haltDip s _).safe
    · exact .of_leads (noLower_sendMotion s (.move c) (by simp)) rfl
  case claim l w => exact (noLower_takeClaim s l w).safe
  case lower d v f =>
    split
    · exact (noLower_haltDip s _).safe
    · exact lowerSafe_tryLower s _
  case dwell d => exact (NoLower.of_mpt rfl).safe
  case raise v =>
    exact .of_leads ((NoLower.of_mpt (mpt_stopImmersion s)).trans (noLower_sendMotion _ (.raise v) (by simp))) rfl
  case drain => exact (NoLower.of_mpt rfl).safe
  case vibrate n => exact .of_leads (noLower_sendMotion s (.vibrate n) (by simp)) rfl
  case weighOut t => exact (NoLower.of_mpt rfl).safe
  case release =>
    split
    · exact (noLower_haltDip s _).safe
    · exact (NoLower.of_mpt (mpt_takeRelease s)).safe
  case finish => exact (noLower_takeEnd s).safe
  case chain t =>
    split
    · exact (noLower_haltDip s _).safe
    · exact (NoLower.of_mpt rfl).safe

/-- A step that has ended when taken, and a CHAIN, hand nothing to the drive. -/
theorem noLower_takeStep_goesOn (s : State) (st : DipStep) (h : (s.takeStep st).2 ≠ .waits) :
    NoLower s (s.takeStep st).1 := by
  cases st <;> simp only [State.takeStep] at h ⊢ <;> try exact absurd rfl h
  case travel => split at h <;> exact absurd rfl h
  case lower => split at h <;> exact absurd rfl h
  case release =>
    split at h
    · exact absurd rfl h
    · rename_i hp
      rw [if_neg hp]
      exact .of_mpt (mpt_takeRelease s)
  case chain =>
    split at h
    · exact absurd rfl h
    · exact .of_mpt rfl

theorem lowerSafe_runSteps (n : Nat) (s : State) : LowerSafe s (State.runSteps n s) := by
  induction n generalizing s with
  | zero => exact .refl s
  | succ n ih =>
    unfold State.runSteps
    split
    · exact .refl s
    · rename_i st _
      have safe := lowerSafe_takeStep s st
      have goesOn := noLower_takeStep_goesOn s st
      split
      · rename_i t ht; rw [ht] at safe; exact safe
      · rename_i t ht; rw [ht] at goesOn; exact ((goesOn (by simp)).trans (.of_mpt rfl)).then (ih t.advance)
      · rename_i t ht; rw [ht] at goesOn; exact (goesOn (by simp)).then (ih t)

theorem lowerSafe_endStep (s : State) : LowerSafe s s.endStep :=
  (NoLower.of_mpt (t := s.advance) rfl).then (lowerSafe_runSteps _ _)

theorem lowerSafe_startDip (s : State) (slot tag m : Nat) (p : Program) : LowerSafe s (s.startDip slot tag m p) := by
  unfold State.startDip
  exact NoLower.then (.of_mpt rfl) (lowerSafe_runSteps _ _)

/-! ### Notices of SCU -/

theorem noLower_createReturn (s : State) (o : DipOutcome) : NoLower s (s.createRecord o).returnIdle :=
  .of_mpt (mpt_createRecord s o)

theorem lowerSafe_onNotice (s : State) (n : SpanNotice) : LowerSafe s (s.onNotice n) := by
  cases n <;> simp only [State.onNotice]
  case firm =>
    split
    · exact lowerSafe_endStep s
    · exact lowerSafe_tryLower s _
    · exact .refl s
  case lost =>
    split
    · exact (NoLower.of_mpt rfl).safe
    · exact (quiet_cancelClaim s).noLower.safe
    · exact (quiet_cancelClaim s).noLower.safe
    · exact .refl s
  case gone =>
    split
    · split
      · exact ((NoLower.of_mpt (t := s.setPosition .clear) rfl).trans (noLower_createReturn _ _)).safe
      · exact (NoLower.of_mpt (t := s.setPosition .clear) rfl).then (lowerSafe_endStep _)
    · exact (NoLower.of_mpt rfl).safe
  case ended =>
    split
    · exact lowerSafe_endStep s
    · exact .refl s
  case clearChanged b =>
    split
    · exact lowerSafe_tryLower s _
    · split
      · exact (NoLower.of_mpt rfl).safe
      · exact .refl s
    · exact .refl s

/-- In LOWERING no notice of SCU moves the drive, the claim or DSQ's state. -/
theorem issued_onNotice (s : State) (n : SpanNotice) (h : s.issued) : (s.onNotice n).issued := by
  obtain ⟨hclear, hstate⟩ := h
  cases n <;> simp only [State.onNotice, hstate] <;> exact ⟨hclear, hstate⟩

theorem issued_onNotices (s : State) (ns : List SpanNotice) (h : s.issued) : (s.onNotices ns).issued := by
  induction ns generalizing s with
  | nil => exact h
  | cons n rest ih => exact ih _ (issued_onNotice s n h)

theorem lowerSafe_onNotices (s : State) (ns : List SpanNotice) : LowerSafe s (s.onNotices ns) := by
  induction ns generalizing s with
  | nil => exact .refl s
  | cons n rest ih => exact (lowerSafe_onNotice s n).after (ih _) (issued_onNotices _ rest)

theorem lowerSafe_notify (s : State) (r : State × List SpanNotice) (h : r.1.mpt = s.mpt) : LowerSafe s (notify r) :=
  (NoLower.of_mpt h).then (lowerSafe_onNotices _ _)

/-! ### Aborts -/

theorem mpt_abortWeigh (s : State) : s.abortWeigh.mpt = s.mpt := rfl

theorem mpt_startAbortDrain (s : State) : s.startAbortDrain.mpt = s.mpt := by
  unfold State.startAbortDrain
  split <;> rfl

theorem noLower_continueAbort (s : State) : NoLower s s.continueAbort := by
  unfold State.continueAbort
  split
  · exact ((NoLower.of_mpt (mpt_stopImmersion s)).trans (noLower_sendMotion _ (.raise 1) (by simp))).trans (.of_mpt rfl)
  · exact .of_mpt (mpt_startAbortDrain s)

theorem noLower_stopAccepted (s : State) : NoLower s s.stopAccepted := by
  unfold State.stopAccepted
  split
  · exact noLower_createReturn s _
  · refine NoLower.trans ?_ (noLower_continueAbort _)
    split <;> exact .of_mpt rfl
  · exact .refl s

theorem noLower_stop (s : State) : NoLower s (s.withMpt s.mpt.stop) := by
  intro d v n e
  change s.mpt.stop.phase = _ at e
  unfold Mpt.stop at e
  split at e
  · cases e
  · exact e

theorem noLower_stopMotion (s : State) (p : AbortPhase) : NoLower s (s.stopMotion p) := by
  have sent : NoLower s ((s.withMpt s.mpt.stop).toDsq (.aborting p)) := (noLower_stop s).trans (.of_mpt rfl)
  unfold State.stopMotion
  simp only []
  split
  · exact sent.trans (noLower_stopAccepted _)
  · exact sent

theorem mpt_cancelUnheld (s : State) : s.cancelUnheld.mpt = s.mpt := (aside_cancelUnheld s).mpt

theorem noLower_quickAbort (s : State) : NoLower s s.quickAbort := by
  have h : NoLower s s.withdrawHeat.endWeighTask.stopDwell.giveBack :=
    .of_mpt ((aside_giveBack _).mpt.trans (mpt_endWeighTask s.withdrawHeat))
  unfold State.quickAbort
  simp only []
  split
  · exact h.trans (noLower_stopMotion _ _)
  · exact h.trans (noLower_createReturn _ _)

theorem noLower_abortPath (s : State) : NoLower s s.abortPath := by
  unfold State.abortPath
  split
  · refine NoLower.trans ?_ (noLower_stopMotion _ _)
    split <;> exact .of_mpt rfl
  · exact NoLower.trans (t := s.stopDwell) (.of_mpt rfl) (noLower_continueAbort _)
  · exact .of_mpt rfl
  · exact NoLower.trans (.of_mpt (mpt_endWeighTask s)) (noLower_continueAbort _)
  · exact noLower_stopMotion s _
  · exact noLower_stopMotion s _
  · exact NoLower.trans (.of_mpt (mpt_endWeighTask s)) (noLower_continueAbort _)
  · exact NoLower.trans (.of_mpt (mpt_endWeighTask s)) (noLower_continueAbort _)
  · exact NoLower.trans (t := s.withdrawHeat) (.of_mpt rfl) (noLower_continueAbort _)

theorem noLower_abortDip (s : State) : NoLower s (s.abortDip ()).1 := by
  have byLoad : NoLower s s.abortByLoad := by
    unfold State.abortByLoad
    split
    · exact NoLower.trans (t := s.markAbort) (.of_mpt rfl) (noLower_abortPath _)
    · exact NoLower.trans (t := s.markAbort) (.of_mpt rfl) (noLower_quickAbort _)
  unfold State.abortDip
  split
  · exact .refl s
  · exact .refl s
  · exact .refl s
  · exact .refl s
  · split
    · exact .of_mpt rfl
    · exact byLoad
  · exact byLoad

/-! ### The drive and the converter -/

theorem mpt_motionAccepted (s : State) (k : MotionKind) : (s.motionAccepted k).mpt = s.mpt := by
  cases k <;> rfl

theorem mpt_raised (s : State) : s.raised.mpt = s.mpt := by
  unfold State.raised
  split <;> rfl

theorem lowerSafe_motionCompleted (s : State) : LowerSafe s s.motionCompleted := by
  unfold State.motionCompleted
  split
  · exact lowerSafe_endStep s
  · exact (NoLower.of_mpt (t := s.startImmersion) rfl).then (lowerSafe_endStep _)
  · exact (NoLower.of_mpt (mpt_raised s)).then (lowerSafe_endStep _)
  · exact lowerSafe_endStep s
  · exact (NoLower.of_mpt ((mpt_startAbortDrain _).trans (mpt_raised s))).safe
  · exact .refl s

theorem lowerSafe_completeRequest (s : State) (r : MotionRequest) (b : Bool) : LowerSafe s (s.completeRequest r b) := by
  have ended : NoLower s (s.withMpt s.mpt.ended) := .of_phase fun _ _ _ e => by cases e
  unfold State.completeRequest
  refine NoLower.then ?_ (lowerSafe_motionCompleted _)
  split
  · exact ended
  · exact ended.trans (.of_mpt (mpt_motionAccepted _ _))

theorem noLower_motionFaulted (s : State) (r : MotionReason) (k : MotionKind) (b : Bool) :
    NoLower s (s.motionFaulted r k b) :=
  (NoLower.of_phase (t := s.withMpt s.mpt.ended) fun _ _ _ e => by cases e).trans (noLower_haltDip _ _)

theorem noLower_requestFault (s : State) (r : MotionRequest) (x : MotionReason) (b : Bool) :
    NoLower s (s.requestFault r x b) :=
  NoLower.trans (t := s.withMpt { s.mpt with hook := hookAfter r s.mpt.hook }) (fun _ _ _ e => e)
    (noLower_motionFaulted _ _ _ _)

theorem lowerSafe_takeDone (s : State) (r : MotionRequest) (b : Bool) (cell : Byte) :
    LowerSafe s (s.takeDone r b cell) := by
  unfold State.takeDone
  split
  · split
    · exact NoLower.then (t := s.withMpt { s.mpt with hook := some cell.toNat }) (fun _ _ _ e => e)
        (lowerSafe_completeRequest _ _ _)
    · exact (noLower_requestFault s _ _ _).safe
  · exact lowerSafe_completeRequest s _ _

theorem noLower_takeStop (s : State) : NoLower s s.takeStop :=
  (NoLower.of_phase (t := s.withMpt s.mpt.stopTaken) fun _ _ _ e => by cases e).trans (noLower_stopAccepted _)

theorem noLower_takeAccept (s : State) (r : MotionRequest) : NoLower s (s.takeAccept r) := by
  refine NoLower.trans (t := s.withMpt (s.mpt.accepted s.cfg.params s.now)) (fun d v n e => ?_)
    (.of_mpt (mpt_motionAccepted _ _))
  change (s.mpt.accepted s.cfg.params s.now).phase = _ at e
  unfold Mpt.accepted at e
  split at e
  · cases e
  · exact e

theorem noLower_sent (s : State) : NoLower s (s.withMpt (s.mpt.sent s.now)) := by
  intro d v n e
  change (s.mpt.sent s.now).phase = _ at e
  unfold Mpt.sent at e
  repeat' split at e
  all_goals exact e

theorem lowerSafe_onWeighResult (s : State) (r : WeighResult) : LowerSafe s (s.onWeighResult r) := by
  unfold State.onWeighResult
  split
  · exact (NoLower.of_mpt (t := s.modCtx _) rfl).then (lowerSafe_endStep _)
  · exact (NoLower.of_mpt (t := s.modCtx _) rfl).then (lowerSafe_endStep _)
  · exact (NoLower.of_mpt (t := s.modCtx _) rfl).then (lowerSafe_endStep _)
  · exact (NoLower.of_mpt (t := ((State.createRecord (s.modCtx _) _).toDsq .parked).raise .parkedEv)
      (mpt_createRecord (s.modCtx _) _)).safe
  · exact .refl s

theorem mpt_raiseOpt (s : State) (e : Option Event) : (s.raiseOpt e).mpt = s.mpt := by cases e <;> rfl

theorem mpt_channelNotice (s : State) (e : Option Event) : (s.channelNotice e).mpt = s.mpt := by
  unfold State.channelNotice State.noteWeighLost
  split
  · split <;> rfl
  · rfl

theorem lowerSafe_takeEffect (s : State) (e : SampleEffect) : LowerSafe s (s.takeEffect e) := by
  have noted : NoLower s (((s.withWch e.wch).raiseOpt e.event).channelNotice e.event) :=
    .of_mpt ((mpt_channelNotice _ _).trans (mpt_raiseOpt _ _))
  unfold State.takeEffect State.resultNotice
  split
  · exact noted.then (lowerSafe_onWeighResult _ _)
  · exact noted.safe

theorem lowerSafe_finishTask (s : State) (r : WeighResult) : LowerSafe s (s.finishTask r) :=
  (NoLower.of_mpt (mpt_raiseOpt (s.withWch { s.wch with task := .none }) _)).then (lowerSafe_onWeighResult _ _)

/-! ### Frames of the line -/

theorem mpt_hearPeer (s : State) (src : StationId) (seq : Byte) (c : Option Condition) :
    (s.hearPeer src seq c).mpt = s.mpt := by
  obtain ⟨p, x, heq, -⟩ := hearPeer_eq s src seq c
  rw [heq]; rfl

theorem mpt_toLine (s : State) (l : LineState) : (s.toLine l).mpt = s.mpt := (quiet_lineNotice _).mpt

theorem mpt_evalHealth (s : State) : s.evalHealth.mpt = s.mpt := by
  unfold State.evalHealth
  split
  · split
    · exact mpt_toLine s _
    · rfl
  · split
    · exact mpt_toLine s _
    · rfl
  · rfl

theorem mpt_clash (s : State) : s.countGood.clash.mpt = s.mpt :=
  (quiet_evalStart _).mpt.trans (countGood_counted s).mpt

theorem lowerSafe_takeFrame {α : Type} (s : State) (src : StationId) (seq : Byte) (p : Option α)
    (cond : α → Option Condition) (deliver : State → α → State) (h : ∀ t a, LowerSafe t (deliver t a)) :
    LowerSafe s (s.takeFrame src seq p cond deliver) := by
  unfold State.takeFrame
  split
  · exact .refl s
  · split
    · exact (NoLower.of_mpt (mpt_evalHealth (s.withLif s.lif.scoreUp))).safe
    · split
      · exact NoLower.safe (.of_mpt (mpt_clash s))
      · exact (NoLower.of_mpt ((mpt_hearPeer _ _ _ _).trans (countGood_counted s).mpt)).then (h _ _)

theorem mpt_scuIntent (s : State) (src : StationId) (i : ClaimInfo) : (s.scuIntent src i).1.mpt = s.mpt := by
  have key (t : State) : (if t.scu.meets i.span then t.meetIntent src (some i.age) else t).evalStart.mpt = t.mpt := by
    refine (quiet_evalStart _).mpt.trans ?_
    split
    · exact (quiet_meetIntent t _ _).mpt
    · rfl
  exact key (s.putEntry _)

theorem mpt_scuHold (s : State) (src : StationId) (i : ClaimInfo) : (s.scuHold src i).1.mpt = s.mpt := by
  have key (t : State) : (if t.scu.meets i.span then t.meetHeld src else (t, [])).1.evalStart.mpt = t.mpt := by
    refine (quiet_evalStart _).mpt.trans ?_
    split
    · exact (quiet_meetHeld t _).mpt
    · rfl
  exact key (s.putEntry _)

theorem mpt_entryLeaves (s : State) (h : StationId) : (s.entryLeaves h).1.mpt = s.mpt := (quiet_evalStart _).mpt

theorem mpt_scuFree (s : State) (src : StationId) (n : Byte) : (s.scuFree src n).1.mpt = s.mpt := by
  obtain h | h := scuFree_cases s src n <;> rw [h]
  exact mpt_entryLeaves s src

theorem mpt_scuBeacon (s : State) (src : StationId) (b : BeaconInfo) : (s.scuBeacon src b).1.mpt = s.mpt := by
  have key (t : State) (p q : Bool) (h : t.mpt = s.mpt) :
      (if p then t.meetHeld src else if q then (t.meetIntent src none, []) else (t, [])).1.evalStart.mpt = s.mpt := by
    refine ((quiet_evalStart _).mpt.trans ?_).trans h
    split
    · exact (quiet_meetHeld t _).mpt
    · split
      · exact (quiet_meetIntent t src none).mpt
      · rfl
  refine key _ _ _ ?_
  split <;> rfl

theorem mpt_heardPickup (s : State) (src : StationId) (p : PickupInfo) : (s.heardPickup src p).mpt = s.mpt := by
  unfold State.heardPickup
  simp only []
  split
  · rfl
  · exact (quiet_consume _ _).mpt
  · exact (quiet_consume _ _).mpt
  · exact (quiet_consume _ _).mpt

theorem mpt_putZ (s : State) (z : Nat) : (s.putZ z).mpt = s.mpt := (quiet_evalLevel _).mpt

/-- What the next frame's taking does to a LOWER just issued: nothing, since a FIRM claim owes the line no frame. -/
theorem issued_placeFreed (s : State) (h : s.issued) : s.placeFreed.issued := by
  obtain ⟨hclear, hstate⟩ := h
  have hfirm : s.scu.state = .firm := by
    simp only [State.firmAndClear, Bool.and_eq_true, beq_iff_eq] at hclear
    exact hclear.1
  have hplace : s.placeFreed = s := by
    unfold State.placeFreed
    simp only [hfirm]
    exact evalStart_still s (by rw [hfirm]; rfl)
  rw [hplace]
  exact ⟨hclear, hstate⟩

theorem lowerSafe_placeFreed {s t : State} (h : LowerSafe s t) : LowerSafe s t.placeFreed :=
  h.after (quiet_placeFreed t).noLower.safe (issued_placeFreed t)

theorem mpt_discardCurrent (s : State) (c : Current) : (s.discardCurrent c).mpt = s.mpt :=
  (quiet_placeFreed _).mpt.trans ((quiet_reportDiscard _ _).mpt.trans (quiet_evalStart _).mpt)

theorem lowerSafe_failAttempt (s : State) (c : Current) : LowerSafe s (s.failAttempt c) := by
  have removed : s.removeCurrent.mpt = s.mpt := rfl
  unfold State.failAttempt
  split
  · exact lowerSafe_placeFreed (NoLower.of_mpt removed).safe
  · split
    · exact lowerSafe_placeFreed (lowerSafe_notify s s.removeCurrent.withdrawalSucceeds
        ((quiet_withdrawalSucceeds s.removeCurrent).mpt.trans removed))
    · split
      · exact (NoLower.of_mpt rfl).safe
      · exact (NoLower.of_mpt (mpt_discardCurrent s c)).safe

theorem mpt_endFault (s : State) : s.endFault.mpt = s.mpt := by
  unfold State.endFault
  split
  · refine (quiet_evalStart _).mpt.trans ?_
    split <;> rfl
  · rfl

theorem lowerSafe_frameSent (s : State) (c : Current) : LowerSafe s (s.frameSent c) := by
  have done : LowerSafe s (notify (((s.withLif { s.lif with current := none, seq := s.lif.seq + 1 }).endFault
      ).sendCompletion c.frame)) :=
    lowerSafe_notify s _ ((quiet_sendCompletion _ _).mpt.trans (mpt_endFault _))
  exact lowerSafe_placeFreed (done.after (NoLower.of_mpt rfl).safe id)

/-! ### Requests -/

theorem lowerSafe_takeRequest (s : State) (tag code : Byte) (act : State → State × List Byte)
    (h : LowerSafe s (act s).1) : LowerSafe s (s.takeRequest tag code act) := by
  unfold State.takeRequest
  split
  · exact (NoLower.of_mpt rfl).safe
  · exact h.after (NoLower.of_mpt rfl).safe id

theorem lowerSafe_request {α : Type} (s : State) (tag : Byte) (code : Req) (args : Option α) (m : Modes)
    (owner : α → State → State × List Byte) (h : ∀ a, LowerSafe s (owner a s).1) :
    LowerSafe s (s.request tag code args m owner) := by
  refine lowerSafe_takeRequest s tag code.code _ ?_
  unfold decodeRequest
  split
  · exact .refl s
  · split
    · exact h _
    · exact .refl s

/-- An owner that moves nothing of the drive. -/
theorem lowerSafe_request_of_mpt {α : Type} (s : State) (tag : Byte) (code : Req) (args : Option α) (m : Modes)
    (owner : α → State → State × List Byte) (h : ∀ a, (owner a s).1.mpt = s.mpt) :
    LowerSafe s (s.request tag code args m owner) :=
  lowerSafe_request s tag code args m owner fun a => (NoLower.of_mpt (h a)).safe

theorem mpt_setParam (a : Nat × Int) (s : State) : (s.setParam a).1.mpt = s.mpt := by
  unfold State.setParam
  split
  · rfl
  · split
    · rfl
    · simp only [State.takeParams]
      split <;> rfl

theorem mpt_sealSet (s : State) : (s.sealSet ()).1.mpt = s.mpt := by
  unfold State.sealSet
  split
  · rfl
  · exact (quiet_offer _ _).mpt.trans (quiet_lineNotice _).mpt

theorem mpt_readEvent (s : State) : (s.readEvent ()).1.mpt = s.mpt := by
  unfold State.readEvent
  split <;> rfl

theorem mpt_ackGroup (g : Nat) (s : State) : (s.ackGroup g).1.mpt = s.mpt := by
  unfold State.ackGroup
  split <;> rfl

theorem mpt_setEnable (a : Nat × Byte) (s : State) : (s.setEnable a).1.mpt = s.mpt := by
  unfold State.setEnable
  split <;> rfl

theorem mpt_loadProgram (r : RawProgram) (s : State) : (s.loadProgram r).1.mpt = s.mpt := by
  unfold State.loadProgram
  repeat' split
  all_goals rfl

theorem mpt_lotOpen (a : Nat × Byte) (s : State) : (s.lotOpen a).1.mpt = s.mpt := by
  unfold State.lotOpen
  repeat' split
  all_goals rfl

theorem mpt_lotFix (a : Nat × Byte) (s : State) : (s.lotFix a).1.mpt = s.mpt := by
  unfold State.lotFix
  repeat' split
  all_goals rfl

theorem mpt_lotFreeClass (n : Nat) (s : State) : (s.lotFreeClass n).1.mpt = s.mpt := by
  unfold State.lotFreeClass
  repeat' split
  all_goals rfl

theorem lowerSafe_startRequest (a : Nat × Nat × Nat) (s : State) : LowerSafe s (s.startRequest a).1 := by
  unfold State.startRequest
  split
  · exact .refl s
  · split
    · exact .refl s
    · split
      · exact .refl s
      · split <;> exact lowerSafe_startDip s _ _ _ _

theorem mpt_confirmClear (s : State) : (s.confirmClear ()).1.mpt = s.mpt := by
  unfold State.confirmClear
  split
  · exact (quiet_releaseSpan s).mpt
  · exact (quiet_releaseSpan _).mpt.trans (mpt_createRecord s _)
  · rfl

theorem mpt_offerIngot (s : State) (m : Nat) : (s.offerIngot m).mpt = s.mpt :=
  (quiet_offer _ _).mpt.trans (mpt_putZ s _)

theorem mpt_ingotRequest (m : Nat) (s : State) : (s.ingotRequest m).1.mpt = s.mpt := by
  unfold State.ingotRequest
  split
  · exact mpt_offerIngot s _
  · split <;> exact mpt_offerIngot s _

theorem mpt_setBalance (v : Nat) (s : State) : (s.setBalance v).1.mpt = s.mpt := by
  unfold State.setBalance
  split <;> exact (quiet_evalLevel _).mpt

theorem mpt_readRecord (s : State) : (s.readRecord ()).1.mpt = s.mpt := by
  unfold State.readRecord
  split <;> rfl

theorem lowerSafe_clearPeer (n : Nat) (s : State) : LowerSafe s (s.clearPeer n).1 := by
  unfold State.clearPeer
  split
  · exact .refl s
  · split
    · exact .refl s
    · split
      · exact .refl s
      · split
        · exact .refl s
        · exact lowerSafe_notify s _ (mpt_entryLeaves _ _)

theorem noLower_resetRequest (s : State) : NoLower s (s.resetRequest ()).1 := by
  unfold State.resetRequest
  split
  · exact .of_phase fun _ _ _ e => by cases e
  · exact .refl s

/-! ### Every command -/

/-- The outcome of a command, the state it started from standing where its event cannot occur (log 5). -/
def OutcomeSafe (s : State) (x : Host.Outcome State Fault Refusal) : Prop := ∀ t, x = .next t → LowerSafe s t

theorem outcomeSafe_next {s t : State} (h : LowerSafe s t) : OutcomeSafe s (.next t) := by
  intro u e
  cases e
  exact h

theorem outcomeSafe_stands (s : State) : OutcomeSafe s (.next s) := outcomeSafe_next (.refl s)

theorem outcomeSafe_noLower {s t : State} (h : NoLower s t) : OutcomeSafe s (.next t) := outcomeSafe_next h.safe

theorem safe_attemptStart (s : State) : OutcomeSafe s (execAttemptStart s) := by
  unfold execAttemptStart
  split
  · split
    · split <;> exact outcomeSafe_noLower (.of_mpt rfl)
    · exact outcomeSafe_stands s
  · exact outcomeSafe_stands s

theorem safe_backoffExpiry (s : State) : OutcomeSafe s (execBackoffExpiry s) := by
  unfold execBackoffExpiry
  split
  · split
    · split <;> exact outcomeSafe_noLower (.of_mpt rfl)
    · exact outcomeSafe_stands s
  · exact outcomeSafe_stands s

theorem safe_attemptFails (s : State) : OutcomeSafe s (execCollision s) ∧ OutcomeSafe s (execDeferTimeout s) := by
  unfold execCollision execDeferTimeout
  refine ⟨?_, ?_⟩ <;> split
  · split
    · exact outcomeSafe_next (lowerSafe_failAttempt s _)
    · exact outcomeSafe_stands s
  · exact outcomeSafe_stands s
  · split
    · exact outcomeSafe_next (lowerSafe_failAttempt s _)
    · exact outcomeSafe_stands s
  · exact outcomeSafe_stands s

theorem safe_sendSuccess (s : State) : OutcomeSafe s (execSendSuccess s) := by
  unfold execSendSuccess
  split
  · split
    · exact outcomeSafe_next (lowerSafe_frameSent s _)
    · exact outcomeSafe_stands s
  · exact outcomeSafe_stands s

theorem mpt_joinOver (s : State) : s.joinOver.mpt = s.mpt := by
  unfold State.joinOver
  simp only []
  split
  · split <;> exact mpt_toLine _ _
  · rfl

theorem safe_lineTimers (s : State) :
    OutcomeSafe s (execBeaconTimerExpiry s) ∧ OutcomeSafe s (execJoinTimerExpiry s) ∧
      OutcomeSafe s (execClashTimerExpiry s) := by
  unfold execBeaconTimerExpiry execJoinTimerExpiry execClashTimerExpiry
  refine ⟨?_, ?_, ?_⟩ <;> split
  · exact outcomeSafe_noLower (.of_mpt (quiet_offer _ _).mpt)
  · exact outcomeSafe_stands s
  · exact outcomeSafe_noLower (.of_mpt (mpt_joinOver _))
  · exact outcomeSafe_stands s
  · exact outcomeSafe_noLower (.of_mpt (quiet_lineNotice _).mpt)
  · exact outcomeSafe_stands s

theorem mpt_windowOver (s : State) : s.windowOver.mpt = s.mpt := by
  unfold State.windowOver
  simp only []
  split
  · exact (quiet_offer _ _).mpt
  · rfl

theorem lowerSafe_guardOver (s : State) : LowerSafe s s.guardOver := by
  unfold State.guardOver
  simp only []
  split
  · exact NoLower.then (.of_mpt rfl) (lowerSafe_onNotice _ .firm)
  · exact (NoLower.of_mpt rfl).safe

theorem mpt_retryOver (s : State) : s.retryOver.mpt = s.mpt := by
  unfold State.retryOver
  simp only []
  split
  · exact (quiet_evalStart _).mpt
  · rfl

theorem safe_claimTimers (s : State) :
    OutcomeSafe s (execClaimWindowExpiry s) ∧ OutcomeSafe s (execGuardExpiry s) ∧
      OutcomeSafe s (execRetryDelayExpiry s) := by
  unfold execClaimWindowExpiry execGuardExpiry execRetryDelayExpiry
  refine ⟨?_, ?_, ?_⟩ <;> split
  · exact outcomeSafe_noLower (.of_mpt (mpt_windowOver _))
  · exact outcomeSafe_stands s
  · exact outcomeSafe_next (NoLower.then (.of_mpt rfl) (lowerSafe_guardOver _))
  · exact outcomeSafe_stands s
  · exact outcomeSafe_noLower (.of_mpt (mpt_retryOver _))
  · exact outcomeSafe_stands s

theorem safe_blockedLong (s : State) : OutcomeSafe s (execBlockedLong s) := by
  unfold execBlockedLong
  split
  · split
    · exact outcomeSafe_stands s
    · exact outcomeSafe_noLower (.of_mpt rfl)
  · exact outcomeSafe_stands s

theorem safe_intentLapse (holder : StationId) (s : State) : OutcomeSafe s (execIntentLapse holder s) := by
  unfold execIntentLapse
  split
  · split
    · exact outcomeSafe_next (lowerSafe_notify s _ (mpt_entryLeaves _ _))
    · exact outcomeSafe_stands s
  · exact outcomeSafe_stands s

theorem safe_peerSilence (peer : StationId) (s : State) : OutcomeSafe s (execPeerSilenceExpiry peer s) := by
  unfold execPeerSilenceExpiry
  split
  · split
    · exact outcomeSafe_noLower (.of_mpt (quiet_evalStart _).mpt)
    · exact outcomeSafe_stands s
  · exact outcomeSafe_stands s

theorem lowerSafe_entryOver (s : State) (i : Nat) : LowerSafe s (s.entryOver i) := by
  have retried : NoLower s (s.withHwn (s.hwn.removeAt i)).retryHeat.1 := .of_mpt (quiet_retryHeat _).mpt
  unfold State.entryOver
  split
  · rename_i t b ht
    rw [ht] at retried
    refine retried.then ?_
    unfold State.takeAdmission
    split
    · exact lowerSafe_takeGrant t _ b
    · exact .refl t
  · rename_i t ht
    rw [ht] at retried
    exact retried.safe

theorem safe_entryExpiry (place : Nat) (s : State) : OutcomeSafe s (execEntryExpiry place s) := by
  unfold execEntryExpiry
  split
  · split
    · exact outcomeSafe_next (NoLower.then (.of_mpt rfl) (lowerSafe_entryOver _ place))
    · exact outcomeSafe_stands s
  · exact outcomeSafe_stands s

theorem safe_dipTimers (s : State) : OutcomeSafe s (execDwellExpiry s) ∧ OutcomeSafe s (execAbortDrainExpiry s) := by
  unfold execDwellExpiry execAbortDrainExpiry
  refine ⟨?_, ?_⟩ <;> split
  · exact outcomeSafe_next (NoLower.then (.of_mpt rfl) (lowerSafe_endStep _))
  · exact outcomeSafe_stands s
  · exact outcomeSafe_noLower (.of_mpt rfl)
  · exact outcomeSafe_stands s

theorem safe_responses (s : State) (number cell detail : Byte) :
    OutcomeSafe s (execMotionAccept number s) ∧ OutcomeSafe s (execMotionDone number cell s) ∧
      OutcomeSafe s (execMotionFail number detail s) := by
  have stray : OutcomeSafe s (.next (s.raise .motionStray)) := outcomeSafe_noLower (.of_mpt rfl)
  have stopped : OutcomeSafe s (.next s.takeStop) := outcomeSafe_noLower (noLower_takeStop s)
  unfold execMotionAccept execMotionDone execMotionFail
  refine ⟨?accept, ?done, ?fail⟩
  case accept =>
    split
    · exact outcomeSafe_noLower (noLower_takeAccept s _)
    · exact outcomeSafe_stands s
    · exact stopped
    · exact outcomeSafe_stands s
    · exact outcomeSafe_stands s
    · exact stray
  case done =>
    split
    · exact outcomeSafe_next (lowerSafe_takeDone s _ _ _)
    · exact stopped
    · exact outcomeSafe_stands s
    · exact outcomeSafe_stands s
    · exact stray
  case fail =>
    split
    · exact outcomeSafe_stands s
    · split
      · exact outcomeSafe_noLower (noLower_requestFault s _ _ _)
      · exact outcomeSafe_noLower (noLower_motionFaulted s _ _ _)
      · exact stray
      · exact outcomeSafe_stands s
      · exact stray

theorem safe_motionTimers (s : State) :
    OutcomeSafe s (execAcceptTimeout s) ∧ OutcomeSafe s (execDoneTimeout s) ∧ OutcomeSafe s (execStopAcceptTimeout s) := by
  unfold execAcceptTimeout execDoneTimeout execStopAcceptTimeout
  refine ⟨?_, ?_, ?_⟩ <;> split
  · exact outcomeSafe_noLower (NoLower.trans (t := s.reach _) (.of_mpt rfl) (noLower_requestFault _ _ _ _))
  · exact outcomeSafe_stands s
  · exact outcomeSafe_noLower (NoLower.trans (t := s.reach _) (.of_mpt rfl) (noLower_requestFault _ _ _ _))
  · exact outcomeSafe_stands s
  · exact outcomeSafe_noLower (NoLower.trans (t := s.reach _) (.of_mpt rfl) (noLower_motionFaulted _ _ _ _))
  · exact outcomeSafe_stands s

theorem safe_weighLine (s : State) (status : Byte) (raw : BitVec 24) :
    OutcomeSafe s (execSampleTaken status raw s) ∧ OutcomeSafe s (execSettleTimeout s) ∧
      OutcomeSafe s (execDrainMinimum s) ∧ OutcomeSafe s (execDrainMaximum s) := by
  have finished (t : Nat) (r : WeighResult) : OutcomeSafe s (.next ((s.reach t).finishTask r)) :=
    outcomeSafe_next (NoLower.then (t := s.reach t) (.of_mpt rfl) (lowerSafe_finishTask _ r))
  unfold execSampleTaken execSettleTimeout execDrainMinimum execDrainMaximum
  refine ⟨?sample, ?settle, ?minimum, ?maximum⟩
  case sample => split <;> exact outcomeSafe_next (lowerSafe_takeEffect s _)
  case settle =>
    split
    · exact finished _ _
    · exact outcomeSafe_stands s
  case minimum =>
    split
    · split
      · unfold State.minimumReached
        split
        · exact finished _ _
        · exact outcomeSafe_noLower (.of_mpt rfl)
      · exact outcomeSafe_stands s
    · exact outcomeSafe_stands s
  case maximum =>
    split
    · exact finished _ _
    · exact outcomeSafe_stands s

theorem safe_discarded (s : State) : OutcomeSafe s (execLineFrameDiscarded s) := by
  unfold execLineFrameDiscarded
  split
  · exact outcomeSafe_stands s
  · exact outcomeSafe_noLower (.of_mpt (mpt_evalHealth (s.withLif s.lif.scoreUp)))

/-- A LOWER that stands for acceptance after a request stood so before it, or has just been issued. -/
theorem exec_request_safe (c : Instr) (s : State) (hreq : requestHead c ≠ none) : OutcomeSafe s (exec c s) := by
  cases c <;> try exact absurd rfl hreq
  all_goals refine outcomeSafe_next ?_
  case unknownRequest => exact lowerSafe_takeRequest s _ _ _ (.refl s)
  case setParam => exact lowerSafe_request_of_mpt s _ _ _ _ _ fun a => mpt_setParam a s
  case sealRequest => exact lowerSafe_request_of_mpt s _ _ _ _ _ fun _ => mpt_sealSet s
  case readParam => exact lowerSafe_request_of_mpt s _ _ _ _ _ fun a => congrArg State.mpt (readParam_state a s)
  case readStatus => exact lowerSafe_request_of_mpt s _ _ _ _ _ fun _ => rfl
  case readEvent => exact lowerSafe_request_of_mpt s _ _ _ _ _ fun _ => mpt_readEvent s
  case ackGroup => exact lowerSafe_request_of_mpt s _ _ _ _ _ fun a => mpt_ackGroup a s
  case setEnable => exact lowerSafe_request_of_mpt s _ _ _ _ _ fun a => mpt_setEnable a s
  case powerInfo => exact lowerSafe_request_of_mpt s _ _ _ _ _ fun _ => rfl
  case loadProgram => exact lowerSafe_request_of_mpt s _ _ _ _ _ fun a => mpt_loadProgram a s
  case readProgram => exact lowerSafe_request_of_mpt s _ _ _ _ _ fun a => congrArg State.mpt (readProgram_state a s)
  case lotOpen => exact lowerSafe_request_of_mpt s _ _ _ _ _ fun a => mpt_lotOpen a s
  case lotFix => exact lowerSafe_request_of_mpt s _ _ _ _ _ fun a => mpt_lotFix a s
  case lotFreeClass => exact lowerSafe_request_of_mpt s _ _ _ _ _ fun a => mpt_lotFreeClass a s
  case readLots => exact lowerSafe_request_of_mpt s _ _ _ _ _ fun _ => rfl
  case startDip => exact lowerSafe_request s _ _ _ _ _ fun a => lowerSafe_startRequest a s
  case abortDip => exact lowerSafe_request s _ _ _ _ _ fun _ => (noLower_abortDip s).safe
  case confirmClear => exact lowerSafe_request_of_mpt s _ _ _ _ _ fun _ => mpt_confirmClear s
  case ingot => exact lowerSafe_request_of_mpt s _ _ _ _ _ fun a => mpt_ingotRequest a s
  case setBalance => exact lowerSafe_request_of_mpt s _ _ _ _ _ fun a => mpt_setBalance a s
  case readRecord => exact lowerSafe_request_of_mpt s _ _ _ _ _ fun _ => mpt_readRecord s
  case peekRecord => exact lowerSafe_request_of_mpt s _ _ _ _ _ fun _ => congrArg State.mpt (peekRecord_state s)
  case clearPeer => exact lowerSafe_request s _ _ _ _ _ fun a => lowerSafe_clearPeer a s
  case readPeers => exact lowerSafe_request_of_mpt s _ _ _ _ _ fun _ => rfl
  case readSpans => exact lowerSafe_request_of_mpt s _ _ _ _ _ fun _ => rfl
  case readHeat => exact lowerSafe_request_of_mpt s _ _ _ _ _ fun _ => rfl
  case stationReset => exact lowerSafe_request s _ _ _ _ _ fun _ => (noLower_resetRequest s).safe

/-- The same of every other command. -/
theorem exec_event_safe (c : Instr) (s : State) (hreq : requestHead c = none) : OutcomeSafe s (exec c s) := by
  cases c <;> try cases hreq
  case powerOnReset => exact outcomeSafe_noLower (.of_phase fun _ _ _ e => by cases e)
  case requestFrameTimeout => exact outcomeSafe_noLower (.of_mpt rfl)
  case requestCheckFail => exact outcomeSafe_noLower (.of_mpt rfl)
  case lineFrameDiscarded => exact safe_discarded s
  case beaconFrame =>
    exact outcomeSafe_next (lowerSafe_takeFrame s _ _ _ _ _ fun t a => lowerSafe_notify t _ (mpt_scuBeacon t _ a))
  case intentFrame =>
    exact outcomeSafe_next (lowerSafe_takeFrame s _ _ _ _ _ fun t a => lowerSafe_notify t _ (mpt_scuIntent t _ a))
  case holdFrame =>
    exact outcomeSafe_next (lowerSafe_takeFrame s _ _ _ _ _ fun t a => lowerSafe_notify t _ (mpt_scuHold t _ a))
  case yieldFrame =>
    exact outcomeSafe_next (lowerSafe_takeFrame s _ _ _ _ _ fun t a => lowerSafe_notify t _ (mpt_scuFree t _ a))
  case freeFrame =>
    exact outcomeSafe_next (lowerSafe_takeFrame s _ _ _ _ _ fun t a => lowerSafe_notify t _ (mpt_scuFree t _ a))
  case entryFrame =>
    exact outcomeSafe_next (lowerSafe_takeFrame s _ _ _ _ _ fun t a => (NoLower.of_mpt rfl).safe)
  case pickupFrame =>
    exact outcomeSafe_next (lowerSafe_takeFrame s _ _ _ _ _ fun t a => (NoLower.of_mpt (mpt_heardPickup t _ a)).safe)
  case ingotFrame =>
    exact outcomeSafe_next (lowerSafe_takeFrame s _ _ _ _ _ fun t a => (NoLower.of_mpt (mpt_putZ _ _)).safe)
  case attemptStart => exact safe_attemptStart s
  case collision => exact (safe_attemptFails s).1
  case deferTimeout => exact (safe_attemptFails s).2
  case backoffExpiry => exact safe_backoffExpiry s
  case sendSuccess => exact safe_sendSuccess s
  case beaconTimerExpiry => exact (safe_lineTimers s).1
  case joinTimerExpiry => exact (safe_lineTimers s).2.1
  case clashTimerExpiry => exact (safe_lineTimers s).2.2
  case peerSilenceExpiry peer => exact safe_peerSilence peer s
  case claimWindowExpiry => exact (safe_claimTimers s).1
  case guardExpiry => exact (safe_claimTimers s).2.1
  case retryDelayExpiry => exact (safe_claimTimers s).2.2
  case blockedLong => exact safe_blockedLong s
  case intentLapse holder => exact safe_intentLapse holder s
  case entryExpiry place => exact safe_entryExpiry place s
  case dwellExpiry => exact (safe_dipTimers s).1
  case abortDrainExpiry => exact (safe_dipTimers s).2
  case motionRequestSent => exact outcomeSafe_noLower (noLower_sent s)
  case motionAccept number => exact (safe_responses s number 0 0).1
  case motionDone number cell => exact (safe_responses s number cell 0).2.1
  case motionFail number detail => exact (safe_responses s number 0 detail).2.2
  case motionFrameDiscarded => exact outcomeSafe_stands s
  case acceptTimeout => exact (safe_motionTimers s).1
  case doneTimeout => exact (safe_motionTimers s).2.1
  case stopAcceptTimeout => exact (safe_motionTimers s).2.2
  case pollTimer => exact outcomeSafe_noLower (.of_mpt rfl)
  case sampleTaken status raw => exact (safe_weighLine s status raw).1
  case settleTimeout => exact (safe_weighLine s 0 0).2.1
  case drainMinimum => exact (safe_weighLine s 0 0).2.2.1
  case drainMaximum => exact (safe_weighLine s 0 0).2.2.2

/-! ### The statement -/

theorem firmAndClear_iff (s : State) : s.firmAndClear = true ↔ s.scu.state = .firm ∧ s.scu.overlapped = false := by
  simp [State.firmAndClear]

/-- Settles O56: every command is `LowerSafe`, so the LOWER either stood before the command or has been issued in it, and
then the span is FIRM and clear. -/
theorem lowerNeedsAFirmAndClearSpan : Obligations.LowerNeedsAFirmAndClearSpan := by
  intro c s t depth speed n hexec hphase
  have safe : OutcomeSafe s (exec c s) := by
    cases hreq : requestHead c with
    | none => exact exec_event_safe c s hreq
    | some head => exact exec_request_safe c s (by rw [hreq]; simp)
  rcases safe t hexec depth speed n hphase with stood | ⟨hclear, -⟩
  · exact .inl stood
  · exact .inr ((firmAndClear_iff t).mp hclear)

end Sys2Proof.Machine
end

section
/-! The exchange (R195 to R197), commissioning (R198 to R201), the reading requests and the events (R204 to R207): every
request command is the same exchange of its arguments, its modes and its owner, so the decoder's answers are proved once,
and each owner's answer on its own. -/

namespace Sys2Proof.Machine

/-! ### The decoder -/

theorem argsNone_isSome (body : List Byte) : (argsNone body).isSome = (body.length == 0) := by
  cases body <;> rfl

theorem argsByte_isSome (body : List Byte) : (argsByte body).isSome = (body.length == 1) := by
  match body with
  | [] | [_] => rfl
  | _ :: _ :: _ => simp [argsByte]

theorem argsEnable_isSome (body : List Byte) : (argsEnable body).isSome = (body.length == 2) := by
  match body with
  | [] | [_] | [_, _] => rfl
  | _ :: _ :: _ :: _ => simp [argsEnable]

theorem argsWord_isSome (body : List Byte) : (argsWord body).isSome = (body.length == 2) := by
  match body with
  | [] | [_] | [_, _] => rfl
  | _ :: _ :: _ :: _ => simp [argsWord]

theorem argsTagByte_isSome (body : List Byte) : (argsTagByte body).isSome = (body.length == 3) := by
  match body with
  | [] | [_] | [_, _] | [_, _, _] => rfl
  | _ :: _ :: _ :: _ :: _ => simp [argsTagByte]

theorem argsLong_isSome (body : List Byte) : (argsLong body).isSome = (body.length == 4) := by
  match body with
  | [] | [_] | [_, _] | [_, _, _] | [_, _, _, _] => rfl
  | _ :: _ :: _ :: _ :: _ :: _ => simp [argsLong]

theorem argsSetParam_isSome (body : List Byte) : (argsSetParam body).isSome = (body.length == 5) := by
  match body with
  | [] | [_] | [_, _] | [_, _, _] | [_, _, _, _] | [_, _, _, _, _] => rfl
  | _ :: _ :: _ :: _ :: _ :: _ :: _ => simp [argsSetParam]

theorem argsStart_isSome (body : List Byte) : (argsStart body).isSome = (body.length == 5) := by
  match body with
  | [] | [_] | [_, _] | [_, _, _] | [_, _, _, _] | [_, _, _, _, _] => rfl
  | _ :: _ :: _ :: _ :: _ :: _ :: _ => simp [argsStart]

theorem argsLoad_isSome (body : List Byte) : (argsLoad body).isSome =
    (decide (5 ≤ body.length) && (splitRecords ((body[4]?).getD 0).toNat (body.drop 5)).isSome) := by
  match body with
  | [] | [_] | [_, _] | [_, _, _] | [_, _, _, _] => rfl
  | _ :: _ :: _ :: _ :: _ :: _ => simp [argsLoad]

/-- A command that the decoder takes under a tag and a code: its arguments are there where the length agrees, and its
modes are those of the code. -/
def IsRequest (c : Instr) (tag code : Byte) : Prop :=
  ∃ (α : Type) (args : Option α) (m : Modes) (owner : α → State → State × List Byte) (r : Req), r.code = code ∧
    (∀ s, exec c s = .next (s.request tag r args m owner)) ∧ args.isSome = lengthAgrees c ∧
    ∀ ready, m.allow ready = codeAllowed ready code

/-- Every request command but UNKNOWN_REQUEST is one (R196, R197). -/
theorem exists_isRequest {c : Instr} {tag code : Byte} (h : requestHead c = some (tag, code))
    (known : ∀ body, c ≠ .unknownRequest tag code body) : IsRequest c tag code := by
  cases c <;> cases h
  case unknownRequest body => exact absurd rfl (known body)
  case setParam => exact ⟨_, _, .setup, _, .setParam, rfl, fun _ => rfl, argsSetParam_isSome _, by decide⟩
  case sealRequest => exact ⟨_, _, .setup, _, .sealSet, rfl, fun _ => rfl, argsNone_isSome _, by decide⟩
  case readParam => exact ⟨_, _, .both, _, .readParam, rfl, fun _ => rfl, argsByte_isSome _, by decide⟩
  case readStatus => exact ⟨_, _, .both, _, .readStatus, rfl, fun _ => rfl, argsNone_isSome _, by decide⟩
  case readEvent => exact ⟨_, _, .both, _, .readEvent, rfl, fun _ => rfl, argsNone_isSome _, by decide⟩
  case ackGroup => exact ⟨_, _, .both, _, .ackGroup, rfl, fun _ => rfl, argsByte_isSome _, by decide⟩
  case setEnable => exact ⟨_, _, .both, _, .setEnable, rfl, fun _ => rfl, argsEnable_isSome _, by decide⟩
  case powerInfo => exact ⟨_, _, .both, _, .powerInfo, rfl, fun _ => rfl, argsNone_isSome _, by decide⟩
  case loadProgram => exact ⟨_, _, .ready, _, .loadProgram, rfl, fun _ => rfl, argsLoad_isSome _, by decide⟩
  case readProgram => exact ⟨_, _, .ready, _, .readProgram, rfl, fun _ => rfl, argsByte_isSome _, by decide⟩
  case lotOpen => exact ⟨_, _, .ready, _, .lotOpen, rfl, fun _ => rfl, argsTagByte_isSome _, by decide⟩
  case lotFix => exact ⟨_, _, .ready, _, .lotFix, rfl, fun _ => rfl, argsTagByte_isSome _, by decide⟩
  case lotFreeClass => exact ⟨_, _, .ready, _, .lotFreeClass, rfl, fun _ => rfl, argsWord_isSome _, by decide⟩
  case readLots => exact ⟨_, _, .ready, _, .readLots, rfl, fun _ => rfl, argsNone_isSome _, by decide⟩
  case startDip => exact ⟨_, _, .ready, _, .startDip, rfl, fun _ => rfl, argsStart_isSome _, by decide⟩
  case abortDip => exact ⟨_, _, .ready, _, .abortDip, rfl, fun _ => rfl, argsNone_isSome _, by decide⟩
  case confirmClear => exact ⟨_, _, .ready, _, .confirmClear, rfl, fun _ => rfl, argsNone_isSome _, by decide⟩
  case ingot => exact ⟨_, _, .ready, _, .ingot, rfl, fun _ => rfl, argsWord_isSome _, by decide⟩
  case setBalance => exact ⟨_, _, .ready, _, .setBalance, rfl, fun _ => rfl, argsLong_isSome _, by decide⟩
  case readRecord => exact ⟨_, _, .ready, _, .readRecord, rfl, fun _ => rfl, argsNone_isSome _, by decide⟩
  case peekRecord => exact ⟨_, _, .ready, _, .peekRecord, rfl, fun _ => rfl, argsNone_isSome _, by decide⟩
  case clearPeer => exact ⟨_, _, .ready, _, .clearPeer, rfl, fun _ => rfl, argsByte_isSome _, by decide⟩
  case readPeers => exact ⟨_, _, .ready, _, .readPeers, rfl, fun _ => rfl, argsNone_isSome _, by decide⟩
  case readSpans => exact ⟨_, _, .ready, _, .readSpans, rfl, fun _ => rfl, argsNone_isSome _, by decide⟩
  case readHeat => exact ⟨_, _, .ready, _, .readHeat, rfl, fun _ => rfl, argsNone_isSome _, by decide⟩
  case stationReset => exact ⟨_, _, .ready, _, .stationReset, rfl, fun _ => rfl, argsNone_isSome _, by decide⟩

/-- A command whose length does not agree with its code is answered BAD_ARG and does nothing else (R196). -/
theorem exec_badLength {c : Instr} {tag code : Byte} (s : State) (hc : requestHead c = some (tag, code))
    (hfresh : s.isFresh tag code) (hlen : lengthAgrees c = false) : exec c s = .next (s.answered tag code [4]) := by
  have known : ∀ body, c ≠ .unknownRequest tag code body := by rintro body rfl; cases hlen
  obtain ⟨α, args, m, owner, r, rfl, hexec, hargs, -⟩ := exists_isRequest hc known
  have hnone : args = none := by rw [hlen] at hargs; exact Option.isSome_eq_false_iff.mp hargs |> Option.isNone_iff_eq_none.mp
  rw [hexec, hnone, request_badLength s tag r m owner hfresh]

/-- Settles O11: the decoder refuses a request with its arguments before the owner sees it. -/
theorem modeNotShownIsBadState : Obligations.ModeNotShownIsBadState := by
  intro s c tag code hc hfresh known hlen hmode
  obtain ⟨α, args, m, owner, r, rfl, hexec, hargs, hallow⟩ := exists_isRequest hc known
  obtain ⟨a, rfl⟩ := Option.isSome_iff_exists.mp (hargs.trans hlen)
  rw [hexec, request_badState s tag r a m owner hfresh ((hallow _).trans hmode)]

/-! ### SET_PARAM -/

/-- A request that SETUP takes reaches its owner (R197). -/
theorem request_setup {α : Type} (s : State) (tag : Byte) (code : Req) (a : α)
    (owner : α → State → State × List Byte) (h : s.asksSetup tag code.code) :
    s.request tag code (some a) .setup owner = (owner a s).1.answered tag code.code (owner a s).2 := by
  obtain ⟨hsetup, hfresh⟩ := h
  exact request_taken s tag code a .setup owner hfresh (by rw [hsetup]; rfl)

/-- The values of a kind. -/
def ParamKind.holds (k : ParamKind) (v : Int) : Prop :=
  match k with
  | .identity => 0 ≤ v ∧ v ≤ 15
  | .classSet => 1 ≤ v ∧ v ≤ 31
  | .quantity lo hi => lo ≤ v ∧ v ≤ hi

/-- A class parameter's number is its run's first and its class. -/
theorem classParam_number {n : Nat} {f : ClassField} {i : Fin 5} (h : classParam n = some (f, i)) :
    n = f.first + i.val := by
  have at_some {base : Nat} {j : Fin 5} (h : classAt base n = some j) : n = base + j.val := by
    unfold classAt at h
    split at h
    · cases h; simp only; omega
    · cases h
  unfold classParam at h
  split at h <;> cases h
  · rename_i hi; exact at_some hi
  · rename_i hi; exact at_some hi
  · rename_i hi; exact at_some hi
  · rename_i hi; exact at_some hi

/-- A class field at a value within its range has it. -/
theorem classField_put {f : ClassField} {w : Int} (h : f.kind.holds w) (r : ClassRow) :
    (f.get (f.put r w.toNat) : Int) = w := by
  cases f <;> simp only [ClassField.kind, ParamKind.holds, ClassField.put, ClassField.get] at h ⊢ <;> omega

/-- A class field's change leaves the row's other fields. -/
theorem classField_put_other {f g : ClassField} (h : g ≠ f) (r : ClassRow) (v : Nat) : g.get (f.put r v) = g.get r := by
  cases f <;> cases g <;> first | rfl | exact absurd rfl h

theorem station_ofNat {w : Int} (h : 0 ≤ w ∧ w ≤ 15) : ((BitVec.ofNat 4 w.toNat).toNat : Int) = w := by
  rw [BitVec.toNat_ofNat]; omega

theorem mask_ofNat {w : Int} (h : 1 ≤ w ∧ w ≤ 31) : ((BitVec.ofNat 5 w.toNat).toNat : Int) = w := by
  rw [BitVec.toNat_ofNat]; omega

/-- A parameter put at a value of its kind has it. -/
theorem params_get_put (p : Params) {n : Nat} {k : ParamKind} {w : Int} (hk : paramKind n = some k) (hw : k.holds w) :
    (p.put n w).get n = some w := by
  unfold paramKind at hk
  split at hk
  case h_1 => cases hk; exact congrArg some (station_ofNat hw)
  case h_21 => cases hk; exact congrArg some (mask_ofNat hw)
  case h_2 => cases hk; exact congrArg some (Int.toNat_of_nonneg (le_trans (by decide) hw.1))
  case h_13 => rfl
  case h_25 =>
    obtain ⟨⟨f, i⟩, hclass, rfl⟩ := Option.map_eq_some_iff.mp hk
    have hput : p.put n w = { p with classes := p.classes.set i (f.put p.classes[i] w.toNat) } := by
      unfold Params.put
      split <;> first | contradiction | simp only [hclass]
    have hget (q : Params) : q.get n = some (f.get q.classes[i] : Int) := by
      unfold Params.get
      split <;> first | contradiction | simp only [hclass, Option.map_some]
    rw [hget, hput]
    simp [classField_put hw]
  all_goals
    cases hk
    simp only [ParamKind.holds] at hw
    simp only [Params.get, Params.put, Option.some.injEq]
    omega

/-- A class parameter put leaves the others. -/
theorem params_get_put_class (p : Params) {n m : Nat} {f : ClassField} {i : Fin 5} (v : Nat) (hne : m ≠ n)
    (hclass : classParam n = some (f, i)) :
    Params.get { p with classes := p.classes.set i (f.put p.classes[i] v) } m = p.get m := by
  unfold Params.get
  split <;> try rfl
  cases hm : classParam m with
  | none => rfl
  | some x =>
    obtain ⟨g, j⟩ := x
    simp only [Option.map_some, Option.some.injEq, Nat.cast_inj]
    by_cases hij : i = j
    · subst hij
      have hgf : g ≠ f := by
        rintro rfl
        exact hne ((classParam_number hm).trans (classParam_number hclass).symm)
      simpa using classField_put_other hgf p.classes[i] v
    · have hval : i.val ≠ j.val := fun e => hij (Fin.ext e)
      simp [Vector.getElem_set_ne, hval]

/-- A parameter put leaves the others. -/
theorem params_get_put_other (p : Params) {n m : Nat} (w : Int) (hne : m ≠ n) : (p.put n w).get m = p.get m := by
  unfold Params.put
  split
  case h_25 =>
    split
    · rename_i hclass; exact params_get_put_class p _ hne hclass
    · rfl
  all_goals
    unfold Params.get
    split <;> first | rfl | exact absurd rfl hne

/-- Every range has its limits in order. -/
theorem paramKind_range {n : Nat} {lo hi : Int} (h : paramKind n = some (.quantity lo hi)) : lo ≤ hi := by
  unfold paramKind at h
  split at h
  case h_25 =>
    obtain ⟨⟨f, i⟩, -, hkind⟩ := Option.map_eq_some_iff.mp h
    cases f <;> cases hkind <;> decide
  all_goals cases h <;> decide

/-- A quantity takes the value or the nearest limit of its range (R199). -/
theorem accept_quantity {lo hi v w : Int} {clamped : Bool} (hrange : lo ≤ hi) (hw : w = max lo (min hi v))
    (hclamped : clamped = true ↔ w ≠ v) : (ParamKind.quantity lo hi).accept v = some (w, clamped) := by
  have hmark : clamped = decide (w ≠ v) := by rw [Bool.eq_iff_iff, hclamped, decide_eq_true_iff]
  subst hmark
  unfold ParamKind.accept
  simp only
  split
  · simp only [Option.some.injEq, Prod.mk.injEq]; exact ⟨by omega, by rw [eq_comm, decide_eq_true_iff]; omega⟩
  · split
    · simp only [Option.some.injEq, Prod.mk.injEq]; exact ⟨by omega, by rw [eq_comm, decide_eq_true_iff]; omega⟩
    · simp only [Option.some.injEq, Prod.mk.injEq]; exact ⟨by omega, by rw [eq_comm, decide_eq_false_iff_not]; omega⟩

theorem setParam_accepts (s : State) {a : Nat × Int} {k : ParamKind} {w : Int} {clamped : Bool}
    (hk : paramKind a.1 = some k) (ha : k.accept a.2 = some (w, clamped)) :
    s.setParam a = (s.takeParams (s.cfg.params.put a.1 w), [if clamped then 1 else 0]) := by
  unfold State.setParam
  rw [hk]
  simp only [ha]
  cases clamped <;> rfl

theorem setParam_refuses (s : State) {a : Nat × Int} (h : ∀ k, paramKind a.1 = some k → k.accept a.2 = none) :
    s.setParam a = (s, [4]) := by
  unfold State.setParam
  cases hk : paramKind a.1 with
  | none => rfl
  | some k => simp only [h k hk]; rfl

/-- A new set of parameters: the set alone and, where the scale changed, the weigh history (R148). -/
theorem takeParams_eq (s : State) (p : Params) : s.takeParams p = { s with
    cfg := { s.cfg with params := p },
    wch := if p.scale = s.cfg.params.scale then s.wch else { s.wch with history := [], forming := [] } } := by
  unfold State.takeParams
  simp only
  split <;> rfl

/-- Settles O12: the kind of the number accepts the value or refuses it, and an accepted value is put. -/
theorem setParamWritesOneParameter : Obligations.SetParamWritesOneParameter := by
  intro s tag n b3 b2 b1 b0 hasks
  have hexec : exec (.setParam tag [n, b3, b2, b1, b0]) s = .next
      ((s.setParam (n.toNat, beInt32 [b3, b2, b1, b0])).1.answered tag 1
        (s.setParam (n.toNat, beInt32 [b3, b2, b1, b0])).2) :=
    congrArg Host.Outcome.next (request_setup s tag .setParam _ State.setParam hasks)
  generalize beInt32 [b3, b2, b1, b0] = v at hexec ⊢
  rw [hexec]
  refine ⟨fun w clamped h => ?accepted, fun h => ?refused⟩
  case accepted =>
    have taken : ∃ k, paramKind n.toNat = some k ∧ k.accept v = some (w, clamped) ∧ k.holds w := by
      rcases h with ⟨lo, hi, hk, hw, hc⟩ | ⟨rfl, rfl, h0, h15, rfl⟩ | ⟨rfl, rfl, h1, h31, rfl⟩
      · have hrange := paramKind_range hk
        exact ⟨_, hk, accept_quantity hrange hw hc, by rw [hw]; exact ⟨le_max_left _ _, max_le hrange (min_le_left _ _)⟩⟩
      · exact ⟨.identity, rfl, if_pos ⟨h0, h15⟩, h0, h15⟩
      · exact ⟨.classSet, rfl, if_pos ⟨h1, h31⟩, h1, h31⟩
    obtain ⟨k, hk, haccept, hholds⟩ := taken
    refine ⟨s.cfg.params.put n.toNat w, params_get_put _ hk hholds, fun m hne => params_get_put_other _ w hne, ?_⟩
    rw [setParam_accepts (a := (n.toNat, v)) s hk haccept, takeParams_eq]
  case refused =>
    rw [setParam_refuses]
    intro k hk
    rcases h with h | ⟨rfl, h⟩ | ⟨rfl, h⟩
    · rw [h] at hk; cases hk
    · cases hk; exact if_neg (by simp only; omega)
    · cases hk; exact if_neg (by simp only; omega)

/-! ### SEAL -/

theorem exec_seal (s : State) (tag : Byte) (h : s.asksSetup tag 2) :
    exec (.sealRequest tag []) s = .next ((s.sealSet ()).1.answered tag 2 (s.sealSet ()).2) :=
  congrArg Host.Outcome.next (request_setup s tag .sealSet () State.sealSet h)

theorem sealSet_refuses (s : State) {n : Nat} (h : s.cfg.params.sealFailure = some n) :
    s.sealSet () = (s, [3, BitVec.ofNat 8 n]) := by
  unfold State.sealSet
  rw [h]
  rfl

/-- The checks of SEAL once the station ID and the cells are set (R201). -/
theorem sealFailure_set (p : Params) {n : Nat} (hid : p.stationId ≠ none) (hcells : p.cells = some n) :
    p.sealFailure = if n ≤ 4 * p.margin then some 3 else if p.zMax ≤ p.zLow then some 23
      else if p.zLow ≤ p.zStop then some 24 else none := by
  obtain ⟨i, hi⟩ := Option.ne_none_iff_exists'.mp hid
  unfold Params.sealFailure
  rw [hi, hcells]

/-- Settles O13: SEAL answers the number its first failing check gives. -/
theorem sealRefusesTheFirstFailingCheck : Obligations.SealRefusesTheFirstFailingCheck := by
  intro s tag hasks
  have refused {n : Nat} (h : s.cfg.params.sealFailure = some n) :
      exec (.sealRequest tag []) s = .next (s.answered tag 2 [3, BitVec.ofNat 8 n]) := by
    rw [exec_seal s tag hasks, sealSet_refuses s h]
  refine ⟨fun hid => refused (n := 1) ?_, fun hid hcells => refused (n := 2) ?_, fun n hid hcells =>
    ⟨fun hshort => refused (n := 3) ?_, fun hlong hmax => refused (n := 23) ?_, fun hlong hmax hlow =>
      refused (n := 24) ?_⟩⟩
  · unfold Params.sealFailure; rw [hid]
  · obtain ⟨i, hi⟩ := Option.ne_none_iff_exists'.mp hid
    unfold Params.sealFailure; rw [hi, hcells]
  · rw [sealFailure_set _ hid hcells, if_pos hshort]
  · rw [sealFailure_set _ hid hcells, if_neg (by omega), if_pos hmax]
  · rw [sealFailure_set _ hid hcells, if_neg (by omega), if_neg (by omega), if_pos hlow]

/-- On a line that has just left OFF the first BEACON is placed and becomes current (log 32). -/
theorem offer_firstBeacon (s : State) (hline : s.lif.line = .joining) (hwaiting : s.lif.waiting = [])
    (hcurrent : s.lif.current = none) :
    s.offer .beacon = s.withLif { s.lif with current := some (Current.start .beacon) } := by
  have hplace : s.lif.place .beacon = ({ s.lif with waiting := [.beacon] }, none) := by
    simp [Lif.place, Lif.holds, Lif.places, hwaiting, hcurrent, Config.queuePlaces, insertFrame]
  have htake : Lif.takeCurrent { s.lif with waiting := [.beacon] } =
      { s.lif with current := some (Current.start .beacon) } := by
    simp [Lif.takeCurrent, hcurrent, hline, takeFirst, Lif.maySend, TxFrame.isIntent, hwaiting]
  unfold State.offer State.offerBase
  rw [hplace]
  exact congrArg s.withLif htake

/-- A change of the line with no frame waiting and no own claim moves nothing more. -/
theorem lineNotice_nothing (s : State) (hwaiting : s.lif.waiting = []) (hclaim : s.scu.state = .none) :
    s.lineNotice = s := by
  have htake : s.lif.takeCurrent = s.lif := by
    unfold Lif.takeCurrent
    rw [hwaiting]
    cases s.lif.current <;> simp [takeFirst]
  unfold State.lineNotice
  rw [htake]
  exact evalStart_still s (by rw [hclaim]; rfl)

theorem joinLine_eq (s : State) (hwaiting : s.lif.waiting = []) (hcurrent : s.lif.current = none)
    (hclaim : s.scu.state = .none) :
    s.joinLine = s.withLif { s.lif with
      line := .joining, joinEnd := some (s.now + 4 * s.cfg.params.beaconPeriod),
      beaconNext := some (s.now + s.cfg.params.beaconPeriod), current := some (Current.start .beacon) } := by
  have hnotice := lineNotice_nothing (s.withLif { s.lif with
    line := .joining, joinEnd := some (s.now + 4 * s.cfg.params.beaconPeriod),
    beaconNext := some (s.now + s.cfg.params.beaconPeriod) }) hwaiting hclaim
  unfold State.joinLine
  rw [hnotice]
  exact offer_firstBeacon _ rfl hwaiting hcurrent

/-- Settles O14: the checks pass, and the line leaves OFF with the first BEACON as its current frame. -/
theorem sealJoinsTheLine : Obligations.SealJoinsTheLine := by
  intro s tag n hasks hid hcells hmargin hmax hstop hwaiting hcurrent hclaim
  have hpasses : s.cfg.params.sealFailure = none := by
    rw [sealFailure_set _ hid hcells, if_neg (by omega), if_neg (by omega), if_neg (by omega)]
  have hset : s.sealSet () = (s.sealStation, [0]) := by
    unfold State.sealSet
    rw [hpasses]
    rfl
  have hseal : s.sealStation = _ :=
    joinLine_eq (s.withCfg { s.cfg with ready := true, isSealed := true }) hwaiting hcurrent hclaim
  rw [exec_seal s tag hasks, hset, hseal]
  rfl

/-! ### Reading -/

/-- Settles O15: each reading request reaches its owner, and the owner answers fields of the state as it is. -/
theorem readingRequestsChangeNothing : Obligations.ReadingRequestsChangeNothing := by
  intro s tag n
  refine ⟨fun h => ?param, fun h => ?status, fun h => ?program, fun h => ?lots, fun h => ?peers, fun h => ?spans,
    fun h => ?heat⟩
  case param =>
    refine (congrArg Host.Outcome.next (request_taken s tag .readParam n.toNat .both State.readParam h rfl)).trans ?_
    unfold State.readParam
    cases hk : paramKind n.toNat <;> rfl
  case status =>
    exact congrArg Host.Outcome.next (request_taken s tag .readStatus () .both State.readStatus h rfl)
  case program =>
    refine (congrArg Host.Outcome.next (request_asksReady s tag .readProgram n.toNat State.readProgram h)).trans ?_
    unfold State.readProgram
    split <;> rfl
  case lots => exact congrArg Host.Outcome.next (request_asksReady s tag .readLots () State.readLots h)
  case peers => exact congrArg Host.Outcome.next (request_asksReady s tag .readPeers () State.readPeers h)
  case spans => exact congrArg Host.Outcome.next (request_asksReady s tag .readSpans () State.readSpans h)
  case heat => exact congrArg Host.Outcome.next (request_asksReady s tag .readHeat () State.readHeat h)

/-! ### Events -/

theorem firstPlace_some {set : Byte} {place : Nat} (h1 : 1 ≤ place) (h8 : place ≤ 8)
    (hfirst : ∀ q, 1 ≤ q → q < place → set.getLsbD (q - 1) = false) (hset : set.getLsbD (place - 1) = true) :
    firstPlace set = some place := by
  have hfind : (List.range 8).find? (fun i => set.getLsbD i) = some (place - 1) := by
    rw [List.find?_range_eq_some]
    refine ⟨hset, List.mem_range.mpr (by omega), fun j hj => ?_⟩
    have := hfirst (j + 1) (by omega) (by omega)
    simpa using this
  unfold firstPlace
  rw [hfind, Option.map_some, Nat.sub_add_cancel h1]

theorem firstPlace_none {set : Byte} (h : set = 0) : firstPlace set = none := by
  subst h
  rfl

theorem placeBit_shift {place : Nat} (h1 : 1 ≤ place) (h8 : place ≤ 8) : placeBit place = 1#8 <<< (place - 1) := by
  interval_cases place <;> rfl

/-- The event READ_EVENT serves is the first of the lowest group that presents one (R206). -/
theorem nextEvent_some {t : Spt} {g place : Nat} (h1 : 1 ≤ g) (h4 : g ≤ 4)
    (hlower : ∀ h, 1 ≤ h → h < g → (t.group h).presentable = 0)
    (hfirst : firstPlace (t.group g).presentable = some place) : t.nextEvent = some (g, place) := by
  have none_of {h : Nat} (a : 1 ≤ h) (b : h < g) : firstPlace (t.group h).presentable = none :=
    firstPlace_none (hlower h a b)
  unfold Spt.nextEvent
  interval_cases g
  · rw [show firstPlace t.g1.presentable = some place from hfirst]
  · rw [show firstPlace t.g1.presentable = none from none_of (h := 1) (by omega) (by omega),
      show firstPlace t.g2.presentable = some place from hfirst]
  · rw [show firstPlace t.g1.presentable = none from none_of (h := 1) (by omega) (by omega),
      show firstPlace t.g2.presentable = none from none_of (h := 2) (by omega) (by omega),
      show firstPlace t.g3.presentable = some place from hfirst]
  · rw [show firstPlace t.g1.presentable = none from none_of (h := 1) (by omega) (by omega),
      show firstPlace t.g2.presentable = none from none_of (h := 2) (by omega) (by omega),
      show firstPlace t.g3.presentable = none from none_of (h := 3) (by omega) (by omega),
      show firstPlace t.g4.presentable = some place from hfirst]

theorem nextEvent_none {t : Spt} (h : ∀ g, 1 ≤ g → g ≤ 4 → (t.group g).presentable = 0) : t.nextEvent = none := by
  unfold Spt.nextEvent
  rw [show firstPlace t.g1.presentable = none from firstPlace_none (h 1 (by omega) (by omega)),
    show firstPlace t.g2.presentable = none from firstPlace_none (h 2 (by omega) (by omega)),
    show firstPlace t.g3.presentable = none from firstPlace_none (h 3 (by omega) (by omega)),
    show firstPlace t.g4.presentable = none from firstPlace_none (h 4 (by omega) (by omega))]

theorem group_withGroup (t : Spt) (g : Nat) (x : Group) : (t.withGroup g x).group g = x := by
  match g with
  | 0 | 1 | 2 | 3 => rfl
  | _ + 4 => rfl

/-- Settles O17: READ_EVENT serves the event that the event stage finds. -/
theorem readEventServesTheFirstPresentableEvent : Obligations.ReadEventServesTheFirstPresentableEvent := by
  intro s tag hfresh
  have hexec : exec (.readEvent tag []) s = .next ((s.readEvent ()).1.answered tag 5 (s.readEvent ()).2) :=
    congrArg Host.Outcome.next (request_taken s tag .readEvent () .both State.readEvent hfresh rfl)
  rw [hexec]
  refine ⟨fun g place hg1 hg4 hp1 hp8 hlower hbefore hset => ?served, fun hnone => ?none⟩
  case served =>
    have hnext := nextEvent_some hg1 hg4 hlower (firstPlace_some hp1 hp8 hbefore hset)
    unfold State.readEvent
    simp only [hnext, Spt.serve, group_withGroup, placeBit_shift hp1 hp8]
    rfl
  case none =>
    unfold State.readEvent
    rw [nextEvent_none hnone]
    rfl

/-- The enables of a set lie within its group (R204, R207). -/
theorem enables_fit (g m : Byte) :
    m.toNat < 2 ^ groupSize g.toNat ↔ (g = 4 → m.toNat < 32) := by
  have hm := m.isLt
  have hg : g = 4 ↔ g.toNat = 4 := ⟨fun e => by rw [e]; rfl, fun e => BitVec.eq_of_toNat_eq e⟩
  unfold groupSize
  rw [hg]
  split
  · rename_i e; simp [e]
  · rename_i e; simp [e]; omega

/-- Settles O18: each owner tests its arguments and changes the one group. -/
theorem ackGroupAndSetEnable : Obligations.AckGroupAndSetEnable := by
  intro s tag g m
  refine ⟨fun h => ?ack, fun h => ?enable⟩
  case ack =>
    refine (congrArg Host.Outcome.next (request_taken s tag .ackGroup g.toNat .both State.ackGroup h rfl)).trans ?_
    unfold State.ackGroup
    split <;> rfl
  case enable =>
    refine (congrArg Host.Outcome.next
      (request_taken s tag .setEnable (g.toNat, m) .both State.setEnable h rfl)).trans ?_
    have hcond : (1 ≤ g.toNat ∧ g.toNat ≤ 4 ∧ m.toNat < 2 ^ groupSize g.toNat) ↔
        (1 ≤ g.toNat ∧ g.toNat ≤ 4 ∧ (g = 4 → m.toNat < 32)) :=
      and_congr_right fun _ => and_congr_right fun _ => enables_fit g m
    unfold State.setEnable
    simp only [hcond]
    split <;> rfl

/-! ### STATION_RESET -/

theorem resetAllowed_iff (s : State) :
    s.resetAllowed = true ↔ (s.dsq.state = .idle ∨ s.dsq.state = .halted) ∧ s.scu.state = .none := by
  simp [State.resetAllowed]

/-- Settles O19: the owner resets every block where it may, and answers BUSY where it may not. -/
theorem stationResetReturnsToRest : Obligations.StationResetReturnsToRest := by
  intro s tag hasks
  have hexec : exec (.stationReset tag []) s = .next ((s.resetRequest ()).1.answered tag 26 (s.resetRequest ()).2) :=
    congrArg Host.Outcome.next (request_asksReady s tag .stationReset () State.resetRequest hasks)
  rw [hexec]
  unfold State.resetRequest
  refine ⟨fun hdsq hscu => ?reset, fun hno => ?busy⟩
  case reset =>
    rw [if_pos ((resetAllowed_iff s).mpr ⟨hdsq, hscu⟩)]
    refine congrArg (fun l => Host.Outcome.next (State.answered { s.stationReset with lif := l } tag 26 [0])) ?_
    refine congrArg (fun o => Lif.takeCurrent
      { s.lif with waiting := s.lif.waiting.filter TxFrame.isFree, current := o }) ?_
    refine congrArg s.lif.current.bind (funext fun c => ?_)
    unfold Current.afterReset
    cases c.frame <;> cases c.phase <;> rfl
  case busy => rw [if_neg fun h => hno ((resetAllowed_iff s).mp h)]; rfl

end Sys2Proof.Machine
end

section
/-! The lots, the peers and the balance as the host changes them (R33, R172 to R174, R184, R186), and CONFIRM_CLEAR
(R120, R127). -/

namespace Sys2Proof.Machine

/-! ### The lot table -/

/-- In a table with no two lots of one tag, a lot is the lot of its tag. -/
theorem lotOf_mem {k : Pku} {x : Lot} {tag : Nat} (ok : LotsOk k) (hx : x ∈ k.lots) (ht : x.tag = tag) :
    k.lotOf tag = some x := by
  obtain ⟨-, hnodup, -⟩ := ok
  cases h : k.lotOf tag with
  | none => exact absurd (List.mem_map.mpr ⟨x, hx, ht⟩) (lotOf_none h)
  | some y =>
    obtain ⟨hy, hty⟩ := lotOf_tag h
    rw [List.inj_on_of_nodup_map hnodup hy hx (hty.trans ht.symm)]

theorem lotOf_absent {k : Pku} {tag : Nat} (h : tag ∉ k.lots.map Lot.tag) : k.lotOf tag = none := by
  cases e : k.lotOf tag with
  | none => rfl
  | some x =>
    obtain ⟨hx, ht⟩ := lotOf_tag e
    exact absurd (List.mem_map.mpr ⟨x, hx, ht⟩) h

/-- The lot evicted is the last one that is not in use (R173). -/
theorem evictLast_split (before after : List Lot) (x : Lot) (hx : x.inUse = false) (ha : ∀ y ∈ after, y.inUse = true) :
    evictLast (before ++ x :: after) = before ++ after := by
  induction before with
  | nil =>
    have hnone : after.any (fun y => !y.inUse) = false := by
      rw [List.any_eq_false]
      intro y hy
      rw [ha y hy]
      decide
    show evictLast (x :: after) = after
    unfold evictLast
    rw [hnone]
    rfl
  | cons b rest ih =>
    have hsome : (rest ++ x :: after).any (fun y => !y.inUse) = true :=
      List.any_eq_true.mpr ⟨x, by simp, by rw [hx]; rfl⟩
    show evictLast (b :: (rest ++ x :: after)) = _
    unfold evictLast
    rw [if_pos hsome, ih]
    rfl

/-- A lot as LOT_OPEN makes it (R172). -/
def Lot.opened (tag : Nat) (mask : BitVec 5) : Lot :=
  { tag := tag, mask := mask, classifier := .search, dips := 0, inUse := false }

theorem openLot_known {k : Pku} {tag : Nat} {x : Lot} (mask : BitVec 5) (h : k.lotOf tag = some x) :
    k.openLot tag mask = { lots := Lot.opened tag mask :: k.lots.filter (fun y => y.tag != tag) } := by
  unfold Pku.openLot
  rw [h]
  rfl

theorem openLot_room {k : Pku} {tag : Nat} (mask : BitVec 5) (h : k.lotOf tag = none) (hroom : k.lots.length < 8) :
    k.openLot tag mask = { lots := Lot.opened tag mask :: k.lots } := by
  unfold Pku.openLot
  rw [h]
  simp only
  rw [if_pos (show k.lots.length < Config.lotPlaces from hroom)]
  rfl

theorem openLot_full {k : Pku} {tag : Nat} (mask : BitVec 5) (h : k.lotOf tag = none) (hfull : 8 ≤ k.lots.length) :
    k.openLot tag mask = { lots := Lot.opened tag mask :: evictLast k.lots } := by
  unfold Pku.openLot
  rw [h]
  simp only
  rw [if_neg (show ¬k.lots.length < Config.lotPlaces from Nat.not_lt.mpr hfull)]
  rfl

/-! ### LOT_OPEN, LOT_FIX and LOT_FREE_CLASS -/

/-- LOT_OPEN of a valid tag and mask (R172). -/
theorem lotOpen_valid (s : State) {tag : Nat} {m : Byte} (h0 : tag ≠ 0) (h1 : 1 ≤ m.toNat) (h31 : m.toNat ≤ 31)
    (hmask : m.extractLsb' 0 5 &&& ~~~s.cfg.params.mask = 0) :
    s.lotOpen (tag, m) = if (s.pku.lotOf tag).any Lot.inUse then (s, [2])
      else (s.withPku (s.pku.openLot tag (m.extractLsb' 0 5)), [0]) := by
  unfold State.lotOpen
  rw [if_neg h0, if_neg (by simp only; omega), if_neg (by simpa using hmask)]
  cases s.pku.lotOf tag with
  | none => rfl
  | some x => cases h : x.inUse <;> simp [h, respBusy, respOk]

/-- Settles O22: by the lot the table has of the tag and, for a new one, by the room. -/
theorem lotOpenTakesPlaceOne : Obligations.LotOpenTakesPlaceOne := by
  intro s tag a b m hasks ok h0 h1 h31 hmask opened
  have hexec : exec (.lotOpen tag [a, b, m]) s =
      .next ((s.lotOpen (beNat [a, b], m)).1.answered tag 11 (s.lotOpen (beNat [a, b], m)).2) :=
    congrArg Host.Outcome.next (request_asksReady s tag .lotOpen (beNat [a, b], m) State.lotOpen hasks)
  rw [hexec, lotOpen_valid s h0 h1 h31 hmask]
  refine ⟨fun x hx ht => ?known, fun hnew => ?new⟩
  case known =>
    have hlot := lotOf_mem ok hx ht
    rw [hlot, openLot_known _ hlot]
    cases h : x.inUse <;> simp only [Option.any_some, h] <;> rfl
  case new =>
    have hlot := lotOf_absent hnew
    have hfull (l : List Lot) (h8 : s.pku.lots.length = 8) (hl : evictLast s.pku.lots = l) :
        s.pku.openLot (beNat [a, b]) (m.extractLsb' 0 5) = { lots := opened :: l } := by
      rw [openLot_full _ hlot h8.ge, hl]
      rfl
    rw [hlot]
    refine ⟨fun hroom => ?_, fun others v h8 hs hv => ?_, fun others u v h8 hs hv hu => ?_⟩
    · rw [openLot_room _ hlot hroom]; rfl
    · rw [hfull others h8 (by rw [hs]; simpa using evictLast_split others [] v hv (by simp))]; rfl
    · rw [hfull (others ++ [v]) h8 (by rw [hs]; exact evictLast_split others [v] u hu (by simpa using hv))]; rfl

/-- LOT_FIX with a class (R174). -/
theorem lotFix_known (s : State) {tag : Nat} {k : Byte} {c : SteelClass} {x : Lot} (h0 : tag ≠ 0)
    (hc : SteelClass.ofCode k.toNat = some c) (hlot : s.pku.lotOf tag = some x) :
    s.lotFix (tag, k) = if inMask x.mask c then (s.withPku (s.pku.setClassifier x (.fixed c)), [0]) else (s, [4]) := by
  unfold State.lotFix
  rw [if_neg h0]
  simp only [hc, hlot]
  rfl

theorem lotFix_absent (s : State) {tag : Nat} {k : Byte} {c : SteelClass} (h0 : tag ≠ 0)
    (hc : SteelClass.ofCode k.toNat = some c) (hlot : s.pku.lotOf tag = none) : s.lotFix (tag, k) = (s, [3, 5]) := by
  unfold State.lotFix
  rw [if_neg h0]
  simp only [hc, hlot]
  rfl

theorem lotFreeClass_known (s : State) {tag : Nat} {x : Lot} (h0 : tag ≠ 0) (hlot : s.pku.lotOf tag = some x) :
    s.lotFreeClass tag = (s.withPku (s.pku.setClassifier x .search), [0]) := by
  unfold State.lotFreeClass
  rw [if_neg h0, hlot]
  rfl

theorem lotFreeClass_absent (s : State) {tag : Nat} (h0 : tag ≠ 0) (hlot : s.pku.lotOf tag = none) :
    s.lotFreeClass tag = (s, [3, 5]) := by
  unfold State.lotFreeClass
  rw [if_neg h0, hlot]
  rfl

/-- Settles O23: both requests put the lot first with its new classifier. -/
theorem lotFixAndFreeClassSetTheClassifier : Obligations.LotFixAndFreeClassSetTheClassifier := by
  intro s tag a b k c ok h0 hc
  have hfix (h : s.asksReady tag 12) : exec (.lotFix tag [a, b, k]) s =
      .next ((s.lotFix (beNat [a, b], k)).1.answered tag 12 (s.lotFix (beNat [a, b], k)).2) :=
    congrArg Host.Outcome.next (request_asksReady s tag .lotFix (beNat [a, b], k) State.lotFix h)
  have hfree (h : s.asksReady tag 13) : exec (.lotFreeClass tag [a, b]) s =
      .next ((s.lotFreeClass (beNat [a, b])).1.answered tag 13 (s.lotFreeClass (beNat [a, b])).2) :=
    congrArg Host.Outcome.next (request_asksReady s tag .lotFreeClass (beNat [a, b]) State.lotFreeClass h)
  refine ⟨fun x hx ht => ?known, fun hnew => ?absent⟩
  case known =>
    have hlot := lotOf_mem ok hx ht
    have hput (st : Classifier) : s.pku.setClassifier x st =
        { lots := { x with classifier := st } :: s.pku.lots.filter (fun y => y.tag != beNat [a, b]) } := by
      rw [← ht]; rfl
    refine ⟨fun h => ?_, fun h => ?_⟩
    · rw [hfix h, lotFix_known s h0 hc hlot, hput]
      split <;> rfl
    · rw [hfree h, lotFreeClass_known s h0 hlot, hput]
      rfl
  case absent =>
    have hlot := lotOf_absent hnew
    exact ⟨fun h => by rw [hfix h, lotFix_absent s h0 hc hlot], fun h => by rw [hfree h, lotFreeClass_absent s h0 hlot]⟩

/-! ### CLEAR_PEER -/

theorem clearPeer_refuses (s : State) {n : Nat} (h : 15 < n ∨ (n ≤ 15 ∧ BitVec.ofNat 4 n = s.ownId)) :
    s.clearPeer n = (s, [4]) := by
  unfold State.clearPeer
  split
  · rfl
  · rw [if_pos]
    · rfl
    · rcases h with h | h
      · contradiction
      · exact h.2

/-- CLEAR_PEER of a foreign ID (R33). -/
theorem clearPeer_foreign (s : State) {n : Nat} (h15 : n ≤ 15) (hown : BitVec.ofNat 4 n ≠ s.ownId) :
    s.clearPeer n =
      match s.ptb.recordOf (BitVec.ofNat 4 n) with
      | none => (s, [3, 3])
      | some p =>
        match p.presence with
        | .present => (s, [3, 4])
        | .silent => (s.dropPeer p.id, [0]) := by
  unfold State.clearPeer
  rw [if_neg (Nat.not_lt.mpr h15), if_neg hown]
  rfl

theorem recordOf_id {t : Ptb} {h : StationId} {p : Peer} (e : t.recordOf h = some p) : p.id = h := by
  simpa using List.find?_some e

/-- The removal of a peer takes its record and its entry (R34). -/
theorem dropPeer_removed (s : State) (h : StationId) :
    (s.dropPeer h).ptb.peers = s.ptb.peers.filter (fun q => q.id != h) ∧
      (s.dropPeer h).scu.entries = s.scu.entries.filter (fun e => e.holder != h) := by
  let u := s.withPtb { s.ptb with peers := s.ptb.peers.filter (fun r => r.id != h) }
  refine ⟨?_, notify_entryLeaves_entries u h⟩
  have hquiet := quiet_evalStart (u.removeEntry h)
  have hcalm := calm_onNotices (u.entryLeaves h).1 (u.entryLeaves h).2
  exact congrArg Ptb.peers (hcalm.ptb.trans hquiet.ptb)

/-- Settles O30: the owner's tests in their order, and a SILENT peer's record and entry removed. -/
theorem clearPeerRemovesASilentPeer : Obligations.ClearPeerRemovesASilentPeer := by
  intro s tag n hasks
  have hexec : exec (.clearPeer tag [n]) s =
      .next ((s.clearPeer n.toNat).1.answered tag 22 (s.clearPeer n.toNat).2) :=
    congrArg Host.Outcome.next (request_asksReady s tag .clearPeer n.toNat State.clearPeer hasks)
  rw [hexec]
  refine ⟨fun h => by rw [clearPeer_refuses s h], fun h15 hown => ?foreign⟩
  rw [clearPeer_foreign s h15 hown]
  refine ⟨fun hnone => by rw [hnone], fun p hp hpresent => by rw [hp]; simp only [hpresent], fun p hp hsilent => ?silent⟩
  have hid := recordOf_id hp
  obtain ⟨hpeers, hentries⟩ := dropPeer_removed s p.id
  rw [hid] at hpeers hentries
  rw [hp]
  simp only [hsilent, hid]
  exact ⟨_, rfl, hpeers, hentries, rfl⟩

/-! ### INGOT and SET_BALANCE -/

theorem ingotRequest_eq (s : State) (v : Nat) : s.ingotRequest v =
    (s.offerIngot (max 10 (min 50000 v)), [if max 10 (min 50000 v) = v then 0 else 1]) := by
  unfold State.ingotRequest
  split
  · rw [show max 10 (min 50000 v) = 10 by omega, if_neg (by omega)]; rfl
  · split
    · rw [show max 10 (min 50000 v) = 50000 by omega, if_neg (by omega)]; rfl
    · rw [show max 10 (min 50000 v) = v by omega, if_pos rfl]; rfl

/-- With no own claim a change of Z reaches neither the queue nor the claim. -/
theorem putZ_settled (s : State) (z : Nat) (h : s.scu.state.isSettled) :
    (s.putZ z).lif = s.lif ∧ (s.putZ z).scu = s.scu := by
  obtain ⟨l, x, -, -, e⟩ := putZ_eq s z
  rcases e with e | e <;> rw [e]
  · exact ⟨rfl, rfl⟩
  · rw [zincNotice_settled _ (by exact h)]; exact ⟨rfl, rfl⟩

/-- What an own INGOT leaves but Z, the level state, the events, the queue and the claim. -/
theorem offerIngot_aside (s : State) (m : Nat) : ∃ l x, EventsGrow s.spt x ∧
    Aside ((s.withZbr { s.zbr with z := min s.cfg.params.zMax (s.zbr.z + m), level := l }).withSpt x) (s.offerIngot m) := by
  obtain ⟨l, x, hgrow, haside⟩ := putZ_aside s (min s.cfg.params.zMax (s.zbr.z + m))
  exact ⟨l, x, hgrow, haside.trans (aside_offer _ _)⟩

/-- Settles O27: the clamped mass raises Z and the INGOT is offered, which moves the queue and the claim alone. -/
theorem ingotRequestRaisesTheEstimate : Obligations.IngotRequestRaisesTheEstimate := by
  intro s tag a b hasks m
  have hexec : exec (.ingot tag [a, b]) s =
      .next ((s.ingotRequest (beNat [a, b])).1.answered tag 18 (s.ingotRequest (beNat [a, b])).2) :=
    congrArg Host.Outcome.next (request_asksReady s tag .ingot (beNat [a, b]) State.ingotRequest hasks)
  rw [ingotRequest_eq] at hexec
  obtain ⟨l, x, -, haside⟩ := offerIngot_aside s m
  have hlevel : s.levelEvaluated (min s.cfg.params.zMax (s.zbr.z + m)) (s.offerIngot m) :=
    levelEvaluated_aside (putZ_evaluated s _) (aside_offer _ _)
  refine ⟨_, hexec, ?_, hlevel, ?_, rfl, ?_, ?_, haside.ptb, haside.hwn, haside.mpt, haside.wch, fun hnone hroom => ?_⟩
  · exact (congrArg Zbr.z haside.zbr :)
  · exact (congrArg Zbr.unset haside.zbr :)
  · exact map_number haside.ring
  · exact (congrArg Zbr.lastIngot haside.zbr :)
  · have hlif := (putZ_settled s (min s.cfg.params.zMax (s.zbr.z + m)) (.inr hnone)).1
    show ((s.addZinc m).offer (.ingot m)).lif.holds _ = true
    rw [offer_holds _ _ _ (by rw [show (s.addZinc m).lif = s.lif from hlif]; exact hroom) (by simp)]
    simp

theorem setBalance_eq (s : State) (v : Nat) : s.setBalance v =
    (s.putBalance (min s.cfg.params.zMax v), [if s.cfg.params.zMax < v then 1 else 0]) := by
  unfold State.setBalance
  split
  · rw [Nat.min_eq_left (by omega)]; rfl
  · rw [Nat.min_eq_right (by omega)]; rfl

/-- The state with the balance flags clear (R186). -/
def State.balanceSet (s : State) : State := s.withZbr { s.zbr with unset := false, gap := false }

theorem putBalance_eq (s : State) (v : Nat) : s.putBalance v = s.balanceSet.putZ v := rfl

/-- Settles O28: with the flags clear, Z takes the value and the level state is evaluated. -/
theorem setBalanceSetsTheEstimate : Obligations.SetBalanceSetsTheEstimate := by
  intro s tag a b c d hasks z
  have hexec : exec (.setBalance tag [a, b, c, d]) s =
      .next ((s.setBalance (beNat [a, b, c, d])).1.answered tag 19 (s.setBalance (beNat [a, b, c, d])).2) :=
    congrArg Host.Outcome.next (request_asksReady s tag .setBalance (beNat [a, b, c, d]) State.setBalance hasks)
  rw [setBalance_eq, putBalance_eq] at hexec
  obtain ⟨l, x, -, haside⟩ := putZ_aside s.balanceSet z
  obtain ⟨hlevel, hlow, hstop, -⟩ := putZ_evaluated s.balanceSet z
  refine ⟨_, hexec, ?_, ?_, ?_, hlevel, ?_, ?_, haside.ptb, map_number haside.ring, haside.hwn, rfl, fun hnormal hz => ?_⟩
  · exact (congrArg Zbr.z haside.zbr :)
  · exact (congrArg Zbr.unset haside.zbr :)
  · exact (congrArg Zbr.gap haside.zbr :)
  · exact (congrArg Zbr.lastPickup haside.zbr :)
  · exact (congrArg Zbr.lastIngot haside.zbr :)
  · have hstopped : (s.balanceSet.putZ z).zbr.level = .stopped := hlevel.trans (if_pos hz)
    refine ⟨hlow hnormal (by rw [hstopped]; decide), hstop ?_ hstopped⟩
    rw [show s.balanceSet.zbr.level = .normal from hnormal]
    decide

/-! ### CONFIRM_CLEAR -/

/-- A record does not reach the heat window. -/
theorem recordDip_hwn (s : State) (c : DipCtx) (o : DipOutcome) : (s.recordDip c o).hwn = s.hwn := by
  let r := makeRecord s.cfg.params s.pku c o
  obtain ⟨x, hraise, -, -⟩ := raiseAll_eq (s.withPku (s.pku.afterRecord s.cfg.params.lockCount c.lot r.dipClass))
    (s.pku.recordEvents s.cfg.params.lockCount c.lot r.dipClass)
  have offered (u : State) (n : Nat) (k : Option SteelClass) (q : BitVec 32) : (u.offerPickup n k q).hwn = u.hwn := by
    obtain ⟨l, y, -, haside⟩ := putZ_aside u (u.zbr.z - n)
    exact (aside_offer _ _).hwn.trans haside.hwn
  have appended (u : State) : (u.appendRecord r).hwn = u.hwn := by
    obtain ⟨y, -, -, -, h⟩ := appendRecord_eq u r
    rw [h]
    exact offered _ _ _ _
  show (State.appendRecord _ r).hwn = s.hwn
  rw [appended, hraise]
  rfl

theorem createRecord_hwn (s : State) (o : DipOutcome) : (s.createRecord o).hwn = s.hwn := by
  unfold State.createRecord
  split
  · split
    · rfl
    · exact recordDip_hwn s _ o
  · rfl

theorem makeRecord_outcome (p : Params) (k : Pku) (c : DipCtx) (o : DipOutcome) : (makeRecord p k c o).outcome = o := by
  unfold makeRecord
  split <;> rfl

/-- A dip that was not immersed leaves no record (R129). -/
theorem createRecord_dry (s : State) (o : DipOutcome) {c : DipCtx} (hc : s.dsq.ctx = some c) (h0 : c.immersions = 0) :
    s.createRecord o = s := by
  unfold State.createRecord
  rw [hc]
  exact if_pos h0

/-- Marks for frames not sent leave a ring its last record. -/
theorem getLast_unmarked {as bs : List DipRecord} {r : DipRecord}
    (h : as.map DipRecord.unmarked = bs.map DipRecord.unmarked) (hlast : bs.getLast? = some r) :
    ∃ m, as.getLast? = some { r with flags := { r.flags with txDropped := m } } := by
  obtain ⟨front, rfl⟩ := List.getLast?_eq_some_iff.mp hlast
  exact getLast_mark h

theorem returnIdle_unused (s : State) : s.returnIdle.pku.lots.any Lot.inUse = false := by
  show (s.pku.lots.map fun x : Lot => { x with inUse := false }).any Lot.inUse = false
  simp

/-- The release of the span and the return to IDLE, from a state in which a record may have been made: what every
CONFIRM_CLEAR leaves and does (R55, R127). -/
theorem releaseIdle_eq (s u : State) (hquiet : Quiet s u) (hhwn : u.hwn = s.hwn) :
    let t := u.releaseSpan.returnIdle
    t.dsq = Dsq.reset ∧ t.pku.lots.any Lot.inUse = false ∧ t.scu.requestTime = none ∧ t.scu.blockedLongMark = false ∧
      t.mpt = s.mpt ∧ t.wch = s.wch ∧ t.ptb = s.ptb ∧ t.hwn = s.hwn := by
  have haside := aside_releaseSpan u
  exact ⟨rfl, returnIdle_unused _, rfl, rfl, haside.mpt.trans hquiet.mpt, haside.wch.trans hquiet.wch,
    haside.ptb.trans hquiet.ptb, haside.hwn.trans hhwn⟩

/-- The own claim after the release of the span and the return to IDLE (R55). -/
theorem releaseIdle_claim (u : State) :
    let t := u.releaseSpan.returnIdle
    (∀ own, u.scu.own = some own →
      u.scu.state = .claimingHoldQueued ∨ u.scu.state = .guard ∨ u.scu.state = .firm →
      t.scu.state = .releasing ∧ t.scu.own = some own ∧ t.scu.guardEnd = none ∧
        (u.lif.places < 8 → t.lif.holds (· == .free own.claim) = true)) ∧
    (u.scu.state = .releasing ∨ u.scu.state = .none → t.scu.state = u.scu.state ∧ t.scu.own = u.scu.own) := by
  refine ⟨fun own hown hheld => releaseSpan_held u own hown hheld, fun hstands => ?_⟩
  rw [releaseSpan_stands u hstands]
  exact ⟨rfl, rfl⟩

/-- The ring and the number after the release of the span and the return to IDLE. -/
theorem releaseIdle_ring (u : State) :
    u.releaseSpan.returnIdle.zbr.nextNumber = u.zbr.nextNumber ∧
      ∀ r, u.zbr.ring.getLast? = some r →
        ∃ m, u.releaseSpan.returnIdle.zbr.ring.getLast? = some { r with flags := { r.flags with txDropped := m } } := by
  have haside := aside_releaseSpan u
  exact ⟨(congrArg Zbr.nextNumber haside.zbr :), fun r hr => getLast_unmarked haside.ring hr⟩

theorem exec_confirmClear (s : State) (tag : Byte) (h : s.asksReady tag 17) : exec (.confirmClear tag []) s =
    .next ((s.confirmClear ()).1.answered tag 17 (s.confirmClear ()).2) :=
  congrArg Host.Outcome.next (request_asksReady s tag .confirmClear () State.confirmClear h)

theorem confirmClear_parked (s : State) (h : s.dsq.state = .parked) :
    s.confirmClear () = (s.releaseSpan.returnIdle, [0]) := by
  unfold State.confirmClear
  rw [h]
  rfl

theorem confirmClear_halted (s : State) (h : s.dsq.state = .halted) :
    s.confirmClear () = ((s.createRecord .faulted).releaseSpan.returnIdle, [0]) := by
  unfold State.confirmClear
  rw [h]
  rfl

theorem confirmClear_elsewhere (s : State) (hp : s.dsq.state ≠ .parked) (hh : s.dsq.state ≠ .halted) :
    s.confirmClear () = (s, [5]) := by
  unfold State.confirmClear
  split
  · contradiction
  · contradiction
  · rfl

/-- Settles O26: in PARKED the release and the return to IDLE, in HALTED the record first, which leaves a settled claim as
it is and takes at most one place of the queue. -/
theorem confirmClearReturnsToIdle : Obligations.ConfirmClearReturnsToIdle := by
  intro s tag hasks
  rw [exec_confirmClear s tag hasks]
  refine ⟨fun hp hh => by rw [confirmClear_elsewhere s hp hh], fun h => ?_⟩
  rcases h with hparked | hhalted
  case inl =>
    rw [confirmClear_parked s hparked]
    obtain ⟨hdsq, hlots, htime, hmark, hmpt, hwch, hptb, hhwn⟩ := releaseIdle_eq s s (Quiet.refl s) rfl
    obtain ⟨hheld, hstands⟩ := releaseIdle_claim s
    refine ⟨_, rfl, hdsq, hlots, htime, hmark, hmpt, hwch, hptb, hhwn, rfl, fun own hown hclaim => ?_, hstands,
      fun _ => (releaseIdle_ring s).1, fun c hhalted _ => by rw [hparked] at hhalted; cases hhalted⟩
    obtain ⟨hstate, hkept, hguard, hfree⟩ := hheld own hown hclaim
    exact ⟨hstate, hkept, hguard, fun hroom => hfree (by omega)⟩
  case inr =>
    rw [confirmClear_halted s hhalted]
    obtain ⟨hdsq, hlots, htime, hmark, hmpt, hwch, hptb, hhwn⟩ :=
      releaseIdle_eq s (s.createRecord .faulted) (quiet_createRecord s _) (createRecord_hwn s _)
    obtain ⟨hheld, hstands⟩ := releaseIdle_claim (s.createRecord .faulted)
    have notParked : s.dsq.state ≠ .parked := by rw [hhalted]; decide
    refine ⟨_, rfl, hdsq, hlots, htime, hmark, hmpt, hwch, hptb, hhwn, rfl, fun own hown hclaim => ?_, fun hclaim => ?_,
      fun hparked => absurd hparked notParked, fun c _ hc => ⟨fun h0 => ?_, fun h0 => ?_⟩⟩
    · have hsettled : s.scu.state.isSettled := .inl (by rcases hclaim with h | h | h <;> rw [h] <;> rfl)
      have hscu := (createRecord_settled s .faulted hsettled).scu
      have hplaces := createRecord_places s .faulted hsettled
      rw [hscu] at hheld
      obtain ⟨hstate, hkept, hguard, hfree⟩ := hheld own hown hclaim
      refine ⟨hstate, hkept, hguard, fun hroom => hfree ?_⟩
      rcases hroom with hroom | ⟨hparked, -⟩
      · omega
      · exact absurd hparked notParked
    · have hsettled : s.scu.state.isSettled := by
        rcases hclaim with h | h <;> rw [h]
        · exact .inl rfl
        · exact .inr rfl
      rw [(createRecord_settled s .faulted hsettled).scu] at hstands
      exact hstands hclaim
    · rw [createRecord_dry s .faulted hc h0]
      exact (releaseIdle_ring s).1
    · have made : RecordMade s c .faulted False (s.createRecord .faulted) :=
        createRecord_made s s c .faulted False rfl rfl rfl rfl (by rw [hc]; rfl) h0 False.elim
      obtain ⟨hnumber, hlast⟩ := releaseIdle_ring (s.createRecord .faulted)
      obtain ⟨q, m, hq, hqe⟩ := made.last
      obtain ⟨m', hring⟩ := hlast q hq
      refine ⟨hnumber.trans made.number, _, hring, ?_, ?_⟩
      · rw [hqe]
      · rw [hqe]
        exact makeRecord_outcome _ _ _ _

end Sys2Proof.Machine
end

section
/-! Every good peer frame (R27 to R31): what its delivery leaves of the peer table and the time base, whatever it sets
going at the span claim and the dip. -/

namespace Sys2Proof.Machine

/-! ### The time base stands within a command -/

theorem now_stopImmersion (s : State) : s.stopImmersion.now = s.now := by rw [(stopImmersion_eq s).1]; rfl

theorem now_takeGrant (s : State) (p : LowerArgs) (b : Bool) : (s.takeGrant p b).now = s.now := by
  have key (a : State) (h : a.now = s.now) :
      (if a.firmAndClear then (a.sendMotion (.lower p.depth p.speed)).toDsq .lowering
        else a.toDsq (.awaitLower p)).now = s.now := by
    split <;> exact h
  refine key _ ?_
  split <;> rfl

theorem now_askHeat (s : State) (p : LowerArgs) : (s.askHeat p).now = s.now := by
  unfold State.askHeat
  split
  · rfl
  · rename_i c _
    have asked := (quiet_requestHeat s (enteringMass c.dry c.nominal p.fraction)
      (if c.immersions = 0 then 1 else 2)).now
    split
    · rename_i t ht; rw [ht] at asked; exact (now_takeGrant t p false).trans asked
    · rename_i t ht; rw [ht] at asked; exact (now_takeGrant t p true).trans asked
    · rename_i t ht; rw [ht] at asked; exact asked
    · rename_i t ht; rw [ht] at asked; exact asked

theorem now_tryLower (s : State) (p : LowerArgs) : (s.tryLower p).now = s.now := by
  unfold State.tryLower
  split
  · exact now_askHeat s p
  · rfl

theorem now_haltDip (s : State) (f : DipFault) : (s.haltDip f).now = s.now := (haltDip_halted s f).now

theorem now_createReturn (s : State) (o : DipOutcome) : (s.createRecord o).returnIdle.now = s.now :=
  (quiet_createRecord s o).now

theorem now_takeEnd (s : State) : s.takeEnd.now = s.now := by
  have key (a : State) (h : a.now = s.now) :
      (if a.scu.state.isHeld then ((a.createRecord .complete).toDsq .parked).raise .parkedEv
        else (a.createRecord .complete).returnIdle.raise .dipDone).now = s.now := by
    split
    · exact (quiet_createRecord a _).now.trans h
    · exact (quiet_createRecord a _).now.trans h
  refine key _ ?_
  split
  · exact (quiet_cancelClaim _).now.trans (now_stopImmersion s)
  · exact now_stopImmersion s

theorem now_takeRelease (s : State) : s.takeRelease.1.now = s.now := by
  unfold State.takeRelease
  split
  · exact (quiet_releaseSpan s).now
  · split
    · split <;> exact (quiet_cancelClaim s).now
    · rfl

theorem now_takeClaim (s : State) (n : Nat) (w : Bool) : (s.takeClaim n w).now = s.now := by
  have asked := (quiet_requestSpan s n w).now
  unfold State.takeClaim
  split
  · rename_i t ht; rw [ht] at asked; exact (now_haltDip t _).trans asked
  · rename_i t ht; rw [ht] at asked; exact (now_haltDip t _).trans asked
  · rename_i t ht; rw [ht] at asked; exact asked

theorem now_takeStep (s : State) (st : DipStep) : (s.takeStep st).1.now = s.now := by
  cases st <;> simp only [State.takeStep]
  case weighDry => rfl
  case travel =>
    split
    · exact now_haltDip s _
    · rfl
  case claim l w => exact now_takeClaim s l w
  case lower =>
    split
    · exact now_haltDip s _
    · exact now_tryLower s _
  case dwell => rfl
  case raise => exact now_stopImmersion s
  case drain => rfl
  case vibrate => rfl
  case weighOut => rfl
  case release =>
    split
    · exact now_haltDip s _
    · exact now_takeRelease s
  case finish => exact now_takeEnd s
  case chain =>
    split
    · exact now_haltDip s _
    · rfl

theorem now_runSteps (n : Nat) (s : State) : (State.runSteps n s).now = s.now := by
  induction n generalizing s with
  | zero => rfl
  | succ n ih =>
    unfold State.runSteps
    split
    · rfl
    · rename_i st _
      have taken := now_takeStep s st
      split
      · rename_i t ht; rw [ht] at taken; exact taken
      · rename_i t ht; rw [ht] at taken; exact (ih t.advance).trans taken
      · rename_i t ht; rw [ht] at taken; exact (ih t).trans taken

theorem now_endStep (s : State) : s.endStep.now = s.now := now_runSteps _ _

theorem now_onNotice (s : State) (n : SpanNotice) : (s.onNotice n).now = s.now := by
  cases n <;> simp only [State.onNotice]
  case firm =>
    split
    · exact now_endStep s
    · exact now_tryLower s _
    · rfl
  case lost =>
    split
    · rfl
    · exact (quiet_cancelClaim s).now
    · exact (quiet_cancelClaim s).now
    · rfl
  case gone =>
    split
    · split
      · exact now_createReturn (s.setPosition .clear) _
      · exact now_endStep (s.setPosition .clear)
    · rfl
  case ended =>
    split
    · exact now_endStep s
    · rfl
  case clearChanged =>
    split
    · exact now_tryLower s _
    · split <;> rfl
    · rfl

theorem now_onNotices (s : State) (ns : List SpanNotice) : (s.onNotices ns).now = s.now := by
  induction ns generalizing s with
  | nil => rfl
  | cons n rest ih => exact (ih _).trans (now_onNotice s n)

/-! ### The peer table under a delivery -/

/-- What a delivery leaves: the time base, the set of parameters, every event raised before it, every other peer's
record, and its sender's but for the expected pickup sequence. -/
structure PeersKept (src : StationId) (s t : State) : Prop where
  now : t.now = s.now
  cfg : t.cfg = s.cfg
  events : EventsGrow s.spt t.spt
  others : ∀ h, h ≠ src → t.ptb.recordOf h = s.ptb.recordOf h
  own : ∀ p, s.ptb.recordOf src = some p → ∃ e, t.ptb.recordOf src = some { p with expected := e }

/-- A move that leaves the peer table alone. -/
theorem PeersKept.of_ptb {src : StationId} {s t : State} (hnow : t.now = s.now) (hcfg : t.cfg = s.cfg)
    (hevents : EventsGrow s.spt t.spt) (hptb : t.ptb = s.ptb) : PeersKept src s t :=
  ⟨hnow, hcfg, hevents, fun h _ => by rw [hptb], fun p hp => ⟨p.expected, by rw [hptb]; exact hp⟩⟩

theorem notify_peersKept (src : StationId) {s : State} (r : State × List SpanNotice) (hnow : r.1.now = s.now)
    (hcfg : r.1.cfg = s.cfg) (hevents : EventsGrow s.spt r.1.spt) (hptb : r.1.ptb = s.ptb) :
    PeersKept src s (notify r) ∧ (notify r).ptb = s.ptb := by
  have calm := calm_onNotices r.1 r.2
  have ptb := calm.ptb.trans hptb
  exact ⟨.of_ptb ((now_onNotices _ _).trans hnow) (calm.cfg.trans hcfg) (hevents.trans calm.events) ptb, ptb⟩

/-- Up to its notices SCU's taking of a peer's frame writes the span table and then moves the own claim. -/
theorem notify_quiet_peersKept (src : StationId) {s a : State} (r : State × List SpanNotice)
    (hnow : a.now = s.now) (hcfg : a.cfg = s.cfg) (hspt : a.spt = s.spt) (hptb : a.ptb = s.ptb) (h : Quiet a r.1) :
    PeersKept src s (notify r) ∧ (notify r).ptb = s.ptb :=
  notify_peersKept src r (h.now.trans hnow) (h.cfg.trans hcfg) (hspt ▸ h.events) (h.ptb.trans hptb)

/-- The entry an INTENT puts (R58). -/
def State.intentEntry (s : State) (src : StationId) (i : ClaimInfo) : PeerEntry where
  holder := src
  state := .intent
  span := i.span
  claim := some i.claim
  age := some i.age
  arrival := s.now
  lapseEnd := some (s.now + s.lapseTime)
  lastEntry := none

/-- The entry a HOLD puts (R59). -/
def State.holdEntry (s : State) (src : StationId) (i : ClaimInfo) : PeerEntry where
  holder := src
  state := .held
  span := i.span
  claim := some i.claim
  age := none
  arrival := s.now
  lapseEnd := none
  lastEntry := keptLastEntry (s.scu.entryOf src) i.span

/-- The span table after an INTENT: its holder's entry put, and the claim machine's moves after it. -/
theorem scuIntent_quiet (s : State) (src : StationId) (i : ClaimInfo) :
    Quiet (s.putEntry (s.intentEntry src i)) (s.scuIntent src i).1 := by
  have key (a : State) : Quiet a (if a.scu.meets i.span then a.meetIntent src (some i.age) else a).evalStart := by
    refine Quiet.trans ?_ (quiet_evalStart _)
    split
    · exact quiet_meetIntent a _ _
    · exact Quiet.refl a
  exact key _

/-- The span table after a HOLD, likewise. -/
theorem scuHold_quiet (s : State) (src : StationId) (i : ClaimInfo) :
    Quiet (s.putEntry (s.holdEntry src i)) (s.scuHold src i).1 := by
  have key (a : State) : Quiet a (if a.scu.meets i.span then a.meetHeld src else (a, [])).1.evalStart := by
    refine Quiet.trans ?_ (quiet_evalStart _)
    split
    · exact quiet_meetHeld a _
    · exact Quiet.refl a
  exact key _

/-- The sender's entry as a BEACON leaves it (R63). -/
def State.reconciled (s : State) (src : StationId) (b : BeaconInfo) : State :=
  match reconcile src s.now s.lapseTime (s.scu.entryOf src) b with
  | some e => s.putEntry e
  | none => s.removeEntry src

/-- The span table after a BEACON: the sender's entry reconciled, and the claim machine's moves after it. -/
theorem scuBeacon_quiet (s : State) (src : StationId) (b : BeaconInfo) :
    Quiet (s.reconciled src b) (s.scuBeacon src b).1 := by
  have key (a : State) (p q : Bool) :
      Quiet a (if p then a.meetHeld src else if q then (a.meetIntent src none, []) else (a, [])).1.evalStart := by
    refine Quiet.trans ?_ (quiet_evalStart _)
    split
    · exact quiet_meetHeld a _
    · split
      · exact quiet_meetIntent a src none
      · exact Quiet.refl a
  exact key (s.reconciled src b) _ _

theorem reconciled_rest (s : State) (src : StationId) (b : BeaconInfo) :
    (s.reconciled src b).now = s.now ∧ (s.reconciled src b).cfg = s.cfg ∧ (s.reconciled src b).spt = s.spt ∧
      (s.reconciled src b).ptb = s.ptb := by
  unfold State.reconciled
  split <;> exact ⟨rfl, rfl, rfl, rfl⟩

theorem scuFree_peersKept (src h : StationId) (s : State) (n : Byte) :
    PeersKept src s (notify (s.scuFree h n)) ∧ (notify (s.scuFree h n)).ptb = s.ptb := by
  obtain e | e := scuFree_cases s h n <;> rw [e]
  · exact ⟨.of_ptb rfl rfl (EventsGrow.refl _) rfl, rfl⟩
  · exact notify_quiet_peersKept src (a := s.removeEntry h) (s.entryLeaves h) rfl rfl rfl rfl (quiet_evalStart _)

/-- A peer's record found in a table in which records have changed, but none its ID. -/
theorem recordOf_map (ps : List Peer) (f : Peer → Peer) (hf : ∀ p, (f p).id = p.id) (h : StationId) :
    Ptb.recordOf ⟨ps.map f⟩ h = (Ptb.recordOf ⟨ps⟩ h).map f := by
  have hid : (fun r => r.id == h) ∘ f = fun r => r.id == h := funext fun r => by simp [hf]
  unfold Ptb.recordOf
  rw [List.find?_map, hid]

theorem recordOf_setExpected (t : Ptb) (src h : StationId) (e : BitVec 16) :
    (t.setExpected src e).recordOf h =
      (t.recordOf h).map fun p => if p.id = src then { p with expected := some e } else p :=
  recordOf_map t.peers _ (fun p => by split <;> rfl) h

theorem recordOf_setExpected_other (t : Ptb) (src h : StationId) (e : BitVec 16) (hne : h ≠ src) :
    (t.setExpected src e).recordOf h = t.recordOf h := by
  rw [recordOf_setExpected]
  cases hp : t.recordOf h with
  | none => rfl
  | some p => rw [Option.map_some, if_neg (by rw [recordOf_id hp]; exact hne)]

theorem recordOf_setExpected_own (t : Ptb) (src : StationId) (e : BitVec 16) {p : Peer} (hp : t.recordOf src = some p) :
    (t.setExpected src e).recordOf src = some { p with expected := some e } := by
  rw [recordOf_setExpected, hp, Option.map_some, if_pos (recordOf_id hp)]

/-- A change of Z raises events and leaves the peer table, the parameters and the time base. -/
theorem putZ_rest (s : State) (z : Nat) : EventsGrow s.spt (s.putZ z).spt ∧ (s.putZ z).now = s.now ∧
    (s.putZ z).cfg = s.cfg ∧ (s.putZ z).ptb = s.ptb ∧ (s.putZ z).hwn = s.hwn ∧ (s.putZ z).mpt = s.mpt := by
  obtain ⟨l, x, hgrow, haside⟩ := putZ_aside s z
  exact ⟨haside.spt ▸ hgrow, haside.now, haside.cfg, haside.ptb, haside.hwn, haside.mpt⟩

theorem heardPickup_peersKept (src : StationId) (s : State) (p : PickupInfo) :
    PeersKept src s (s.heardPickup src p) := by
  have applied (a : State) (hnow : a.now = s.now) (hcfg : a.cfg = s.cfg) (hevents : EventsGrow s.spt a.spt)
      (hptb : a.ptb = s.ptb.setExpected src (p.seq + 1)) : PeersKept src s (a.consume p.consumption) := by
    obtain ⟨hgrow, znow, zcfg, zptb, -, -⟩ := putZ_rest a (a.zbr.z - p.consumption)
    refine ⟨znow.trans hnow, zcfg.trans hcfg, hevents.trans hgrow, fun h hne => ?_, fun q hq => ⟨some (p.seq + 1), ?_⟩⟩
    · rw [show (a.consume p.consumption).ptb = a.ptb from zptb, hptb, recordOf_setExpected_other _ _ _ _ hne]
    · rw [show (a.consume p.consumption).ptb = a.ptb from zptb, hptb, recordOf_setExpected_own _ _ _ hq]
  unfold State.heardPickup
  simp only []
  split
  · exact .of_ptb rfl rfl (EventsGrow.refl _) rfl
  · exact applied _ rfl rfl (eventsGrow_raise s.spt .balanceGap) rfl
  · exact applied _ rfl rfl (EventsGrow.refl _) rfl
  · exact applied _ rfl rfl (EventsGrow.refl _) rfl

theorem heardIngot_peersKept (src h : StationId) (s : State) (m : Nat) :
    PeersKept src s (s.heardIngot h m) ∧ (s.heardIngot h m).ptb = s.ptb := by
  obtain ⟨hgrow, znow, zcfg, zptb, -, -⟩ := putZ_rest (s.noteIngot h m) (min s.cfg.params.zMax (s.zbr.z + m))
  rw [heardIngot_eq]
  exact ⟨.of_ptb znow zcfg ((eventsGrow_raise s.spt .ingotHeard).trans hgrow) zptb, zptb⟩

/-! ### Every kind of frame -/

/-- A command that delivers a good frame: of a peer, after the count of the frame and the refresh of the peer, by a
delivery that keeps the peers; of the own ID, as a clash. -/
def IsFrame (c : Instr) (s : State) (src : StationId) (seq : Byte) : Prop :=
  ∃ deliver : State → State,
    (s.lif.line ≠ .off → src = s.ownId → exec c s = .next s.countGood.clash) ∧
    (s.hears src → exec c s = .next (deliver (s.countGood.hearPeer src seq (reportedCondition s.cells c)))) ∧
    (∀ u, PeersKept src u (deliver u)) ∧
    ((∀ payload, c ≠ .pickupFrame src seq payload) → ∀ u, (deliver u).ptb = u.ptb)

/-- A frame command is one where its payload decodes. -/
theorem isFrame_of_decode {α : Type} {c : Instr} {s : State} {src : StationId} {seq : Byte} {payload : Option α} {a : α}
    {cond : α → Option Condition} {deliver : State → α → State}
    (hexec : exec c s = .next (s.takeFrame src seq payload cond deliver)) (hpayload : payload = some a)
    (hcond : cond a = reportedCondition s.cells c) (hkept : ∀ u, PeersKept src u (deliver u a))
    (hptb : (∀ bytes, c ≠ .pickupFrame src seq bytes) → ∀ u, (deliver u a).ptb = u.ptb) : IsFrame c s src seq := by
  subst hpayload
  refine ⟨fun u => deliver u a, fun hline hown => ?_, fun heard => ?_, hkept, hptb⟩
  · rw [hexec]
    unfold State.takeFrame
    split
    · contradiction
    · simp only []
      rw [if_pos hown]
  · rw [hexec, takeFrame_hears s src seq a cond deliver heard, hcond]

/-- Every good frame is delivered so (R5, R24, R27 to R29). -/
theorem exists_isFrame {c : Instr} {s : State} {src : StationId} {seq : Byte}
    (h : goodFrame s.cells c = some (src, seq)) : IsFrame c s src seq := by
  cases c <;> try cases h
  case beaconFrame src' seq' payload =>
    obtain ⟨b, hb, e⟩ := Option.map_eq_some_iff.mp h
    cases e
    have kept (u : State) : PeersKept src u (notify (u.scuBeacon src b)) ∧ (notify (u.scuBeacon src b)).ptb = u.ptb := by
      obtain ⟨hnow, hcfg, hspt, hptb⟩ := reconciled_rest u src b
      exact notify_quiet_peersKept src (u.scuBeacon src b) hnow hcfg hspt hptb (scuBeacon_quiet u src b)
    exact isFrame_of_decode rfl hb (by simp [reportedCondition, hb]) (fun u => (kept u).1) (fun _ u => (kept u).2)
  case intentFrame src' seq' payload =>
    obtain ⟨i, hi, e⟩ := Option.map_eq_some_iff.mp h
    cases e
    have kept (u : State) : PeersKept src u (notify (u.scuIntent src i)) ∧ (notify (u.scuIntent src i)).ptb = u.ptb :=
      notify_quiet_peersKept src (a := u.putEntry (u.intentEntry src i)) (u.scuIntent src i) rfl rfl rfl rfl (scuIntent_quiet u src i)
    exact isFrame_of_decode rfl hi rfl (fun u => (kept u).1) (fun _ u => (kept u).2)
  case holdFrame src' seq' payload =>
    obtain ⟨i, hi, e⟩ := Option.map_eq_some_iff.mp h
    cases e
    have kept (u : State) : PeersKept src u (notify (u.scuHold src i)) ∧ (notify (u.scuHold src i)).ptb = u.ptb :=
      notify_quiet_peersKept src (a := u.putEntry (u.holdEntry src i)) (u.scuHold src i) rfl rfl rfl rfl (scuHold_quiet u src i)
    exact isFrame_of_decode rfl hi rfl (fun u => (kept u).1) (fun _ u => (kept u).2)
  case yieldFrame src' seq' payload =>
    obtain ⟨n, hn, e⟩ := Option.map_eq_some_iff.mp h
    cases e
    exact isFrame_of_decode rfl hn rfl (fun u => (scuFree_peersKept src src u n).1)
      (fun _ u => (scuFree_peersKept src src u n).2)
  case freeFrame src' seq' payload =>
    obtain ⟨n, hn, e⟩ := Option.map_eq_some_iff.mp h
    cases e
    exact isFrame_of_decode rfl hn rfl (fun u => (scuFree_peersKept src src u n).1)
      (fun _ u => (scuFree_peersKept src src u n).2)
  case entryFrame src' seq' payload =>
    obtain ⟨x, hx, e⟩ := Option.map_eq_some_iff.mp h
    cases e
    exact isFrame_of_decode rfl hx rfl (fun u => .of_ptb rfl rfl (EventsGrow.refl _) rfl) (fun _ u => rfl)
  case pickupFrame src' seq' payload =>
    obtain ⟨p, hp, e⟩ := Option.map_eq_some_iff.mp h
    cases e
    exact isFrame_of_decode rfl hp rfl (fun u => heardPickup_peersKept src u p) (fun hno => absurd rfl (hno payload))
  case ingotFrame src' seq' payload =>
    obtain ⟨m, hm, e⟩ := Option.map_eq_some_iff.mp h
    cases e
    exact isFrame_of_decode rfl hm rfl (fun u => (heardIngot_peersKept src src u m).1)
      (fun _ u => (heardIngot_peersKept src src u m).2)

/-! ### The refresh of a peer -/

/-- The record of a peer once a good frame of it has been taken (R27, R28, R31). -/
def State.refreshed (s : State) (src : StationId) (seq : Byte) (cond : Option Condition) : Peer :=
  match s.ptb.recordOf src with
  | none => Peer.fresh src s.now s.silenceLimit seq cond
  | some p => p.heard s.now s.silenceLimit seq cond

theorem refreshed_id (s : State) (src : StationId) (seq : Byte) (cond : Option Condition) :
    (s.refreshed src seq cond).id = src := by
  unfold State.refreshed
  split
  · rfl
  · rename_i p hp
    show p.id = src
    exact recordOf_id hp

theorem hearPeer_refreshed (s : State) (src : StationId) (seq : Byte) (cond : Option Condition) :
    ∃ x, s.hearPeer src seq cond = (s.putPeer (s.refreshed src seq cond)).withSpt x ∧ EventsGrow s.spt x ∧
      (∀ p, s.ptb.recordOf src = some p → p.presence = .silent → x.isRaised .peerBack = true) := by
  unfold State.hearPeer State.refreshed
  split
  · rename_i hnone
    simp only [hnone]
    exact ⟨s.spt, rfl, EventsGrow.refl _, fun p hp => by cases hp⟩
  · rename_i p hp
    simp only [hp]
    split
    · rename_i hpresent
      refine ⟨s.spt, rfl, EventsGrow.refl _, fun q hq hsilent => ?_⟩
      cases hq
      rw [hpresent] at hsilent
      cases hsilent
    · exact ⟨_, rfl, eventsGrow_raise _ _, fun _ _ _ => raise_raised _ _⟩

/-- The peer table after the count of a good frame and the refresh of its peer. -/
theorem delivered_peers (s : State) (src : StationId) (seq : Byte) (cond : Option Condition) :
    let u := s.countGood.hearPeer src seq cond
    u.now = s.now ∧ u.cfg = s.cfg ∧ u.ptb.recordOf src = some (s.refreshed src seq cond) ∧
      (∀ h, h ≠ src → u.ptb.recordOf h = s.ptb.recordOf h) ∧
      (∀ p, s.ptb.recordOf src = some p → p.presence = .silent → u.spt.isRaised .peerBack = true) := by
  intro u
  have counted := countGood_counted s
  have hrefreshed : s.countGood.refreshed src seq cond = s.refreshed src seq cond := by
    unfold State.refreshed State.silenceLimit
    rw [counted.ptb, counted.now, counted.cfg]
  obtain ⟨x, hx, -, hback⟩ := hearPeer_refreshed s.countGood src seq cond
  have hid := refreshed_id s src seq cond
  rw [hrefreshed] at hx
  rw [counted.ptb] at hback
  have hu : u = _ := hx
  refine ⟨by rw [hu]; exact counted.now, by rw [hu]; exact counted.cfg, ?_, fun h hne => ?_, by rw [hu]; exact hback⟩
  · rw [hu]
    have := recordOf_putPeer (s.refreshed src seq cond) s.countGood.ptb.peers
    rw [hid] at this
    exact this
  · rw [hu, ← counted.ptb]
    exact recordOf_putPeer_other _ _ h (by rw [hid]; exact hne)

/-- Settles O32: the refresh writes the record, and the delivery keeps it. -/
theorem goodFrameRefreshesItsPeer : Obligations.GoodFrameRefreshesItsPeer := by
  intro s c src seq hgood heard
  obtain ⟨deliver, -, hexec, hkept, -⟩ := exists_isFrame hgood
  obtain ⟨hnow, hcfg, hrecord, hothers, -⟩ := delivered_peers s src seq (reportedCondition s.cells c)
  refine ⟨_, hexec heard, ?_⟩
  generalize s.countGood.hearPeer src seq (reportedCondition s.cells c) = u at hnow hcfg hrecord hothers ⊢
  have kept := hkept u
  obtain ⟨e, howned⟩ := kept.own _ hrecord
  refine ⟨⟨_, howned, refreshed_id s src seq _, ?_⟩, fun h hne => (kept.others h hne).trans (hothers h hne),
    kept.now.trans hnow, kept.cfg.trans hcfg⟩
  unfold State.refreshed
  split <;> exact ⟨rfl, rfl, rfl, rfl⟩

/-- Settles O33: the clash follows the count of the frame and moves only the clash timer, the events and the claim. -/
theorem ownIdFrameIsAClash : Obligations.OwnIdFrameIsAClash := by
  intro s c seq hgood hline
  obtain ⟨deliver, hexec, -⟩ := exists_isFrame hgood
  refine ⟨_, hexec hline rfl, ?_⟩
  have counted := countGood_counted s
  have aside := aside_evalStart ((s.countGood.withLif { s.countGood.lif with
    clashEnd := some (s.countGood.now + 10 * s.countGood.cfg.params.beaconPeriod) }).raise .idClash)
  have hend : s.countGood.clash.lif.clashEnd = some (s.countGood.now + 10 * s.countGood.cfg.params.beaconPeriod) :=
    aside.clashEnd
  rw [counted.now, counted.cfg] at hend
  refine ⟨hend, ?_, aside.score.trans counted.score, aside.ptb.trans counted.ptb, aside.entries.trans counted.entries,
    aside.lastEntry.trans counted.lastEntry, aside.hwn.trans counted.hwn, ?_⟩
  · have hspt : s.countGood.clash.spt = s.countGood.spt.raise .idClash := aside.spt
    rw [hspt]
    exact raise_raised _ _
  · have hz : s.countGood.clash.zbr.z = s.countGood.zbr.z := (congrArg Zbr.z aside.zbr :)
    rw [hz, counted.zbr]

end Sys2Proof.Machine
end

section
/-! The received frames, kind by kind (R5 to R10, R45 to R53, R58 to R63, R68 to R72, R182). Each is judged in the state
the count of the frame and the refresh of its peer have left. -/

namespace Sys2Proof.Machine

/-! ### Discarded frames -/

theorem exec_discarded (s : State) (hline : s.lif.line ≠ .off) :
    exec .lineFrameDiscarded s = .next s.discardFrame := by
  show execLineFrameDiscarded s = _
  unfold execLineFrameDiscarded
  split
  · contradiction
  · rfl

/-- A frame command takes its payload (section 1.2). -/
theorem exec_frame {c : Instr} {bytes : List Byte} (h : framePayload c = some bytes) (s : State) :
    ∃ (α : Type) (payload : Option α) (src : StationId) (seq : Byte) (cond : α → Option Condition)
      (deliver : State → α → State), exec c s = .next (s.takeFrame src seq payload cond deliver) ∧
      (goodFrame s.cells c = none → payload = none) := by
  cases c <;> cases h <;> exact ⟨_, _, _, _, _, _, rfl, Option.map_eq_none_iff.mp⟩

theorem takeFrame_off {α : Type} (s : State) (src : StationId) (seq : Byte) (p : Option α)
    (cond : α → Option Condition) (deliver : State → α → State) (h : s.lif.line = .off) :
    s.takeFrame src seq p cond deliver = s := by
  unfold State.takeFrame
  rw [h]

theorem takeFrame_bad {α : Type} (s : State) (src : StationId) (seq : Byte)
    (cond : α → Option Condition) (deliver : State → α → State) (h : s.lif.line ≠ .off) :
    s.takeFrame src seq none cond deliver = s.discardFrame := by
  unfold State.takeFrame
  split
  · contradiction
  · rfl

/-- A discard that leaves the line state as it is (R10). -/
theorem discardFrame_stands (s : State) (hup : ¬(s.lif.line = .active ∧ 64 ≤ s.lif.score + 4))
    (hdown : ¬(s.lif.line = .degraded ∧ s.lif.score + 4 ≤ 16)) : s.discardFrame = s.withLif s.lif.scoreUp := by
  unfold State.discardFrame State.evalHealth
  split
  · rename_i hline
    rw [if_neg]
    intro h
    have h : 64 ≤ min 255 (s.lif.score + 4) := h
    exact hup ⟨hline, by omega⟩
  · rename_i hline
    rw [if_neg]
    intro h
    have h : min 255 (s.lif.score + 4) ≤ 16 := h
    exact hdown ⟨hline, by omega⟩
  · rfl

/-- A discard that takes an ACTIVE line to DEGRADED (R10). -/
theorem discardFrame_degrades (s : State) (hline : s.lif.line = .active) (hscore : 64 ≤ s.lif.score + 4) :
    s.discardFrame.lif.line = .degraded ∧ s.discardFrame.lif.score = min 255 (s.lif.score + 4) ∧
      s.discardFrame.spt.isRaised .lineDegraded = true := by
  have heq : s.discardFrame = ((s.withLif s.lif.scoreUp).toLine .degraded).raise .lineDegraded := by
    have hup : (s.withLif s.lif.scoreUp).lif.line = .active := hline
    unfold State.discardFrame State.evalHealth
    rw [hup]
    refine if_pos ?_
    show 64 ≤ min 255 (s.lif.score + 4)
    omega
  have aside := aside_lineNotice ((s.withLif s.lif.scoreUp).withLif { s.lif.scoreUp with line := .degraded })
  rw [heq]
  have raised := raise_raised ((s.withLif s.lif.scoreUp).toLine .degraded).spt .lineDegraded
  have hnow : ((s.withLif s.lif.scoreUp).toLine .degraded).lif.line = .degraded := aside.line
  have hscored : ((s.withLif s.lif.scoreUp).toLine .degraded).lif.score = min 255 (s.lif.score + 4) := aside.score
  generalize (s.withLif s.lif.scoreUp).toLine .degraded = t at hnow hscored raised ⊢
  exact ⟨hnow, hscored, raised⟩

/-- Settles O31: a frame that does not decode is discarded as LINE_FRAME_DISCARDED is, and a discard is one of the two. -/
theorem discardedFramesRaiseTheScore : Obligations.DiscardedFramesRaiseTheScore := by
  refine ⟨fun s c hoff hc => ?off, fun s c hline hframe hbad => ?bad, fun s hline =>
    ⟨fun hactive hscore => ?degrades, fun hup hdown => ?stands⟩⟩
  case off =>
    rcases hc with rfl | hframe
    · show execLineFrameDiscarded s = _
      unfold execLineFrameDiscarded
      rw [hoff]
    · obtain ⟨bytes, hbytes⟩ := Option.ne_none_iff_exists'.mp hframe
      obtain ⟨α, payload, src, seq, cond, deliver, hexec, -⟩ := exec_frame hbytes s
      rw [hexec, takeFrame_off s src seq payload cond deliver hoff]
  case bad =>
    obtain ⟨bytes, hbytes⟩ := Option.ne_none_iff_exists'.mp hframe
    obtain ⟨α, payload, src, seq, cond, deliver, hexec, hnone⟩ := exec_frame hbytes s
    rw [hexec, hnone hbad, takeFrame_bad s src seq cond deliver hline, exec_discarded s hline]
  case degrades => exact ⟨_, exec_discarded s hline, discardFrame_degrades s hactive hscore⟩
  case stands =>
    rw [exec_discarded s hline, discardFrame_stands s hup hdown]
    rfl

/-! ### A foreign INTENT and HOLD -/

theorem wholeFlag_markByte (w : Bool) : wholeFlag (if w then 1 else 0) = some w := by
  cases w <;> rfl

theorem cellsOk_iff (n : Nat) (f l : Byte) (w : Bool) : cellsOk n f.toNat l.toNat w = true ↔ SpanInRange n f l w := by
  simp [cellsOk, SpanInRange]

theorem decodeIntent_inRange {n : Nat} {f l age c : Byte} {w : Bool} (h : SpanInRange n f l w) :
    decodeIntent n [f, l, if w then 1 else 0, age, c] = some ⟨⟨f.toNat, l.toNat, w⟩, age.toNat, c⟩ := by
  unfold decodeIntent
  simp only [wholeFlag_markByte, (cellsOk_iff n f l w).mpr h, if_true]

theorem decodeHold_inRange {n : Nat} {f l c : Byte} {w : Bool} (h : SpanInRange n f l w) :
    decodeHold n [f, l, if w then 1 else 0, c] = some ⟨⟨f.toNat, l.toNat, w⟩, 0, c⟩ := by
  unfold decodeHold
  simp only [wholeFlag_markByte, (cellsOk_iff n f l w).mpr h, if_true]

theorem exec_intent_hears (s : State) (src : StationId) (seq f l age c : Byte) (w : Bool) (heard : s.hears src)
    (h : SpanInRange s.cells f l w) : exec (.intentFrame src seq [f, l, if w then 1 else 0, age, c]) s =
      .next (notify ((s.countGood.hearPeer src seq none).scuIntent src ⟨⟨f.toNat, l.toNat, w⟩, age.toNat, c⟩)) := by
  show Host.Outcome.next (s.takeFrame src seq (decodeIntent s.cells _) noCondition _) = _
  rw [decodeIntent_inRange h, takeFrame_hears s src seq _ noCondition _ heard]
  rfl

theorem exec_hold_hears (s : State) (src : StationId) (seq f l c : Byte) (w : Bool) (heard : s.hears src)
    (h : SpanInRange s.cells f l w) : exec (.holdFrame src seq [f, l, if w then 1 else 0, c]) s =
      .next (notify ((s.countGood.hearPeer src seq none).scuHold src ⟨⟨f.toNat, l.toNat, w⟩, 0, c⟩)) := by
  show Host.Outcome.next (s.takeFrame src seq (decodeHold s.cells _) noCondition _) = _
  rw [decodeHold_inRange h, takeFrame_hears s src seq _ noCondition _ heard]
  rfl

/-- What the delivery of a frame finds as it was before: the time base, the parameters and the span table. -/
theorem delivered_table (s : State) (src : StationId) (seq : Byte) (cond : Option Condition) :
    let u := s.countGood.hearPeer src seq cond
    u.now = s.now ∧ u.cfg = s.cfg ∧ u.scu.entries = s.scu.entries := by
  obtain ⟨hnow, hcfg, -⟩ := delivered_peers s src seq cond
  obtain ⟨-, hscu, -⟩ := hearPeer_leaves s.countGood src seq cond
  exact ⟨hnow, hcfg, by rw [hscu]; exact (countGood_counted s).entries⟩

theorem lapseTime_of_cfg {s u : State} (h : u.cfg = s.cfg) : u.lapseTime = s.lapseTime := by
  unfold State.lapseTime
  rw [h]

/-- After a delivery that puts an entry and moves the claim, the holder has the entry, the others theirs. -/
theorem entryOf_put {u t : State} {e : PeerEntry} (h : t.scu.entries = Machine.putEntry e u.scu.entries) :
    t.scu.entryOf e.holder = some e ∧ ∀ k, k ≠ e.holder → t.scu.entryOf k = u.scu.entryOf k := by
  unfold Scu.entryOf
  rw [h]
  exact ⟨entryOf_putEntry e _, fun k hk => entryOf_putEntry_other e _ k hk⟩

theorem notify_entries {a : State} {r : State × List SpanNotice} (h : Quiet a r.1) :
    (notify r).scu.entries = a.scu.entries :=
  (calm_onNotices r.1 r.2).entries.trans h.entries

/-- Settles O34: the entry is put as R58 and R59 make it. -/
theorem foreignIntentAndHoldSetTheEntry : Obligations.ForeignIntentAndHoldSetTheEntry := by
  intro s src seq f l age n w heard hspan
  obtain ⟨hnow, hcfg, hentries⟩ := delivered_table s src seq none
  have hintent := exec_intent_hears s src seq f l age n w heard hspan
  have hhold := exec_hold_hears s src seq f l n w heard hspan
  generalize s.countGood.hearPeer src seq none = u at hnow hcfg hentries hintent hhold
  have hfind (h : StationId) : u.scu.entryOf h = s.scu.entryOf h := by unfold Scu.entryOf; rw [hentries]
  refine ⟨⟨_, hintent, ?_⟩, _, hhold, ?_⟩
  · obtain ⟨hown, hothers⟩ := entryOf_put (notify_entries (scuIntent_quiet u src ⟨⟨f.toNat, l.toNat, w⟩, age.toNat, n⟩))
    refine ⟨hown.trans ?_, fun h hne => (hothers h hne).trans (hfind h)⟩
    unfold State.intentEntry
    rw [hnow, lapseTime_of_cfg hcfg]
    rfl
  · obtain ⟨hown, hothers⟩ := entryOf_put (notify_entries (scuHold_quiet u src ⟨⟨f.toNat, l.toNat, w⟩, 0, n⟩))
    refine ⟨hown.trans ?_, fun h hne => (hothers h hne).trans (hfind h)⟩
    unfold State.holdEntry keptLastEntry
    rw [hnow, hfind src]
    cases s.scu.entryOf src <;> rfl

/-! ### A BEACON -/

theorem reconciled_entries (s : State) (src : StationId) (b : BeaconInfo) :
    (s.reconciled src b).scu.entryOf src = reconcile src s.now s.lapseTime (s.scu.entryOf src) b ∧
      ∀ h, h ≠ src → (s.reconciled src b).scu.entryOf h = s.scu.entryOf h := by
  have holder (e : PeerEntry) (h : reconcile src s.now s.lapseTime (s.scu.entryOf src) b = some e) : e.holder = src := by
    have hold (x : PeerEntry) (hx : s.scu.entryOf src = some x) : x.holder = src := by simpa using List.find?_some hx
    unfold reconcile at h
    split at h
    · cases h
    · split at h
      · rename_i x hx
        split at h <;> cases h
        · exact hold x hx
        · rfl
      · cases h; rfl
    · split at h
      · rename_i x hx
        split at h
        · split at h <;> cases h <;> exact hold x hx
        · cases h; rfl
      · cases h; rfl
  unfold State.reconciled
  cases hr : reconcile src s.now s.lapseTime (s.scu.entryOf src) b with
  | none => exact ⟨entryOf_removeEntry src _, fun h hne => entryOf_removeEntry_other src h _ hne⟩
  | some e =>
    have hput := entryOf_put (u := s) (t := s.putEntry e) (e := e) rfl
    rw [holder e hr] at hput
    exact hput

/-- Settles O41: SCU reconciles the sender's entry, and the table of R63 gives what it becomes. -/
theorem beaconReconcilesTheEntry : Obligations.BeaconReconcilesTheEntry := by
  intro s src seq payload b heard hdecode lapse
  have hexec : exec (.beaconFrame src seq payload) s =
      .next (notify ((s.countGood.hearPeer src seq (some b.condition)).scuBeacon src b)) := by
    show Host.Outcome.next (s.takeFrame src seq (decodeBeacon s.cells payload) _ _) = _
    rw [hdecode, takeFrame_hears s src seq b _ _ heard]
  obtain ⟨hnow, hcfg, hentries⟩ := delivered_table s src seq (some b.condition)
  obtain ⟨-, -, hrecord, -, -⟩ := delivered_peers s src seq (some b.condition)
  refine ⟨_, hexec, ?_⟩
  generalize s.countGood.hearPeer src seq (some b.condition) = u at hnow hcfg hentries hrecord ⊢
  have hfind (h : StationId) : u.scu.entryOf h = s.scu.entryOf h := by unfold Scu.entryOf; rw [hentries]
  obtain ⟨hunow, hucfg, huspt, huptb⟩ := reconciled_rest u src b
  have hptb : (notify (u.scuBeacon src b)).ptb = u.ptb :=
    (notify_quiet_peersKept src (u.scuBeacon src b) hunow hucfg huspt huptb (scuBeacon_quiet u src b)).2
  have hkept := notify_entries (scuBeacon_quiet u src b)
  obtain ⟨hsrc, hothers⟩ := reconciled_entries u src b
  have hentry (h : StationId) : (notify (u.scuBeacon src b)).scu.entryOf h = (u.reconciled src b).scu.entryOf h := by
    unfold Scu.entryOf
    rw [hkept]
  rw [← hentry, hfind, hnow, lapseTime_of_cfg hcfg] at hsrc
  rw [hsrc]
  refine ⟨?_, fun h hne => (hentry h).trans ((hothers h hne).trans (hfind h)), fun hb => ?_, fun e he hb hs hsp => ?_,
    fun hb hother => ?_, fun e he hb hs hsp => ?_, fun e he hb hs hsp => ?_, fun hb hother => ?_⟩
  · rw [hptb, hrecord]
    unfold State.refreshed
    split <;> rfl
  · simp only [reconcile, hb]
  · simp only [reconcile, hb, he, hs, hsp, and_self, if_true]
  · cases he : s.scu.entryOf src with
    | none => simp only [reconcile, hb]; rfl
    | some e => simp only [reconcile, hb, if_neg (hother e he)]; rfl
  · simp only [reconcile, hb, he, hs, hsp, if_true]
  · simp only [reconcile, hb, he, hsp, if_true, if_neg hs]
  · cases he : s.scu.entryOf src with
    | none => simp only [reconcile, hb]
    | some e => simp only [reconcile, hb, if_neg (hother e he)]

/-! ### An ENTRY and a PICKUP -/

/-- A delivery finds the heat window and the drive as they were. -/
theorem delivered_window (s : State) (src : StationId) (seq : Byte) (c : Option Condition) :
    (s.countGood.hearPeer src seq c).hwn = s.hwn ∧ (s.countGood.hearPeer src seq c).mpt = s.mpt := by
  have counted := countGood_counted s
  obtain ⟨p, x, heq, -⟩ := hearPeer_eq s.countGood src seq c
  rw [heq]
  exact ⟨counted.hwn, counted.mpt⟩

theorem hwn_take_room (h : Hwn) (src : StationId) (m i now : Nat) (hroom : h.entries.length < 24) :
    h.take src m i now =
      { h with entries := h.entries ++ [{ src := src, mass := m, arrival := now, index := i, merges := 0 }],
               sum := h.sum + m } :=
  if_pos hroom

/-- In a full window an ENTRY is merged into the youngest record (R70). -/
theorem hwn_take_full (h : Hwn) (src : StationId) (m i now : Nat) {older : List HeatEntry} {e : HeatEntry}
    (he : h.entries = older ++ [e]) (hfull : h.entries.length = 24) :
    h.take src m i now =
      { h with entries := older ++ [e.merge src m i now], sum := h.sum + (e.merge src m i now).mass - e.mass } := by
  unfold Hwn.take
  rw [if_neg (by rw [hfull]; decide)]
  simp only [he, List.getLast?_concat, List.dropLast_concat]

theorem hwn_take_request (h : Hwn) (src : StationId) (m i now : Nat) : (h.take src m i now).request = h.request := by
  unfold Hwn.take
  split
  · rfl
  · split <;> rfl

/-- Settles O38: HWN takes the ENTRY into the window as it stood before the frame. -/
theorem peerEntryEntersTheWindow : Obligations.PeerEntryEntersTheWindow := by
  intro s src seq a b i heard hmass hindex
  have hexec : exec (.entryFrame src seq [a, b, i]) s =
      .next ((s.countGood.hearPeer src seq none).takeEntry src (beNat [a, b]) i.toNat) := by
    show Host.Outcome.next (s.takeFrame src seq (decodeEntry [a, b, i]) noCondition _) = _
    rw [show decodeEntry [a, b, i] = some ⟨beNat [a, b], i.toNat⟩ from if_pos ⟨hmass, hindex⟩,
      takeFrame_hears s src seq _ noCondition _ heard]
    rfl
  obtain ⟨hnow, -, -⟩ := delivered_table s src seq none
  obtain ⟨hhwn, hmpt⟩ := delivered_window s src seq none
  obtain ⟨-, ring, hzbr⟩ := delivered_balance s src seq none
  refine ⟨_, hexec, rfl, ?_⟩
  generalize s.countGood.hearPeer src seq none = u at hnow hhwn hmpt hzbr ⊢
  have hwindow : (u.takeEntry src (beNat [a, b]) i.toNat).hwn = s.hwn.take src (beNat [a, b]) i.toNat s.now := by
    rw [← hhwn, ← hnow]; rfl
  rw [hwindow]
  refine ⟨hwn_take_request _ _ _ _ _, ?_, hmpt, fun hroom => ?_, fun older e he hfull => ?_⟩
  · show u.zbr.z = _
    rw [hzbr]
  · rw [hwn_take_room _ _ _ _ _ hroom]
    exact ⟨rfl, rfl⟩
  · rw [hwn_take_full _ _ _ _ _ he hfull]
    exact ⟨rfl, rfl⟩

/-- ZBR notes a heard PICKUP as the last (R183). -/
def State.notePickup (s : State) (src : StationId) (p : PickupInfo) (outcome : PickupOutcome) : State :=
  s.withZbr { s.zbr with lastPickup := some ⟨src, p.seq, p.consumption, p.cls, outcome⟩ }

/-- The expected sequence of the sender after a PICKUP that is no repeat (R182). -/
def State.expectNext (s : State) (src : StationId) (p : PickupInfo) : State :=
  s.withPtb (s.ptb.setExpected src (p.seq + 1))

/-- A PICKUP out of sequence (R182). -/
def State.noteGap (s : State) : State := (s.withZbr { s.zbr with gap := true }).raise .balanceGap

theorem checkPickup_outcome (expected : Option (BitVec 16)) (q : BitVec 16) : checkPickup expected q =
    if expected = none then .first else if expected = some (q + 1) then .repeated
    else if expected = some q then .applied else .gap := by
  cases expected with
  | none => rfl
  | some e =>
    have hrepeat : q = e - 1 ↔ e = q + 1 := ⟨fun h => by rw [h]; simp, fun h => by rw [h]; simp⟩
    simp only [checkPickup, hrepeat, Option.some.injEq, reduceCtorEq, if_false, eq_comm (a := q)]

/-- What ZBR makes of a heard PICKUP that is no repeat, the notes and the expected sequence taken. -/
theorem consume_taken (s : State) (n : Nat) :
    (s.consume n).hwn = s.hwn ∧ (s.consume n).mpt = s.mpt ∧ (s.consume n).ptb = s.ptb ∧
      (s.consume n).zbr.lastPickup = s.zbr.lastPickup ∧ (s.consume n).zbr.unset = s.zbr.unset ∧
      (s.consume n).zbr.gap = s.zbr.gap ∧ (s.consume n).zbr.z = s.zbr.z - n ∧ EventsGrow s.spt (s.consume n).spt ∧
      s.levelEvaluated (s.zbr.z - n) (s.consume n) := by
  have balance := putZ_zbr s (s.zbr.z - n)
  obtain ⟨hgrow, -, -, hptb, hhwn, hmpt⟩ := putZ_rest s (s.zbr.z - n)
  exact ⟨hhwn, hmpt, hptb, (congrArg Zbr.lastPickup balance :), (congrArg Zbr.unset balance :),
    (congrArg Zbr.gap balance :), (congrArg Zbr.z balance :), hgrow, putZ_evaluated s _⟩

theorem heardPickup_repeated (s : State) (src : StationId) (p : PickupInfo)
    (h : checkPickup ((s.ptb.recordOf src).bind Peer.expected) p.seq = .repeated) :
    s.heardPickup src p = s.notePickup src p .repeated := by
  unfold State.heardPickup
  simp only [h]
  rfl

theorem heardPickup_gap (s : State) (src : StationId) (p : PickupInfo)
    (h : checkPickup ((s.ptb.recordOf src).bind Peer.expected) p.seq = .gap) :
    s.heardPickup src p = ((s.notePickup src p .gap).expectNext src p).noteGap.consume p.consumption := by
  unfold State.heardPickup
  simp only [h]
  rfl

theorem heardPickup_applied (s : State) (src : StationId) (p : PickupInfo) {outcome : PickupOutcome}
    (ho : outcome = .first ∨ outcome = .applied)
    (h : checkPickup ((s.ptb.recordOf src).bind Peer.expected) p.seq = outcome) :
    s.heardPickup src p = ((s.notePickup src p outcome).expectNext src p).consume p.consumption := by
  unfold State.heardPickup
  rcases ho with rfl | rfl <;> simp only [h] <;> rfl

/-- What a heard PICKUP that is not repeated does (R36): the estimate falls by its consumption, and the next one is expected. -/
theorem heardPickup_lowers {u : State} {src : StationId} {p : PickupInfo} {r : Peer} (hr : u.ptb.recordOf src = some r)
    (hnew : checkPickup r.expected p.seq ≠ .repeated) :
    (u.heardPickup src p).zbr.z = u.zbr.z - p.consumption ∧
      u.levelEvaluated (u.zbr.z - p.consumption) (u.heardPickup src p) ∧
      ((u.heardPickup src p).ptb.recordOf src).bind Peer.expected = some (p.seq + 1) := by
  have taken (v : State) (heq : u.heardPickup src p = v.consume p.consumption) (hcfg : v.cfg = u.cfg)
      (hptb : v.ptb = u.ptb.setExpected src (p.seq + 1)) (hz : v.zbr.z = u.zbr.z) (hunset : v.zbr.unset = u.zbr.unset)
      (hlevel : v.zbr.level = u.zbr.level) :
      (u.heardPickup src p).zbr.z = u.zbr.z - p.consumption ∧
        u.levelEvaluated (u.zbr.z - p.consumption) (u.heardPickup src p) ∧
        ((u.heardPickup src p).ptb.recordOf src).bind Peer.expected = some (p.seq + 1) := by
    obtain ⟨-, -, h3, -, -, -, h7, -, h9⟩ := consume_taken v p.consumption
    rw [heq]
    rw [hz] at h7 h9
    refine ⟨h7, levelEvaluated_from hcfg hunset hlevel h9, ?_⟩
    rw [h3, hptb, recordOf_setExpected_own _ _ _ hr]
    rfl
  have hown : (u.ptb.recordOf src).bind Peer.expected = r.expected := by rw [hr]; rfl
  cases hcheck : checkPickup r.expected p.seq with
  | repeated => exact absurd hcheck hnew
  | gap => exact taken _ (heardPickup_gap u src p (by rw [hown]; exact hcheck)) rfl rfl rfl rfl rfl
  | first => exact taken _ (heardPickup_applied u src p (.inl rfl) (by rw [hown]; exact hcheck)) rfl rfl rfl rfl rfl
  | applied => exact taken _ (heardPickup_applied u src p (.inr rfl) (by rw [hown]; exact hcheck)) rfl rfl rfl rfl rfl

/-- What a heard PICKUP leaves as it was, and what it records, whatever the checker says of it (R36). -/
theorem heardPickup_notes {u : State} {src : StationId} {p : PickupInfo} {r : Peer} (hr : u.ptb.recordOf src = some r) :
    (u.heardPickup src p).hwn = u.hwn ∧ (u.heardPickup src p).mpt = u.mpt ∧
      (u.heardPickup src p).zbr.lastPickup =
        some ⟨src, p.seq, p.consumption, p.cls, checkPickup r.expected p.seq⟩ ∧
      (u.heardPickup src p).zbr.unset = u.zbr.unset := by
  have taken (v : State) (heq : u.heardPickup src p = v.consume p.consumption) (hhwn : v.hwn = u.hwn) (hmpt : v.mpt = u.mpt)
      (hlast : v.zbr.lastPickup = some ⟨src, p.seq, p.consumption, p.cls, checkPickup r.expected p.seq⟩)
      (hunset : v.zbr.unset = u.zbr.unset) :
      (u.heardPickup src p).hwn = u.hwn ∧ (u.heardPickup src p).mpt = u.mpt ∧
        (u.heardPickup src p).zbr.lastPickup =
          some ⟨src, p.seq, p.consumption, p.cls, checkPickup r.expected p.seq⟩ ∧
        (u.heardPickup src p).zbr.unset = u.zbr.unset := by
    obtain ⟨h1, h2, -, h4, h5, -⟩ := consume_taken v p.consumption
    rw [heq]
    exact ⟨h1.trans hhwn, h2.trans hmpt, h4.trans hlast, h5.trans hunset⟩
  have hown : (u.ptb.recordOf src).bind Peer.expected = r.expected := by rw [hr]; rfl
  cases hcheck : checkPickup r.expected p.seq with
  | repeated =>
    rw [heardPickup_repeated u src p (by rw [hown]; exact hcheck)]
    exact ⟨rfl, rfl, rfl, rfl⟩
  | gap => exact hcheck ▸ taken _ (heardPickup_gap u src p (by rw [hown]; exact hcheck)) rfl rfl (by rw [hcheck]; rfl) rfl
  | first =>
    exact hcheck ▸ taken _ (heardPickup_applied u src p (.inl rfl) (by rw [hown]; exact hcheck)) rfl rfl (by rw [hcheck]; rfl) rfl
  | applied =>
    exact hcheck ▸ taken _ (heardPickup_applied u src p (.inr rfl) (by rw [hown]; exact hcheck)) rfl rfl (by rw [hcheck]; rfl) rfl

/-- A gap in a peer's PICKUPs is recorded and raised (R36). -/
theorem heardPickup_gap_raises {u : State} {src : StationId} {p : PickupInfo}
    (h : checkPickup ((u.ptb.recordOf src).bind Peer.expected) p.seq = .gap) :
    (u.heardPickup src p).zbr.gap = true ∧ (u.heardPickup src p).spt.isRaised .balanceGap = true := by
  have hraised : ((u.notePickup src p .gap).expectNext src p).noteGap.spt.isRaised .balanceGap = true :=
    raise_raised ((u.notePickup src p .gap).expectNext src p).spt .balanceGap
  have hgap : ((u.notePickup src p .gap).expectNext src p).noteGap.zbr.gap = true := rfl
  rw [heardPickup_gap u src p h]
  generalize ((u.notePickup src p .gap).expectNext src p).noteGap = v at hraised hgap ⊢
  obtain ⟨-, -, -, -, -, h6, -, h8, -⟩ := consume_taken v p.consumption
  exact ⟨h6.trans hgap, h8.raised _ hraised⟩

/-- Settles O39: the outcome of the sequence checker says whether ZBR applies the PICKUP and whether it finds a gap. -/
theorem pickupLowersTheEstimate : Obligations.PickupLowersTheEstimate := by
  intro s src seq a b c d e k heard hconsumption hclass q expected
  let p : PickupInfo := ⟨q, beNat [c, d, e], SteelClass.ofCode k.toNat⟩
  have hexec : exec (.pickupFrame src seq [a, b, c, d, e, k]) s =
      .next ((s.countGood.hearPeer src seq none).heardPickup src p) := by
    show Host.Outcome.next (s.takeFrame src seq (decodePickup [a, b, c, d, e, k]) noCondition _) = _
    rw [show decodePickup [a, b, c, d, e, k] = some p from if_pos ⟨hconsumption, hclass⟩,
      takeFrame_hears s src seq _ noCondition _ heard]
    rfl
  obtain ⟨hhwn, hmpt⟩ := delivered_window s src seq none
  obtain ⟨hcfg, ring, hzbr⟩ := delivered_balance s src seq none
  obtain ⟨-, -, hrecord, -, -⟩ := delivered_peers s src seq none
  have hexpected : (s.refreshed src seq none).expected = expected := by
    show _ = (s.ptb.recordOf src).bind Peer.expected
    unfold State.refreshed
    split
    · rename_i h; rw [h]; rfl
    · rename_i p h; rw [h]; rfl
  refine ⟨_, hexec, ?_⟩
  rw [← checkPickup_outcome]
  generalize s.countGood.hearPeer src seq none = u at hhwn hmpt hcfg hzbr hrecord ⊢
  have hz : u.zbr.z = s.zbr.z := by rw [hzbr]
  have hunset : u.zbr.unset = s.zbr.unset := by rw [hzbr]
  have hlevel : u.zbr.level = s.zbr.level := by rw [hzbr]
  have hown : (u.ptb.recordOf src).bind Peer.expected = expected := by rw [hrecord]; exact hexpected
  obtain ⟨n1, n2, n3, n4⟩ := heardPickup_notes (p := p) hrecord
  rw [hexpected] at n3
  refine ⟨n1.trans hhwn, n2.trans hmpt, n3, n4.trans hunset, fun hrep => ?repeated, fun hnew => ?taken,
    fun x hx hq hq1 => ?gap⟩
  case repeated =>
    rw [heardPickup_repeated u src p (by rw [hown, checkPickup_outcome, if_neg (by rw [hrep]; simp), if_pos hrep])]
    exact ⟨hz, hlevel, hown⟩
  case taken =>
    have hcheck : checkPickup (s.refreshed src seq none).expected p.seq ≠ .repeated := by
      rw [hexpected, checkPickup_outcome, if_neg hnew]
      split
      · simp
      · split <;> simp
    obtain ⟨l1, l2, l3⟩ := heardPickup_lowers hrecord hcheck
    rw [hz] at l1 l2
    exact ⟨l1, levelEvaluated_from hcfg hunset hlevel l2, l3⟩
  case gap =>
    refine heardPickup_gap_raises (p := p) ?_
    rw [hown, checkPickup_outcome, hx, if_neg (by simp), if_neg (by simpa using hq1), if_neg (by simpa using hq)]

end Sys2Proof.Machine
end

section
/-! PROOFS. The silence and the lapse timers, and the own frames read back (sections 1.1, 1.7, 2.5; statements O46, O60). -/

namespace Sys2Proof.Machine

/-! ### The silence and the lapse of a peer -/

/-- The end of the lapse timer of an entry removes it (R61). -/
theorem exec_intentLapse {s : State} {holder : StationId} {e : PeerEntry} {d : Nat} (he : s.scu.entryOf holder = some e)
    (hd : e.lapseEnd = some d) : exec (.intentLapse holder) s = .next (notify ((s.reach d).entryLeaves holder)) := by
  show execIntentLapse holder s = _
  unfold execIntentLapse
  simp only [he, hd]

/-- The end of the silence timer of a peer makes it SILENT (R30). -/
theorem exec_peerSilenceExpiry {s : State} {peer : StationId} {p : Peer} {e : Nat} (hp : s.ptb.recordOf peer = some p)
    (he : p.silenceEnd = some e) : exec (.peerSilenceExpiry peer) s = .next ((s.reach e).losePeer p) := by
  show execPeerSilenceExpiry peer s = _
  unfold execPeerSilenceExpiry
  simp only [hp, he]

/-- What a peer's falling silent does (R30, R62). -/
theorem losePeer_silent (s : State) (p : Peer) :
    (s.losePeer p).now = s.now ∧ (s.losePeer p).ptb.recordOf p.id = some p.fallSilent ∧
      (s.losePeer p).spt.isRaised .peerSilent = true ∧
      (s.losePeer p).scu.entries = s.scu.entries.map (fun x =>
        if x.holder = p.id then { x with state := .stale, lapseEnd := none } else x) ∧
      ∀ h, h ≠ p.id → (s.losePeer p).ptb.recordOf h = s.ptb.recordOf h := by
  have raised : ((s.putPeer p.fallSilent).raise .peerSilent).spt.isRaised .peerSilent = true :=
    raise_raised s.spt .peerSilent
  have hptb : ((s.putPeer p.fallSilent).raise .peerSilent).ptb = (s.putPeer p.fallSilent).ptb := rfl
  have hnow : ((s.putPeer p.fallSilent).raise .peerSilent).now = s.now := rfl
  have hentries : ((s.putPeer p.fallSilent).raise .peerSilent).scu.entries = s.scu.entries := rfl
  unfold State.losePeer
  generalize (s.putPeer p.fallSilent).raise .peerSilent = a at raised hptb hnow hentries ⊢
  have quiet : Quiet (a.withScu { a.scu with entries := a.scu.entries.map (fun x =>
      if x.holder = p.id then { x with state := .stale, lapseEnd := none } else x) }) (a.scuSilence p.id) :=
    quiet_evalStart _
  have ptb : (a.scuSilence p.id).ptb = (s.putPeer p.fallSilent).ptb := quiet.ptb.trans hptb
  have entries := quiet.entries
  refine ⟨quiet.now.trans hnow, ?_, quiet.events.raised _ raised, hentries ▸ entries, fun h hne => ?_⟩
  · rw [ptb]
    exact recordOf_putPeer p.fallSilent s.ptb.peers
  · rw [ptb]
    exact recordOf_putPeer_other p.fallSilent s.ptb.peers h hne

/-- The condition and the expected pickup sequence of a refreshed record (R28, R31, R34). -/
theorem refreshed_fields (s : State) (src : StationId) (seq : Byte) (cond : Option Condition) :
    (s.ptb.recordOf src = none → (s.refreshed src seq cond).condition = cond.getD .unknown) ∧
      (∀ p, s.ptb.recordOf src = some p → (s.refreshed src seq cond).condition = cond.getD p.condition) ∧
      (s.refreshed src seq cond).expected = (s.ptb.recordOf src).bind Peer.expected := by
  unfold State.refreshed
  cases s.ptb.recordOf src with
  | none => exact ⟨fun _ => rfl, (fun p h => nomatch h), rfl⟩
  | some p => exact ⟨(fun h => nomatch h), (fun q h => Option.some.inj h ▸ rfl), rfl⟩

/-- Settles O46: the lapse takes the entry out, the silence makes the record SILENT and the entry STALE, and the refresh by
a good frame stands after its delivery. -/
theorem silencesAndLapsesChangeTheEntry : Obligations.SilencesAndLapsesChangeTheEntry := by
  refine ⟨fun s holder e d he hd => ?lapse, fun s peer p e hp he => ?silence, fun s c src seq hgood heard => ?frame⟩
  case lapse =>
    exact ⟨_, exec_intentLapse he hd, now_onNotices _ _ |>.trans (quiet_evalStart _).now,
      notify_entryLeaves_entries _ holder, (calm_onNotices _ _).ptb.trans (quiet_evalStart _).ptb⟩
  case silence =>
    obtain ⟨hnow, hrecord, hraised, hentries, hothers⟩ := losePeer_silent (s.reach e) p
    rw [recordOf_id hp] at hrecord hentries hothers
    exact ⟨_, exec_peerSilenceExpiry hp he, hnow, hrecord, hraised, hentries, hothers⟩
  case frame =>
    obtain ⟨deliver, -, hexec, hkept, hptb⟩ := exists_isFrame hgood
    obtain ⟨-, -, hrecord, -, hback⟩ := delivered_peers s src seq (reportedCondition s.cells c)
    obtain ⟨hfresh, hknown, hexpected⟩ := refreshed_fields s src seq (reportedCondition s.cells c)
    refine ⟨_, hexec heard, ?_⟩
    generalize s.countGood.hearPeer src seq (reportedCondition s.cells c) = u at hrecord hback ⊢
    have kept := hkept u
    obtain ⟨x, howned⟩ := kept.own _ hrecord
    have hcondition : ((deliver u).ptb.recordOf src).map Peer.condition =
        some (s.refreshed src seq (reportedCondition s.cells c)).condition := by rw [howned]; rfl
    refine ⟨fun hnone => by rw [hcondition, hfresh hnone], fun p hp => ⟨by rw [hcondition, hknown p hp], fun hsilent =>
      kept.events.raised _ (hback p hp hsilent)⟩, fun hother => ?_⟩
    rw [hptb hother u, hrecord]
    exact hexpected

/-! ### The own frames read back -/

theorem wholeFlag_u8 (w : Bool) : wholeFlag (BitVec.ofNat 8 (if w then 1 else 0)) = some w := by
  cases w <;> rfl

theorem cellsOk_own {n : Nat} {sp : Span} (h : sp.whole = true ∨ (sp.first ≤ sp.last ∧ sp.last < n)) :
    cellsOk n sp.first sp.last sp.whole = true := by
  simpa [cellsOk] using h

/-- A span of cells below 256 is read back from an INTENT. -/
theorem decodeIntent_own {n age : Nat} {sp : Span} {c : Byte} (hf : sp.first ≤ 255) (hl : sp.last ≤ 255) (ha : age ≤ 255)
    (h : sp.whole = true ∨ (sp.first ≤ sp.last ∧ sp.last < n)) (s : State) :
    decodeIntent n (s.payload (.intent sp age c)) = some ⟨sp, age, c⟩ := by
  show decodeIntent n [BitVec.ofNat 8 sp.first, BitVec.ofNat 8 sp.last, BitVec.ofNat 8 (if sp.whole then 1 else 0),
    BitVec.ofNat 8 age, c] = _
  unfold decodeIntent
  simp only [wholeFlag_u8, toNat_u8 (show sp.first < 256 by omega), toNat_u8 (show sp.last < 256 by omega),
    toNat_u8 (show age < 256 by omega), cellsOk_own h, if_true]

theorem decodeHold_own {n : Nat} {sp : Span} {c : Byte} (hf : sp.first ≤ 255) (hl : sp.last ≤ 255)
    (h : sp.whole = true ∨ (sp.first ≤ sp.last ∧ sp.last < n)) (s : State) :
    decodeHold n (s.payload (.hold sp c)) = some ⟨sp, 0, c⟩ := by
  show decodeHold n [BitVec.ofNat 8 sp.first, BitVec.ofNat 8 sp.last, BitVec.ofNat 8 (if sp.whole then 1 else 0), c] = _
  unfold decodeHold
  simp only [wholeFlag_u8, toNat_u8 (show sp.first < 256 by omega), toNat_u8 (show sp.last < 256 by omega),
    cellsOk_own h, if_true]

theorem decodeEntry_own {m i : Nat} (x : BitVec 32) (hm : m ≤ 8000) (hi : i = 1 ∨ i = 2) (s : State) :
    decodeEntry (s.payload (.entry m i x)) = some ⟨m, i⟩ := by
  show decodeEntry [BitVec.ofNat 8 (m / 256), BitVec.ofNat 8 m, BitVec.ofNat 8 i] = _
  unfold decodeEntry
  simp only [beNat_u16 (show m < 65536 by omega), toNat_u8 (show i < 256 by omega), hm, hi, and_self, if_true]

/-- The class byte of a PICKUP: 0 for none, else the class's code. -/
theorem ofCode_classByte (k : Option SteelClass) :
    (k.map SteelClass.code).getD 0 ≤ 5 ∧ SteelClass.ofCode ((k.map SteelClass.code).getD 0) = k := by
  cases k with
  | none => exact ⟨by decide, rfl⟩
  | some c => exact ⟨by cases c <;> decide, ofCode_code c⟩

theorem decodePickup_own (q : BitVec 16) {c : Nat} (k : Option SteelClass) (x : BitVec 32) (hc : c ≤ 131070) (s : State) :
    decodePickup (s.payload (.pickup q c k x)) = some ⟨q, c, k⟩ := by
  obtain ⟨hk, hcode⟩ := ofCode_classByte k
  show decodePickup [BitVec.ofNat 8 (q.toNat / 256), BitVec.ofNat 8 q.toNat, BitVec.ofNat 8 (c / 65536),
    BitVec.ofNat 8 (c / 256), BitVec.ofNat 8 c, BitVec.ofNat 8 ((k.map SteelClass.code).getD 0)] = _
  unfold decodePickup
  have hq : BitVec.ofNat 16 q.toNat = q := by simp
  simp only [beNat_u16 q.isLt, hq, beNat_u24 (show c < 16777216 by omega),
    toNat_u8 (show (k.map SteelClass.code).getD 0 < 256 by omega), hc, hk, hcode, and_self, if_true]

theorem decodeIngot_own {m : Nat} (hlow : 10 ≤ m) (hhigh : m ≤ 50000) (s : State) :
    decodeIngot (s.payload (.ingot m)) = some m := by
  show decodeIngot [BitVec.ofNat 8 (m / 256), BitVec.ofNat 8 m] = _
  unfold decodeIngot
  simp only [beNat_u16 (show m < 65536 by omega), hlow, hhigh, and_self, if_true]

/-- The condition a station in a DSQ state reports in its BEACON (R23). -/
def DsqState.condition (d : DsqState) : Condition :=
  match d with
  | .idle => Condition.readyIdle
  | .parked => Condition.parked
  | .halted => Condition.halted
  | _ => Condition.readyBusy

/-- The condition byte of a BEACON, field by field. -/
theorem conditionByte_read (d : DsqState) (b : BeaconSpan) (whole clash : Bool) :
    let k : Byte := BitVec.ofNat 8 (beaconCode d + 16 * b.code + (if whole then 64 else 0) + (if clash then 128 else 0))
    beaconCondition (k.extractLsb' 0 3).toNat = some d.condition ∧
      beaconSpanState (k.extractLsb' 4 2).toNat = some b ∧ k.getLsbD 6 = whole ∧ k.getLsbD 7 = clash := by
  have byte (n : Nat) (c : Condition) (hn : n < 8) (hc : beaconCondition n = some c) :
      let k : Byte := BitVec.ofNat 8 (n + 16 * b.code + (if whole then 64 else 0) + (if clash then 128 else 0))
      beaconCondition (k.extractLsb' 0 3).toNat = some c ∧
        beaconSpanState (k.extractLsb' 4 2).toNat = some b ∧ k.getLsbD 6 = whole ∧ k.getLsbD 7 = clash := by
    have hk : ∀ m : Fin 8,
        let k : Byte := BitVec.ofNat 8 (m.val + 16 * b.code + (if whole then 64 else 0) + (if clash then 128 else 0))
        (k.extractLsb' 0 3).toNat = m.val ∧ beaconSpanState (k.extractLsb' 4 2).toNat = some b ∧
          k.getLsbD 6 = whole ∧ k.getLsbD 7 = clash := by
      cases b <;> cases whole <;> cases clash <;> decide
    obtain ⟨h1, h2⟩ := hk ⟨n, hn⟩
    exact ⟨by rw [h1]; exact hc, h2⟩
  cases d with
  | idle => exact byte 1 _ (by decide) rfl
  | parked => exact byte 4 _ (by decide) rfl
  | halted => exact byte 3 _ (by decide) rfl
  | _ => exact byte 2 _ (by decide) rfl

theorem decodeBeacon_own {n : Nat} (s : State) (hf : s.beaconSpan.first ≤ 255) (hl : s.beaconSpan.last ≤ 255)
    (h : s.scu.state.beacon = .none ∨ s.beaconSpan.whole = true ∨
      (s.beaconSpan.first ≤ s.beaconSpan.last ∧ s.beaconSpan.last < n)) :
    decodeBeacon n (s.payload .beacon) = some {
      condition := s.dsq.state.condition, spanState := s.scu.state.beacon, span := s.beaconSpan,
      lastEntry := s.scu.lastEntry, clash := s.lif.clashEnd.isSome } := by
  obtain ⟨h1, h2, h3, h4⟩ := conditionByte_read s.dsq.state s.scu.state.beacon s.beaconSpan.whole s.lif.clashEnd.isSome
  have hlast := s.scu.lastEntry.isLt
  have hid : (BitVec.ofNat 8 s.scu.lastEntry.toNat).extractLsb' 0 4 = s.scu.lastEntry := by
    apply BitVec.eq_of_toNat_eq
    simp only [BitVec.extractLsb'_toNat, BitVec.toNat_ofNat]
    omega
  have hspan : s.scu.state.beacon = .none ∨
      cellsOk n s.beaconSpan.first s.beaconSpan.last s.beaconSpan.whole = true := h.imp id cellsOk_own
  show decodeBeacon n [BitVec.ofNat 8 (beaconCode s.dsq.state + 16 * s.scu.state.beacon.code +
    (if s.beaconSpan.whole then 64 else 0) + (if s.lif.clashEnd.isSome then 128 else 0)),
    BitVec.ofNat 8 s.beaconSpan.first, BitVec.ofNat 8 s.beaconSpan.last, BitVec.ofNat 8 s.scu.lastEntry.toNat] = _
  unfold decodeBeacon
  simp only [h1, h2, h3, h4, toNat_u8 (show s.beaconSpan.first < 256 by omega),
    toNat_u8 (show s.beaconSpan.last < 256 by omega), toNat_u8 (show s.scu.lastEntry.toNat < 256 by omega), hid, hspan,
    true_and, hlast, if_true]

/-- Settles O60: field by field, the bytes of an own payload are those its decoder reads. -/
theorem ownFramesReadBack : Obligations.OwnFramesReadBack := by
  refine fun s n => ⟨fun sp age c hf hl ha hsp => ⟨decodeIntent_own hf hl ha hsp s, decodeHold_own hf hl hsp s⟩,
    fun c => ⟨rfl, rfl⟩, fun m i x hm hi => decodeEntry_own x hm hi s, fun q c k x hc => decodePickup_own q k x hc s,
    fun m hlow hhigh => decodeIngot_own hlow hhigh s, fun b hf hl hsp hb => ?_⟩
  rw [hb, decodeBeacon_own s hf hl hsp]
  rfl

end Sys2Proof.Machine
end

section
/-! PROOFS. A claim under way meets a foreign one (sections 2.3 to 2.5; statements O36, O37). -/

namespace Sys2Proof.Machine

/-! ### The state a frame finds the claim in -/

/-- The count of a good frame moves neither a claim that waits for nothing nor the number of frames queued. -/
theorem countGood_places {s : State} (h : s.scu.state.isStill = true) : s.countGood.lif.places = s.lif.places := by
  have toLine (l : LineState) : ((s.withLif s.lif.scoreDown).toLine l).lif.places = s.lif.places := by
    have quiet (a : State) (ha : a.scu.state.isStill = true) : a.lineNotice.lif.places = a.lif.places := by
      unfold State.lineNotice
      rw [evalStart_still (a.withLif a.lif.takeCurrent) ha]
      exact takeCurrent_places _
    exact quiet _ h
  unfold State.countGood State.evalHealth
  split
  · split
    · exact toLine .degraded
    · rfl
  · split
    · exact toLine .active
    · rfl
  · rfl

/-- What a delivery leaves of what a claim that waits for nothing rests on. -/
structure ClaimStands (s u : State) : Prop where
  scu : u.scu = s.scu
  places : u.lif.places = s.lif.places
  dsqState : u.dsq.state = s.dsq.state
  position : u.dsq.position = s.dsq.position
  mpt : u.mpt = s.mpt
  now : u.now = s.now
  cfg : u.cfg = s.cfg

theorem ClaimStands.lowered {s u : State} (h : ClaimStands s u) : u.lowered = s.lowered := by
  unfold State.lowered
  rw [h.position, h.mpt]

theorem delivered_stands (s : State) (src : StationId) (seq : Byte) (cond : Option Condition)
    (h : s.scu.state.isStill = true) : ClaimStands s (s.countGood.hearPeer src seq cond) := by
  have counted := countGood_counted s
  have hplaces := countGood_places h
  have hstate : s.countGood.dsq.state = s.dsq.state := by rw [counted.dsq]
  have hposition : s.countGood.dsq.position = s.dsq.position := by rw [counted.dsq]
  obtain ⟨p, x, heq, -⟩ := hearPeer_eq s.countGood src seq cond
  rw [heq]
  exact ⟨counted.still h, hplaces, hstate, hposition, counted.mpt, counted.now, counted.cfg⟩

/-! ### Giving a claim up -/

/-- What RETRY leaves of a claim (R54). -/
theorem enterRetry_claim (s : State) :
    s.enterRetry.scu.state = .retry ∧ s.enterRetry.scu.own = none ∧ s.enterRetry.scu.wanted = s.scu.wanted ∧
      s.enterRetry.scu.windowEnd = none ∧ s.enterRetry.scu.held = s.scu.held ∧
      s.enterRetry.scu.retryEnd = some (s.now + s.retryDelay) := by
  have hwanted : (s.scu.resumeBlocked s.now).wanted = s.scu.wanted := by unfold Scu.resumeBlocked; split <;> rfl
  have hheld : (s.scu.resumeBlocked s.now).held = s.scu.held := by unfold Scu.resumeBlocked; split <;> rfl
  exact ⟨rfl, rfl, hwanted, rfl, hheld, rfl⟩

/-- What an offer and the RETRY after it make of a claim that no drop moves (R48, R51). -/
theorem offer_enterRetry {s : State} (f : TxFrame) (hb : f ≠ .beacon) (h : s.scu.state.isStill = true) :
    let t := (s.offer f).enterRetry
    t.scu.state = .retry ∧ t.scu.own = none ∧ t.scu.wanted = s.scu.wanted ∧ t.scu.windowEnd = none ∧
      t.scu.held = s.scu.held ∧ t.scu.retryEnd = some (s.now + s.retryDelay) ∧ t.dsq.state = s.dsq.state ∧
      (s.lif.places < 8 → t.lif.holds (· == f) = true) := by
  obtain ⟨h1, h2, h3, h4, h5, h6⟩ := enterRetry_claim (s.offer f)
  have quiet := quiet_offer s f
  have hscu := offer_scu s f h
  have hdelay : (s.offer f).retryDelay = s.retryDelay := by
    unfold State.retryDelay State.ownId
    rw [quiet.cfg]
  rw [hscu] at h3 h5
  rw [quiet.now, hdelay] at h6
  refine ⟨h1, h2, h3, h4, h5, h6, quiet.dsqState, fun hroom => ?_⟩
  show (s.offer f).lif.holds (· == f) = true
  rw [offer_holds s f _ hroom hb, beq_self_eq_true, Bool.true_or]

/-- A lost span: FREE offered, RETRY, SPAN_LOST (R51). -/
theorem loseClaim_retries {s : State} (h : s.scu.state.isStill = true) :
    s.loseClaim.scu.state = .retry ∧ s.loseClaim.scu.own = none ∧ s.loseClaim.scu.wanted = s.scu.wanted ∧
      s.loseClaim.scu.held = s.scu.held ∧ s.loseClaim.scu.retryEnd = some (s.now + s.retryDelay) ∧
      s.loseClaim.dsq.state = s.dsq.state ∧ (s.lif.places < 8 → s.loseClaim.lif.holds (· == .free s.ownClaim) = true) ∧
      s.loseClaim.spt.isRaised .spanLost = true := by
  obtain ⟨h1, h2, h3, -, h5, h6, h7, h8⟩ := offer_enterRetry (.free s.ownClaim) (by simp) h
  have raised := raise_raised (s.offer (.free s.ownClaim)).enterRetry.spt .spanLost
  unfold State.loseClaim
  generalize (s.offer (.free s.ownClaim)).enterRetry = t at h1 h2 h3 h5 h6 h7 h8 raised ⊢
  exact ⟨h1, h2, h3, h5, h6, h7, h8, raised⟩

/-! ### A HOLD over a FIRM span -/

/-- An entry put into the table is one of the table. -/
theorem overlapped_putEntry {s : State} {e : PeerEntry} (h : s.scu.meets e.span = true) :
    (s.putEntry e).scu.overlapped = true :=
  List.any_eq_true.mpr ⟨e, List.mem_of_find?_eq_some (entryOf_putEntry e s.scu.entries), h⟩

/-- While the span is overlapped DSQ's taking of the notice that says so leaves SCU and the events alone (R65, R107). -/
theorem onNotice_overlapped {s : State} (h : s.scu.overlapped = true) :
    (s.onNotice (.clearChanged true)).scu = s.scu ∧ (s.onNotice (.clearChanged true)).spt = s.spt := by
  have hunclear : s.firmAndClear = false := by simp [State.firmAndClear, h]
  unfold State.onNotice
  simp only []
  split
  · unfold State.tryLower
    rw [if_neg (by simp [hunclear])]
    exact ⟨rfl, rfl⟩
  · exact ⟨rfl, rfl⟩
  · exact ⟨rfl, rfl⟩

theorem notify_overlapped {s t : State} (h : t.scu.overlapped = true) :
    (notify (t, clearNotices s t)).scu = t.scu ∧ (notify (t, clearNotices s t)).spt = t.spt := by
  unfold clearNotices
  split
  · rw [h]
    exact onNotice_overlapped h
  · exact ⟨rfl, rfl⟩

/-- The claim machine's part of a HOLD that overlaps a FIRM span, up to the notices (R51, R52). -/
theorem scuHold_firm {s : State} (src : StationId) (i : ClaimInfo) (hfirm : s.scu.state = .firm)
    (hmeets : s.scu.meets i.span = true) :
    let a := s.putEntry (s.holdEntry src i)
    (s.lowered = true → s.scuHold src i = (a.raise .spanConflict, clearNotices s (a.raise .spanConflict))) ∧
      (s.lowered = false → s.ownId.toNat < src.toNat → s.scuHold src i = (a, clearNotices s a)) ∧
      (s.lowered = false → src.toNat < s.ownId.toNat → s.scuHold src i = (a.loseClaim, [.lost])) := by
  intro a
  have hstill : a.scu.state.isStill = true := by show s.scu.state.isStill = true; rw [hfirm]; rfl
  have taken (r : State × List SpanNotice) (hr : a.meetHeld src = r) (hs : r.1.scu.state.isStill = true) :
      s.scuHold src i = (r.1, r.2 ++ clearNotices s r.1) := by
    have hif : (if a.scu.meets i.span then a.meetHeld src else (a, [])) = r := (if_pos hmeets).trans hr
    have key (q : State × List SpanNotice) (hq : q = r) :
        (q.1.evalStart, q.2 ++ clearNotices s q.1.evalStart) = (r.1, r.2 ++ clearNotices s r.1) := by
      rw [hq, evalStart_still _ hs]
    exact key _ hif
  have meets : a.meetHeld src = if a.lowered then (a.raise .spanConflict, []) else a.lowerIdKeeps src := by
    have hf : a.scu.state = .firm := hfirm
    unfold State.meetHeld
    rw [hf]
  have hlowered : a.lowered = s.lowered := rfl
  refine ⟨fun hl => ?_, fun hl hid => ?_, fun hl hid => ?_⟩
  · exact taken (a.raise .spanConflict, []) (by rw [meets, hlowered, hl]; rfl) hstill
  · refine taken (a, []) ?_ hstill
    rw [meets, hlowered, hl, if_neg (by simp)]
    exact if_pos hid
  · have hkeeps : a.meetHeld src = (a.loseClaim, [.lost]) := by
      rw [meets, hlowered, hl, if_neg (by simp)]
      exact if_neg (Nat.lt_asymm hid)
    obtain ⟨hretry, -⟩ := loseClaim_retries hstill
    rw [taken _ hkeeps (by rw [hretry]; rfl)]
    simp [clearNotices, hretry, ClaimState.guardOrFirm]

/-- What DSQ makes of the loss of its span (R116, R119, R126). -/
theorem onNotice_lost_running {s : State} (hparked : s.dsq.state ≠ .parked) (hhalted : s.dsq.state ≠ .halted) :
    (s.onNotice .lost).scu = s.scu ∧ (s.onNotice .lost).spt = s.spt ∧ (s.onNotice .lost).lif = s.lif ∧
      ∀ p, s.dsq.state = .heatWait p → (s.onNotice .lost).dsq.state = .awaitLower p := by
  unfold State.onNotice
  simp only []
  split
  · rename_i p hwait
    exact ⟨rfl, rfl, rfl, fun q hq => by rw [hwait] at hq; cases hq; rfl⟩
  · contradiction
  · contradiction
  · rename_i hother _ _
    exact ⟨rfl, rfl, rfl, fun p hp => absurd hp (hother p)⟩

theorem onNotice_lost_standing {s : State} (hdsq : s.dsq.state = .parked ∨ s.dsq.state = .halted)
    (hretry : s.scu.state = .retry) (hheld : s.scu.held = none) :
    (s.onNotice .lost).scu.state = .none ∧ (s.onNotice .lost).scu.own = none ∧ (s.onNotice .lost).scu.wanted = none ∧
      (s.onNotice .lost).scu.retryEnd = none ∧ (s.onNotice .lost).spt = s.spt ∧ (s.onNotice .lost).lif = s.lif ∧
      (s.onNotice .lost).dsq = s.dsq := by
  have hcancel : s.onNotice .lost = s.cancelClaim := by
    unfold State.onNotice
    rcases hdsq with h | h <;> simp only [h]
  rw [hcancel]
  unfold State.cancelClaim State.endClaim
  simp only [hretry, hheld]
  exact ⟨rfl, rfl, rfl, rfl, rfl, rfl, rfl⟩

/-- Settles O36: after the delivery, the claim machine's answer to the HOLD and then DSQ's to the notice. -/
theorem foreignHoldOnAFirmSpan : Obligations.ForeignHoldOnAFirmSpan := by
  intro s src seq f l n w own heard hspan hfirm hwanted hoverlaps
  have hexec := exec_hold_hears s src seq f l n w heard hspan
  have stands := delivered_stands s src seq none (by rw [hfirm]; rfl)
  refine ⟨_, hexec, ?_⟩
  generalize s.countGood.hearPeer src seq none = u at stands ⊢
  have hstate : u.scu.state = .firm := by rw [stands.scu]; exact hfirm
  have hmeets : u.scu.meets ⟨f.toNat, l.toNat, w⟩ = true := by
    unfold Scu.meets
    rw [stands.scu, hwanted]
    exact hoverlaps
  have hid : u.ownId = s.ownId := by unfold State.ownId; rw [stands.cfg]
  obtain ⟨hconflict, hkeeps, hloses⟩ := scuHold_firm src ⟨⟨f.toNat, l.toNat, w⟩, 0, n⟩ hstate hmeets
  rw [stands.lowered] at hconflict hkeeps hloses
  rw [hid] at hkeeps hloses
  have hstill : (u.putEntry (u.holdEntry src ⟨⟨f.toNat, l.toNat, w⟩, 0, n⟩)).scu.state.isStill = true := by
    show u.scu.state.isStill = true
    rw [hstate]
    rfl
  have hover := overlapped_putEntry (s := u) (e := u.holdEntry src ⟨⟨f.toNat, l.toNat, w⟩, 0, n⟩) hmeets
  have hown : (u.putEntry (u.holdEntry src ⟨⟨f.toNat, l.toNat, w⟩, 0, n⟩)).scu.own = s.scu.own := by rw [← stands.scu]; rfl
  refine ⟨fun hl => ?conflict, fun hl hlow => ?keeps, fun hl hhigh => ?loses⟩
  case conflict =>
    rw [hconflict hl]
    obtain ⟨hscu, hspt⟩ := notify_overlapped (s := u)
      (t := (u.putEntry (u.holdEntry src ⟨⟨f.toNat, l.toNat, w⟩, 0, n⟩)).raise .spanConflict) hover
    refine ⟨by rw [hscu]; exact hstate, by rw [hscu]; exact hown, ?_⟩
    rw [hspt]
    exact raise_raised u.spt .spanConflict
  case keeps =>
    rw [hkeeps hl hlow]
    obtain ⟨hscu, -⟩ := notify_overlapped (s := u) hover
    exact ⟨by rw [hscu]; exact hstate, by rw [hscu]; exact hown⟩
  case loses =>
    rw [hloses hl hhigh]
    obtain ⟨h1, h2, h3, h4, h5, h6, h7, h8⟩ := loseClaim_retries hstill
    have hclaim (o : OwnEntry) (ho : s.scu.own = some o) :
        (u.putEntry (u.holdEntry src ⟨⟨f.toNat, l.toNat, w⟩, 0, n⟩)).ownClaim = o.claim := by
      unfold State.ownClaim
      rw [hown, ho]
      rfl
    have hwant : (u.putEntry (u.holdEntry src ⟨⟨f.toNat, l.toNat, w⟩, 0, n⟩)).scu.wanted = some own :=
      (congrArg Scu.wanted stands.scu :).trans hwanted
    have hhold : (u.putEntry (u.holdEntry src ⟨⟨f.toNat, l.toNat, w⟩, 0, n⟩)).scu.held = s.scu.held :=
      (congrArg Scu.held stands.scu :)
    have hdsq : (u.putEntry (u.holdEntry src ⟨⟨f.toNat, l.toNat, w⟩, 0, n⟩)).dsq.state = s.dsq.state := stands.dsqState
    have hplaces : (u.putEntry (u.holdEntry src ⟨⟨f.toNat, l.toNat, w⟩, 0, n⟩)).lif.places = s.lif.places := stands.places
    have hdelay : (u.putEntry (u.holdEntry src ⟨⟨f.toNat, l.toNat, w⟩, 0, n⟩)).now +
        (u.putEntry (u.holdEntry src ⟨⟨f.toNat, l.toNat, w⟩, 0, n⟩)).retryDelay =
        s.now + roundNat ((s.ownId.toNat + 1) * s.cfg.params.claimWindow) 4 := by
      show u.now + roundNat ((u.ownId.toNat + 1) * u.cfg.params.claimWindow) 4 = _
      rw [stands.now, hid, stands.cfg]
    generalize u.putEntry (u.holdEntry src ⟨⟨f.toNat, l.toNat, w⟩, 0, n⟩) = a at *
    rw [hwant] at h3
    rw [hhold] at h4
    rw [hdelay] at h5
    rw [hdsq] at h6
    rw [hplaces] at h7
    show _ ∧ _
    refine ⟨fun hparked hhalted => ?_, fun hstanding hnoheld => ?_⟩
    · obtain ⟨hscu, hspt, hlif, hwait⟩ := onNotice_lost_running (s := a.loseClaim) (by rw [h6]; exact hparked)
        (by rw [h6]; exact hhalted)
      show ((a.loseClaim.onNotice .lost).scu.own = none ∧ (a.loseClaim.onNotice .lost).spt.isRaised .spanLost = true ∧
        ∀ o, s.scu.own = some o → s.lif.places < 8 → (a.loseClaim.onNotice .lost).lif.holds (· == .free o.claim) = true) ∧
        (a.loseClaim.onNotice .lost).scu.state = .retry ∧ (a.loseClaim.onNotice .lost).scu.wanted = some own ∧
        (a.loseClaim.onNotice .lost).scu.retryEnd = _ ∧ ∀ p, s.dsq.state = .heatWait p →
          (a.loseClaim.onNotice .lost).dsq.state = .awaitLower p
      rw [hscu, hspt, hlif]
      exact ⟨⟨h2, h8, fun o ho hroom => by rw [← hclaim o ho]; exact h7 hroom⟩, h1, h3, h5,
        fun p hp => hwait p (by rw [h6]; exact hp)⟩
    · obtain ⟨k1, k2, k3, k4, k5, k6, k7⟩ := onNotice_lost_standing (s := a.loseClaim) (by rw [h6]; exact hstanding) h1
        (by rw [h4]; exact hnoheld)
      show ((a.loseClaim.onNotice .lost).scu.own = none ∧ (a.loseClaim.onNotice .lost).spt.isRaised .spanLost = true ∧
        ∀ o, s.scu.own = some o → s.lif.places < 8 → (a.loseClaim.onNotice .lost).lif.holds (· == .free o.claim) = true) ∧
        (a.loseClaim.onNotice .lost).scu.state = .none ∧ (a.loseClaim.onNotice .lost).scu.wanted = none ∧
        (a.loseClaim.onNotice .lost).scu.retryEnd = none ∧ (a.loseClaim.onNotice .lost).dsq.state = s.dsq.state
      rw [k5, k6, k7]
      exact ⟨⟨k2, h8, fun o ho hroom => by rw [← hclaim o ho]; exact h7 hroom⟩, k1, k3, k4, h6⟩

/-! ### An INTENT over a claim in its window -/

theorem outranks_iff (lastEntry ownId src : StationId) (own age : Nat) :
    outranks lastEntry ownId src own age = true ↔
      own < age ∨ (age = own ∧ (src - (lastEntry + 1)).toNat < (ownId - (lastEntry + 1)).toNat) := by
  simp [outranks, rotation]

/-- The claim machine's part of an INTENT that overlaps a claim in its window; DSQ is told nothing (R47, R48). -/
theorem notify_scuIntent_window {s : State} (src : StationId) (i : ClaimInfo) (hwindow : s.scu.state = .claimingWindow)
    (hmeets : s.scu.meets i.span = true) :
    notify (s.scuIntent src i) = if s.foreignOutranks src i.age then (s.putEntry (s.intentEntry src i)).yieldClaim
      else s.putEntry (s.intentEntry src i) := by
  have hstill : (s.putEntry (s.intentEntry src i)).scu.state.isStill = true := by
    show s.scu.state.isStill = true
    rw [hwindow]
    rfl
  have hfst : (s.scuIntent src i).1 = if s.foreignOutranks src i.age then (s.putEntry (s.intentEntry src i)).yieldClaim
      else s.putEntry (s.intentEntry src i) := by
    have key (a : State) (ha : a.scu.state = .claimingWindow) (hm : a.scu.meets i.span = true) :
        (if a.scu.meets i.span then a.meetIntent src (some i.age) else a).evalStart =
          if a.foreignOutranks src i.age then a.yieldClaim else a := by
      rw [if_pos hm]
      unfold State.meetIntent
      simp only [ha]
      split
      · refine evalStart_still _ ?_
        rw [show a.yieldClaim.scu.state = .retry from rfl]
        rfl
      · exact evalStart_still _ (by rw [ha]; rfl)
    exact key _ hwindow hmeets
  have hsnd : (s.scuIntent src i).2 = [] := clearNotices_unguarded _ _ (by rw [hwindow]; rfl)
  unfold notify
  rw [hsnd, ← hfst]
  rfl

/-- Settles O37: the rank decides between the YIELD and the claim as it was. -/
theorem outrankedClaimYields : Obligations.OutrankedClaimYields := by
  intro s src seq f l age n w span own heard hspan hwindow hwanted hown hoverlaps distance
  have hexec := exec_intent_hears s src seq f l age n w heard hspan
  have stands := delivered_stands s src seq none (by rw [hwindow]; rfl)
  refine ⟨_, hexec, ?_⟩
  generalize s.countGood.hearPeer src seq none = u at stands ⊢
  have hstate : u.scu.state = .claimingWindow := by rw [stands.scu]; exact hwindow
  have hmeets : u.scu.meets ⟨f.toNat, l.toNat, w⟩ = true := by
    unfold Scu.meets
    rw [stands.scu, hwanted]
    exact hoverlaps
  have hid : u.ownId = s.ownId := by unfold State.ownId; rw [stands.cfg]
  have hrank : u.foreignOutranks src age.toNat = true ↔
      (own.age < age.toNat ∨ (age.toNat = own.age ∧ distance src < distance s.ownId)) := by
    unfold State.foreignOutranks
    rw [stands.scu, hown, hid]
    exact outranks_iff _ _ _ _ _
  rw [notify_scuIntent_window src ⟨⟨f.toNat, l.toNat, w⟩, age.toNat, n⟩ hstate hmeets]
  refine ⟨fun hloses => ?_, fun hkeeps => ?_⟩
  · rw [if_pos (hrank.mpr hloses)]
    obtain ⟨h1, h2, h3, h4, -, h6, -, h8⟩ := offer_enterRetry
      (s := u.putEntry (u.intentEntry src ⟨⟨f.toNat, l.toNat, w⟩, age.toNat, n⟩))
      (.yield (u.putEntry (u.intentEntry src ⟨⟨f.toNat, l.toNat, w⟩, age.toNat, n⟩)).ownClaim) (by simp)
      (by show u.scu.state.isStill = true; rw [hstate]; rfl)
    have hclaim : (u.putEntry (u.intentEntry src ⟨⟨f.toNat, l.toNat, w⟩, age.toNat, n⟩)).ownClaim = own.claim := by
      show (u.scu.own.map OwnEntry.claim).getD 0 = _
      rw [stands.scu, hown]
      rfl
    refine ⟨h1, h2, h3.trans ?_, h4, h6.trans ?_, fun hroom => ?_⟩
    · show u.scu.wanted = _
      rw [stands.scu, hwanted]
    · show some (u.now + roundNat ((u.ownId.toNat + 1) * u.cfg.params.claimWindow) 4) = _
      rw [stands.now, hid, stands.cfg]
    · rw [← hclaim]
      exact h8 (by show u.lif.places < 8; rw [stands.places]; exact hroom)
  · rw [if_neg (fun h => hkeeps (hrank.mp h))]
    exact ⟨hstate, (congrArg Scu.own stands.scu :).trans hown, (congrArg Scu.windowEnd stands.scu :)⟩

end Sys2Proof.Machine
end

section
/-! PROOFS. The sequencer and the line: whatever a dip does, the line state and the sequence counter stand; they move by
the commands of the line alone (sections 1.3 and 1.5). -/

namespace Sys2Proof.Machine

/-- A move that leaves the line state and the sequence counter. -/
structure SameLine (s t : State) : Prop where
  line : t.lif.line = s.lif.line
  seq : t.lif.seq = s.lif.seq

theorem SameLine.of_lif {s t : State} (h : t.lif = s.lif) : SameLine s t := ⟨by rw [h], by rw [h]⟩

theorem SameLine.of_aside {s t : State} (h : Aside s t) : SameLine s t := ⟨h.line, h.seq⟩

theorem SameLine.trans {s t u : State} (h : SameLine s t) (k : SameLine t u) : SameLine s u :=
  ⟨k.line.trans h.line, k.seq.trans h.seq⟩

theorem line_stopImmersion (s : State) : SameLine s s.stopImmersion := .of_lif (by rw [(stopImmersion_eq s).1]; rfl)

theorem line_endWeighTask (s : State) : SameLine s s.endWeighTask := by
  unfold State.endWeighTask
  split <;> exact .of_lif rfl

theorem line_haltDip (s : State) (f : DipFault) : SameLine s (s.haltDip f) := by
  have started (d : Dsq) : SameLine s (s.withDsq d).stopImmersion.stopDwell :=
    (SameLine.of_lif (by rfl)).trans ((line_stopImmersion (s.withDsq d)).trans (.of_lif rfl))
  have finished (a : State) (p : Position) (e : Event) :
      SameLine a (((a.withdrawHeat.cancelUnheld.setPosition p).toDsq .halted).raise e) :=
    (SameLine.of_lif (t := a.withdrawHeat) (by rfl)).trans
      ((SameLine.of_aside (aside_cancelUnheld a.withdrawHeat)).trans (.of_lif rfl))
  have ended (a : State) (h : SameLine s a) (d : Dsq) (p : Position) : SameLine s
      ((((((a.withDsq d).endWeighTask).withdrawHeat.cancelUnheld.setPosition p).toDsq .halted).raise f.event).raise
        .haltedEv) :=
    ((h.trans (.of_lif (t := a.withDsq d) rfl)).trans (line_endWeighTask (a.withDsq d))).trans
      ((finished (a.withDsq d).endWeighTask p f.event).trans (.of_lif rfl))
  exact ended _ (started _) _ _

theorem line_offerPickup (s : State) (n : Nat) (k : Option SteelClass) (q : BitVec 32) :
    SameLine s (s.offerPickup n k q) := by
  obtain ⟨l, x, -, haside⟩ := putZ_aside s (s.zbr.z - n)
  have offered (u : State) : SameLine u
      ((u.withZbr { u.zbr with ownSeq := u.zbr.ownSeq + 1 }).offer (.pickup s.zbr.ownSeq n k q)) :=
    (SameLine.of_lif (by rfl)).trans (.of_aside (aside_offer (u.withZbr { u.zbr with ownSeq := u.zbr.ownSeq + 1 }) _))
  exact ((SameLine.of_lif (by rfl)).trans (.of_aside haside)).trans
    (offered (s.consume n))

theorem line_createRecord (s : State) (o : DipOutcome) : SameLine s (s.createRecord o) := by
  have appended (u : State) (r : DipRecord) : SameLine u (u.appendRecord r) := by
    obtain ⟨y, -, -, -, h⟩ := appendRecord_eq u r
    rw [h]
    exact (SameLine.of_lif (by rfl)).trans (line_offerPickup _ _ _ _)
  have recorded (c : DipCtx) : SameLine s (s.recordDip c o) := by
    let r := makeRecord s.cfg.params s.pku c o
    obtain ⟨x, hraise, -, -⟩ := raiseAll_eq (s.withPku (s.pku.afterRecord s.cfg.params.lockCount c.lot r.dipClass))
      (s.pku.recordEvents s.cfg.params.lockCount c.lot r.dipClass)
    show SameLine s (State.appendRecord _ r)
    rw [hraise]
    exact (SameLine.of_lif (by rfl)).trans (appended _ r)
  unfold State.createRecord
  split
  · split
    · exact .of_lif rfl
    · exact recorded _
  · exact .of_lif rfl

theorem line_requestSpan (s : State) (n : Nat) (w : Bool) : SameLine s (s.requestSpan n w).1 := by
  unfold State.requestSpan
  split
  · split
    · exact .of_lif rfl
    · exact (SameLine.of_lif (t := s.withScu (s.scu.noteRequest s.now)) (by rfl)).trans (.of_aside (aside_enterBlocked _ _))
  · split
    · split <;> exact .of_lif rfl
    · exact .of_lif rfl

theorem line_requestHeat (s : State) (m i : Nat) : SameLine s (s.requestHeat m i).1 := by
  have granted (b : Bool) : SameLine s (s.grantEntry m i b) := by
    have offered (u : State) : SameLine u (u.offerEntry m i) :=
      (SameLine.of_lif (t := u.takeEntry u.ownId m i) (by rfl)).trans (.of_aside (aside_offer _ _))
    have taken := (SameLine.of_lif (s := s) (by rfl)).trans (offered (s.withHwn { s.hwn with request := .none }))
    unfold State.grantEntry
    cases b
    · exact taken
    · exact taken.trans (.of_lif rfl)
  unfold State.requestHeat
  split
  · split
    · split
      · exact granted false
      · exact .of_lif rfl
    · split
      · exact granted true
      · exact .of_lif rfl
  · exact .of_lif rfl

theorem line_takeGrant (s : State) (p : LowerArgs) (b : Bool) : SameLine s (s.takeGrant p b) := by
  have key (a : State) (h : a.lif = s.lif) :
      SameLine s (if a.firmAndClear then (a.sendMotion (.lower p.depth p.speed)).toDsq .lowering
        else a.toDsq (.awaitLower p)) := by
    split <;> exact .of_lif h
  refine key _ ?_
  split <;> rfl

theorem line_tryLower (s : State) (p : LowerArgs) : SameLine s (s.tryLower p) := by
  unfold State.tryLower State.askHeat
  split
  · split
    · exact .of_lif rfl
    · rename_i c _
      have asked := line_requestHeat s (enteringMass c.dry c.nominal p.fraction) (if c.immersions = 0 then 1 else 2)
      split
      · rename_i t ht; rw [ht] at asked; exact asked.trans (line_takeGrant t p false)
      · rename_i t ht; rw [ht] at asked; exact asked.trans (line_takeGrant t p true)
      · rename_i t ht; rw [ht] at asked; exact asked.trans (.of_lif rfl)
      · rename_i t ht; rw [ht] at asked; exact asked
  · exact .of_lif rfl

theorem line_takeEnd (s : State) : SameLine s s.takeEnd := by
  have key (a : State) (h : SameLine s a) :
      SameLine s (if a.scu.state.isHeld then ((a.createRecord .complete).toDsq .parked).raise .parkedEv
        else (a.createRecord .complete).returnIdle.raise .dipDone) := by
    split
    · exact (h.trans (line_createRecord a _)).trans (.of_lif rfl)
    · exact (h.trans (line_createRecord a _)).trans (.of_lif rfl)
  refine key _ ?_
  split
  · exact (line_stopImmersion s).trans (.of_aside (aside_cancelClaim _))
  · exact line_stopImmersion s

theorem line_takeRelease (s : State) : SameLine s s.takeRelease.1 := by
  have cancelled := SameLine.of_aside (aside_cancelClaim s)
  unfold State.takeRelease
  split
  · exact (SameLine.of_aside (aside_releaseSpan s)).trans (.of_lif rfl)
  · split
    · split
      · exact cancelled
      · exact cancelled.trans (.of_lif rfl)
    · exact .of_lif rfl

theorem line_takeClaim (s : State) (n : Nat) (w : Bool) : SameLine s (s.takeClaim n w) := by
  have asked := line_requestSpan s n w
  unfold State.takeClaim
  split
  · rename_i t ht; rw [ht] at asked; exact asked.trans (line_haltDip t _)
  · rename_i t ht; rw [ht] at asked; exact asked.trans (line_haltDip t _)
  · rename_i t ht; rw [ht] at asked; exact asked.trans (.of_lif rfl)

theorem line_takeStep (s : State) (st : DipStep) : SameLine s (s.takeStep st).1 := by
  cases st <;> simp only [State.takeStep]
  case weighDry => exact .of_lif rfl
  case travel =>
    split
    · exact line_haltDip s _
    · exact .of_lif rfl
  case claim l w => exact line_takeClaim s l w
  case lower =>
    split
    · exact line_haltDip s _
    · exact line_tryLower s _
  case dwell => exact .of_lif rfl
  case raise => exact (line_stopImmersion s).trans (.of_lif rfl)
  case drain => exact .of_lif rfl
  case vibrate => exact .of_lif rfl
  case weighOut => exact .of_lif rfl
  case release =>
    split
    · exact line_haltDip s _
    · exact line_takeRelease s
  case finish => exact line_takeEnd s
  case chain =>
    split
    · exact line_haltDip s _
    · exact .of_lif rfl

theorem line_runSteps (n : Nat) (s : State) : SameLine s (State.runSteps n s) := by
  induction n generalizing s with
  | zero => exact .of_lif rfl
  | succ n ih =>
    unfold State.runSteps
    split
    · exact .of_lif rfl
    · rename_i st _
      have taken := line_takeStep s st
      split
      · rename_i t ht; rw [ht] at taken; exact taken
      · rename_i t ht; rw [ht] at taken; exact (taken.trans (.of_lif (t := t.advance) rfl)).trans (ih t.advance)
      · rename_i t ht; rw [ht] at taken; exact taken.trans (ih t)

theorem line_endStep (s : State) : SameLine s s.endStep :=
  (SameLine.of_lif (t := s.advance) (by rfl)).trans (line_runSteps _ _)

theorem line_onNotice (s : State) (n : SpanNotice) : SameLine s (s.onNotice n) := by
  cases n <;> simp only [State.onNotice]
  case firm =>
    split
    · exact line_endStep s
    · exact line_tryLower s _
    · exact .of_lif rfl
  case lost =>
    split
    · exact .of_lif rfl
    · exact .of_aside (aside_cancelClaim s)
    · exact .of_aside (aside_cancelClaim s)
    · exact .of_lif rfl
  case gone =>
    split
    · split
      · exact ((SameLine.of_lif (by rfl)).trans (line_createRecord (s.setPosition .clear) _)).trans (.of_lif rfl)
      · exact (SameLine.of_lif (t := s.setPosition .clear) (by rfl)).trans (line_endStep _)
    · exact .of_lif rfl
  case ended =>
    split
    · exact line_endStep s
    · exact .of_lif rfl
  case clearChanged =>
    split
    · exact line_tryLower s _
    · split <;> exact .of_lif rfl
    · exact .of_lif rfl

theorem line_onNotices (s : State) (ns : List SpanNotice) : SameLine s (s.onNotices ns) := by
  induction ns generalizing s with
  | nil => exact .of_lif rfl
  | cons n rest ih => exact (line_onNotice s n).trans (ih _)

end Sys2Proof.Machine
end

section
/-! PROOFS. The attempts of the current frame and their success (sections 1.4 and 1.5; statements O42, O44). -/

namespace Sys2Proof.Machine

/-! ### The transmit queue -/

theorem maySend_iff (l : Lif) (f : TxFrame) :
    l.maySend f = true ↔ f.isIntent = false ∨ (l.line = .active ∧ l.clashEnd = none) := by
  simp [Lif.maySend, Lif.intentAllowed]

/-- A frame goes before the first of its class and after every more urgent one. -/
theorem insertFrameHead_split (f : TxFrame) (urgent rest : List TxFrame) (hu : ∀ g ∈ urgent, g.urgency < f.urgency)
    (hr : ∀ g ∈ rest, f.urgency ≤ g.urgency) : insertFrameHead f (urgent ++ rest) = urgent ++ f :: rest := by
  induction urgent with
  | nil =>
    cases rest with
    | nil => rfl
    | cons g rest => exact if_pos (hr g (List.mem_cons_self ..))
  | cons g urgent ih =>
    have hg : ¬ f.urgency ≤ g.urgency := Nat.not_le.mpr (hu g (List.mem_cons_self ..))
    show (if f.urgency ≤ g.urgency then _ else g :: insertFrameHead f (urgent ++ rest)) = _
    rw [if_neg hg, ih fun x hx => hu x (List.mem_cons_of_mem _ hx)]
    rfl

theorem takeFirst_split {p : TxFrame → Bool} {f : TxFrame} {older newer : List TxFrame} (ho : ∀ g ∈ older, p g = false)
    (hf : p f = true) : takeFirst p (older ++ f :: newer) = some (f, older ++ newer) := by
  induction older with
  | nil => exact if_pos hf
  | cons g older ih =>
    show (if p g then _ else (takeFirst p (older ++ f :: newer)).map _) = _
    rw [if_neg (by simp [ho g (List.mem_cons_self ..)]), ih fun x hx => ho x (List.mem_cons_of_mem _ hx)]
    rfl

theorem takeFirst_none {p : TxFrame → Bool} {q : List TxFrame} (h : ∀ g ∈ q, p g = false) : takeFirst p q = none := by
  induction q with
  | nil => rfl
  | cons g q ih =>
    show (if p g then _ else (takeFirst p q).map _) = _
    rw [if_neg (by simp [h g (List.mem_cons_self ..)]), ih fun x hx => h x (List.mem_cons_of_mem _ hx)]
    rfl

/-- A frame that has become current is not taken again. -/
theorem takeCurrent_current {l : Lif} {c : Current} (h : l.current = some c) : l.takeCurrent = l := by
  unfold Lif.takeCurrent
  rw [h]

theorem takeCurrent_takes {l : Lif} {r : TxFrame × List TxFrame} (hc : l.current = none) (hl : l.line ≠ .off)
    (h : takeFirst l.maySend l.waiting = some r) :
    l.takeCurrent = { l with current := some (Current.start r.1), waiting := r.2 } := by
  unfold Lif.takeCurrent
  simp only [hc, if_neg hl, h]

theorem takeCurrent_leaves {l : Lif} (h : l.line = .off ∨ takeFirst l.maySend l.waiting = none) :
    l.takeCurrent = l := by
  unfold Lif.takeCurrent
  split
  · rfl
  · split
    · rfl
    · rename_i hl
      rw [h.resolve_left hl]

theorem takeCurrent_idem (l : Lif) : l.takeCurrent.takeCurrent = l.takeCurrent := by
  cases hc : l.current with
  | some c => rw [takeCurrent_current hc, takeCurrent_current hc]
  | none =>
    by_cases hl : l.line = .off
    · rw [takeCurrent_leaves (.inl hl), takeCurrent_leaves (.inl hl)]
    · cases hf : takeFirst l.maySend l.waiting with
      | none => rw [takeCurrent_leaves (.inr hf), takeCurrent_leaves (.inr hf)]
      | some r =>
        rw [takeCurrent_takes hc hl hf]
        exact takeCurrent_current rfl

/-! ### The frame an attempt drives -/

/-- A frame's CRC is read back from its two bytes. -/
theorem high_append_low (x : BitVec 16) :
    (BitVec.ofNat 8 (x.toNat / 256) ++ BitVec.ofNat 8 x.toNat : BitVec 16) = x := by
  apply BitVec.eq_of_toNat_eq
  have hx := x.isLt
  rw [BitVec.toNat_append, BitVec.toNat_ofNat, BitVec.toNat_ofNat, ← Nat.shiftLeft_add_eq_or_of_lt (by omega),
    Nat.shiftLeft_eq]
  omega

/-! ### The commands of an attempt -/

theorem exec_attemptStart {s : State} {c : Current} (hc : s.lif.current = some c) (hp : c.phase = .deferring) :
    exec .attemptStart s = if s.lif.maySend c.frame then .next (s.toPhase c (.onLine (s.lineFrame c.frame)))
      else .next (s.withLif (s.lif.putBack c)) := by
  show execAttemptStart s = _
  unfold execAttemptStart
  simp only [hc, hp]

theorem exec_backoffExpiry {s : State} {c : Current} {n : Nat} (hc : s.lif.current = some c) (hp : c.phase = .backoff n) :
    exec .backoffExpiry s = if s.lif.maySend c.frame then .next (s.toPhase c .deferring)
      else .next (s.withLif (s.lif.putBack c)) := by
  show execBackoffExpiry s = _
  unfold execBackoffExpiry
  simp only [hc, hp]

theorem exec_sendSuccess {s : State} {c : Current} {bytes : List Byte} (hc : s.lif.current = some c)
    (hp : c.phase = .onLine bytes) : exec .sendSuccess s = .next (s.frameSent c) := by
  show execSendSuccess s = _
  unfold execSendSuccess
  simp only [hc, hp]

/-- Settles O42: the frame may be sent or goes back; where it goes in its class and what its bytes are. -/
theorem attemptDrivesTheCurrentFrame : Obligations.AttemptDrivesTheCurrentFrame := by
  refine ⟨fun s c hc => ⟨fun hmay => ?_, fun hintent hbarred l hl => ?_⟩, insertFrameHead_split,
    fun code src seq payload _ => ⟨rfl, fun body => ⟨_, _, rfl, high_append_low _⟩⟩⟩
  · have may := (maySend_iff s.lif c.frame).mpr hmay
    exact ⟨fun hp => by rw [exec_attemptStart hc hp, if_pos may]; rfl,
      fun n hp => by rw [exec_backoffExpiry hc hp, if_pos may]; rfl⟩
  · have mayNot : ¬ s.lif.maySend c.frame = true := fun h =>
      hbarred (((maySend_iff _ _).mp h).resolve_left (by simp [hintent]))
    rw [hl]
    exact ⟨fun hp => by rw [exec_attemptStart hc hp, if_neg mayNot]; rfl,
      fun n hp => by rw [exec_backoffExpiry hc hp, if_neg mayNot]; rfl⟩

/-! ### What a report to SCU leaves alone -/

/-- A claim that is not BLOCKED, or that may not start, is left by an evaluation as it was (R43). -/
theorem evalStart_stands {s : State} (h : s.scu.state = .blocked → s.mayStart = false) : s.evalStart = s := by
  unfold State.evalStart
  split
  · rename_i hb _
    rw [h hb]
    rfl
  · rfl

theorem mayStart_barred {s : State} (h : s.scu.overlapped = true ∨ s.lif.line ≠ .active ∨ s.lif.clashEnd ≠ none ∨
    s.zbr.level = .stopped) : s.mayStart = false := by
  unfold State.mayStart Zbr.isOpen
  rcases h with h | h | h | h
  · simp [h]
  · simp [h]
  · simp [Option.isNone_iff_eq_none, h]
  · simp [h]

/-- A place become free means nothing to a claim that owes the line no FREE and that may not start. -/
theorem placeFreed_stands {s : State}
    (hfree : ∀ own, s.scu.state = .releasing → s.scu.own = some own → s.lif.holds (TxFrame.isFreeOf own.claim) = true)
    (hblocked : s.scu.state = .blocked → s.mayStart = false) : s.placeFreed = s := by
  unfold State.placeFreed
  simp only []
  split
  · rename_i own hr ho
    rw [if_pos (hfree own hr ho)]
    exact evalStart_stands hblocked
  · exact evalStart_stands hblocked

/-- A completion that no claim waits for (R14). -/
theorem sendCompletion_unaddressed {s : State} {f : TxFrame} (hp : s.scu.state ≠ .pending)
    (hh : s.scu.state ≠ .claimingHoldQueued)
    (hr : ∀ own, s.scu.state = .releasing → s.scu.own = some own → f ≠ .free own.claim) :
    s.sendCompletion f = (s, []) := by
  cases f <;> try rfl
  case hold sp n => exact congrArg (·, []) (if_neg fun h => hh h.1)
  case intent sp age n => exact if_neg fun h => hp h.1
  case free n =>
    refine if_neg fun h => ?_
    obtain ⟨own, ho, hn⟩ := Option.map_eq_some_iff.mp h.2
    exact hr own h.1 ho (by rw [hn])

/-! ### The end of a FAULT -/

/-- The line state a successful send leaves (R16). -/
def Lif.sentLine (l : Lif) : LineState := if l.line = .fault then l.afterFault else l.line

/-- The line, the sequence counter and the events after the end of a FAULT, where the line was in one. -/
theorem endFault_line (s : State) : s.endFault.lif.line = s.lif.sentLine ∧ s.endFault.lif.seq = s.lif.seq ∧
    EventsGrow s.spt s.endFault.spt ∧ (s.lif.line = .fault → s.endFault.spt.isRaised .lineRestored = true) := by
  unfold State.endFault Lif.sentLine
  cases hl : s.lif.line <;> try exact ⟨hl, rfl, EventsGrow.refl _, nofun⟩
  have restored := raise_raised s.spt .lineRestored
  have grown := eventsGrow_raise s.spt .lineRestored
  simp only [if_true]
  split
  · have aside := aside_evalStart (((s.withLif { s.lif with line := s.lif.afterFault }).raise .lineRestored).raise
      .lineDegraded)
    have more := eventsGrow_raise (s.spt.raise .lineRestored) .lineDegraded
    refine ⟨aside.line, aside.seq, ?_, fun _ => ?_⟩
    · rw [aside.spt]; exact grown.trans more
    · rw [aside.spt]; exact more.raised _ restored
  · have aside := aside_evalStart ((s.withLif { s.lif with line := s.lif.afterFault }).raise .lineRestored)
    refine ⟨aside.line, aside.seq, ?_, fun _ => ?_⟩
    · rw [aside.spt]; exact grown
    · rw [aside.spt]; exact restored

/-- Where no claim may start the end of a FAULT moves the line state alone. -/
theorem endFault_stands {s : State} (h : s.scu.state = .blocked → s.scu.overlapped = true ∨ s.lif.sentLine ≠ .active ∨
    s.lif.clashEnd ≠ none ∨ s.zbr.level = .stopped) :
    ∃ x, s.endFault = (s.withLif { s.lif with line := s.lif.sentLine }).withSpt x := by
  unfold State.endFault
  cases hl : s.lif.line <;> try exact ⟨s.spt, by simp only [Lif.sentLine, hl, if_neg, reduceCtorEq, not_false_eq_true]; rw [← hl]; rfl⟩
  have hafter : s.lif.sentLine = s.lif.afterFault := if_pos hl
  simp only [← hafter]
  have stands (x : Spt) : ((s.withLif { s.lif with line := s.lif.sentLine }).withSpt x).evalStart =
      (s.withLif { s.lif with line := s.lif.sentLine }).withSpt x :=
    evalStart_stands fun hb => mayStart_barred (h hb)
  split
  · exact ⟨_, stands _⟩
  · exact ⟨_, stands _⟩

/-! ### A successful send -/

/-- The state in which the completion of the current frame reaches SCU (R14). -/
def State.completing (s : State) : State :=
  (s.withLif { s.lif with current := none, seq := s.lif.seq + 1 }).endFault

/-- What the queue is, once the sent frame has left it. -/
def State.leftQueue (s : State) : Lif :=
  { s.lif with line := s.lif.sentLine, current := none, seq := s.lif.seq + 1 }

theorem completing_stands {s : State} (h : s.scu.state = .blocked → s.scu.overlapped = true ∨ s.lif.sentLine ≠ .active ∨
    s.lif.clashEnd ≠ none ∨ s.zbr.level = .stopped) :
    ∃ x, s.completing = (s.withLif s.leftQueue).withSpt x :=
  endFault_stands (s := s.withLif { s.lif with current := none, seq := s.lif.seq + 1 }) h

/-- Once SCU and DSQ have taken a completion, the next frame is taken, and the free place sets nothing going unless a claim
waits for it. -/
theorem frameSent_taken {s a u : State} {c : Current} (ha : s.completing = a)
    (hu : notify (a.sendCompletion c.frame) = u)
    (hfree : ∀ own, u.scu.state = .releasing → u.scu.own = some own → u.lif.holds (TxFrame.isFreeOf own.claim) = true)
    (hblocked : u.scu.state = .blocked → u.scu.overlapped = true ∨ u.lif.line ≠ .active ∨ u.lif.clashEnd ≠ none ∨
      u.zbr.level = .stopped) : s.frameSent c = u.withLif u.lif.takeCurrent := by
  subst hu ha
  generalize hv : notify (s.completing.sendCompletion c.frame) = v at hfree hblocked ⊢
  have freed : (v.withLif v.lif.takeCurrent).placeFreed = v.withLif v.lif.takeCurrent := by
    refine placeFreed_stands (fun own hr ho => ?_) fun hb => mayStart_barred ?_
    · exact (takeCurrent_holds v.lif _).trans (hfree own hr ho)
    · obtain ⟨hline, -, -, -, -, hclash⟩ := takeCurrent_line v.lif
      show _ ∨ v.lif.takeCurrent.line ≠ _ ∨ v.lif.takeCurrent.clashEnd ≠ _ ∨ _
      rw [hline, hclash]
      exact hblocked hb
  rw [← freed, ← hv]
  rfl

/-- The completion of a frame in a claim that is neither BLOCKED nor RELEASING and has no withdrawal pending comes to a
move of the claim (R14, R46, R50). -/
theorem sendCompletion_moves {s : State} (f : TxFrame) (hb : s.scu.state ≠ .blocked) (hr : s.scu.state ≠ .releasing)
    (hw : s.scu.withdrawal = .none) :
    ∃ x : Scu, notify (s.sendCompletion f) = s.withScu x ∧ x.state ≠ .blocked ∧ x.state ≠ .releasing := by
  have same : ∃ x : Scu, notify (s, []) = s.withScu x ∧ x.state ≠ .blocked ∧ x.state ≠ .releasing := ⟨s.scu, rfl, hb, hr⟩
  cases f <;> try exact same
  case hold sp n =>
    show ∃ x, notify (s.holdSent n, []) = _ ∧ _
    unfold State.holdSent
    split
    · exact ⟨_, rfl, by simp, by simp⟩
    · exact same
  case intent sp age n =>
    show ∃ x, notify (s.intentSent n) = _ ∧ _
    unfold State.intentSent
    split
    · rw [hw]
      exact ⟨_, rfl, by simp, by simp⟩
    · exact same
  case free n =>
    show ∃ x, notify (s.freeSent n) = _ ∧ _
    unfold State.freeSent
    rw [if_neg fun h => hr h.1]
    exact same

/-- A send completion leaves the line state and the sequence counter. -/
theorem line_sendCompletion (s : State) (f : TxFrame) : SameLine s (s.sendCompletion f).1 := by
  have yielded (u : State) : SameLine u u.yieldClaim := .of_aside (aside_yieldClaim u)
  cases f <;> try exact .of_lif rfl
  case hold sp n =>
    show SameLine s (s.holdSent n)
    unfold State.holdSent
    split <;> exact .of_lif rfl
  case intent sp age n =>
    show SameLine s (s.intentSent n).1
    unfold State.intentSent
    split
    · split
      · exact (SameLine.of_aside (aside_offer s _)).trans (.of_aside (aside_endClaim _))
      · simp only []
        split
        · exact (SameLine.of_lif (by rfl)).trans (yielded _)
        · exact .of_lif rfl
      · exact .of_lif rfl
    · exact .of_lif rfl
  case free n =>
    show SameLine s (s.freeSent n).1
    unfold State.freeSent
    split
    · exact .of_aside (aside_endClaim s)
    · exact .of_lif rfl

/-- What every successful send does to the line (R14, R16). -/
theorem frameSent_line (s : State) (c : Current) : (s.frameSent c).lif.seq = s.lif.seq + 1 ∧
    (s.frameSent c).lif.line = s.lif.sentLine ∧
    (s.lif.line = .fault → (s.frameSent c).spt.isRaised .lineRestored = true) := by
  obtain ⟨hline, hseq, -, hrestored⟩ := endFault_line (s.withLif { s.lif with current := none, seq := s.lif.seq + 1 })
  have completed := line_sendCompletion s.completing c.frame
  have quiet := quiet_sendCompletion s.completing c.frame
  have noticed := line_onNotices (s.completing.sendCompletion c.frame).1 (s.completing.sendCompletion c.frame).2
  have calm := calm_onNotices (s.completing.sendCompletion c.frame).1 (s.completing.sendCompletion c.frame).2
  have all := completed.trans noticed
  have grown := quiet.events.trans calm.events
  have freed (u : State) : SameLine u (u.withLif u.lif.takeCurrent).placeFreed ∧
      (u.withLif u.lif.takeCurrent).placeFreed.spt = u.spt :=
    have aside := (aside_takeCurrent u).trans (aside_placeFreed _)
    ⟨.of_aside aside, aside.spt⟩
  obtain ⟨hfreed, hspt⟩ := freed (notify (s.completing.sendCompletion c.frame))
  have whole := all.trans hfreed
  refine ⟨whole.seq.trans hseq, whole.line.trans hline, fun hl => ?_⟩
  have raised := grown.raised _ (hrestored hl)
  exact (congrArg (Spt.isRaised · .lineRestored) hspt).trans raised

/-! ### What the completion does to the claim -/

theorem stopBlocked_since (c : Scu) (now : Nat) : (c.stopBlocked now).blockedSince = none := by
  unfold Scu.stopBlocked
  split
  · rfl
  · assumption

/-- The end of a claim with no request held (R42, R55, R56). -/
theorem endClaim_unheld {s : State} (h : s.scu.held = none) :
    ∃ x : Scu, s.endClaim = s.withScu x ∧ x.state = .none ∧ x.own = none ∧ x.wanted = none ∧ x.blockedSince = none := by
  unfold State.endClaim
  simp only [h]
  exact ⟨_, rfl, rfl, rfl, rfl, stopBlocked_since _ _⟩

/-- DSQ, waiting for no release, makes nothing of the end of a claim, and of a span gone only that the load is CLEAR. -/
theorem onNotice_ended_unawaited {s : State} (h : s.dsq.state ≠ .awaitRelease) : s.onNotice .ended = s := by
  unfold State.onNotice
  simp only []

theorem onNotice_gone_unawaited {s : State} (h : s.dsq.state ≠ .awaitRelease) :
    s.onNotice .gone = s.setPosition .clear := by
  unfold State.onNotice
  simp only []

theorem own_claim_is {s : State} {own : OwnEntry} (h : s.scu.own = some own) :
    s.scu.own.map OwnEntry.claim = some own.claim := by rw [h]; rfl

/-- The own FREE has been sent (R55). -/
theorem notify_freeSent {s : State} {own : OwnEntry} (hr : s.scu.state = .releasing) (ho : s.scu.own = some own)
    (hh : s.scu.held = none) (hd : s.dsq.state ≠ .awaitRelease) :
    ∃ x : Scu, notify (s.sendCompletion (.free own.claim)) = (s.withScu x).setPosition .clear ∧ x.state = .none ∧
      x.own = none := by
  obtain ⟨x, hx, hstate, hown, -, -⟩ := endClaim_unheld hh
  have hsent : s.sendCompletion (.free own.claim) = (s.endClaim, [.gone]) := if_pos ⟨hr, own_claim_is ho⟩
  refine ⟨x, ?_, hstate, hown⟩
  rw [hsent, hx]
  exact onNotice_gone_unawaited hd

/-- The own HOLD has been sent (R50). -/
theorem notify_holdSent {s : State} {own : OwnEntry} (sp : Span) (hq : s.scu.state = .claimingHoldQueued)
    (ho : s.scu.own = some own) : ∃ x : Scu, notify (s.sendCompletion (.hold sp own.claim)) = s.withScu x ∧
      x.state = .guard ∧ x.guardEnd = some (s.now + s.cfg.params.guardTime) ∧ x.blockedSince = none := by
  have hsent : s.holdSent own.claim = s.withScu { s.scu.stopBlocked s.now with
      state := .guard, guardEnd := some (s.now + s.cfg.params.guardTime) } := if_pos ⟨hq, own_claim_is ho⟩
  exact ⟨_, congrArg (fun a => notify (a, [])) hsent, rfl, rfl, stopBlocked_since _ _⟩

/-- The own INTENT has been sent, and no withdrawal waits for that (R46). -/
theorem notify_intentSent {s : State} {own : OwnEntry} (sp : Span) (age : Nat) (hp : s.scu.state = .pending)
    (ho : s.scu.own = some own) (hw : s.scu.withdrawal = .none) :
    notify (s.sendCompletion (.intent sp age own.claim)) = s.withScu { s.scu with
      state := .claimingWindow, windowEnd := some (s.now + s.cfg.params.claimWindow) } := by
  have hsent : s.sendCompletion (.intent sp age own.claim) = (s.withScu { s.scu with
      state := .claimingWindow, windowEnd := some (s.now + s.cfg.params.claimWindow) }, []) := by
    show s.intentSent own.claim = _
    unfold State.intentSent
    rw [if_pos ⟨hp, own_claim_is ho⟩, hw]
  rw [hsent]
  rfl

/-- The own INTENT of a cancelled claim has been sent: its YIELD is offered and the claim ends (R56). -/
theorem notify_intentSent_cancelled {s : State} {own : OwnEntry} (sp : Span) (age : Nat) (hp : s.scu.state = .pending)
    (ho : s.scu.own = some own) (hw : s.scu.withdrawal = .cancel) (hh : s.scu.held = none)
    (hd : s.dsq.state ≠ .awaitRelease) :
    notify (s.sendCompletion (.intent sp age own.claim)) = (s.offer (.yield own.claim)).endClaim := by
  have hsent : s.sendCompletion (.intent sp age own.claim) = ((s.offer (.yield own.claim)).endClaim, [.ended]) := by
    have hnotices : s.endNotices = [.ended] := by unfold State.endNotices; rw [hh]; rfl
    rw [← hnotices]
    show s.intentSent own.claim = _
    unfold State.intentSent
    rw [if_pos ⟨hp, own_claim_is ho⟩, hw]
  rw [hsent]
  exact onNotice_ended_unawaited (by rw [((quiet_offer s _).trans (quiet_endClaim _)).dsqState]; exact hd)

/-! ### The statement -/

/-- The line state a send leaves, in the words of R16. -/
theorem sentLine_eq (l : Lif) : l.sentLine =
    if l.line = .fault then (if l.joinEnd ≠ none then .joining else if 64 ≤ l.score then .degraded else .active)
    else l.line := by
  unfold Lif.sentLine Lif.afterFault
  cases l.joinEnd <;> rfl

/-- The frame that leaves the queue leaves a place in it. -/
theorem leftQueue_room {s : State} {c : Current} (hc : s.lif.current = some c) (h : s.lif.places ≤ 8) :
    s.leftQueue.places < 8 := by
  unfold Lif.places at h ⊢
  rw [hc] at h
  exact h

/-- Settles O44: the line after a send, the claim after each completion, and the frame taken next. -/
theorem sendSuccessCompletesTheFrame : Obligations.SendSuccessCompletesTheFrame := by
  refine ⟨fun s c bytes own hc hp => ?sent, fun l hcurrent hline => ?taken⟩
  case taken =>
    have passes (g : TxFrame) (h : ¬(g.isIntent = true ∧ ¬(l.line = .active ∧ l.clashEnd = none))) :
        l.maySend g = true := by
      rw [maySend_iff]
      by_cases hi : g.isIntent = true
      · exact .inr (by_contra fun hno => h ⟨hi, hno⟩)
      · exact .inl (by simpa using hi)
    have stops (g : TxFrame) (h : g.isIntent = true ∧ ¬(l.line = .active ∧ l.clashEnd = none)) : l.maySend g = false := by
      rw [Bool.eq_false_iff, ne_eq, maySend_iff]
      rintro (hno | hok)
      · simp [h.1] at hno
      · exact h.2 hok
    refine ⟨fun older f newer hw ho hf => ?_, fun hall => takeCurrent_leaves (.inr (takeFirst_none fun g hg => stops g (hall g hg)))⟩
    exact takeCurrent_takes hcurrent hline (r := (f, older ++ newer))
      (by rw [hw]; exact takeFirst_split (fun g hg => stops g (ho g hg)) (passes f hf))
  case sent =>
    intro line left
    have hsent : line = s.lif.sentLine := (sentLine_eq s.lif).symm
    have hleft : left = s.leftQueue := by show ({ s.lif with line := line, current := _, seq := _ } : Lif) = _; rw [hsent]; rfl
    obtain ⟨hseq, hline, hrestored⟩ := frameSent_line s c
    rw [hleft, hsent]
    refine ⟨_, exec_sendSuccess hc hp, hseq, hline, hrestored, fun hb hr hw => ?idle, fun hb hbarred => ?blocked,
      fun hr ho hh hd hcase => ?releasing, fun sp age hf ho hpending => ?intent, fun sp hf ho hq => ?hold,
      fun hf ho hr hh hd => ?free⟩
    case idle =>
      obtain ⟨x, hx⟩ := completing_stands (s := s) fun h => absurd h hb
      obtain ⟨y, hy, hyb, hyr⟩ := sendCompletion_moves (s := (s.withLif s.leftQueue).withSpt x) c.frame hb hr hw
      rw [frameSent_taken hx hy (fun own h => absurd h hyr) fun h => absurd h hyb]
      rfl
    case blocked =>
      obtain ⟨x, hx⟩ := completing_stands (s := s) fun _ => hbarred
      have hcompletion : ((s.withLif s.leftQueue).withSpt x).sendCompletion c.frame =
          ((s.withLif s.leftQueue).withSpt x, []) :=
        sendCompletion_unaddressed (by show s.scu.state ≠ _; simp [hb]) (by show s.scu.state ≠ _; simp [hb])
          fun own h => absurd (hb.symm.trans h) (by simp)
      rw [frameSent_taken hx (congrArg notify hcompletion)
        (fun own h => absurd (hb.symm.trans h) (by simp)) fun _ => hbarred]
      rfl
    case releasing =>
      obtain ⟨x, hx⟩ := completing_stands (s := s) fun h => absurd (hr.symm.trans h) (by simp)
      by_cases hf : c.frame = .free own.claim
      · obtain ⟨y, hy, hstate, hown⟩ := notify_freeSent (s := (s.withLif s.leftQueue).withSpt x) hr ho hh hd
        rw [← hf] at hy
        rw [frameSent_taken hx hy (fun own h => absurd (hstate.symm.trans h) (by simp))
          fun h => absurd (hstate.symm.trans h) (by simp)]
        rfl
      · have hcompletion : ((s.withLif s.leftQueue).withSpt x).sendCompletion c.frame =
            ((s.withLif s.leftQueue).withSpt x, []) := by
          refine sendCompletion_unaddressed (by show s.scu.state ≠ _; simp [hr]) (by show s.scu.state ≠ _; simp [hr])
            fun other _ hother => ?_
          rw [Option.some.inj (hother.symm.trans ho)]
          exact hf
        rw [frameSent_taken hx (congrArg notify hcompletion)
          (fun other _ hother => ?_) fun h => absurd (hr.symm.trans h) (by simp)]
        · rfl
        · rw [Option.some.inj (hother.symm.trans ho)]
          exact Bool.or_eq_true_iff.mpr (.inl (hcase.resolve_left hf))
    case intent =>
      obtain ⟨x, hx⟩ := completing_stands (s := s) fun h => absurd (hpending.symm.trans h) (by simp)
      refine ⟨fun hw => ?_, fun hw hh hd hplaces => ?_⟩
      · have hy := notify_intentSent (s := (s.withLif s.leftQueue).withSpt x) sp age hpending ho hw
        rw [← hf] at hy
        rw [frameSent_taken hx hy (fun own h => by simp at h) fun h => by simp at h]
        exact ⟨rfl, rfl⟩
      · have hy := notify_intentSent_cancelled (s := (s.withLif s.leftQueue).withSpt x) sp age hpending ho hw hh hd
        rw [offer_room _ _ (leftQueue_room hc hplaces) (by simp)] at hy
        obtain ⟨y, hend, hstate, hown, -, -⟩ := endClaim_unheld (s := ((s.withLif s.leftQueue).withSpt x).withLif
          { s.leftQueue with waiting := insertFrame (.yield own.claim) s.leftQueue.waiting }.takeCurrent) hh
        rw [← hf] at hy
        rw [frameSent_taken hx (hy.trans hend) (fun own h => absurd (hstate.symm.trans h) (by simp))
          fun h => absurd (hstate.symm.trans h) (by simp)]
        exact takeCurrent_idem _
    case hold =>
      obtain ⟨x, hx⟩ := completing_stands (s := s) fun h => absurd (hq.symm.trans h) (by simp)
      obtain ⟨y, hy, hstate, hguard, hsince⟩ := notify_holdSent (s := (s.withLif s.leftQueue).withSpt x) sp hq ho
      rw [← hf] at hy
      rw [frameSent_taken hx hy (fun own h => absurd (hstate.symm.trans h) (by simp))
        fun h => absurd (hstate.symm.trans h) (by simp)]
      exact ⟨hstate, hguard, hsince⟩
    case free =>
      obtain ⟨x, hx⟩ := completing_stands (s := s) fun h => absurd (hr.symm.trans h) (by simp)
      obtain ⟨y, hy, hstate, hown⟩ := notify_freeSent (s := (s.withLif s.leftQueue).withSpt x) hr ho hh
        (by show s.dsq.state ≠ _; simp [hd])
      rw [← hf] at hy
      rw [frameSent_taken hx hy (fun own h => absurd (hstate.symm.trans h) (by simp))
        fun h => absurd (hstate.symm.trans h) (by simp)]
      exact ⟨hstate, hown, rfl⟩

end Sys2Proof.Machine
end

section
/-! PROOFS. The failed attempts of the current frame, its discard, and the withdrawals held during an attempt (sections 1.4
and 1.5; statement O43). -/

namespace Sys2Proof.Machine

/-! ### The commands that fail an attempt -/

theorem exec_failAttempt {s : State} {c : Current} {i : Instr} (hc : s.lif.current = some c)
    (h : (i = .collision ∧ ∃ bytes, c.phase = .onLine bytes) ∨ (i = .deferTimeout ∧ c.phase = .deferring)) :
    exec i s = .next (s.failAttempt c) := by
  rcases h with ⟨rfl, bytes, hp⟩ | ⟨rfl, hp⟩
  · show execCollision s = _
    unfold execCollision
    simp only [hc, hp]
  · show execDeferTimeout s = _
    unfold execDeferTimeout
    simp only [hc, hp]

/-- A failed attempt but the sixteenth (R13). -/
theorem failAttempt_backs_off {s : State} {c : Current} (hremove : c.removeOnFail = false) (hheld : c.withdrawHeld = false)
    (hn : c.attempts < 15) : s.failAttempt c = s.withLif { s.lif with current := some { c with
      attempts := c.attempts + 1, phase := .backoff ((s.ownId.toNat + 1) + 16 * (c.attempts + 1)) } } := by
  unfold State.failAttempt
  rw [hremove, hheld, if_neg (by simp), if_neg (by simp), if_pos (show c.attempts + 1 < Config.maxAttempts from Nat.succ_lt_succ hn)]
  rfl

/-- The sixteenth (R15). -/
theorem failAttempt_discards {s : State} {c : Current} (hremove : c.removeOnFail = false) (hheld : c.withdrawHeld = false)
    (hn : c.attempts = 15) : s.failAttempt c = s.discardCurrent c := by
  unfold State.failAttempt
  rw [hremove, hheld, if_neg (by simp), if_neg (by simp), if_neg (show ¬ c.attempts + 1 < Config.maxAttempts by rw [hn]; decide)]

/-- An attempt that failed with a withdrawal held (R20). -/
theorem failAttempt_withdraws {s : State} {c : Current} (hremove : c.removeOnFail = false) (hheld : c.withdrawHeld = true) :
    s.failAttempt c = (notify s.removeCurrent.withdrawalSucceeds).placeFreed := by
  unfold State.failAttempt
  rw [hremove, hheld, if_neg (by simp), if_pos rfl]

/-! ### The discard -/

/-- The line in FAULT with the discarded frame gone: what its report reaches (R15). -/
def State.faulted (s : State) : State :=
  (s.withLif { s.lif with line := .fault, current := none }).raise .lineFault

theorem evalStart_fault {s : State} (h : s.lif.line = .fault) : s.evalStart = s :=
  evalStart_stands fun _ => mayStart_barred (.inr (.inl (by simp [h])))

theorem discardCurrent_eq (s : State) (c : Current) : s.discardCurrent c =
    ((s.faulted.reportDiscard c.frame).withLif (s.faulted.reportDiscard c.frame).lif.takeCurrent).placeFreed := by
  have entered : (s.withLif { s.lif with current := none }).enterFault = s.faulted :=
    evalStart_fault (s := s.faulted) rfl
  unfold State.discardCurrent
  rw [entered]

/-- A report of a discard moves the claim, the queue and the marks of frames not sent, no more. -/
theorem aside_reportDiscard (s : State) (f : TxFrame) : Aside s (s.reportDiscard f) := by
  cases f <;> try exact Aside.refl s
  case hold sp n =>
    show Aside s (if _ then _ else s)
    split
    · exact aside_offer s _
    · exact Aside.refl s
  case intent sp age n => exact (aside_intentGone s n).trans (aside_evalStart _)
  case free n =>
    show Aside s (if _ then _ else s)
    split
    · exact aside_offer s _
    · exact Aside.refl s
  case entry m i n => exact aside_markEntry s n
  case pickup q m k n => exact aside_markPickup s n

/-- What every discard does to the line (R15). -/
theorem discardCurrent_line (s : State) (c : Current) : (s.discardCurrent c).lif.line = .fault ∧
    (s.discardCurrent c).lif.seq = s.lif.seq ∧ (s.discardCurrent c).spt.isRaised .lineFault = true := by
  have raised : s.faulted.spt.isRaised .lineFault = true := raise_raised s.spt .lineFault
  have hline : s.faulted.lif.line = .fault := rfl
  have hseq : s.faulted.lif.seq = s.lif.seq := rfl
  rw [discardCurrent_eq]
  generalize s.faulted = a at raised hline hseq ⊢
  have aside := ((aside_reportDiscard a c.frame).trans (aside_takeCurrent _)).trans (aside_placeFreed _)
  exact ⟨aside.line.trans hline, aside.seq.trans hseq, by rw [aside.spt]; exact raised⟩

/-- On a line in FAULT the next frame is taken after the report, and the free place sets going only the FREE that RELEASING
owes. -/
theorem discardCurrent_taken {s u : State} {c : Current} (hu : s.faulted.reportDiscard c.frame = u)
    (hfree : ∀ own, u.scu.state = .releasing → u.scu.own = some own → u.lif.holds (TxFrame.isFreeOf own.claim) = true) :
    s.discardCurrent c = u.withLif u.lif.takeCurrent := by
  have hline : u.lif.line = .fault := by rw [← hu]; exact (aside_reportDiscard s.faulted c.frame).line
  rw [discardCurrent_eq, hu]
  refine placeFreed_stands (fun own hr ho => ?_) fun _ => mayStart_barred (.inr (.inl ?_))
  · exact (takeCurrent_holds u.lif _).trans (hfree own hr ho)
  · show u.lif.takeCurrent.line ≠ .active
    rw [(takeCurrent_line u.lif).1, hline]
    simp

/-- The report of a frame that the claim does not need again (R21, R46). -/
theorem reportDiscard_dropped {s : State} {f : TxFrame} (hline : s.lif.line = .fault)
    (hr : s.scu.state ≠ .releasing)
    (hh : ¬(s.scu.state = .claimingHoldQueued ∧ ∃ sp own, f = .hold sp own.claim ∧ s.scu.own = some own)) :
    (s.reportDiscard f).lif = s.lif ∧ (s.reportDiscard f).scu.state ≠ .releasing := by
  cases f <;> try exact ⟨rfl, hr⟩
  case hold sp n =>
    have hstand : s.reportDiscard (.hold sp n) = s := if_neg fun h => hh ⟨h.1, by
      obtain ⟨own, ho, hn⟩ := Option.map_eq_some_iff.mp h.2
      exact ⟨sp, own, by rw [hn], ho⟩⟩
    rw [hstand]
    exact ⟨rfl, hr⟩
  case intent sp age n =>
    have gone : (s.intentGone n).lif = s.lif ∧ (s.intentGone n).scu.state ≠ .releasing := by
      unfold State.intentGone
      split
      · exact ⟨rfl, fun h => by cases h⟩
      · exact ⟨rfl, hr⟩
    have stands : s.reportDiscard (.intent sp age n) = s.intentGone n :=
      evalStart_fault (s := s.intentGone n) (by rw [gone.1]; exact hline)
    rw [stands]
    exact gone
  case free n =>
    have hstand : s.reportDiscard (.free n) = s := if_neg fun h => hr h.1
    rw [hstand]
    exact ⟨rfl, hr⟩

/-- The report of the INTENT of a PENDING claim (R46). -/
theorem reportDiscard_intent {s : State} {own : OwnEntry} (sp : Span) (age : Nat) (hline : s.lif.line = .fault)
    (hp : s.scu.state = .pending) (ho : s.scu.own = some own) :
    s.reportDiscard (.intent sp age own.claim) =
      s.withScu { s.scu with state := .blocked, own := none, withdrawal := .none } := by
  show (s.intentGone own.claim).evalStart = _
  unfold State.intentGone
  rw [if_pos ⟨hp, own_claim_is ho⟩]
  exact evalStart_fault hline

/-- The report of the HOLD that the claim still needs, and of the FREE of a release, is answered by its offer (R50, R55). -/
theorem reportDiscard_hold {s : State} {own : OwnEntry} (sp : Span) (hq : s.scu.state = .claimingHoldQueued)
    (ho : s.scu.own = some own) : s.reportDiscard (.hold sp own.claim) = s.offer (.hold sp own.claim) :=
  if_pos ⟨hq, own_claim_is ho⟩

theorem reportDiscard_free {s : State} {own : OwnEntry} (hr : s.scu.state = .releasing) (ho : s.scu.own = some own) :
    s.reportDiscard (.free own.claim) = s.offer (.free own.claim) :=
  if_pos ⟨hr, own_claim_is ho⟩

/-- In RELEASING the report of any other frame than the FREE of the release moves neither claim nor queue. -/
theorem reportDiscard_releasing {s : State} {f : TxFrame} {own : OwnEntry} (hline : s.lif.line = .fault)
    (hr : s.scu.state = .releasing) (ho : s.scu.own = some own) (hf : f ≠ .free own.claim) :
    (s.reportDiscard f).lif = s.lif ∧ (s.reportDiscard f).scu = s.scu := by
  cases f <;> try exact ⟨rfl, rfl⟩
  case hold sp n =>
    have hstand : s.reportDiscard (.hold sp n) = s := if_neg fun h => by simp [hr] at h
    rw [hstand]
    exact ⟨rfl, rfl⟩
  case intent sp age n =>
    show (s.intentGone n).evalStart.lif = _ ∧ (s.intentGone n).evalStart.scu = _
    unfold State.intentGone
    rw [if_neg fun h => by simp [hr] at h, evalStart_fault hline]
    exact ⟨rfl, rfl⟩
  case free n =>
    have hstand : s.reportDiscard (.free n) = s := if_neg fun h => by
      obtain ⟨other, hother, hn⟩ := Option.map_eq_some_iff.mp h.2
      rw [Option.some.inj (ho.symm.trans hother)] at hf
      exact hf (by rw [hn])
    rw [hstand]
    exact ⟨rfl, rfl⟩

/-- The discarded frame leaves a place in the queue. -/
theorem faulted_room {s : State} {c : Current} (hc : s.lif.current = some c) (h : s.lif.places ≤ 8) :
    s.faulted.lif.places < 8 := by
  unfold Lif.places at h ⊢
  rw [hc] at h
  exact h

/-- An offer made again leaves its frame in the queue. -/
theorem discardCurrent_reoffers {s : State} {c : Current} (hc : s.lif.current = some c) (h : s.lif.places ≤ 8)
    (hb : c.frame ≠ .beacon) (hreport : s.faulted.reportDiscard c.frame = s.faulted.offer c.frame)
    (hfree : ∀ own, s.scu.state = .releasing → s.scu.own = some own → c.frame = .free own.claim) :
    (s.discardCurrent c).scu = s.scu ∧ (s.discardCurrent c).lif =
      { s.lif with line := .fault, current := none, waiting := insertFrame c.frame s.lif.waiting }.takeCurrent := by
  have hoffer := offer_room s.faulted c.frame (faulted_room hc h) hb
  have hholds := offer_holds s.faulted c.frame (fun f => f == c.frame) (faulted_room hc h) hb
  rw [discardCurrent_taken (hreport.trans hoffer) fun own hr ho => ?_]
  · exact ⟨rfl, takeCurrent_idem _⟩
  · have hf := hfree own hr ho
    have hoffered := offer_holds s.faulted c.frame (TxFrame.isFreeOf own.claim) (faulted_room hc h) hb
    rw [hoffer] at hoffered
    rw [hoffered, hf]
    simp [TxFrame.isFreeOf]

/-! ### A withdrawal held during an attempt -/

/-- The withdrawal of a conflict succeeds while the span is overlapped: BLOCKED (R45). -/
theorem withdrawal_conflict_blocks {s : State} (hp : s.scu.state = .pending) (hw : s.scu.withdrawal = .conflict)
    (ho : s.scu.overlapped = true) : (notify s.removeCurrent.withdrawalSucceeds).placeFreed =
      s.removeCurrent.withScu { s.scu with state := .blocked, own := none, withdrawal := .none } := by
  have hwithdrawn : s.removeCurrent.intentWithdrawn =
      s.removeCurrent.withScu { s.scu with state := .blocked, own := none, withdrawal := .none } :=
    evalStart_stands fun _ => mayStart_barred (.inl ho)
  have hsucceeds : s.removeCurrent.withdrawalSucceeds = (s.removeCurrent.intentWithdrawn, []) := by
    have hwr : s.removeCurrent.scu.withdrawal = .conflict := hw
    unfold State.withdrawalSucceeds
    rw [hwr]
    exact if_pos hp
  rw [hsucceeds, hwithdrawn]
  exact placeFreed_stands (fun own h => by cases h) fun _ => mayStart_barred (.inl ho)

/-- The withdrawal of a cancel succeeds: the claim ends (R56). -/
theorem withdrawal_cancel_ends {s : State} (hw : s.scu.withdrawal = .cancel) (hh : s.scu.held = none)
    (hd : s.dsq.state ≠ .awaitRelease) :
    ∃ x : Scu, (notify s.removeCurrent.withdrawalSucceeds).placeFreed = s.removeCurrent.withScu x ∧ x.state = .none ∧
      x.own = none ∧ x.wanted = none ∧ x.blockedSince = none := by
  obtain ⟨x, hx, hstate, hown, hwanted, hsince⟩ := endClaim_unheld (s := s.removeCurrent) hh
  have hnotices : s.removeCurrent.endNotices = [.ended] := by
    have hhr : s.removeCurrent.scu.held = none := hh
    unfold State.endNotices
    rw [hhr]
    rfl
  have hsucceeds : s.removeCurrent.withdrawalSucceeds = (s.removeCurrent.withScu x, [.ended]) := by
    have hwr : s.removeCurrent.scu.withdrawal = .cancel := hw
    rw [← hnotices, ← hx]
    unfold State.withdrawalSucceeds
    rw [hwr]
  have hnotified : notify s.removeCurrent.withdrawalSucceeds = s.removeCurrent.withScu x := by
    rw [hsucceeds]
    exact onNotice_ended_unawaited hd
  refine ⟨x, ?_, hstate, hown, hwanted, hsince⟩
  rw [hnotified]
  exact placeFreed_stands (fun own h => absurd (hstate.symm.trans h) (by simp))
    fun h => absurd (hstate.symm.trans h) (by simp)

/-- No drop and no start of a claim takes a held request. -/
theorem offer_held (s : State) (f : TxFrame) : (s.offer f).scu.held = s.scu.held := by
  have retried (u : State) : u.enterRetry.scu.held = u.scu.held := (enterRetry_claim u).2.2.2.2.1
  have reported (u : State) (g : TxFrame) : (u.reportDrop g).scu.held = u.scu.held := by
    cases g <;> try rfl
    case hold sp n =>
      show (u.holdGone n).scu.held = _
      unfold State.holdGone
      split
      · exact retried u
      · rfl
    case intent sp age n =>
      show (u.intentGone n).scu.held = _
      unfold State.intentGone
      split <;> rfl
  have placed (u : State) (g : TxFrame) : (u.offerBase g).scu.held = u.scu.held := by
    unfold State.offerBase
    split
    · rfl
    · exact reported _ _
  have evaluated (u : State) : u.evalStart.scu.held = u.scu.held := by
    unfold State.evalStart
    split
    · split
      · exact placed _ _
      · rfl
    · rfl
  unfold State.offer
  split
  · exact (evaluated _).trans (placed s f)
  · exact placed s f

/-! ### An INTENT sent although its withdrawal was asked for -/

/-- An entry to which the own INTENT yields (R45, R47). -/
def State.beatenBy (s : State) (own : OwnEntry) (e : PeerEntry) : Prop :=
  s.scu.meets e.span = true ∧ (e.state = .held ∨ (e.state = .intent ∧ ∃ age, e.age = some age ∧
    (own.age < age ∨ (age = own.age ∧
      (e.holder - (s.scu.lastEntry + 1)).toNat < (s.ownId - (s.scu.lastEntry + 1)).toNat))))

theorem standingLoss_iff {s : State} {own : OwnEntry} (ho : s.scu.own = some own) :
    s.standingLoss = true ↔ ∃ e ∈ s.scu.entries, s.beatenBy own e := by
  have outranked (e : PeerEntry) (age : Nat) : s.foreignOutranks e.holder age = true ↔
      (own.age < age ∨ (age = own.age ∧
        (e.holder - (s.scu.lastEntry + 1)).toNat < (s.ownId - (s.scu.lastEntry + 1)).toNat)) := by
    unfold State.foreignOutranks
    rw [ho]
    exact outranks_iff _ _ _ _ _
  have aged (e : PeerEntry) : (e.age.map fun a => s.foreignOutranks e.holder a).getD false = true ↔
      ∃ age, e.age = some age ∧ s.foreignOutranks e.holder age = true := by
    cases e.age <;> simp
  simp only [State.standingLoss, State.beatenBy, List.any_eq_true, Bool.and_eq_true, Bool.or_eq_true, beq_iff_eq, aged,
    outranked]

/-- The claim goes on in its window although a conflict asked for its INTENT (R45). -/
def State.windowed (s : State) : State :=
  s.withScu { s.scu with
    state := .claimingWindow, withdrawal := .none, windowEnd := some (s.now + s.cfg.params.claimWindow) }

/-- The completion of the INTENT of a claim in conflict: it goes on in its window, or yields (R45). -/
theorem notify_intentSent_conflict {s : State} {own : OwnEntry} (sp : Span) (age : Nat) (hp : s.scu.state = .pending)
    (ho : s.scu.own = some own) (hw : s.scu.withdrawal = .conflict) :
    notify (s.sendCompletion (.intent sp age own.claim)) =
      if s.standingLoss then s.windowed.yieldClaim else s.windowed := by
  have hsent : s.sendCompletion (.intent sp age own.claim) =
      (if s.windowed.standingLoss then s.windowed.yieldClaim else s.windowed, []) := by
    show s.intentSent own.claim = _
    unfold State.intentSent
    rw [if_pos ⟨hp, own_claim_is ho⟩, hw]
    rfl
  rw [hsent]
  rfl

/-! ### The statement -/

/-- The first half: what a failed attempt does. -/
theorem failedAttempt_outcome (s : State) (c : Current) (i : Instr) (hc : s.lif.current = some c)
    (hremove : c.removeOnFail = false)
    (hi : (i = .collision ∧ ∃ bytes, c.phase = .onLine bytes) ∨ (i = .deferTimeout ∧ c.phase = .deferring)) :
    (c.withdrawHeld = false → c.attempts < 15 →
      exec i s = .next { s with lif := { s.lif with current := some { c with
        attempts := c.attempts + 1, phase := .backoff ((s.ownId.toNat + 1) + 16 * (c.attempts + 1)) } } }) ∧
    (c.withdrawHeld = false → c.attempts = 15 → exec i s = .next (s.discardCurrent c)) ∧
    (c.withdrawHeld = true → exec i s = .next (notify s.removeCurrent.withdrawalSucceeds).placeFreed) := by
  rw [exec_failAttempt hc hi]
  exact ⟨fun hheld hn => by rw [failAttempt_backs_off hremove hheld hn]; rfl,
    fun hheld hn => by rw [failAttempt_discards hremove hheld hn],
    fun hheld => by rw [failAttempt_withdraws hremove hheld]⟩

/-- Settles O43: the backoff, the discard with its report, and the withdrawals that waited for the attempt. -/
theorem failedAttemptBacksOffOrFaults : Obligations.FailedAttemptBacksOffOrFaults := by
  refine ⟨fun s c i hc hremove hi => ?failed, fun s c bytes sp age own hc hp hf ho hpending => ?sent⟩
  case failed =>
    obtain ⟨hbackoff, hdiscard, hwithdraw⟩ := failedAttempt_outcome s c i hc hremove hi
    refine ⟨hbackoff, fun hheld hn => ?discard, fun hheld hpending => ⟨_, hwithdraw hheld, fun hw ho => ?conflict,
      fun hw hh hd => ?cancel⟩⟩
    case discard =>
      intro left
      obtain ⟨hline, hseq, hraised⟩ := discardCurrent_line s c
      refine ⟨_, hdiscard hheld hn, hline, hseq, hraised, fun hr => ⟨fun sp own hf ho hq hplaces => ?hold, fun hh => ?other,
        fun sp age own hf ho hp => ?intent, fun m k x hf => ?entry, fun q m k x hf => ?pickup⟩,
        fun own hr ho => ⟨fun hf hplaces => ?free, fun hf hany => ?releasing⟩⟩
      case hold =>
        refine discardCurrent_reoffers hc hplaces (by rw [hf]; simp) ?_ fun own h => absurd h hr
        rw [hf]
        exact reportDiscard_hold (s := s.faulted) sp hq ho
      case other =>
        obtain ⟨hlif, hstate⟩ := reportDiscard_dropped (s := s.faulted) (f := c.frame) rfl hr hh
        rw [discardCurrent_taken rfl fun own h => absurd h hstate]
        exact congrArg Lif.takeCurrent hlif
      case intent =>
        have hreport := reportDiscard_intent (s := s.faulted) sp age rfl hp ho
        rw [← hf] at hreport
        rw [discardCurrent_taken hreport fun own h => by cases h]
        rfl
      case entry =>
        have hreport : s.faulted.reportDiscard c.frame = s.faulted.markEntry x := by rw [hf]; rfl
        rw [discardCurrent_taken hreport fun own h => absurd h hr]
        exact ⟨rfl, rfl⟩
      case pickup =>
        have hreport : s.faulted.reportDiscard c.frame = s.faulted.markPickup x := by rw [hf]; rfl
        rw [discardCurrent_taken hreport fun own h => absurd h hr]
        exact ⟨rfl, rfl⟩
      case free =>
        refine discardCurrent_reoffers hc hplaces (by rw [hf]; simp) ?_ fun other _ hother => ?_
        · rw [hf]
          exact reportDiscard_free (s := s.faulted) hr ho
        · rw [hf, Option.some.inj (ho.symm.trans hother)]
      case releasing =>
        obtain ⟨hlif, hscu⟩ := reportDiscard_releasing (s := s.faulted) rfl hr ho hf
        rw [discardCurrent_taken rfl fun other _ hother => ?_]
        · exact ⟨hscu, congrArg Lif.takeCurrent hlif⟩
        · rw [hscu] at hother
          rw [hlif, Option.some.inj (hother.symm.trans ho)]
          exact Bool.or_eq_true_iff.mpr (.inl hany)
    case conflict =>
      rw [withdrawal_conflict_blocks hpending hw ho]
      exact ⟨rfl, rfl⟩
    case cancel =>
      obtain ⟨x, hx, hstate, hown, hwanted, hsince⟩ := withdrawal_cancel_ends hw hh hd
      rw [hx]
      exact ⟨hstate, hown, hwanted, hsince, rfl, rfl⟩
  case sent =>
    obtain ⟨x, hx⟩ := completing_stands (s := s) fun h => absurd (hpending.symm.trans h) (by simp)
    refine ⟨_, exec_sendSuccess hc hp, fun hw hh hd => ?cancelled, fun hw => ?standing⟩
    case cancelled =>
      have hy := notify_intentSent_cancelled (s := (s.withLif s.leftQueue).withSpt x) sp age hpending ho hw hh hd
      obtain ⟨y, hend, hstate, hown, -, -⟩ := endClaim_unheld
        (s := ((s.withLif s.leftQueue).withSpt x).offer (.yield own.claim)) ((offer_held _ _).trans hh)
      rw [← hf] at hy
      rw [frameSent_taken hx (hy.trans hend) (fun own h => absurd (hstate.symm.trans h) (by simp))
        fun h => absurd (hstate.symm.trans h) (by simp)]
      refine ⟨hstate, hown, fun hplaces => ?_⟩
      have hroom := leftQueue_room hc hplaces
      have hholds := offer_holds ((s.withLif s.leftQueue).withSpt x) (.yield own.claim) (· == .yield own.claim) hroom
        (by simp)
      refine ⟨?_, ?_⟩
      · show (((s.withLif s.leftQueue).withSpt x).offer (.yield own.claim)).dsq = s.dsq
        rw [offer_room _ _ hroom (by simp)]
        rfl
      · refine (takeCurrent_holds _ _).trans (hholds.trans ?_)
        rw [beq_self_eq_true, Bool.true_or]
    case standing =>
      intro distance beats
      have hy := notify_intentSent_conflict (s := (s.withLif s.leftQueue).withSpt x) sp age hpending ho hw
      have hloss := standingLoss_iff (s := (s.withLif s.leftQueue).withSpt x) ho
      rw [← hf] at hy
      refine ⟨fun hnone => ?_, fun e he hbeats => ?_⟩
      · rw [if_neg fun h => by obtain ⟨e, he, hb⟩ := hloss.mp h; exact hnone e he hb] at hy
        rw [frameSent_taken hx hy (fun own h => by cases h) fun h => by cases h]
        exact ⟨rfl, ho, rfl⟩
      · rw [if_pos (hloss.mpr ⟨e, he, hbeats⟩)] at hy
        obtain ⟨h1, h2, -, -, -, -, -, h8⟩ := offer_enterRetry (s := ((s.withLif s.leftQueue).withSpt x).windowed)
          (.yield ((s.withLif s.leftQueue).withSpt x).windowed.ownClaim) (by simp) rfl
        have hclaim : ((s.withLif s.leftQueue).withSpt x).windowed.ownClaim = own.claim := by
          show (s.scu.own.map OwnEntry.claim).getD 0 = _
          rw [ho]
          rfl
        rw [frameSent_taken hx hy (fun own h => absurd (h1.symm.trans h) (by simp))
          fun h => absurd (h1.symm.trans h) (by simp)]
        refine ⟨h1, h2, fun hplaces => ?_⟩
        rw [← hclaim]
        exact (takeCurrent_holds _ _).trans (h8 (leftQueue_room hc hplaces))

end Sys2Proof.Machine
end

section
/-! PROOFS. The timers of the line and of the claim (sections 1.2, 1.3, 2.3 to 2.5, 5.4; statements O45, O47, O48). -/

namespace Sys2Proof.Machine

/-! ### The timers of the line -/

/-- A BEACON offered with room is in the queue; one is enough (R18, R19). -/
theorem offer_beacon {s : State} : (s.lif.places < 8 → (s.offer .beacon).lif.holds (· == .beacon) = true) ∧
    (s.lif.holds (· == .beacon) = true → (s.offer .beacon).lif.places = s.lif.places) := by
  have placed {l : Lif} (h : s.lif.place .beacon = (l, none)) : (s.offer .beacon).lif = l.takeCurrent := by
    unfold State.offer State.offerBase
    rw [h]
    rfl
  by_cases hb : s.lif.holds (· == .beacon) = true
  · have hlif := placed (l := s.lif) (by unfold Lif.place; rw [if_pos ⟨rfl, hb⟩])
    exact ⟨fun _ => by rw [hlif, takeCurrent_holds]; exact hb, fun _ => by rw [hlif, takeCurrent_places]⟩
  · refine ⟨fun hroom => ?_, fun h => absurd h hb⟩
    have hlif := placed (l := { s.lif with waiting := insertFrame .beacon s.lif.waiting }) (by
      unfold Lif.place
      rw [if_neg fun h => hb h.2, if_pos (show s.lif.places < Config.queuePlaces from hroom)])
    rw [hlif, takeCurrent_holds]
    unfold Lif.holds
    simp [(insertFrame_perm TxFrame.beacon s.lif.waiting).any_eq]

theorem exec_beaconTimerExpiry {s : State} {e : Nat} (h : s.lif.beaconNext = some e) :
    exec .beaconTimerExpiry s = .next (s.reach e).beaconDue := by
  show execBeaconTimerExpiry s = _
  unfold execBeaconTimerExpiry
  simp only [h]

theorem exec_joinTimerExpiry {s : State} {e : Nat} (h : s.lif.joinEnd = some e) :
    exec .joinTimerExpiry s = .next (s.reach e).joinOver := by
  show execJoinTimerExpiry s = _
  unfold execJoinTimerExpiry
  simp only [h]

theorem exec_clashTimerExpiry {s : State} {e : Nat} (h : s.lif.clashEnd = some e) :
    exec .clashTimerExpiry s = .next ((s.reach e).withLif { s.lif with clashEnd := none }).lineNotice := by
  show execClashTimerExpiry s = _
  unfold execClashTimerExpiry
  simp only [h]

/-- The end of the join period (R9). -/
theorem joinOver_line (s : State) : s.joinOver.now = s.now ∧ s.joinOver.lif.joinEnd = none ∧
    (s.lif.line = .joining → 64 ≤ s.lif.score → s.joinOver.lif.line = .degraded ∧ s.joinOver.spt.isRaised .lineDegraded = true) ∧
    (s.lif.line = .joining → s.lif.score < 64 → s.joinOver.lif.line = .active ∧ s.joinOver.spt = s.spt) ∧
    (s.lif.line = .fault → s.joinOver.lif.line = .fault) := by
  have moved (l : LineState) : Aside ((s.withLif { s.lif with joinEnd := none }).withLif
      { s.lif with joinEnd := none, line := l }) ((s.withLif { s.lif with joinEnd := none }).toLine l) :=
    aside_lineNotice _
  unfold State.joinOver
  simp only []
  split
  · rename_i hl
    split
    · rename_i hscore
      have aside := moved .degraded
      have raised := raise_raised ((s.withLif { s.lif with joinEnd := none }).toLine .degraded).spt .lineDegraded
      generalize (s.withLif { s.lif with joinEnd := none }).toLine .degraded = t at aside raised ⊢
      exact ⟨aside.now, aside.joinEnd, fun _ _ => ⟨aside.line, raised⟩, fun _ h => absurd h (Nat.not_lt.mpr hscore),
        fun h => absurd (hl.symm.trans h) (by simp)⟩
    · rename_i hscore
      have aside := moved .active
      exact ⟨aside.now, aside.joinEnd, fun _ h => absurd h hscore, fun _ _ => ⟨aside.line, aside.spt⟩,
        fun h => absurd (hl.symm.trans h) (by simp)⟩
  · rename_i hl
    exact ⟨rfl, rfl, fun h => absurd h hl, fun h => absurd h hl, id⟩

/-- Settles O45: each timer moves what is its own; what SCU does at its report leaves the line. -/
theorem lineTimersExpire : Obligations.LineTimersExpire := by
  refine fun s e => ⟨fun h => ?beacon, fun h => ?join, fun h => ?clash⟩
  case beacon =>
    have aside : Aside _ (s.reach e).beaconDue := aside_offer _ .beacon
    obtain ⟨hroom, hstand⟩ := offer_beacon (s := (s.reach e).withLif { s.lif with
      beaconNext := s.lif.beaconNext.map (· + s.cfg.params.beaconPeriod) })
    refine ⟨_, exec_beaconTimerExpiry h, aside.now, aside.beaconNext.trans ?_, aside.line, hroom, hstand⟩
    show s.lif.beaconNext.map _ = _
    rw [h]
    rfl
  case join => exact ⟨_, exec_joinTimerExpiry h, joinOver_line (s.reach e)⟩
  case clash =>
    have aside := aside_lineNotice ((s.reach e).withLif { s.lif with clashEnd := none })
    exact ⟨_, exec_clashTimerExpiry h, aside.now, aside.clashEnd, aside.line, aside.spt⟩

/-! ### The end of the claim window -/

/-- The claim with its window over: the HOLD is still to be offered (R49). -/
def State.holdDue (s : State) : State :=
  s.withScu { s.scu with windowEnd := none, state := .claimingHoldQueued }

theorem exec_claimWindowExpiry {s : State} {e : Nat} {own : OwnEntry} {w : Span} (h : s.scu.windowEnd = some e)
    (hstate : s.scu.state = .claimingWindow) (ho : s.scu.own = some own) (hw : s.scu.wanted = some w) :
    exec .claimWindowExpiry s = .next ((s.reach e).holdDue.offer (.hold w own.claim)) := by
  have hover : (s.reach e).windowOver = (s.reach e).holdDue.offer (.hold (s.scu.wanted.getD ⟨0, 0, false⟩) s.ownClaim) := by
    have hr : (s.reach e).scu.state = .claimingWindow := hstate
    unfold State.windowOver
    simp only [hr]
    rfl
  have hclaim : s.ownClaim = own.claim := by
    unfold State.ownClaim
    rw [ho]
    rfl
  show execClaimWindowExpiry s = _
  unfold execClaimWindowExpiry
  simp only [h]
  rw [hover, hclaim, hw]
  rfl

/-- A frame in a full queue takes the last place of a less urgent one, or is dropped itself (R18). -/
theorem place_full {l : Lif} {f v : TxFrame} {older : List TxFrame} (hb : f ≠ .beacon) (hfull : 8 ≤ l.places)
    (hw : l.waiting = older ++ [v]) :
    l.place f = if f.urgency < v.urgency then ({ l with waiting := insertFrame f older }, some v) else (l, some f) := by
  unfold Lif.place
  rw [if_neg fun h => hb h.1, if_neg (show ¬ l.places < Config.queuePlaces from Nat.not_lt.mpr hfull), hw]
  simp only [List.getLast?_concat, List.dropLast_concat]

/-- No drop and no start of a claim starts the window again. -/
theorem offer_windowEnd {s : State} (f : TxFrame) (h : s.scu.windowEnd = none) : (s.offer f).scu.windowEnd = none := by
  have reported (u : State) (g : TxFrame) (hu : u.scu.windowEnd = none) : (u.reportDrop g).scu.windowEnd = none := by
    cases g <;> try exact hu
    case hold sp n =>
      show (u.holdGone n).scu.windowEnd = none
      unfold State.holdGone
      split
      · rfl
      · exact hu
    case intent sp age n =>
      show (u.intentGone n).scu.windowEnd = none
      unfold State.intentGone
      split <;> exact hu
  have placed (u : State) (g : TxFrame) (hu : u.scu.windowEnd = none) : (u.offerBase g).scu.windowEnd = none := by
    unfold State.offerBase
    split
    · exact hu
    · exact reported _ _ hu
  have evaluated (u : State) (hu : u.scu.windowEnd = none) : u.evalStart.scu.windowEnd = none := by
    unfold State.evalStart
    split
    · split
      · exact placed _ _ hu
      · exact hu
    · exact hu
  unfold State.offer
  split
  · exact evaluated _ (placed _ _ h)
  · exact placed _ _ h

/-- The HOLD of a claim in a full queue, a less urgent frame giving its place (R18, R21). -/
theorem offer_hold_displaces {s : State} {w : Span} {n : Byte} {v : TxFrame} {older : List TxFrame}
    (hstate : s.scu.state = .claimingHoldQueued) (hfull : 8 ≤ s.lif.places) (hw : s.lif.waiting = older ++ [v])
    (hv : 1 < v.urgency) : s.offer (.hold w n) =
      (s.withLif { s.lif with waiting := insertFrame (.hold w n) older }.takeCurrent).reportDrop v := by
  have hplace : s.lif.place (.hold w n) = ({ s.lif with waiting := insertFrame (.hold w n) older }, some v) :=
    (place_full (by simp) hfull hw).trans (if_pos hv)
  have hbase : s.offerBase (.hold w n) =
      (s.withLif { s.lif with waiting := insertFrame (.hold w n) older }.takeCurrent).reportDrop v := by
    unfold State.offerBase
    rw [hplace]
  have hgone (n : Byte) : (s.withLif { s.lif with waiting := insertFrame (.hold w n) older }.takeCurrent).scu.state ≠
      .pending := by
    show s.scu.state ≠ _
    simp [hstate]
  unfold State.offer
  rw [hplace, hbase]
  cases v <;> try rfl
  case intent sp age k =>
    refine evalStart_stands fun h => absurd h ?_
    have hintent : State.intentGone (s.withLif { s.lif with waiting := insertFrame (.hold w n) older }.takeCurrent) k =
        s.withLif { s.lif with waiting := insertFrame (.hold w n) older }.takeCurrent := if_neg fun h => hgone n h.1
    show (State.intentGone _ k).scu.state ≠ .blocked
    rw [hintent]
    show s.scu.state ≠ .blocked
    simp [hstate]

/-- The HOLD dropped itself: RETRY (R50). -/
theorem offer_hold_dropped {s : State} {w : Span} {own : OwnEntry} {v : TxFrame} {older : List TxFrame}
    (hstate : s.scu.state = .claimingHoldQueued) (ho : s.scu.own = some own) (hfull : 8 ≤ s.lif.places)
    (hw : s.lif.waiting = older ++ [v]) (hv : v.urgency = 1) :
    s.offer (.hold w own.claim) = (s.withLif s.lif.takeCurrent).enterRetry := by
  have hplace : s.lif.place (.hold w own.claim) = (s.lif, some (.hold w own.claim)) :=
    (place_full (by simp) hfull hw).trans (if_neg (by rw [hv]; exact Nat.lt_irrefl 1))
  unfold State.offer State.offerBase
  rw [hplace]
  exact if_pos ⟨hstate, own_claim_is ho⟩

/-- What the drop of a frame other than a claim's does: the marks of R21. -/
theorem reportDrop_marks {s : State} {v : TxFrame} (hstate : s.scu.state = .claimingHoldQueued) (hv : 1 < v.urgency) :
    (s.reportDrop v).scu = s.scu ∧ (s.reportDrop v).lif = s.lif ∧ (s.reportDrop v).now = s.now ∧
      (∀ m k x, v = .entry m k x → (s.reportDrop v).dsq = s.dsq.markDropped x ∧
        (s.reportDrop v).zbr = s.zbr.markDropped x) ∧
      (∀ q m k x, v = .pickup q m k x → (s.reportDrop v).dsq = s.dsq ∧ (s.reportDrop v).zbr = s.zbr.markDropped x) := by
  have other (hs : s.reportDrop v = s) (he : ∀ m k x, v ≠ .entry m k x) (hp : ∀ q m k x, v ≠ .pickup q m k x) :
      (s.reportDrop v).scu = s.scu ∧ (s.reportDrop v).lif = s.lif ∧ (s.reportDrop v).now = s.now ∧
        (∀ m k x, v = .entry m k x → (s.reportDrop v).dsq = s.dsq.markDropped x ∧
          (s.reportDrop v).zbr = s.zbr.markDropped x) ∧
        (∀ q m k x, v = .pickup q m k x → (s.reportDrop v).dsq = s.dsq ∧ (s.reportDrop v).zbr = s.zbr.markDropped x) := by
    rw [hs]
    exact ⟨rfl, rfl, rfl, fun m k x h => absurd h (he m k x), fun q m k x h => absurd h (hp q m k x)⟩
  cases v <;> try exact other rfl (by simp) (by simp)
  case hold sp n => simp [TxFrame.urgency] at hv
  case intent sp age n =>
    exact other (if_neg fun h => by simp [hstate] at h) (by simp) (by simp)
  case entry m i n => exact ⟨rfl, rfl, rfl, (fun m k x h => by cases h; exact ⟨rfl, rfl⟩), fun q m k x h => by cases h⟩
  case pickup q m k n => exact ⟨rfl, rfl, rfl, (fun m k x h => by cases h), fun q m k x h => by cases h; exact ⟨rfl, rfl⟩⟩

/-! ### The end of the guard -/

theorem exec_guardExpiry {s : State} {e : Nat} (h : s.scu.guardEnd = some e) (hstate : s.scu.state = .guard) :
    exec .guardExpiry s =
      .next (((s.reach e).withScu { s.scu with guardEnd := none, state := .firm }).onNotice .firm) := by
  have hover : (s.reach e).guardOver = ((s.reach e).withScu { s.scu with guardEnd := none, state := .firm }).onNotice .firm := by
    have hr : (s.reach e).scu.state = .guard := hstate
    unfold State.guardOver
    simp only [hr]
    rfl
  show execGuardExpiry s = _
  unfold execGuardExpiry
  simp only [h]
  rw [hover]

/-- A LOWER that asks for admission, whatever the answer, leaves a claim that no drop moves all but the last-entry ID
(R107, R108). -/
theorem tryLower_scu {s : State} (p : LowerArgs) (h : s.scu.state.isStill = true) :
    ∃ x, (s.tryLower p).scu = { s.scu with lastEntry := x } := by
  have same {u : State} (hu : u.scu = s.scu) : ∃ x, u.scu = { s.scu with lastEntry := x } := ⟨s.scu.lastEntry, hu⟩
  have granted (u : State) (b : Bool) : (u.takeGrant p b).scu = u.scu := by
    have key (a : State) (ha : a.scu = u.scu) :
        (if a.firmAndClear then (a.sendMotion (.lower p.depth p.speed)).toDsq .lowering
          else a.toDsq (.awaitLower p)).scu = u.scu := by
      split <;> exact ha
    refine key _ ?_
    split <;> rfl
  have entered (m i : Nat) (b : Bool) : (s.grantEntry m i b).scu = { s.scu with lastEntry := s.ownId } := by
    have offered : ((s.withHwn { s.hwn with request := .none }).offerEntry m i).scu = { s.scu with lastEntry := s.ownId } :=
      offer_scu ((s.withHwn { s.hwn with request := .none }).takeEntry s.ownId m i) _ h
    unfold State.grantEntry
    split
    · exact offered
    · exact offered
  have asked (m i : Nat) : ∃ x, (s.requestHeat m i).1.scu = { s.scu with lastEntry := x } := by
    unfold State.requestHeat
    split
    · split
      · split
        · exact ⟨_, entered m i false⟩
        · exact same rfl
      · split
        · exact ⟨_, entered m i true⟩
        · exact same rfl
    · exact same rfl
  unfold State.tryLower State.askHeat
  split
  · split
    · exact same rfl
    · rename_i c _
      obtain ⟨x, hasked⟩ := asked (enteringMass c.dry c.nominal p.fraction) (if c.immersions = 0 then 1 else 2)
      split
      · rename_i t ht; rw [ht] at hasked; exact ⟨x, (granted t false).trans hasked⟩
      · rename_i t ht; rw [ht] at hasked; exact ⟨x, (granted t true).trans hasked⟩
      · rename_i t ht; rw [ht] at hasked; exact ⟨x, hasked⟩
      · rename_i t ht; rw [ht] at hasked; exact ⟨x, hasked⟩
  · exact same rfl

/-- DSQ, waiting for no claim, leaves a span that has become firm as it is. -/
theorem onNotice_firm_scu {s : State} (hd : s.dsq.state ≠ .awaitClaim) (h : s.scu.state.isStill = true) :
    ∃ x, (s.onNotice .firm).scu = { s.scu with lastEntry := x } := by
  unfold State.onNotice
  simp only []
  split
  · contradiction
  · exact tryLower_scu _ h
  · exact ⟨s.scu.lastEntry, rfl⟩

/-- Settles O47: the HOLD's place in the queue, and DSQ's taking of the FIRM span. -/
theorem claimWindowAndGuardEnd : Obligations.ClaimWindowAndGuardEnd := by
  refine fun s e own w ho hw => ⟨fun hend hstate => ?window, fun hend hstate => ⟨fun hd => ?guard,
    fun c cell hd hc hn hp => ?step⟩⟩
  case window =>
    have hnow := (quiet_offer (s.reach e).holdDue (.hold w own.claim)).now
    have hwindow := offer_windowEnd (s := (s.reach e).holdDue) (.hold w own.claim) rfl
    refine ⟨_, exec_claimWindowExpiry hend hstate ho hw, hnow, hwindow, fun hroom => ?room, fun older v hfull hwait =>
      ⟨fun hv => ?displaced, fun hv => ?dropped⟩⟩
    case room =>
      have hholds := offer_holds (s.reach e).holdDue (.hold w own.claim) (· == .hold w own.claim) hroom (by simp)
      refine ⟨?_, ?_, by rw [hholds, beq_self_eq_true, Bool.true_or]⟩
      · rw [offer_room (s.reach e).holdDue (.hold w own.claim) hroom (by simp)]; rfl
      · rw [offer_room (s.reach e).holdDue (.hold w own.claim) hroom (by simp)]; exact ho
    case displaced =>
      obtain ⟨hscu, hlif, -, hentry, hpickup⟩ := reportDrop_marks (v := v) (s := (s.reach e).holdDue.withLif
        { s.lif with waiting := insertFrame (.hold w own.claim) older }.takeCurrent) rfl hv
      rw [offer_hold_displaces (s := (s.reach e).holdDue) rfl hfull hwait hv]
      exact ⟨(congrArg Scu.state hscu :), (congrArg Scu.own hscu :).trans ho, hlif, hentry, hpickup⟩
    case dropped =>
      rw [offer_hold_dropped (s := (s.reach e).holdDue) rfl ho hfull hwait hv]
      exact ⟨rfl, rfl, rfl, rfl⟩
  case guard =>
    obtain ⟨x, hscu⟩ := onNotice_firm_scu (s := (s.reach e).withScu { s.scu with guardEnd := none, state := .firm }) hd rfl
    refine ⟨_, exec_guardExpiry hend hstate, now_onNotice _ _, ?_, ?_, ?_⟩
    · rw [hscu]; rfl
    · rw [hscu]; rfl
    · rw [hscu]; exact ho
  case step =>
    have hnotice : ((s.reach e).withScu { s.scu with guardEnd := none, state := .firm }).onNotice .firm =
        ((s.reach e).withScu { s.scu with guardEnd := none, state := .firm }).endStep := by
      have hr : ((s.reach e).withScu { s.scu with guardEnd := none, state := .firm }).dsq.state = .awaitClaim := hd
      unfold State.onNotice
      simp only [hr]
    rw [exec_guardExpiry hend hstate, hnotice,
      endStep_waits ((s.reach e).withScu { s.scu with guardEnd := none, state := .firm }) _ c (.travel cell) hc hn
        (if_neg hp)]
    rfl

/-! ### A claim starts, or stays BLOCKED -/

/-- With room a starting claim takes the next claim number, and its INTENT stands in the queue (R43). -/
theorem startClaim_room {s : State} {w : Span} (h : s.lif.places < 8) :
    (s.startClaim w).scu.own.map OwnEntry.claim = some s.scu.nextClaim ∧
      (s.startClaim w).scu.nextClaim = s.scu.nextClaim + 1 ∧
      (s.startClaim w).lif.holds (TxFrame.isIntentOf s.scu.nextClaim) = true := by
  have hplace : s.lif.place (.intent w s.waitAge s.scu.nextClaim) =
      ({ s.lif with waiting := insertFrame (.intent w s.waitAge s.scu.nextClaim) s.lif.waiting }, none) :=
    place_room s.lif _ h (by simp)
  unfold State.startClaim State.offerBase
  rw [State.withScu_lif, hplace]
  refine ⟨rfl, rfl, (takeCurrent_holds _ _).trans ?_⟩
  unfold Lif.holds
  simp [(insertFrame_perm (TxFrame.intent w s.waitAge s.scu.nextClaim) s.lif.waiting).any_eq, TxFrame.isIntentOf]

/-- An evaluation leaves what the claim wants and since when it is blocked (R42, R43). -/
theorem evalStart_wanted (s : State) :
    s.evalStart.scu.wanted = s.scu.wanted ∧ s.evalStart.scu.blockedSince = s.scu.blockedSince := by
  have reported (u : State) (g : TxFrame) (hu : u.scu.state = .pending) :
      (u.reportDrop g).scu.wanted = u.scu.wanted ∧ (u.reportDrop g).scu.blockedSince = u.scu.blockedSince := by
    cases g <;> try exact ⟨rfl, rfl⟩
    case hold sp n =>
      have hgone : u.reportDrop (.hold sp n) = u := if_neg fun h => by simp [hu] at h
      rw [hgone]
      exact ⟨rfl, rfl⟩
    case intent sp age n =>
      show (u.intentGone n).scu.wanted = _ ∧ (u.intentGone n).scu.blockedSince = _
      unfold State.intentGone
      split <;> exact ⟨rfl, rfl⟩
  have placed (u : State) (g : TxFrame) (hu : u.scu.state = .pending) :
      (u.offerBase g).scu.wanted = u.scu.wanted ∧ (u.offerBase g).scu.blockedSince = u.scu.blockedSince := by
    unfold State.offerBase
    split
    · exact ⟨rfl, rfl⟩
    · exact reported _ _ hu
  unfold State.evalStart
  split
  · split
    · exact placed _ _ rfl
    · exact ⟨rfl, rfl⟩
  · exact ⟨rfl, rfl⟩

/-! ### The end of the retry delay, and the blocked timer -/

theorem exec_retryDelayExpiry {s : State} {e : Nat} (h : s.scu.retryEnd = some e) (hstate : s.scu.state = .retry) :
    exec .retryDelayExpiry s =
      .next ((s.reach e).withScu { s.scu with retryEnd := none, state := .blocked }).evalStart := by
  have hover : (s.reach e).retryOver =
      ((s.reach e).withScu { s.scu with retryEnd := none, state := .blocked }).evalStart := by
    have hr : (s.reach e).scu.state = .retry := hstate
    unfold State.retryOver
    simp only [hr]
    rfl
  show execRetryDelayExpiry s = _
  unfold execRetryDelayExpiry
  simp only [h]
  rw [hover]

theorem exec_blockedLong {s : State} {e : Nat} (h : s.scu.blockedSince = some e) :
    exec .blockedLong s = if s.scu.blockedLongMark then .next s else
      .next (((s.reach (s.blockedDeadline e)).withScu { s.scu with blockedLongMark := true }).raise .blockedLongEv) := by
  show execBlockedLong s = _
  unfold execBlockedLong
  simp only [h]

/-! ### The CLAIM step -/

theorem exec_dwellExpiry {s : State} {e : Nat} (h : s.dsq.dwellEnd = some e) :
    exec .dwellExpiry s = .next (s.reach e).stopDwell.endStep := by
  show execDwellExpiry s = _
  unfold execDwellExpiry
  simp only [h]

/-- A CLAIM step that follows a DWELL is taken in the state the dwell's end leaves (R103, R106). -/
theorem exec_dwellExpiry_claim {s : State} {c : DipCtx} {e length : Nat} {whole : Bool} (hc : s.dsq.ctx = some c)
    (he : s.dsq.dwellEnd = some e) (hn : s.nextStep c = some (.claim length whole)) :
    exec .dwellExpiry s = .next ((s.afterDwell c e).takeClaim length whole) := by
  rw [exec_dwellExpiry he]
  exact congrArg Host.Outcome.next (endStep_waits (s.reach e).stopDwell _ c (.claim length whole) hc hn rfl)

/-- The wanted span of a claim request, in the words of R41. -/
theorem wantedSpan_is {n margin length : Nat} {whole : Bool} {hook : Option Nat} {w : Span}
    (h : (whole = true ∧ w = ⟨0, n - 1, true⟩) ∨ (whole = false ∧ ∃ (k : Nat) (first last : Int), hook = some k ∧
      first = k - ((length - 1) / 2 : Nat) ∧ last = first + length - 1 ∧ 0 ≤ first ∧ last ≤ (n : Int) - 1 ∧
      w = ⟨(first - margin).toNat, min (n - 1) (last + margin).toNat, false⟩)) :
    wantedSpan n margin hook length whole = some w := by
  rcases h with ⟨rfl, rfl⟩ | ⟨rfl, k, first, last, rfl, hfirst, hlast, hlow, hhigh, rfl⟩
  · rfl
  · unfold wantedSpan
    simp only [← hfirst, ← hlast]
    rw [if_neg (by simp), if_neg (by omega)]

/-- The claim as a request leaves it before the start conditions are evaluated (R42). -/
def State.requested (s : State) (w : Span) : State :=
  s.withScu { s.scu.noteRequest s.now with
    state := .blocked, wanted := some w, blockedSince := some s.now, blockedHeld := 0 }

/-- A CLAIM step with no claim under way (R42, R106). -/
theorem takeClaim_fresh {s : State} {length : Nat} {whole : Bool} {w : Span}
    (hw : wantedSpan s.cells s.cfg.params.margin s.mpt.hook length whole = some w) (h : s.scu.state = .none) :
    s.takeClaim length whole = ((s.requested w).evalStart.modCtx fun c =>
      { c with progressive := c.progressive || whole }).toDsq .awaitClaim := by
  have hrequest : s.requestSpan length whole = ((s.requested w).evalStart, .taken) := by
    unfold State.requestSpan
    rw [if_pos h, hw]
    rfl
  unfold State.takeClaim
  rw [hrequest]

/-- A CLAIM step while the last claim still ends: SCU holds the span (R42, R106). -/
theorem takeClaim_held {s : State} {length : Nat} {whole : Bool} {w : Span}
    (hw : wantedSpan s.cells s.cfg.params.margin s.mpt.hook length whole = some w)
    (h : s.scu.state = .releasing ∨ (s.scu.state = .pending ∧ s.scu.withdrawal = .cancel)) :
    s.takeClaim length whole = ((s.withScu { s.scu.noteRequest s.now with held := some w }).modCtx fun c =>
      { c with progressive := c.progressive || whole }).toDsq .awaitClaim := by
  have hrequest : s.requestSpan length whole = (s.withScu { s.scu.noteRequest s.now with held := some w }, .taken) := by
    unfold State.requestSpan
    rw [if_neg fun hno => by rcases h with h | h <;> simp [hno] at h, if_pos h, hw]
  unfold State.takeClaim
  rw [hrequest]

/-- An evaluation of a claim leaves the place of the dip in its program. -/
theorem evalStart_step {s : State} {c : DipCtx} (hc : s.dsq.ctx = some c) (f : DipCtx → Nat × Bool)
    (hf : ∀ d : DipCtx, f d.unmarked = f d) : s.evalStart.dsq.ctx.map f = some (f c) := by
  have hctx := (aside_evalStart s).ctx
  rw [hc] at hctx
  obtain ⟨d, hd, hunmarked⟩ := Option.map_eq_some_iff.mp hctx
  rw [hd, Option.map_some, ← hf d, hunmarked, hf]

/-- Settles O48: the start conditions are evaluated at the end of the retry delay and at the request, and the blocked timer
reports once. -/
theorem retryAndBlockedTimersEnd : Obligations.RetryAndBlockedTimersEnd := by
  refine ⟨fun s e w => ⟨fun hend hstate hw => ⟨fun hbarred => ?stays, fun hclear hline hclash hz hroom => ?starts⟩,
    fun hsince hmark => ?reports, fun hsince hmark => ?reported⟩,
    fun s c e length whole w hc he hn hspan => ⟨fun hstate => ?fresh, fun hstate => ?held⟩⟩
  case stays =>
    have hstands := evalStart_stands (s := (s.reach e).withScu { s.scu with retryEnd := none, state := .blocked })
      fun _ => mayStart_barred hbarred
    exact (exec_retryDelayExpiry hend hstate).trans (congrArg Host.Outcome.next hstands)
  case starts =>
    have hstarts := evalStart_starts ((s.reach e).withScu { s.scu with retryEnd := none, state := .blocked }) w rfl hw
      (mayStart_of_clear _ hclear hline hclash hz)
    refine ⟨_, exec_retryDelayExpiry hend hstate, ?_⟩
    rw [hstarts]
    exact ⟨startClaim_pending _ w hroom, startClaim_room hroom⟩
  case reports =>
    refine ⟨_, (exec_blockedLong hsince).trans (if_neg (by simp [hmark])), rfl, rfl, raise_raised s.spt .blockedLongEv, rfl, rfl⟩
  case reported => exact (exec_blockedLong hsince).trans (if_pos hmark)
  case fresh =>
    have hwant : wantedSpan (s.afterDwell c e).cells (s.afterDwell c e).cfg.params.margin (s.afterDwell c e).mpt.hook
        length whole = some w := wantedSpan_is hspan
    have aside := aside_evalStart ((s.afterDwell c e).requested w)
    obtain ⟨hwanted, hsince⟩ := evalStart_wanted ((s.afterDwell c e).requested w)
    have hstep := evalStart_step (s := (s.afterDwell c e).requested w) (c := c.next) rfl
      (fun d => (d.index, d.progressive)) fun _ => rfl
    have hover : ((s.afterDwell c e).requested w).scu.overlapped = s.scu.entries.any fun x => x.span.overlaps w := rfl
    refine ⟨_, (exec_dwellExpiry_claim hc he hn).trans (congrArg _ (takeClaim_fresh hwant hstate)), aside.now, rfl, ?_,
      hwanted, hsince, aside.requestTime, fun hbarred => ?_, fun hclear hline hclash hz hroom => ?_⟩
    · obtain ⟨d, hd, hdstep⟩ := Option.map_eq_some_iff.mp hstep
      show (((s.afterDwell c e).requested w).evalStart.dsq.ctx.map _).map _ = _
      rw [hd]
      obtain ⟨hindex, hprogressive⟩ := Prod.mk.inj hdstep
      show some (d.index, d.progressive || whole) = _
      rw [hindex, hprogressive]
      rfl
    · have hstands : ((s.afterDwell c e).requested w).evalStart = (s.afterDwell c e).requested w := by
        refine evalStart_stands fun _ => mayStart_barred ?_
        rcases hbarred with ⟨x, hx, hxw⟩ | hrest
        · exact .inl (hover.trans (List.any_eq_true.mpr ⟨x, hx, hxw⟩))
        · exact .inr hrest
      rw [hstands]
      exact ⟨rfl, rfl⟩
    · have hstarts := evalStart_starts ((s.afterDwell c e).requested w) w rfl rfl (mayStart_of_clear _
        (hover.trans (List.any_eq_false.mpr fun x hx => by simp [hclear x hx])) hline hclash hz)
      rw [hstarts]
      exact ⟨startClaim_pending ((s.afterDwell c e).requested w) w hroom,
        startClaim_room (s := (s.afterDwell c e).requested w) hroom⟩
  case held =>
    have hwant : wantedSpan (s.afterDwell c e).cells (s.afterDwell c e).cfg.params.margin (s.afterDwell c e).mpt.hook
        length whole = some w := wantedSpan_is hspan
    rw [exec_dwellExpiry_claim hc he hn, takeClaim_held hwant hstate]
    rfl

end Sys2Proof.Machine
end

section
/-! PROOFS. The motion line (sections 7.1 to 7.4; statements O51, O52, O54, O55). -/

namespace Sys2Proof.Machine

/-! ### What a response's number matches (R133) -/

theorem matches_awaitAccept {m : Mpt} {r : MotionRequest} {n : Byte} (h : m.phase = .awaitAccept r n) :
    m.matches n = .outstanding r false := by
  unfold Mpt.matches
  rw [h]
  exact if_pos rfl

theorem matches_running {m : Mpt} {r : MotionRequest} {n : Byte} (h : m.phase = .running r n) :
    m.matches n = .outstanding r true := by
  unfold Mpt.matches
  rw [h]
  exact if_pos rfl

theorem matches_stopping {m : Mpt} {n : Byte} (h : m.phase = .stopping n) : m.matches n = .stopAwaiting := by
  unfold Mpt.matches Mpt.matchStop
  rw [h]
  exact if_pos rfl

/-- A number of neither the outstanding request nor a STOP is the cancelled request's or a stray one. -/
theorem matches_other {m : Mpt} {n : Byte} (hr : m.phase.outstanding.map Prod.snd ≠ some n)
    (hs : m.phase.stopNumber ≠ some n) (hl : m.lastStop ≠ some n) :
    m.matches n = if m.cancelled = some n then .cancelled else .stray := by
  have stop : m.matchStop n = if m.cancelled = some n then .cancelled else .stray := by
    unfold Mpt.matchStop
    rw [if_neg hs, if_neg hl]
  rw [← stop]
  unfold Mpt.matches
  split
  · rename_i r k hp
    exact if_neg fun h => hr (by rw [hp, h]; rfl)
  · rename_i r k hp
    exact if_neg fun h => hr (by rw [hp, h]; rfl)
  · rfl
  · rfl

/-! ### The responses -/

theorem exec_motionAccept {s : State} {r : MotionRequest} {n : Byte} (h : s.mpt.phase = .awaitAccept r n) :
    exec (.motionAccept n) s = .next (s.takeAccept r) := by
  show execMotionAccept n s = _
  unfold execMotionAccept
  rw [matches_awaitAccept h]

theorem exec_motionDone {s : State} {r : MotionRequest} {n : Byte} (cell : Byte) :
    (s.mpt.phase = .running r n → exec (.motionDone n cell) s = .next (s.takeDone r true cell)) ∧
      (s.mpt.phase = .awaitAccept r n → exec (.motionDone n cell) s = .next (s.takeDone r false cell)) := by
  refine ⟨fun h => ?_, fun h => ?_⟩
  · show execMotionDone n cell s = _
    unfold execMotionDone
    rw [matches_running h]
  · show execMotionDone n cell s = _
    unfold execMotionDone
    rw [matches_awaitAccept h]

/-- In STOPPING an acceptance and a DONE of the STOP's number are one. -/
theorem exec_stopTaken {s : State} {n : Byte} (h : s.mpt.phase = .stopping n) :
    exec (.motionAccept n) s = .next s.takeStop ∧ ∀ cell, exec (.motionDone n cell) s = .next s.takeStop := by
  refine ⟨?_, fun cell => ?_⟩
  · show execMotionAccept n s = _
    unfold execMotionAccept
    rw [matches_stopping h]
  · show execMotionDone n cell s = _
    unfold execMotionDone
    rw [matches_stopping h]

/-- What a FAIL does, by what its number matches (R136 to R138). -/
def State.failed (s : State) (reason : MotionReason) (m : Match) : State :=
  match m with
  | .outstanding r running => s.requestFault r reason running
  | .stopAwaiting => s.stopFault reason
  | .stopAccepted => s.raise .motionStray
  | .cancelled => s
  | .stray => s.raise .motionStray

theorem exec_motionFail {s : State} {n detail : Byte} {reason : MotionReason} (h : failReason detail = some reason) :
    exec (.motionFail n detail) s = .next (s.failed reason (s.mpt.matches n)) := by
  show execMotionFail n detail s = _
  unfold execMotionFail State.failed
  rw [h]
  cases s.mpt.matches n <;> rfl

/-- The details a FAIL can have (R212). -/
theorem failReason_some {detail : Byte} (hlow : 1 ≤ detail.toNat) (hhigh : detail.toNat ≤ 4) :
    ∃ reason, failReason detail = some reason := by
  unfold failReason
  have hcases : detail.toNat = 1 ∨ detail.toNat = 2 ∨ detail.toNat = 3 ∨ detail.toNat = 4 := by omega
  rcases hcases with h | h | h | h <;> rw [h] <;> exact ⟨_, rfl⟩

theorem failReason_none {detail : Byte} (h : detail = 0 ∨ 4 < detail.toNat) : failReason detail = none := by
  unfold failReason
  split
  · rename_i hd; rcases h with rfl | h <;> simp_all
  · rename_i hd; rcases h with rfl | h <;> simp_all
  · rename_i hd; rcases h with rfl | h <;> simp_all
  · rename_i hd; rcases h with rfl | h <;> simp_all
  · rfl

/-- Settles O55: a number that matches nothing outstanding is the cancelled request's or stray. -/
theorem strayResponsesHaveNoEffect : Obligations.StrayResponsesHaveNoEffect := by
  refine fun s n cell detail => ⟨rfl, fun hr hs hl hlow hhigh => ?_⟩
  have hmatch := matches_other hr hs hl
  obtain ⟨reason, hreason⟩ := failReason_some hlow hhigh
  have haccept : exec (.motionAccept n) s = execMotionAccept n s := rfl
  have hdone : exec (.motionDone n cell) s = execMotionDone n cell s := rfl
  unfold execMotionAccept at haccept
  unfold execMotionDone at hdone
  rw [haccept, hdone, exec_motionFail hreason, hmatch]
  refine ⟨fun hcancelled => ?_, fun hstray => ⟨_, rfl, ?_⟩⟩
  · rw [if_pos hcancelled]
    exact ⟨rfl, rfl, rfl⟩
  · rw [if_neg hstray]
    exact ⟨rfl, rfl, rfl⟩

/-! ### The receiver of the motion line -/

/-- Settles the half of O51 that is about received bytes. -/
theorem receiveResponse_reads (code number detail high low : Byte) (rest : List Byte) :
    let read := receiveResponse (0x3E :: code :: number :: detail :: high :: low :: rest)
    (crc16 [code, number, detail, high, low] ≠ 0 → read = .command .motionFrameDiscarded rest) ∧
    (crc16 [code, number, detail, high, low] = 0 →
      (code = 1 → read = .command (.motionAccept number) rest) ∧
      (code = 2 → read = .command (.motionDone number detail) rest) ∧
      (code = 3 → 1 ≤ detail.toNat → detail.toNat ≤ 4 → read = .command (.motionFail number detail) rest) ∧
      (code = 3 → detail = 0 ∨ 4 < detail.toNat → read = .command .motionFrameDiscarded rest) ∧
      (code = 0 ∨ 3 < code.toNat → read = .command .motionFrameDiscarded rest)) := by
  intro read
  have hread : read = .command (if checks [code, number, detail, high, low] then responseCommand code number detail
      else .motionFrameDiscarded) rest := rfl
  refine ⟨fun hcrc => ?_, fun hcrc => ?_⟩
  · rw [hread, if_neg (by simpa [checks] using hcrc)]
  · have hcommand : read = .command (responseCommand code number detail) rest := by
      rw [hread, if_pos (by simpa [checks] using hcrc)]
    rw [hcommand]
    unfold responseCommand
    refine ⟨fun h => by rw [h]; rfl, fun h => by rw [h]; rfl, fun h hlow hhigh => ?_, fun h hdetail => ?_, fun h => ?_⟩
    · obtain ⟨reason, hreason⟩ := failReason_some hlow hhigh
      rw [h]
      exact congrArg (Received.command · rest) (if_pos (by rw [hreason]; rfl))
    · rw [h]
      exact congrArg (Received.command · rest) (if_neg (by rw [failReason_none hdetail]; simp))
    · split
      · rename_i hc; rcases h with rfl | h <;> simp_all
      · rename_i hc; rcases h with rfl | h <;> simp_all
      · rename_i hc; rcases h with rfl | h <;> simp_all
      · rfl

/-! ### A completion ends the step that waits for it -/

/-- The end of a step that a weigh step follows, with some settle wait begun (R103, R104). -/
theorem endStep_weighOut {s : State} {c : DipCtx} {timeout : Nat} (hc : s.dsq.ctx = some c)
    (hn : s.nextStep c = some (.weighOut timeout)) :
    s.endStep = ((s.atNext c).withWch (s.wch.settling s.now timeout)).toDsq .weighingOut :=
  endStep_waits s _ c (.weighOut timeout) hc hn rfl

theorem endStep_weighDry {s : State} {c : DipCtx} {timeout : Nat} (hc : s.dsq.ctx = some c)
    (hn : s.nextStep c = some (.weighDry timeout)) :
    s.endStep = ((s.atNext c).withWch (s.wch.settling s.now timeout)).toDsq .weighingDry :=
  endStep_waits s _ c (.weighDry timeout) hc hn rfl

/-- A completed MOVE (R134, R139). -/
theorem takeDone_move {s : State} {cell : Byte} {running : Bool} {t : Nat} (hcell : cell.toNat < s.cells)
    (hd : s.dsq.state = .traveling) : s.takeDone (.move t) running cell =
      (s.withMpt { s.mpt with phase := .idle, acceptEnd := none, doneEnd := none, hook := some cell.toNat }).endStep := by
  unfold State.takeDone
  simp only []
  rw [if_pos hcell]
  have completed (a : State) (ha : a.dsq.state = .traveling) : a.motionCompleted = a.endStep := by
    unfold State.motionCompleted
    rw [ha]
  cases running <;> exact completed _ hd

/-- A completed RAISE of a load BELOW (R112, R134). -/
theorem takeDone_raise {s : State} {v : Nat} {cell : Byte} {running : Bool} (hd : s.dsq.state = .raising)
    (hp : s.dsq.position = .below) : s.takeDone (.raise v) running cell =
      ((s.withMpt s.mpt.ended).setPosition .above).endStep := by
  have completed (a : State) (ha : a.dsq.state = .raising) (hpos : a.dsq.position = .below) :
      a.motionCompleted = (a.setPosition .above).endStep := by
    have hraised : a.raised = a.setPosition .above := if_pos hpos
    unfold State.motionCompleted
    rw [ha, ← hraised]
  cases running <;> exact completed _ hd hp

/-- A completed LOWER, accepted or not yet (R109, R110, R134). -/
theorem takeDone_lower {s : State} {d v : Nat} {cell : Byte} (hd : s.dsq.state = .lowering) :
    s.takeDone (.lower d v) true cell = (s.withMpt s.mpt.ended).startImmersion.endStep ∧
      s.takeDone (.lower d v) false cell =
        (((s.withMpt s.mpt.ended).setPosition .below).modCtx DipCtx.countImmersion).startImmersion.endStep := by
  have completed (a : State) (ha : a.dsq.state = .lowering) : a.motionCompleted = a.startImmersion.endStep := by
    unfold State.motionCompleted
    rw [ha]
  exact ⟨completed _ hd, completed _ hd⟩

/-- Settles O52: the completion, in either phase, ends the step, and the weigh step after it begins. -/
theorem completedRequestEndsItsStep : Obligations.CompletedRequestEndsItsStep := by
  refine fun s n cell c timeout hc => ⟨fun target hp hcell hd hn => ?move, fun v hp hd hpos hn => ?raise⟩
  case move =>
    have done (running : Bool) : s.takeDone (.move target) running cell = _ :=
      (takeDone_move hcell hd).trans (endStep_weighDry (s := s.withMpt { s.mpt with
        phase := .idle, acceptEnd := none, doneEnd := none, hook := some cell.toNat }) hc hn)
    rcases hp with hp | hp
    · exact ((exec_motionDone cell).1 hp).trans (congrArg Host.Outcome.next (done true))
    · exact ((exec_motionDone cell).2 hp).trans (congrArg Host.Outcome.next (done false))
  case raise =>
    have done (running : Bool) : s.takeDone (.raise v) running cell = _ :=
      (takeDone_raise hd hpos).trans (endStep_weighOut (s := (s.withMpt s.mpt.ended).setPosition .above) hc hn)
    rcases hp with hp | hp
    · exact ((exec_motionDone cell).1 hp).trans (congrArg Host.Outcome.next (done true))
    · exact ((exec_motionDone cell).2 hp).trans (congrArg Host.Outcome.next (done false))

/-! ### The phases of a request -/

/-- The last byte of the frame of the request or STOP in flight has left (R131). -/
theorem exec_motionRequestSent {s : State} {n : Byte} {f : MotionTx} {rest : List MotionTx} {r : MotionRequest}
    (hsending : s.mpt.sending = f :: rest) (hf : f.number = n)
    (hp : s.mpt.phase = .awaitAccept r n ∨ s.mpt.phase = .stopping n) :
    exec .motionRequestSent s =
      .next { s with mpt := { s.mpt with sending := rest, acceptEnd := some (s.now + 500) } } := by
  have hsent : s.mpt.sent s.now = { s.mpt with sending := rest, acceptEnd := some (s.now + 500) } := by
    unfold Mpt.sent
    rw [hsending]
    rcases hp with hp | hp
    · simp only [hp]
      exact if_pos hf
    · simp only [hp]
      exact if_pos hf
  exact congrArg (fun m => Host.Outcome.next (s.withMpt m)) hsent

/-- An acceptance starts the done timer (R133). -/
theorem accepted_awaitAccept {m : Mpt} {r : MotionRequest} {n : Byte} (p : Params) (now : Nat)
    (h : m.phase = .awaitAccept r n) : m.accepted p now =
      { m with phase := .running r n, acceptEnd := none, doneEnd := some (now + doneTime p r) } := by
  unfold Mpt.accepted
  rw [h]

/-- DSQ makes something of the acceptance of a LOWER alone (R109, R140). -/
theorem takeAccept_other {s : State} {r : MotionRequest} (h : r.kind ≠ .lower) :
    s.takeAccept r = s.withMpt (s.mpt.accepted s.cfg.params s.now) := by
  unfold State.takeAccept State.motionAccepted
  cases hk : r.kind with
  | lower => exact absurd hk h
  | _ => rfl

/-- Settles O51: a request's phases one by one, and the bytes of a response. -/
theorem acceptedRequestRuns : Obligations.AcceptedRequestRuns := by
  refine ⟨fun s n => ⟨fun f rest r => exec_motionRequestSent, fun cell hp => ?move, fun v hp => ?raise, fun sec hp => ?vibrate,
    fun d v c hp hc => ?lower, fun d v c cell timeout hc hd hn => ⟨fun hp => ?running, fun hp => ?early⟩⟩,
    receiveResponse_reads⟩
  case move =>
    rw [exec_motionAccept hp, takeAccept_other (by simp [MotionRequest.kind]), accepted_awaitAccept _ _ hp]
    rfl
  case raise =>
    rw [exec_motionAccept hp, takeAccept_other (by simp [MotionRequest.kind]), accepted_awaitAccept _ _ hp]
    rfl
  case vibrate =>
    rw [exec_motionAccept hp, takeAccept_other (by simp [MotionRequest.kind]), accepted_awaitAccept _ _ hp]
    rfl
  case lower =>
    have hcounted : s.takeAccept (.lower d v) = ((s.withMpt (s.mpt.accepted s.cfg.params s.now)).setPosition
        .below).withDsq { s.dsq with position := .below, ctx := some c.countImmersion } := by
      show ((s.withMpt (s.mpt.accepted s.cfg.params s.now)).setPosition .below).withDsq
        { s.dsq with position := .below, ctx := s.dsq.ctx.map DipCtx.countImmersion } = _
      rw [hc]
      rfl
    rw [exec_motionAccept hp, hcounted, accepted_awaitAccept _ _ hp]
    rfl
  case running =>
    rw [(exec_motionDone cell).1 hp, (takeDone_lower hd).1,
      endStep_weighOut (s := (s.withMpt s.mpt.ended).startImmersion) hc hn]
    rfl
  case early =>
    have hlowered : (((s.withMpt s.mpt.ended).setPosition .below).modCtx DipCtx.countImmersion).startImmersion =
        (s.withMpt s.mpt.ended).withDsq { s.dsq with
          position := .below, ctx := some c.countImmersion,
          immersionSince := some (s.dsq.immersionSince.getD s.now) } := by
      rw [show some c.countImmersion = s.dsq.ctx.map DipCtx.countImmersion by rw [hc]; rfl]
      rfl
    have hended := endStep_weighOut (s := (s.withMpt s.mpt.ended).withDsq { s.dsq with
      position := .below, ctx := some c.countImmersion,
      immersionSince := some (s.dsq.immersionSince.getD s.now) }) (c := c.countImmersion) rfl hn
    rw [(exec_motionDone cell).2 hp, (takeDone_lower hd).2, hlowered, hended]
    rfl

/-! ### A STOP -/

/-- The immersion timer stops, in the words of R110. -/
theorem stopImmersion_is {s : State} {c : DipCtx} (hc : s.dsq.ctx = some c) : s.stopImmersion =
    s.withDsq { s.dsq with immersionSince := none, ctx := some (c.outOfZinc s.dsq.immersionSince s.now) } := by
  unfold State.stopImmersion DipCtx.outOfZinc State.modCtx
  cases hi : s.dsq.immersionSince with
  | none =>
    simp only []
    rw [← hc, ← hi]
    rfl
  | some t =>
    simp only [hc]
    rfl

/-- The abort path, once nothing is in flight, in the words of R123. -/
theorem continueAbort_eq {s : State} {c : DipCtx} (hc : s.dsq.ctx = some c) : s.continueAbort = s.pathGoesOn c := by
  unfold State.continueAbort State.pathGoesOn State.startAbortDrain
  by_cases hpos : s.dsq.position = .below
  · rw [if_pos hpos, if_pos hpos]
    rw [stopImmersion_is hc]
    rfl
  · rw [if_neg hpos, if_neg hpos]
    split
    · rw [← hc]
      rfl
    · rw [← hc]
      rfl

/-- A STOP that fails ends as a motion fault of kind STOP (R137). -/
theorem stopFault_halts (s : State) (reason : MotionReason) {c : DipCtx} (hc : s.dsq.ctx = some c) :
    (s.stopFault reason).now = s.now ∧ (s.stopFault reason).mpt.phase = .idle ∧
      (s.stopFault reason).dsq.state = .halted ∧
      (s.stopFault reason).dsq.cause = some ⟨.motion reason .stop false, c.slot, c.index⟩ ∧
      (s.stopFault reason).spt.isRaised .motionFault = true ∧ (s.stopFault reason).spt.isRaised .haltedEv = true := by
  have halted := haltDip_halted (s.withMpt s.mpt.ended) (.motion reason .stop false)
  obtain ⟨hfault, hevent⟩ := halted.raised
  refine ⟨halted.now, (congrArg Mpt.phase halted.mpt :), halted.state, halted.cause.trans ?_, hfault, hevent⟩
  show s.dsq.ctx.map _ = _
  rw [hc]
  rfl

theorem exec_stopAcceptTimeout {s : State} {n : Byte} {e : Nat} (hp : s.mpt.phase = .stopping n)
    (he : s.mpt.acceptEnd = some e) : exec .stopAcceptTimeout s = .next ((s.reach e).stopFault .timeout) := by
  show execStopAcceptTimeout s = _
  unfold execStopAcceptTimeout
  simp only [hp, he]

/-- Settles O54: a STOP's acceptance is DSQ's, its failure a fault. -/
theorem stopEndsTheAbortOrFaults : Obligations.StopEndsTheAbortOrFaults := by
  intro s c n cell detail e hc hp accepted
  obtain ⟨haccept, hdone⟩ := exec_stopTaken hp
  have hstopped : s.mpt.stopTaken = accepted := by
    unfold Mpt.stopTaken
    rw [hp]
    rfl
  refine ⟨(hdone cell).trans haccept.symm, fun hd => ?quick, fun lower hd => ?path, fun reason hreason => ?fails,
    fun hend => ?timeout⟩
  case quick =>
    have htaken : s.takeStop = ((s.withMpt accepted).createRecord .aborted).returnIdle := by
      have hr : (s.withMpt accepted).dsq.state = .aborting .quickStop := hd
      rw [← hstopped] at hr ⊢
      unfold State.takeStop State.stopAccepted
      rw [hr]
      rfl
    rw [haccept, htaken]
    refine ⟨fun h0 => ?_, fun h0 => ⟨_, rfl, ?_⟩⟩
    · rw [createRecord_dry (s.withMpt accepted) .aborted hc h0]
      rfl
    · have made := createRecord_made s (s.withMpt accepted) c .aborted (s.lif.places < 6) rfl rfl rfl rfl
        (by show s.dsq.ctx.map _ = _; rw [hc]; rfl) h0 (fun h => Nat.lt_succ_of_lt h)
      have hmpt := mpt_createRecord (s.withMpt accepted) .aborted
      generalize (s.withMpt accepted).createRecord .aborted = t at made hmpt ⊢
      exact ⟨hmpt, rfl, returnIdle_unused t, made.after rfl rfl (EventsGrow.refl _) (returnIdle_lots t)⟩
  case path =>
    have htaken : s.takeStop = (if lower then (s.withMpt accepted).startImmersion else s.withMpt accepted).continueAbort := by
      have hr : (s.withMpt accepted).dsq.state = .aborting (.pathStop lower) := hd
      rw [← hstopped] at hr ⊢
      unfold State.takeStop State.stopAccepted
      rw [hr]
    rw [haccept, htaken]
    cases lower
    · exact congrArg Host.Outcome.next (continueAbort_eq (s := s.withMpt accepted) hc)
    · exact congrArg Host.Outcome.next (continueAbort_eq (s := (s.withMpt accepted).startImmersion) hc)
  case fails =>
    obtain ⟨-, h2, h3, h4, -, -⟩ := stopFault_halts s reason hc
    refine ⟨_, (exec_motionFail hreason).trans ?_, h2, h3, h4⟩
    rw [matches_stopping hp]
    rfl
  case timeout => exact ⟨_, exec_stopAcceptTimeout hp hend, stopFault_halts (s.reach e) .timeout hc⟩

end Sys2Proof.Machine
end

section
/-! PROOFS. Motion faults and program faults (sections 5.3, 5.4, 7.3; statement O53). -/

namespace Sys2Proof.Machine

/-! ### Motion faults -/

theorem exec_acceptTimeout {s : State} {r : MotionRequest} {n : Byte} {e : Nat} (hp : s.mpt.phase = .awaitAccept r n)
    (he : s.mpt.acceptEnd = some e) : exec .acceptTimeout s = .next ((s.reach e).requestFault r .timeout false) := by
  show execAcceptTimeout s = _
  unfold execAcceptTimeout
  simp only [hp, he]

theorem exec_doneTimeout {s : State} {r : MotionRequest} {n : Byte} {e : Nat} (hp : s.mpt.phase = .running r n)
    (he : s.mpt.doneEnd = some e) : exec .doneTimeout s = .next ((s.reach e).requestFault r .timeout true) := by
  show execDoneTimeout s = _
  unfold execDoneTimeout
  simp only [hp, he]

/-- A motion fault takes a load that was about the zinc to UNKNOWN (R125). -/
theorem haltPosition_motion {p : Position} {reason : MotionReason} {k : MotionKind} {running : Bool}
    (h : p = .below ∨ p = .above) : haltPosition p (.motion reason k running) = .unknown := by
  rcases h with rfl | rfl <;> rfl

/-- What ends a request as a motion fault, and a dip with it (R125, R139, R140). -/
structure Faulted (s : State) (c : DipCtx) (r : MotionRequest) (reason : MotionReason) (running : Bool) (t : State) :
    Prop where
  phase : t.mpt.phase = .idle
  acceptEnd : t.mpt.acceptEnd = none
  doneEnd : t.mpt.doneEnd = none
  state : t.dsq.state = .halted
  cause : t.dsq.cause = some ⟨.motion reason r.kind running, c.slot, c.index⟩
  task : t.wch.task = .none
  request : t.hwn.request = .none
  dwellEnd : t.dsq.dwellEnd = none
  drainEnd : t.dsq.drainEnd = none
  immersionSince : t.dsq.immersionSince = none
  motionFault : t.spt.isRaised .motionFault = true
  haltedEv : t.spt.isRaised .haltedEv = true
  hook : t.mpt.hook = (if r.kind = .move then none else s.mpt.hook)
  position : s.dsq.position = .below ∨ s.dsq.position = .above → t.dsq.position = .unknown

theorem requestFault_faulted (s : State) (r : MotionRequest) (reason : MotionReason) (running : Bool) {c : DipCtx}
    (hc : s.dsq.ctx = some c) : (s.requestFault r reason running).now = s.now ∧
      Faulted s c r reason running (s.requestFault r reason running) := by
  have halted := haltDip_halted ((s.withMpt { s.mpt with hook := hookAfter r s.mpt.hook }).withMpt
    { s.mpt with hook := hookAfter r s.mpt.hook, phase := .idle, acceptEnd := none, doneEnd := none })
    (.motion reason r.kind running)
  obtain ⟨hfault, hevent⟩ := halted.raised
  have hmpt := halted.mpt
  have hhook : hookAfter r s.mpt.hook = if r.kind = .move then none else s.mpt.hook := by cases r <;> rfl
  refine ⟨halted.now, (congrArg Mpt.phase hmpt :), (congrArg Mpt.acceptEnd hmpt :), (congrArg Mpt.doneEnd hmpt :),
    halted.state, halted.cause.trans ?_, halted.task, halted.request, halted.dwellEnd, halted.drainEnd,
    halted.immersionSince, hfault, hevent, (congrArg Mpt.hook hmpt :).trans hhook, fun h =>
      halted.position.trans (haltPosition_motion h)⟩
  show s.dsq.ctx.map _ = _
  rw [hc]
  rfl

/-- The first half of O53: what ends a request as a fault. -/
theorem motionFaults (s : State) (c : DipCtx) (r : MotionRequest) (n detail cell : Byte) (e : Nat)
    (hc : s.dsq.ctx = some c) :
    (∀ reason, failReason detail = some reason →
      (s.mpt.phase = .awaitAccept r n → ∃ t, exec (.motionFail n detail) s = .next t ∧ Faulted s c r reason false t) ∧
      (s.mpt.phase = .running r n → ∃ t, exec (.motionFail n detail) s = .next t ∧ Faulted s c r reason true t)) ∧
    (∀ target, r = .move target → s.mpt.phase = .running r n → s.cells ≤ cell.toNat →
      ∃ t, exec (.motionDone n cell) s = .next t ∧ Faulted s c r .badCell true t) ∧
    (s.mpt.phase = .awaitAccept r n → s.mpt.acceptEnd = some e →
      ∃ t, exec .acceptTimeout s = .next t ∧ t.now = max s.now e ∧ Faulted s c r .timeout false t) ∧
    (s.mpt.phase = .running r n → s.mpt.doneEnd = some e →
      ∃ t, exec .doneTimeout s = .next t ∧ t.now = max s.now e ∧ Faulted s c r .timeout true t) := by
  refine ⟨fun reason hreason => ⟨fun hp => ?_, fun hp => ?_⟩, fun target hr hp hcell => ?_, fun hp he => ?_, fun hp he => ?_⟩
  · exact ⟨_, (exec_motionFail hreason).trans (by rw [matches_awaitAccept hp]; rfl),
      (requestFault_faulted s r reason false hc).2⟩
  · exact ⟨_, (exec_motionFail hreason).trans (by rw [matches_running hp]; rfl),
      (requestFault_faulted s r reason true hc).2⟩
  · have hdone : s.takeDone r true cell = s.requestFault r .badCell true := by
      rw [hr]
      exact if_neg (Nat.not_lt.mpr hcell)
    exact ⟨_, ((exec_motionDone cell).1 hp).trans (by rw [hdone]), (requestFault_faulted s r .badCell true hc).2⟩
  · obtain ⟨hnow, hfaulted⟩ := requestFault_faulted (s.reach e) r .timeout false hc
    obtain ⟨h1, h2, h3, h4, h5, h6, h7, h8, h9, h10, h11, h12, h13, h14⟩ := hfaulted
    exact ⟨_, exec_acceptTimeout hp he, hnow, h1, h2, h3, h4, h5, h6, h7, h8, h9, h10, h11, h12, h13, h14⟩
  · obtain ⟨hnow, hfaulted⟩ := requestFault_faulted (s.reach e) r .timeout true hc
    obtain ⟨h1, h2, h3, h4, h5, h6, h7, h8, h9, h10, h11, h12, h13, h14⟩ := hfaulted
    exact ⟨_, exec_doneTimeout hp he, hnow, h1, h2, h3, h4, h5, h6, h7, h8, h9, h10, h11, h12, h13, h14⟩

/-! ### Program faults -/

/-- A halt keeps a held span, and with no request held leaves the claim and the queue (R125). -/
theorem haltDip_span (s : State) (f : DipFault) (hs : s.scu.state.isHeld = true) (hh : s.scu.held = none) :
    (s.haltDip f).scu = s.scu ∧ (s.haltDip f).lif = s.lif := by
  have unheld (a : State) (ha : a.scu = s.scu) : a.cancelUnheld = a := by
    refine if_neg ?_
    rw [ha, hh]
    rintro (h | h)
    · cases hstate : s.scu.state <;> simp [hstate, ClaimState.isHeld, ClaimState.isOpen] at hs h
    · cases h
  have stopped (a : State) : a.stopImmersion.scu = a.scu ∧ a.stopImmersion.lif = a.lif := by
    rw [(stopImmersion_eq a).1]
    exact ⟨rfl, rfl⟩
  have ended (a : State) : a.endWeighTask.scu = a.scu ∧ a.endWeighTask.lif = a.lif := by
    unfold State.endWeighTask
    split <;> exact ⟨rfl, rfl⟩
  have finished (a : State) (p : Position) (e : Event) (hscu : a.scu = s.scu) (hlif : a.lif = s.lif) :
      ((((a.withdrawHeat.cancelUnheld.setPosition p).toDsq .halted).raise e).raise .haltedEv).scu = s.scu ∧
        ((((a.withdrawHeat.cancelUnheld.setPosition p).toDsq .halted).raise e).raise .haltedEv).lif = s.lif := by
    rw [unheld a.withdrawHeat hscu]
    exact ⟨hscu, hlif⟩
  have timed (a : State) (d : Dsq) (ha : a.scu = s.scu ∧ a.lif = s.lif) :
      (a.withDsq d).endWeighTask.scu = s.scu ∧ (a.withDsq d).endWeighTask.lif = s.lif :=
    ⟨(ended (a.withDsq d)).1.trans ha.1, (ended (a.withDsq d)).2.trans ha.2⟩
  have begun (d : Dsq) : (s.withDsq d).stopImmersion.stopDwell.scu = s.scu ∧
      (s.withDsq d).stopImmersion.stopDwell.lif = s.lif := stopped (s.withDsq d)
  obtain ⟨hscu, hlif⟩ := timed _ { ((s.withDsq { s.dsq with
    cause := s.dsq.ctx.map (fun c => ⟨f, c.slot, c.index⟩) }).stopImmersion.stopDwell).dsq with drainEnd := none } (begun _)
  exact finished _ _ _ hscu hlif

/-- What a step that fails its run-time check leaves of the state it is taken in (R114, R125). -/
structure ProgramFaulted (s : State) (c : DipCtx) (reason : ProgramReason) (t : State) : Prop where
  mpt : t.mpt = s.mpt
  state : t.dsq.state = .halted
  cause : t.dsq.cause = some ⟨.program reason, c.slot, c.index + 1⟩
  task : t.wch.task = .none
  request : t.hwn.request = .none
  dwellEnd : t.dsq.dwellEnd = none
  drainEnd : t.dsq.drainEnd = none
  immersionSince : t.dsq.immersionSince = none
  programFault : t.spt.isRaised .programFault = true
  haltedEv : t.spt.isRaised .haltedEv = true
  position : t.dsq.position = (if s.dsq.position = .below then .unknown else s.dsq.position)
  span : s.scu.state.isHeld = true → s.scu.held = none → t.scu = s.scu ∧ t.lif = s.lif

theorem haltDip_programFaulted (s : State) (c : DipCtx) (e : Nat) (reason : ProgramReason) :
    ProgramFaulted s c reason ((s.afterDwell c e).haltDip (.program reason)) := by
  have halted := haltDip_halted (s.afterDwell c e) (.program reason)
  obtain ⟨hfault, hevent⟩ := halted.raised
  have hposition (p : Position) : haltPosition p (.program reason) = if p = .below then .unknown else p := by
    cases p <;> rfl
  exact ⟨halted.mpt, halted.state, halted.cause, halted.task, halted.request, halted.dwellEnd, halted.drainEnd,
    halted.immersionSince, hfault, hevent, halted.position.trans (hposition _), haltDip_span (s.afterDwell c e) _⟩

/-- The step after a DWELL waits once it is taken. -/
theorem exec_dwellExpiry_waits {s t : State} {c : DipCtx} {e : Nat} {st : DipStep} (hc : s.dsq.ctx = some c)
    (he : s.dsq.dwellEnd = some e) (hn : s.nextStep c = some st)
    (ht : (s.afterDwell c e).takeStep st = (t, .waits)) : exec .dwellExpiry s = .next t := by
  rw [exec_dwellExpiry he]
  exact congrArg Host.Outcome.next (endStep_waits (s.reach e).stopDwell t c st hc hn ht)

/-- A step that fails its check after a DWELL halts the dip. -/
theorem exec_dwellExpiry_faults {s : State} {c : DipCtx} {e : Nat} {st : DipStep} {reason : ProgramReason}
    (hc : s.dsq.ctx = some c) (he : s.dsq.dwellEnd = some e) (hn : s.nextStep c = some st)
    (ht : (s.afterDwell c e).takeStep st = ((s.afterDwell c e).haltDip (.program reason), .waits)) :
    ∃ t, exec .dwellExpiry s = .next t ∧ ProgramFaulted s c reason t :=
  ⟨_, exec_dwellExpiry_waits hc he hn ht, haltDip_programFaulted s c e reason⟩

/-- A LOWER that fails its check (R114). -/
theorem takeStep_lower_fails {s : State} {d v f : Nat} {reason : ProgramReason} (h : s.lowerCheck = some reason) :
    s.takeStep (.lower d v f) = (s.haltDip (.program reason), .waits) := by
  simp only [State.takeStep, h]

theorem lowerCheck_below {s : State} (h : s.dsq.position = .below) : s.lowerCheck = some .loadBelow := if_pos h

theorem lowerCheck_limit {s : State} {c : DipCtx} (hc : s.dsq.ctx = some c) (hp : s.dsq.position ≠ .below)
    (h : 2 ≤ c.immersions) : s.lowerCheck = some .immersionLimit := by
  unfold State.lowerCheck
  rw [if_neg hp, hc]
  exact if_pos h

theorem lowerCheck_noSpan {s : State} {c : DipCtx} (hc : s.dsq.ctx = some c) (hp : s.dsq.position ≠ .below)
    (h : c.immersions < 2) (hs : s.scu.state = .none ∨ s.scu.state = .releasing) : s.lowerCheck = some .noSpan := by
  unfold State.lowerCheck
  rw [if_neg hp, hc, if_neg (show ¬ ((some c).map DipCtx.immersions).getD 0 ≥ 2 from Nat.not_le.mpr h), if_pos hs]

/-- A CLAIM in a state that takes no request (R42, R106, R114). -/
theorem takeClaim_refused {s : State} {length : Nat} {whole : Bool} (h : ¬(s.scu.state = .none ∨
    s.scu.state = .releasing ∨ (s.scu.state = .pending ∧ s.scu.withdrawal = .cancel))) :
    s.takeClaim length whole = s.haltDip (.program .claimHeld) := by
  have hrequest : s.requestSpan length whole = (s, .alreadyClaiming) := by
    unfold State.requestSpan
    rw [if_neg fun hn => h (.inl hn), if_neg fun hr => h (.inr hr)]
  unfold State.takeClaim
  rw [hrequest]

/-- A CLAIM whose span leaves the kettle (R41, R114). -/
theorem takeClaim_outside {s : State} {length : Nat} {whole : Bool}
    (hw : wantedSpan s.cells s.cfg.params.margin s.mpt.hook length whole = none) (h : s.scu.state = .none ∨
      s.scu.state = .releasing ∨ (s.scu.state = .pending ∧ s.scu.withdrawal = .cancel)) :
    s.takeClaim length whole = s.haltDip (.program .spanOutside) := by
  have hrequest : s.requestSpan length whole = (s, .spanOutside) := by
    unfold State.requestSpan
    rw [hw]
    rcases h with h | h
    · rw [if_pos h]
    · rw [if_neg fun hn => by rcases h with h | h <;> simp [hn] at h, if_pos h]
  unfold State.takeClaim
  rw [hrequest]

theorem wantedSpan_outside {n margin length : Nat} {hook : Option Nat} (h : hook = none ∨ ∃ (k : Nat) (first : Int),
    hook = some k ∧ first = k - ((length - 1) / 2 : Nat) ∧ (first < 0 ∨ (n : Int) - 1 < first + length - 1)) :
    wantedSpan n margin hook length false = none := by
  rcases h with rfl | ⟨k, first, rfl, hfirst, hout⟩
  · rfl
  · unfold wantedSpan
    simp only [← hfirst]
    rw [if_neg (by simp), if_pos hout]

/-! ### The CHAIN step -/

theorem takeStep_chain_fails {s : State} {target : Nat} {reason : ProgramReason} (h : s.chainCheck target = some reason) :
    s.takeStep (.chain target) = (s.haltDip (.program reason), .waits) := by
  simp only [State.takeStep, h]

theorem chainCheck_limit {s : State} {c : DipCtx} {target : Nat} (hc : s.dsq.ctx = some c) (h : 4 ≤ c.depth) :
    s.chainCheck target = some .chainLimit := by
  unfold State.chainCheck
  rw [hc]
  exact if_pos h

/-- The checks of a CHAIN within the depth, by the program of its target (R94). -/
theorem chainCheck_target {s : State} {c : DipCtx} {target : Nat} (hc : s.dsq.ctx = some c) (h : c.depth < 4) :
    (s.pgs.programAt target = none → s.chainCheck target = some .chainEmpty) ∧
      ∀ p, s.pgs.programAt target = some p →
        (s.scu.state ≠ .none → p.continuation = false → s.chainCheck target = some .chainHeld) ∧
        (s.scu.state = .none ∨ p.continuation = true → s.chainCheck target = none) := by
  have hdepth : ¬ (s.dsq.ctx.map DipCtx.depth).getD 0 ≥ Config.chainLimit := by
    rw [hc]
    exact Nat.not_le.mpr h
  unfold Pgs.programAt State.chainCheck
  rw [if_neg hdepth]
  refine ⟨fun hp => by rw [hp], fun p hp => ?_⟩
  rw [hp]
  refine ⟨fun hs hcont => if_pos ⟨hs, hcont⟩, fun hpass => if_neg fun ⟨hs, hcont⟩ => ?_⟩
  rcases hpass with hn | hc
  · exact hs hn
  · simp [hcont] at hc

/-- A CHAIN that passes, and a first step that waits once it is taken (R94, R103). -/
theorem endStep_jumps {s t u : State} {c : DipCtx} {st first : DipStep} (hc : s.dsq.ctx = some c)
    (hn : s.nextStep c = some st) (ht : (s.atNext c).takeStep st = (t, .jumps)) (hfirst : t.currentStep = some first)
    (hu : t.takeStep first = (u, .waits)) : s.endStep = u := by
  unfold State.endStep
  rw [advance_eq s c hc]
  show State.runSteps (95 + 1) _ = _
  rw [State.runSteps, atNext_currentStep, hn]
  simp only [ht]
  exact runSteps_waits t u 94 first hfirst hu

/-- Settles O53: a fault's halt, and the check each step fails. -/
theorem motionFaultHaltsTheDip : Obligations.MotionFaultHaltsTheDip := by
  refine ⟨fun s c r n detail cell e hc => ?motion, fun s c e hc he => ?program⟩
  case motion =>
    obtain ⟨hfail, hcell, haccept, hdone⟩ := motionFaults s c r n detail cell e hc
    have words {t : State} {reason : MotionReason} {running : Bool} (h : Faulted s c r reason running t) :
        t.mpt.phase = .idle ∧ t.mpt.acceptEnd = none ∧ t.mpt.doneEnd = none ∧ t.dsq.state = .halted ∧
          t.dsq.cause = some ⟨.motion reason r.kind running, c.slot, c.index⟩ ∧ t.wch.task = .none ∧
          t.hwn.request = .none ∧ t.dsq.dwellEnd = none ∧ t.dsq.drainEnd = none ∧ t.dsq.immersionSince = none ∧
          t.spt.isRaised .motionFault = true ∧ t.spt.isRaised .haltedEv = true ∧
          t.mpt.hook = (if r.kind = .move then none else s.mpt.hook) ∧
          (s.dsq.position = .below ∨ s.dsq.position = .above → t.dsq.position = .unknown) :=
      ⟨h.phase, h.acceptEnd, h.doneEnd, h.state, h.cause, h.task, h.request, h.dwellEnd, h.drainEnd, h.immersionSince,
        h.motionFault, h.haltedEv, h.hook, h.position⟩
    refine ⟨fun reason hreason => ⟨fun hp => ?_, fun hp => ?_⟩, fun target hr hp hout => ?_, fun hp hend => ?_,
      fun hp hend => ?_⟩
    · obtain ⟨t, hexec, h⟩ := (hfail reason hreason).1 hp
      exact ⟨t, hexec, words h⟩
    · obtain ⟨t, hexec, h⟩ := (hfail reason hreason).2 hp
      exact ⟨t, hexec, words h⟩
    · obtain ⟨t, hexec, h⟩ := hcell target hr hp hout
      exact ⟨t, hexec, words h⟩
    · obtain ⟨t, hexec, hnow, h⟩ := haccept hp hend
      exact ⟨t, hexec, hnow, words h⟩
    · obtain ⟨t, hexec, hnow, h⟩ := hdone hp hend
      exact ⟨t, hexec, hnow, words h⟩
  case program =>
    have faults {st : DipStep} {reason : ProgramReason} (hn : s.nextStep c = some st)
        (ht : (s.afterDwell c e).takeStep st = ((s.afterDwell c e).haltDip (.program reason), .waits)) :
        ∃ t, exec .dwellExpiry s = .next t ∧ t.mpt = s.mpt ∧ t.dsq.state = .halted ∧
          t.dsq.cause = some ⟨.program reason, c.slot, c.index + 1⟩ ∧ t.wch.task = .none ∧
          t.hwn.request = .none ∧ t.dsq.dwellEnd = none ∧ t.dsq.drainEnd = none ∧ t.dsq.immersionSince = none ∧
          t.spt.isRaised .programFault = true ∧ t.spt.isRaised .haltedEv = true ∧
          t.dsq.position = (if s.dsq.position = .below then .unknown else s.dsq.position) ∧
          (s.scu.state.isHeld = true → s.scu.held = none → t.scu = s.scu ∧ t.lif = s.lif) := by
      obtain ⟨t, hexec, h⟩ := exec_dwellExpiry_faults hc he hn ht
      exact ⟨t, hexec, h.mpt, h.state, h.cause, h.task, h.request, h.dwellEnd, h.drainEnd, h.immersionSince,
        h.programFault, h.haltedEv, h.position, h.span⟩
    refine ⟨fun d v f hn => ⟨fun hp => ?_, fun hp h2 => ?_, fun hp h2 hs => ?_⟩, fun cell hn hp => ?_, fun hn hp => ?_,
      fun length whole hn => ⟨fun hno => ?_, fun hmay hw hout => ?_⟩, fun target hn => ⟨fun h4 => ?_, fun h4 hp => ?_,
        fun p h4 hp => ⟨fun hs hcont => ?_, fun timeout hpass hfirst => ?jump⟩⟩⟩
    · exact faults hn (takeStep_lower_fails (lowerCheck_below hp))
    · exact faults hn (takeStep_lower_fails (lowerCheck_limit (c := c.next) rfl hp h2))
    · exact faults hn (takeStep_lower_fails (lowerCheck_noSpan (c := c.next) rfl hp h2 hs))
    · exact faults hn (if_pos hp)
    · exact faults hn (if_pos hp)
    · exact faults hn (congrArg (·, StepEnd.waits) (takeClaim_refused hno))
    · rw [hw] at hn
      exact faults hn (congrArg (·, StepEnd.waits) (takeClaim_outside (wantedSpan_outside hout) hmay))
    · exact faults hn (takeStep_chain_fails (chainCheck_limit (c := c.next) rfl h4))
    · exact faults hn (takeStep_chain_fails ((chainCheck_target (c := c.next) rfl h4).1 hp))
    · exact faults hn (takeStep_chain_fails (((chainCheck_target (s := s.afterDwell c e) (c := c.next) rfl h4).2 p hp).1 hs hcont))
    case jump =>
      have hcheck : (s.afterDwell c e).chainCheck target = none :=
        ((chainCheck_target (s := s.afterDwell c e) (c := c.next) rfl h4).2 p hp).2 hpass
      have htaken : (s.afterDwell c e).takeStep (.chain target) = ((s.afterDwell c e).withDsq { s.dsq with
          dwellEnd := none, ctx := some { c with slot := target, index := 0, depth := c.depth + 1 } }, .jumps) := by
        simp only [State.takeStep, hcheck]
        rfl
      have hcurrent : ((s.afterDwell c e).withDsq { s.dsq with
          dwellEnd := none,
          ctx := some { c with slot := target, index := 0, depth := c.depth + 1 } }).currentStep =
            some (.weighDry timeout) := by
        show (s.pgs.programAt target).bind (fun p => p.steps[0]?) = _
        rw [hp]
        exact hfirst
      rw [exec_dwellExpiry he]
      exact congrArg Host.Outcome.next (endStep_jumps (s := (s.reach e).stopDwell) hc hn htaken hcurrent rfl)

end Sys2Proof.Machine
end

section
/-! PROOFS. The weigh channel: its samples and its blocks (sections 8.1 to 8.3; statement O57). -/

namespace Sys2Proof.Machine

/-! ### The sample -/

/-- The scaler, in the words of R143. -/
theorem scale_eq (p : Params) (raw : BitVec 24) :
    let net : Int := roundInt ((raw.toInt - p.zero) * p.gain) 65536 - p.tare
    scale p raw = ⟨max (-1000) (min 80000 net), decide (net < -1000 ∨ 80000 < net)⟩ := by
  intro net
  have hnet : netMass p raw = net := rfl
  unfold scale
  simp only [hnet]
  split
  · rename_i h
    rw [Sample.mk.injEq]
    exact ⟨by omega, by simp [h]⟩
  · split
    · rename_i h
      rw [Sample.mk.injEq]
      exact ⟨by omega, by simp [h]⟩
    · rename_i h1 h2
      rw [Sample.mk.injEq]
      exact ⟨by omega, by simp [h1, h2]⟩

theorem exec_sampleTaken_valid {s : State} {status : Byte} (raw : BitVec 24) (h0 : status.getLsbD 0 = false)
    (h1 : status.getLsbD 1 = true) :
    exec (.sampleTaken status raw) s = .next (s.takeEffect (s.wch.valid s.cfg.params s.now raw)) := by
  show execSampleTaken status raw s = _
  unfold execSampleTaken sampleValid
  rw [h0, h1]
  rfl

theorem exec_sampleTaken_invalid {s : State} {status : Byte} (raw : BitVec 24)
    (h : status.getLsbD 0 = true ∨ status.getLsbD 1 = false) :
    exec (.sampleTaken status raw) s = .next (s.takeEffect (s.wch.invalid raw)) := by
  have hvalid : sampleValid status = false := by
    unfold sampleValid
    rcases h with h | h <;> rw [h]
    · rfl
    · exact Bool.and_false _
  show execSampleTaken status raw s = _
  unfold execSampleTaken
  rw [hvalid]
  rfl

/-- The channel with a valid sample taken, before it counts (R142, R143). -/
def Wch.seen (w : Wch) (p : Params) (raw : BitVec 24) : Wch :=
  { w with transfer := false, lastSample := some ⟨raw, true⟩, lastValid := some (scale p raw) }

theorem valid_forming {w : Wch} {p : Params} {now : Nat} {raw : BitVec 24} (hl : w.lost = false)
    (hf : w.forming.length < 9) : w.valid p now raw =
      ⟨{ w.seen p raw with invalidRun := 0, forming := w.forming ++ [scale p raw] }, none, none⟩ := by
  unfold Wch.valid
  simp only [hl]
  rw [if_neg (by simp), if_pos (by simp; omega)]
  simp only [Wch.seen, hl]

theorem valid_lost {w : Wch} {p : Params} {now : Nat} {raw : BitVec 24} (hl : w.lost = true) : w.valid p now raw =
    if w.validRun + 1 < 10 then ⟨{ w.seen p raw with validRun := w.validRun + 1 }, none, none⟩
    else ⟨(w.seen p raw).becomeActive, some .weighBack, none⟩ := by
  unfold Wch.valid
  rw [hl]
  simp only [if_true, Wch.seen, hl]

theorem invalid_eq (w : Wch) (raw : BitVec 24) : w.invalid raw =
    if w.lost then ⟨{ w with transfer := false, lastSample := some ⟨raw, false⟩, validRun := 0 }, none, none⟩
    else if w.invalidRun + 1 < 3 then
      ⟨{ w with transfer := false, lastSample := some ⟨raw, false⟩, invalidRun := w.invalidRun + 1 }, none, none⟩
    else ⟨{ w with transfer := false, lastSample := some ⟨raw, false⟩ }.becomeLost, some .weighLost, none⟩ := rfl

/-- The return of the channel, by the task that runs (R149, R154). -/
theorem becomeActive_task (w : Wch) :
    (w.task = .none → w.becomeActive = { w with lost := false, invalidRun := 0, validRun := 0, forming := [] }) ∧
      (∀ k, w.task = .settle k → w.becomeActive =
        { w with lost := false, invalidRun := 0, validRun := 0, forming := [], task := .settle { k with runCount := 0 } }) ∧
      (∀ k, w.task = .drain k → w.becomeActive =
        { w with lost := false, invalidRun := 0, validRun := 0, forming := [],
                 slicer := { w.slicer with frozen := false, drip := 0, lastDrip := none } }) := by
  unfold Wch.becomeActive Wch.slicerReturned WchTask.returned
  refine ⟨fun h => ?_, fun k h => ?_, fun k h => ?_⟩ <;> simp only [h]

/-- The loss of the channel freezes the slicer of a drain (R154). -/
theorem becomeLost_slicer {w : Wch} {k : DrainTask} (h : w.task = .drain k) :
    w.becomeLost.slicer = { w.slicer with frozen := true } := by
  unfold Wch.becomeLost Wch.slicerLost
  rw [h]

/-- The completed block: the rounded mean of ten net masses, OVER where one has the mark (R146). -/
theorem blockOf_ten {xs : List Sample} {x : Sample} (now : Nat) (h : xs.length = 9) :
    blockOf (xs ++ [x]) now =
      ⟨roundInt ((xs.map Sample.net).sum + x.net) 10, xs.any Sample.overMark || x.overMark, now⟩ := by
  simp [blockOf, meanOf, h]

/-- The history after a block (R147). -/
theorem historyAppend_eq (h : List Block) (b : Block) (hle : h.length ≤ 16) :
    (historyAppend h b).length ≤ 16 ∧ (historyAppend h b).getLast? = some b ∧
      (h.length < 16 → (historyAppend h b).dropLast = h) := by
  unfold historyAppend
  refine ⟨?_, by simp, fun hlt => ?_⟩
  · split
    · rename_i hlt
      have hlt : h.length < 16 := hlt
      simp
      omega
    · simp
      omega
  · rw [if_pos (show h.length < Config.historyPlaces from hlt)]
    simp

/-- A valid sample that completes a block while no task runs. -/
theorem valid_block_untasked {w : Wch} {p : Params} {now : Nat} {raw : BitVec 24} (hl : w.lost = false)
    (hf : w.forming.length = 9) (ht : w.task = .none) : w.valid p now raw =
      ⟨{ w.seen p raw with
          invalidRun := 0, forming := [],
          history := historyAppend w.history (blockOf (w.forming ++ [scale p raw]) now) }, none, none⟩ := by
  unfold Wch.valid
  simp only [hl]
  rw [if_neg (by simp), if_neg (by simp [hf])]
  unfold Wch.block
  simp only [ht, Wch.seen, hl]

/-- Settles O57: each sample by the channel's state and its run of samples, and the block the tenth completes. -/
theorem samplesReachTheChannel : Obligations.SamplesReachTheChannel := by
  refine ⟨fun s status raw => ⟨⟨_, rfl, rfl, rfl⟩, ?samples⟩, fun s status raw h0 h1 hl hf ht hh => ?block⟩
  case samples =>
    intro net x seen
    have hx : scale s.cfg.params raw = x := scale_eq s.cfg.params raw
    have hseen : s.wch.seen s.cfg.params raw = seen := by
      unfold Wch.seen
      rw [hx]
    refine ⟨fun h0 h1 hl hf => ?_, fun h0 h1 hl => ⟨fun hrun => ?_, fun hrun => ?_⟩, fun hbad hl => ?_,
      fun hbad hl => ⟨fun hrun => ?_, fun hrun => ?_⟩⟩
    · rw [exec_sampleTaken_valid raw h0 h1, valid_forming hl hf, hseen, hx]
      rfl
    · rw [exec_sampleTaken_valid raw h0 h1, valid_lost hl, hseen, if_pos (by omega)]
      rfl
    · have hvalid : s.wch.valid s.cfg.params s.now raw = ⟨seen.becomeActive, some .weighBack, none⟩ := by
        rw [valid_lost hl, hseen, if_neg (by omega)]
      obtain ⟨hnone, hsettle, hdrain⟩ := becomeActive_task seen
      refine ⟨(s.withWch seen.becomeActive).raise .weighBack, seen.becomeActive, ?_, rfl,
        raise_raised s.spt .weighBack, hnone, hsettle, hdrain⟩
      rw [exec_sampleTaken_valid raw h0 h1, hvalid]
      rfl
    · rw [exec_sampleTaken_invalid raw hbad, invalid_eq, if_pos hl]
      rfl
    · rw [exec_sampleTaken_invalid raw hbad, invalid_eq, if_neg (by simp [hl]), if_pos (by omega)]
      rfl
    · refine ⟨_, exec_sampleTaken_invalid raw hbad, ?_⟩
      have hinvalid : s.wch.invalid raw =
          ⟨{ s.wch with transfer := false, lastSample := some ⟨raw, false⟩ }.becomeLost, some .weighLost, none⟩ := by
        rw [invalid_eq, if_neg (by simp [hl]), if_neg (by omega)]
      rw [hinvalid]
      have heffect : s.takeEffect ⟨{ s.wch with transfer := false, lastSample := some ⟨raw, false⟩ }.becomeLost,
          some .weighLost, none⟩ = ((s.withWch { s.wch with
            transfer := false, lastSample := some ⟨raw, false⟩ }.becomeLost).raise .weighLost).noteWeighLost := rfl
      have raised := raise_raised s.spt .weighLost
      have noted (u : State) : u.noteWeighLost.wch = u.wch ∧ u.noteWeighLost.spt = u.spt ∧
          ∀ c, u.dsq.ctx = some c → u.dsq.state ≠ .parked →
            u.noteWeighLost.dsq.ctx = some { c with quality := { c.quality with weighLost := true } } := by
        unfold State.noteWeighLost
        split
        · rename_i hp
          exact ⟨rfl, rfl, fun c _ hno => absurd hp hno⟩
        · refine ⟨rfl, rfl, fun c hc _ => ?_⟩
          show u.dsq.ctx.map _ = _
          rw [hc]
          rfl
      obtain ⟨hwch, hspt, hctx⟩ := noted ((s.withWch { s.wch with
        transfer := false, lastSample := some ⟨raw, false⟩ }.becomeLost).raise .weighLost)
      rw [heffect, hwch, hspt]
      exact ⟨rfl, rfl, rfl, rfl, raised, fun k hk => becomeLost_slicer
        (w := { s.wch with transfer := false, lastSample := some ⟨raw, false⟩ }) hk, hctx⟩
  case block =>
    have hvalid := valid_block_untasked (p := s.cfg.params) (now := s.now) (raw := raw) hl hf ht
    obtain ⟨hlength, hlast, hkept⟩ := historyAppend_eq s.wch.history
      (blockOf (s.wch.forming ++ [scale s.cfg.params raw]) s.now) hh
    refine ⟨scale s.cfg.params raw, _, exec_sampleTaken_valid raw h0 h1, ?_⟩
    rw [hvalid]
    exact ⟨rfl, rfl, hlength, hlast.trans (congrArg some (blockOf_ten s.now hf)), hkept, rfl, rfl⟩

end Sys2Proof.Machine
end

section
/-! PROOFS. The ends of WCH's task (sections 8.3 to 8.5, 5.4; statement O58). -/

namespace Sys2Proof.Machine

/-! ### The slicer -/

/-- R154, case by case. -/
theorem move_cases (sl : Slicer) (w : DrainTask) (d : Int) :
    (sl.isQuiet = false → d ≤ w.low →
      sl.move w d = { sl with quietRun := sl.quietRun + 1, isQuiet := decide (w.quiet ≤ sl.quietRun + 1) }) ∧
    (sl.isQuiet = false → (w.low : Int) < d → sl.move w d = { sl with quietRun := 0 }) ∧
    (sl.isQuiet = true → d < w.high → sl.move w d = sl) ∧
    (sl.isQuiet = true → (w.high : Int) ≤ d → sl.move w d = { sl with isQuiet := false, quietRun := 0 }) := by
  unfold Slicer.move
  refine ⟨fun hq hd => ?_, fun hq hd => ?_, fun hq hd => ?_, fun hq hd => ?_⟩
  · rw [if_neg (by simp [hq]), if_pos hd]
  · rw [if_neg (by simp [hq]), if_neg (Int.not_le.mpr hd)]
  · rw [if_pos hq, if_neg (Int.not_le.mpr hd)]
  · rw [if_pos hq, if_pos hd]

/-- Every block of a drain raises the drip index. -/
theorem block_drip (sl : Slicer) (deadband : Nat) (w : DrainTask) (h : List Block) :
    (sl.block deadband w h).drip = sl.drip + 1 := by
  have moved (x : Slicer) (d : Int) : (x.move w d).drip = x.drip := by
    unfold Slicer.move
    split
    · split <;> rfl
    · split <;> rfl
  unfold Slicer.block
  simp only []
  split
  · exact moved _ _
  · rfl

/-- The conditions of a quiet end, in the words of R155. -/
theorem drainQuiet_iff (w : Wch) (t : DrainTask) (now : Nat) : drainQuiet w t now = true ↔
    w.lost = false ∧ w.slicer.isQuiet = true ∧ t.start + t.minimum * 1000 ≤ now ∧ 1 ≤ w.slicer.drip := by
  simp [drainQuiet, and_assoc]

theorem drainQuiet_fails {w : Wch} {t : DrainTask} {now : Nat}
    (h : w.slicer.isQuiet = false ∨ w.lost = true ∨ w.slicer.drip = 0) : drainQuiet w t now = false := by
  rw [Bool.eq_false_iff, ne_eq, drainQuiet_iff]
  rintro ⟨hl, hq, -, hd⟩
  rcases h with h | h | h
  · simp [hq] at h
  · simp [hl] at h
  · omega

/-! ### The end of a step -/

/-- The result of a drain that a TRAVEL follows, likewise (R113). -/
theorem onWeighResult_drained {s : State} {c : DipCtx} {cell ms : Nat} {timedOut : Bool} (hc : s.dsq.ctx = some c)
    (hn : s.nextStep c = some (.travel cell)) (hp : s.dsq.position ≠ .below) (hd : s.dsq.state = .draining) :
    s.onWeighResult (.drainEnd ms timedOut) = { s with
      dsq := { s.dsq with state := .traveling, ctx := some (c.takeDrain (.drainEnd ms timedOut)).next },
      mpt := s.mpt.handed (.move cell) } := by
  have htaken : s.onWeighResult (.drainEnd ms timedOut) =
      (s.withDsq { s.dsq with ctx := some (c.takeDrain (.drainEnd ms timedOut)) }).endStep := by
    unfold State.onWeighResult State.modCtx
    rw [hd, hc]
    rfl
  rw [htaken]
  exact endStep_waits (s.withDsq { s.dsq with ctx := some (c.takeDrain (.drainEnd ms timedOut)) }) _
    (c.takeDrain (.drainEnd ms timedOut)) (.travel cell) rfl hn (if_neg hp)

/-- What a drain's end does to the context (R113). -/
theorem takeDrain_eq (c : DipCtx) (ms : Nat) :
    (c.takeDrain (.drainEnd ms false)).next = { c.next with
      drainTime := min 65535 (c.drainTime + roundNat ms 100) } ∧
    (c.takeDrain (.drainEnd ms true)).next = { c.next with
      drainTime := min 65535 (c.drainTime + roundNat ms 100),
      quality := { c.quality with drainTimeout := true } } := by
  unfold DipCtx.takeDrain DipCtx.next DipCtx.addDrain satNat
  constructor
  · simp only [Bool.or_false]
  · simp only [Bool.or_true]

/-! ### The commands that end a task -/

theorem exec_settleTimeout {s : State} {w : SettleTask} (h : s.wch.task = .settle w) : exec .settleTimeout s =
    .next ((s.reach w.timeoutEnd).finishTask (settleTimeoutResult s.cfg.params w s.wch.history)) := by
  show execSettleTimeout s = _
  unfold execSettleTimeout
  rw [h]

theorem exec_drainMaximum {s : State} {w : DrainTask} (h : s.wch.task = .drain w) : exec .drainMaximum s =
    .next ((s.reach (w.start + w.maximum * 1000)).maximumReached w) := by
  show execDrainMaximum s = _
  unfold execDrainMaximum
  rw [h]

theorem exec_drainMinimum {s : State} {w : DrainTask} (h : s.wch.task = .drain w) (hp : w.minPending = true) :
    exec .drainMinimum s = .next ((s.reach (w.start + w.minimum * 1000)).minimumReached w) := by
  show execDrainMinimum s = _
  unfold execDrainMinimum
  rw [h]
  exact if_pos hp

/-- WCH with its task over and the result's event raised: what DSQ takes the result in. -/
def State.taskOver (s : State) (r : WeighResult) : State :=
  (s.withWch { s.wch with task := .none }).raiseOpt r.event

theorem taskOver_eq (s : State) (r : WeighResult) :
    ∃ x, s.taskOver r = (s.withWch { s.wch with task := .none }).withSpt x := by
  unfold State.taskOver State.raiseOpt
  split
  · exact ⟨_, rfl⟩
  · exact ⟨s.spt, rfl⟩

/-- The end of a weigh step's task that a TRAVEL follows. -/
theorem finishTask_travel {s : State} {c : DipCtx} {cell : Nat} {out : Bool} (r : WeighResult) (hc : s.dsq.ctx = some c)
    (hn : s.nextStep c = some (.travel cell)) (hp : s.dsq.position ≠ .below)
    (hd : s.dsq.state = (if out then .weighingOut else .weighingDry)) :
    s.finishTask r = { s.taskOver r with
      dsq := { s.dsq with state := .traveling, ctx := some (c.takeMass out r).next },
      mpt := s.mpt.handed (.move cell) } := by
  obtain ⟨x, hx⟩ := taskOver_eq s r
  have htravel := onWeighResult_travel ((s.withWch { s.wch with task := .none }).withSpt x) c cell out r hc hn hp hd
  show (s.taskOver r).onWeighResult r = _
  rw [hx]
  exact htravel

/-- The end of a drain that a TRAVEL follows. -/
theorem finishTask_drained {s : State} {c : DipCtx} {cell ms : Nat} {timedOut : Bool} (hc : s.dsq.ctx = some c)
    (hn : s.nextStep c = some (.travel cell)) (hp : s.dsq.position ≠ .below) (hd : s.dsq.state = .draining) :
    s.finishTask (.drainEnd ms timedOut) = { s.taskOver (.drainEnd ms timedOut) with
      dsq := { s.dsq with state := .traveling, ctx := some (c.takeDrain (.drainEnd ms timedOut)).next },
      mpt := s.mpt.handed (.move cell) } := by
  obtain ⟨x, hx⟩ := taskOver_eq s (.drainEnd ms timedOut)
  have htravel := onWeighResult_drained (s := (s.withWch { s.wch with task := .none }).withSpt x) (ms := ms)
    (timedOut := timedOut) hc hn hp hd
  show (s.taskOver (.drainEnd ms timedOut)).onWeighResult _ = _
  rw [hx]
  exact htravel

/-! ### A block of a drain -/

/-- What a sample that completes a block comes to in a drain: the slicer has the block, and the drain ends if it is then
quiet (R153, R155). -/
theorem sampleTaken_draining {s : State} {status : Byte} {raw : BitVec 24} {w : DrainTask} (h : s.completesBlock status)
    (ht : s.wch.task = .drain w) :
    let slicer := s.wch.slicer.block s.cfg.params.deadband w (s.historyWith raw)
    exec (.sampleTaken status raw) s =
      .next (if slicer.isQuiet = true ∧ w.start + w.minimum * 1000 ≤ s.now then
        (s.withWch { s.blockDone raw with task := .none, slicer := slicer }).onWeighResult
          (.drainEnd (s.now - w.start) false)
      else s.withWch { s.blockDone raw with slicer := slicer }) := by
  intro slicer
  obtain ⟨h0, h1, hl, hf⟩ := h
  have hblock : s.wch.valid s.cfg.params s.now raw =
      ⟨({ s.blockDone raw with slicer := slicer }.drainTest w s.now).1, none,
        ({ s.blockDone raw with slicer := slicer }.drainTest w s.now).2⟩ := by
    unfold Wch.valid
    simp only [hl]
    rw [if_neg (by simp), if_neg (by simp [hf])]
    unfold Wch.block
    simp only [ht]
    have hw : { s.blockDone raw with slicer := slicer } = { s.blockDone raw with lost := false, task := .drain w, slicer := slicer } := by
      unfold State.blockDone
      simp only [hl, ht]
    rw [hw]
    rfl
  have hquiet : drainQuiet { s.blockDone raw with slicer := slicer } w s.now = true ↔
      slicer.isQuiet = true ∧ w.start + w.minimum * 1000 ≤ s.now := by
    rw [drainQuiet_iff]
    have hdrip : 1 ≤ slicer.drip := by
      rw [block_drip]
      exact Nat.le_add_left 1 _
    exact ⟨fun ⟨_, hq, hn, _⟩ => ⟨hq, hn⟩, fun ⟨hq, hn⟩ => ⟨hl, hq, hn, hdrip⟩⟩
  rw [exec_sampleTaken_valid raw h0 h1, hblock]
  unfold Wch.drainTest
  by_cases hq : slicer.isQuiet = true ∧ w.start + w.minimum * 1000 ≤ s.now
  · rw [if_pos hq, if_pos (hquiet.mpr hq)]
    rfl
  · rw [if_neg hq, if_neg fun h => hq (hquiet.mp h)]
    rfl

/-! ### The weigh-out of the abort path -/

/-- An offer with room drops nothing. -/
theorem offer_dsq_room {s : State} {f : TxFrame} (h : s.lif.places < 8) (hb : f ≠ .beacon) : (s.offer f).dsq = s.dsq := by
  rw [offer_room s f h hb]
  rfl

theorem evalStart_dsq_room {s : State} (h : s.lif.places < 8) : s.evalStart.dsq = s.dsq := by
  unfold State.evalStart
  split
  · split
    · unfold State.startClaim State.offerBase
      rw [State.withScu_lif, place_room s.lif _ h (by simp)]
      rfl
    · rfl
  · rfl

theorem zincNotice_dsq_room {s : State} (h : s.lif.places < 8) : s.zincNotice.dsq = s.dsq := by
  unfold State.zincNotice
  split
  · exact evalStart_dsq_room h
  · unfold State.withdrawIntent
    split
    · have hplaces := withdraw_places s.lif s.ownClaim
      split
      · rename_i l e
        rw [e] at hplaces
        exact evalStart_dsq_room (s := (s.withLif l).withScu
          { (s.withLif l).scu with state := .blocked, own := none, withdrawal := .none }) (Nat.lt_of_le_of_lt hplaces h)
      · rfl
    · rfl

/-- Up to marks of frames not sent a record leaves what DSQ has, and with room in the queue altogether (R21, R129). -/
theorem createRecord_dsq (s : State) (o : DipOutcome) :
    (s.createRecord o).dsq = { s.dsq with ctx := (s.createRecord o).dsq.ctx } ∧
      (s.createRecord o).dsq.ctx.map DipCtx.unmarked = s.dsq.ctx.map DipCtx.unmarked ∧
      (s.lif.places < 7 → (s.createRecord o).dsq = s.dsq) := by
  have offered (u : State) (n : Nat) (k : Option SteelClass) (q : BitVec 32) :
      (u.offerPickup n k q).dsq = { u.dsq with ctx := (u.offerPickup n k q).dsq.ctx } ∧
        (u.offerPickup n k q).dsq.ctx.map DipCtx.unmarked = u.dsq.ctx.map DipCtx.unmarked ∧
        (u.lif.places < 7 → (u.offerPickup n k q).dsq = u.dsq) := by
    obtain ⟨l, x, -, -, hput⟩ := putZ_eq u (u.zbr.z - n)
    have consumed : Aside ((u.withZbr { u.zbr with z := u.zbr.z - n, level := l }).withSpt x) (u.consume n) := by
      show Aside _ (u.putZ _)
      rcases hput with e | e <;> rw [e]
      · exact Aside.refl _
      · exact aside_zincNotice _
    have room (h : u.lif.places < 7) : (u.consume n).dsq = u.dsq ∧ (u.consume n).lif.places < 8 := by
      show (u.putZ _).dsq = _ ∧ (u.putZ _).lif.places < 8
      rcases hput with e | e <;> rw [e]
      · exact ⟨rfl, Nat.lt_succ_of_lt h⟩
      · have hplaces := zincNotice_places ((u.withZbr { u.zbr with z := u.zbr.z - n, level := l }).withSpt x)
        exact ⟨zincNotice_dsq_room (Nat.lt_succ_of_lt h), Nat.lt_of_le_of_lt hplaces (Nat.succ_lt_succ h)⟩
    have aside := aside_offer ((u.consume n).withZbr { (u.consume n).zbr with ownSeq := (u.consume n).zbr.ownSeq + 1 })
      (.pickup u.zbr.ownSeq n k q)
    refine ⟨?_, aside.ctx.trans consumed.ctx, fun h => ?_⟩
    · have hdsq : (u.offerPickup n k q).dsq = { (u.consume n).dsq with ctx := (u.offerPickup n k q).dsq.ctx } := aside.dsq
      rw [consumed.dsq] at hdsq
      exact hdsq
    · exact (offer_dsq_room (s := (u.consume n).withZbr { (u.consume n).zbr with
        ownSeq := (u.consume n).zbr.ownSeq + 1 }) (room h).2 (by simp)).trans (room h).1
  have appended (u : State) (r : DipRecord) :
      (u.appendRecord r).dsq = { u.dsq with ctx := (u.appendRecord r).dsq.ctx } ∧
        (u.appendRecord r).dsq.ctx.map DipCtx.unmarked = u.dsq.ctx.map DipCtx.unmarked ∧
        (u.lif.places < 7 → (u.appendRecord r).dsq = u.dsq) := by
    obtain ⟨y, -, -, -, h⟩ := appendRecord_eq u r
    rw [h]
    exact offered ((u.withZbr { u.zbr with
      ring := ringAppend u.zbr.ring { r with number := u.zbr.nextNumber },
      nextNumber := u.zbr.nextNumber + 1 }).withSpt y) _ _ _
  unfold State.createRecord
  split
  · split
    · exact ⟨rfl, rfl, fun _ => rfl⟩
    · rename_i c _ _
      obtain ⟨x, hraise, -, -⟩ := raiseAll_eq (s.withPku (s.pku.afterRecord s.cfg.params.lockCount c.lot
        (makeRecord s.cfg.params s.pku c o).dipClass))
        (s.pku.recordEvents s.cfg.params.lockCount c.lot (makeRecord s.cfg.params s.pku c o).dipClass)
      unfold State.recordDip
      simp only []
      rw [hraise]
      exact appended ((s.withPku (s.pku.afterRecord s.cfg.params.lockCount c.lot
        (makeRecord s.cfg.params s.pku c o).dipClass)).withSpt x) _
  · exact ⟨rfl, rfl, fun _ => rfl⟩

/-- A dip the abort path has brought to PARKED with its record, if it was immersed (R123, R129). -/
structure Parked (s : State) (c d : DipCtx) (t : State) : Prop where
  dsq : ∃ m, t.dsq = { s.dsq with state := .parked, ctx := some { d with txDropped := m } } ∧
    (s.lif.places < 7 → m = c.txDropped)
  event : t.spt.isRaised .parkedEv = true
  dry : c.immersions = 0 → t.zbr = s.zbr
  record : c.immersions ≠ 0 → RecordMade s d .aborted (s.lif.places < 6) t

/-- The result of the abort path's weigh-out: the record, ABORTED, and PARKED (R123). -/
theorem onWeighResult_parked {s : State} {c : DipCtx} (r : WeighResult) (hc : s.dsq.ctx = some c)
    (hd : s.dsq.state = .aborting .weighing) :
    let t := s.onWeighResult r
    t.now = s.now ∧ t.wch = s.wch ∧ EventsGrow s.spt t.spt ∧
      (∀ a : State, a.cfg = s.cfg → a.pku = s.pku → a.zbr = s.zbr → a.lif = s.lif → a.dsq = s.dsq →
        Parked a c (c.takeMass true r) t) := by
  intro t
  have hctx : s.modCtx (fun c => c.takeWet r) = s.withDsq { s.dsq with ctx := some (c.takeMass true r) } := by
    unfold State.modCtx
    rw [hc]
    rfl
  have ht : t = (((s.withDsq { s.dsq with ctx := some (c.takeMass true r) }).createRecord .aborted).toDsq .parked).raise
      .parkedEv := by
    rw [← hctx]
    show s.onWeighResult r = _
    unfold State.onWeighResult
    rw [hd]
  have himmersions : (c.takeMass true r).immersions = c.immersions ∧ (c.takeMass true r).txDropped = c.txDropped := by
    cases r <;> exact ⟨rfl, rfl⟩
  have quiet := quiet_createRecord (s.withDsq { s.dsq with ctx := some (c.takeMass true r) }) .aborted
  obtain ⟨hdsq, hmarks, hroom⟩ := createRecord_dsq (s.withDsq { s.dsq with ctx := some (c.takeMass true r) }) .aborted
  have made (a : State) (hcfg : a.cfg = s.cfg) (hpku : a.pku = s.pku) (hzbr : a.zbr = s.zbr) (hlif : a.lif = s.lif)
      (h0 : c.immersions ≠ 0) := createRecord_made a (s.withDsq { s.dsq with ctx := some (c.takeMass true r) })
    (c.takeMass true r) .aborted (a.lif.places < 6) hcfg.symm hpku.symm (by rw [hzbr]; rfl) (by rw [hzbr]; rfl) rfl
    (by rw [himmersions.1]; exact h0) (by rw [hlif]; exact fun h => Nat.lt_succ_of_lt h)
  have dry (h0 : c.immersions = 0) :
      (s.withDsq { s.dsq with ctx := some (c.takeMass true r) }).createRecord .aborted =
        s.withDsq { s.dsq with ctx := some (c.takeMass true r) } :=
    createRecord_dry _ .aborted (c := c.takeMass true r) rfl (by rw [himmersions.1]; exact h0)
  generalize hu : (s.withDsq { s.dsq with ctx := some (c.takeMass true r) }).createRecord .aborted = u at *
  have grown : EventsGrow u.spt (u.spt.raise .parkedEv) := eventsGrow_raise _ _
  have raised : (u.spt.raise .parkedEv).isRaised .parkedEv = true := raise_raised u.spt .parkedEv
  rw [ht]
  refine ⟨quiet.now, quiet.wch, quiet.events.trans grown, fun a hcfg hpku hzbr hlif hadsq =>
    ⟨?dsq, raised, fun h0 => ?dry, fun h0 => ?record⟩⟩
  case dsq =>
    obtain ⟨d, hd, hunmarked⟩ := Option.map_eq_some_iff.mp hmarks
    have hd' := unmarked_eq (c := c.takeMass true r) (d := d) hunmarked.symm
    rw [hd] at hdsq
    refine ⟨d.txDropped, ?_, fun h => ?_⟩
    · show { u.dsq with state := .parked } = _
      rw [hdsq, hadsq, ← hd']
      rfl
    · rw [hlif] at h
      have hsame := congrArg Dsq.ctx (hroom h)
      rw [hd] at hsame
      rw [Option.some.inj hsame]
      exact himmersions.2
  case dry =>
    show u.zbr = a.zbr
    rw [dry h0, hzbr]
    rfl
  case record => exact (made a hcfg hpku hzbr hlif h0).after rfl rfl grown rfl

/-! ### The statement -/

/-- A weigh result on the mass of its step, in the words of R104. -/
theorem takeMass_weighed (c : DipCtx) (out : Bool) (m : Int) (o : Bool) :
    c.takeMass out .noMass = c.weighed out none false false ∧
      c.takeMass out (.settled m o) = c.weighed out (some m) o false ∧
      c.takeMass out (.unsettled m o) = c.weighed out (some m) o true := by
  cases out
  · exact ⟨(weighed_noMass c).1, (weighed_settled c m o).1, (weighed_unsettled c m o).1⟩
  · exact ⟨(weighed_noMass c).2, (weighed_settled c m o).2, (weighed_unsettled c m o).2⟩

/-- The end of the task leaves the time base, and with an unsettled mass raises UNSETTLED. -/
theorem taskOver_rest (s : State) (r : WeighResult) : (s.taskOver r).now = s.now ∧
    (s.taskOver r).wch = { s.wch with task := .none } ∧ (s.taskOver r).cfg = s.cfg ∧ (s.taskOver r).pku = s.pku ∧
      (s.taskOver r).zbr = s.zbr ∧ (s.taskOver r).lif = s.lif ∧ (s.taskOver r).dsq = s.dsq := by
  obtain ⟨x, hx⟩ := taskOver_eq s r
  rw [hx]
  exact ⟨rfl, rfl, rfl, rfl, rfl, rfl, rfl⟩

theorem taskOver_unsettled (s : State) (m : Int) (o : Bool) :
    (s.taskOver (.unsettled m o)).spt.isRaised .unsettled = true := raise_raised s.spt .unsettled

/-- The end of a drain in the state its minimum or maximum is reached in. -/
theorem drain_ends {s : State} {c : DipCtx} {cell : Nat} {w : DrainTask} {e : Nat} {timedOut : Bool}
    (hc : s.dsq.ctx = some c) (hn : s.nextStep c = some (.travel cell)) (hp : s.dsq.position ≠ .below)
    (hd : s.dsq.state = .draining) :
    let t := (s.reach e).finishTask (.drainEnd (max s.now e - w.start) timedOut)
    t.wch = { s.wch with task := .none } ∧ t.mpt = s.mpt.handed (.move cell) ∧
      t.dsq = { s.dsq with state := .traveling,
                           ctx := some (c.takeDrain (.drainEnd (max s.now e - w.start) timedOut)).next } ∧
      (timedOut = true → t.spt.isRaised .drainTimeout = true) ∧ (timedOut = false → t.spt = s.spt) := by
  have hfinish := finishTask_drained (s := s.reach e) (ms := max s.now e - w.start) (timedOut := timedOut) hc hn hp hd
  have rest := taskOver_rest (s.reach e) (.drainEnd (max s.now e - w.start) timedOut)
  intro t
  have ht : t = _ := hfinish
  rw [ht]
  refine ⟨rest.2.1, rfl, rfl, fun h => ?_, fun h => ?_⟩
  · rw [h]
    exact raise_raised s.spt .drainTimeout
  · rw [h]
    rfl

/-- Settles O58: each end of a task is a result, and a result goes to the step, or to the abort path, that waits for it. -/
theorem weighTasksEnd : Obligations.WeighTasksEnd := by
  unfold Obligations.WeighTasksEnd
  intro mean isOver
  refine ⟨fun s c cell hc hn hp => ?steps, move_cases, fun s c w hc hw hd => ?path⟩
  case steps =>
    intro went
    refine ⟨fun w out hw hd => ?settle, fun w hw hd => ?drain, fun status raw hb => ?block⟩
    case settle =>
      have ends (r : WeighResult) := finishTask_travel (s := s.reach w.timeoutEnd) (out := out) r hc hn hp hd
      have rest (r : WeighResult) := taskOver_rest (s.reach w.timeoutEnd) r
      refine ⟨_, exec_settleTimeout hw, ?_⟩
      rw [ends]
      refine ⟨(rest _).1, (rest _).2.1, fun h0 => ?_, fun older bs h0 hh hl => ?_⟩
      · rw [settleTimeoutResult_none _ _ _ h0, (takeMass_weighed c out 0 false).1]
        exact ⟨rfl, rfl, rfl⟩
      · rw [hh, settleTimeoutResult_some _ _ _ _ h0 hl, (takeMass_weighed c out (roundInt (bs.map Block.value).sum bs.length)
          (bs.any Block.overMark)).2.2]
        exact ⟨taskOver_unsettled (s.reach w.timeoutEnd) (roundInt (bs.map Block.value).sum bs.length)
          (bs.any Block.overMark), rfl, rfl⟩
    case drain =>
      intro drained
      have ends (e : Nat) (timedOut : Bool) := drain_ends (w := w) (e := e) (timedOut := timedOut) hc hn hp hd
      refine ⟨fun hnot => ?_, fun hq hl hdrip hle => ?_, fun hmin hq hl hdrip => ?_, fun hmin hnot => ?_⟩
      · obtain ⟨hwch, hmpt, hdsq, hraised, -⟩ := ends (w.start + w.maximum * 1000) true
        have hquiet : drainQuiet (s.reach (w.start + w.maximum * 1000)).wch w
            (s.reach (w.start + w.maximum * 1000)).now = false := drainQuiet_fails hnot
        refine ⟨_, exec_drainMaximum hw, ?_⟩
        unfold State.maximumReached
        rw [hquiet]
        rw [(takeDrain_eq c _).2] at hdsq
        exact ⟨hwch, hraised rfl, hdsq, hmpt⟩
      · obtain ⟨hwch, hmpt, hdsq, -, hsame⟩ := ends (w.start + w.maximum * 1000) false
        have hquiet : drainQuiet (s.reach (w.start + w.maximum * 1000)).wch w
            (s.reach (w.start + w.maximum * 1000)).now = true := by
          refine (drainQuiet_iff _ _ _).mpr ⟨hl, hq, ?_, hdrip⟩
          show _ ≤ max s.now (w.start + w.maximum * 1000)
          omega
        refine ⟨_, exec_drainMaximum hw, ?_⟩
        unfold State.maximumReached
        rw [hquiet]
        rw [(takeDrain_eq c _).1] at hdsq
        exact ⟨hwch, hsame rfl, hdsq, hmpt⟩
      · obtain ⟨hwch, hmpt, hdsq, -, hsame⟩ := ends (w.start + w.minimum * 1000) false
        have hquiet : drainQuiet (s.reach (w.start + w.minimum * 1000)).wch w
            (s.reach (w.start + w.minimum * 1000)).now = true :=
          (drainQuiet_iff _ _ _).mpr ⟨hl, hq, Nat.le_max_right _ _, hdrip⟩
        refine ⟨_, exec_drainMinimum hw hmin, ?_⟩
        unfold State.minimumReached
        rw [if_pos hquiet]
        rw [(takeDrain_eq c _).1] at hdsq
        exact ⟨hwch, hsame rfl, hdsq, hmpt⟩
      · have hquiet : drainQuiet (s.reach (w.start + w.minimum * 1000)).wch w
            (s.reach (w.start + w.minimum * 1000)).now = false := drainQuiet_fails hnot
        rw [exec_drainMinimum hw hmin]
        unfold State.minimumReached
        rw [hquiet]
        rfl
    case block =>
      intro history
      refine ⟨fun w out older bs hw hd hh hl h1 h2 => ?_, fun w hw hd => ?_⟩
      · obtain ⟨hsettles, hruns⟩ := sampleTaken_settling s status raw w older bs hb hw hh hl h1 h2
        refine ⟨fun h => ⟨_, hsettles h, ?_⟩, fun h => ⟨_, hruns h, rfl, rfl, rfl⟩⟩
        have htravel := onWeighResult_travel (s.withWch { s.blockDone raw with task := .none }) c cell out
          (.settled (roundInt (bs.map Block.value).sum bs.length) (bs.any Block.overMark)) hc hn hp hd
        rw [(takeMass_weighed c out (roundInt (bs.map Block.value).sum bs.length)
          (bs.any Block.overMark)).2.1] at htravel
        rw [htravel]
        exact ⟨rfl, rfl, rfl, rfl, rfl⟩
      · intro slicer
        have hexec : exec (.sampleTaken status raw) s =
            .next (if slicer.isQuiet = true ∧ w.start + w.minimum * 1000 ≤ s.now then
              (s.withWch { s.blockDone raw with task := .none, slicer := slicer }).onWeighResult
                (.drainEnd (s.now - w.start) false)
            else s.withWch { s.blockDone raw with slicer := slicer }) := sampleTaken_draining (raw := raw) hb hw
        by_cases hq : slicer.isQuiet = true ∧ w.start + w.minimum * 1000 ≤ s.now
        · rw [if_pos hq] at hexec
          have hdrained := onWeighResult_drained (s := s.withWch { s.blockDone raw with task := .none, slicer := slicer })
            (ms := s.now - w.start) (timedOut := false) hc hn hp hd
          rw [(takeDrain_eq c _).1] at hdrained
          rw [hdrained] at hexec
          refine ⟨_, hexec, rfl, rfl, rfl, fun _ _ => ⟨rfl, rfl, rfl⟩, fun hno => ?_⟩
          rcases hno with hno | hno
          · exact absurd (hno.symm.trans hq.1) (by simp)
          · exact absurd hq.2 (Nat.not_le.mpr hno)
        · rw [if_neg hq] at hexec
          exact ⟨_, hexec, rfl, rfl, rfl, fun h1 h2 => absurd ⟨h1, h2⟩ hq, fun _ => ⟨hw, rfl⟩⟩
  case path =>
    intro parked
    have words {t : State} {d : DipCtx} (h : Parked s c d t) : parked t d := ⟨h.dsq, h.event, h.dry, h.record⟩
    refine ⟨⟨_, exec_settleTimeout hw, ?_⟩, fun status raw older bs hb hh hl h1 h2 => ?_⟩
    · have ends (r : WeighResult) := onWeighResult_parked (s := (s.reach w.timeoutEnd).taskOver r) (c := c) r
        (by rw [(taskOver_rest _ r).2.2.2.2.2.2]; exact hc) (by rw [(taskOver_rest _ r).2.2.2.2.2.2]; exact hd)
      have ended (r : WeighResult) : Parked s c (c.takeMass true r) ((s.reach w.timeoutEnd).finishTask r) := by
        obtain ⟨-, -, hcfg, hpku, hzbr, hlif, hdsq⟩ := taskOver_rest (s.reach w.timeoutEnd) r
        exact (ends r).2.2.2 s hcfg.symm hpku.symm hzbr.symm hlif.symm hdsq.symm
      have rest (r : WeighResult) := taskOver_rest (s.reach w.timeoutEnd) r
      refine ⟨(ends _).1.trans (rest _).1, (ends _).2.1.trans (rest _).2.1, fun h0 => ?_, fun older bs h0 hh hl => ?_⟩
      · have h := ended .noMass
        rw [(takeMass_weighed c true 0 false).1] at h
        rw [settleTimeoutResult_none _ _ _ h0]
        exact words h
      · have h := ended (.unsettled (roundInt (bs.map Block.value).sum bs.length) (bs.any Block.overMark))
        rw [(takeMass_weighed c true (roundInt (bs.map Block.value).sum bs.length)
          (bs.any Block.overMark)).2.2] at h
        rw [hh, settleTimeoutResult_some _ _ _ _ h0 hl]
        exact ⟨(ends (.unsettled (roundInt (bs.map Block.value).sum bs.length) (bs.any Block.overMark))).2.2.1.raised _
          (taskOver_unsettled (s.reach w.timeoutEnd) (roundInt (bs.map Block.value).sum bs.length)
            (bs.any Block.overMark)), words h⟩
    · obtain ⟨hsettles, hruns⟩ := sampleTaken_settling s status raw w older bs hb hw hh hl h1 h2
      refine ⟨fun h => ⟨_, hsettles h, ?_⟩, fun h => ⟨_, hruns h, rfl, rfl, rfl⟩⟩
      obtain ⟨-, hwch, -, hparked⟩ := onWeighResult_parked
        (s := s.withWch { s.blockDone raw with task := .none }) (.settled (roundInt (bs.map Block.value).sum bs.length) (bs.any Block.overMark)) hc hd
      have h := hparked s rfl rfl rfl rfl rfl
      rw [(takeMass_weighed c true (roundInt (bs.map Block.value).sum bs.length)
          (bs.any Block.overMark)).2.1] at h
      exact ⟨(congrArg Wch.task hwch :), (congrArg Wch.history hwch :), words h⟩

end Sys2Proof.Machine
end

section
/-! PROOFS. What a record holds: its arithmetic, its class and its dross class (R161 to R169; statement O59). -/

namespace Sys2Proof.Machine

/-! ### The class nearest to a ratio -/

/-- The best of classes in ascending order is one of them, at a least distance, and the first of those. -/
theorem bestClass_least {p : Params} {t r : Nat} {cs : List SteelClass} {d : SteelClass}
    (sorted : cs.Pairwise (fun x y => x.code < y.code)) (h : bestClass p t r cs = some d) :
    d ∈ cs ∧ ∀ y ∈ cs, classDistance p t r d < classDistance p t r y ∨
      (classDistance p t r d = classDistance p t r y ∧ d.code ≤ y.code) := by
  induction cs generalizing d with
  | nil => cases h
  | cons x rest ih =>
    obtain ⟨hx, hrest⟩ := List.pairwise_cons.mp sorted
    unfold bestClass at h
    cases hb : bestClass p t r rest with
    | none =>
      have hempty : rest = [] := by
        cases rest with
        | nil => rfl
        | cons a as =>
          unfold bestClass at hb
          split at hb
          · cases hb
          · split at hb <;> cases hb
      rw [hb] at h
      obtain rfl : x = d := Option.some.inj h
      subst hempty
      exact ⟨List.mem_cons_self, fun y hy => by
        obtain rfl : y = x := by simpa using hy
        exact Or.inr ⟨rfl, le_rfl⟩⟩
    | some e =>
      obtain ⟨he, hleast⟩ := ih hrest hb
      rw [hb] at h
      by_cases hle : classDistance p t r x ≤ classDistance p t r e
      · obtain rfl : x = d := by simpa [hle] using h
        refine ⟨List.mem_cons_self, fun y hy => ?_⟩
        rcases List.mem_cons.mp hy with rfl | hy
        · exact Or.inr ⟨rfl, le_rfl⟩
        · have hcode := hx y hy
          have := hleast y hy
          omega
      · obtain rfl : e = d := by simpa [hle] using h
        refine ⟨List.mem_cons_of_mem _ he, fun y hy => ?_⟩
        rcases List.mem_cons.mp hy with rfl | hy
        · exact Or.inl (Nat.lt_of_not_le hle)
        · exact hleast y hy

/-- Among one class or more there is a best. -/
theorem bestClass_some {p : Params} {t r : Nat} {cs : List SteelClass} {x : SteelClass} (hx : x ∈ cs) :
    ∃ d, bestClass p t r cs = some d := by
  cases cs with
  | nil => cases hx
  | cons c rest =>
    unfold bestClass
    cases bestClass p t r rest with
    | none => exact ⟨c, rfl⟩
    | some d =>
      by_cases hle : classDistance p t r c ≤ classDistance p t r d
      · exact ⟨c, if_pos hle⟩
      · exact ⟨d, if_neg hle⟩

/-- The candidates of a mask, in ascending order. -/
theorem candidates_sorted (mask : BitVec 5) :
    (SteelClass.all.filter (inMask mask)).Pairwise (fun x y => x.code < y.code) :=
  List.Pairwise.filter _ (by decide)

theorem mem_candidates {mask : BitVec 5} {x : SteelClass} :
    x ∈ SteelClass.all.filter (inMask mask) ↔ inMask mask x = true := by
  rw [List.mem_filter]
  cases x <;> simp [SteelClass.all]

theorem code_injective {x y : SteelClass} (h : x.code = y.code) : x = y :=
  Option.some.inj (by rw [← ofCode_code x, h, ofCode_code])

/-- The one nearest candidate, of the lowest number among equals, is the class where it lies in the accept band. -/
theorem classify_nearest {p : Params} {mask : BitVec 5} {t r : Nat} {x : SteelClass} (hx : inMask mask x = true)
    (hband : classDistance p t r x ≤ p.acceptBand)
    (hleast : ∀ y, inMask mask y = true → classDistance p t r x < classDistance p t r y ∨
      (classDistance p t r x = classDistance p t r y ∧ x.code ≤ y.code)) :
    classify p mask t r = .cls x := by
  obtain ⟨d, hd⟩ := bestClass_some (p := p) (t := t) (r := r) (mem_candidates.mpr hx)
  obtain ⟨hmem, hbest⟩ := bestClass_least (candidates_sorted mask) hd
  have hxd := hleast d (mem_candidates.mp hmem)
  have hdx := hbest x (mem_candidates.mpr hx)
  obtain rfl : x = d := code_injective (by omega)
  unfold classify
  rw [hd]
  exact if_pos hband

/-- With every candidate outside the accept band there is no match. -/
theorem classify_outside {p : Params} {mask : BitVec 5} {t r : Nat}
    (hout : ∀ x, inMask mask x = true → p.acceptBand < classDistance p t r x) :
    classify p mask t r = .noMatch := by
  unfold classify
  cases hd : bestClass p t r (SteelClass.all.filter (inMask mask)) with
  | none => rfl
  | some d =>
    have hmem := (bestClass_least (candidates_sorted mask) hd).1
    exact if_neg (Nat.not_le.mpr (hout d (mem_candidates.mp hmem)))

/-- The distance of R166 is the absolute difference. -/
theorem classDistance_eq (p : Params) (t q : Nat) (x : SteelClass) :
    classDistance p t q x = ((q : Int) - (expectedRatio p x t : Nat)).natAbs := by
  unfold classDistance
  omega

/-! ### What a record is made of -/

/-- A record but for its number, with the dross class of R167. -/
def recordWith (p : Params) (k : Pku) (c : DipCtx) (o : DipOutcome) (y : Yield) (estimated : Bool)
    (dip : Option DipClass) : DipRecord :=
  recordOf c o p y estimated dip (drossClassOf (k.knownClass c.lot) dip c.defaultClass)

/-- The class of a record whose ratio is given, where the dip is eligible (R165, R166). -/
def dipClassOf (p : Params) (k : Pku) (c : DipCtx) (o : DipOutcome) (ratio : Option Nat) : Option DipClass :=
  ratio.bind fun q =>
    if eligible c o (some q) then some (classify p (k.candidates p c.lot) (immersionSeconds c.immersionTime) q) else none

theorem makeRecord_measured {p : Params} {k : Pku} {c : DipCtx} {o : DipOutcome} {d w : Int} (ho : o ≠ .faulted)
    (hd : c.dry = some d) (hw : c.wet = some w) :
    makeRecord p k c o = recordWith p k c o (measuredYield d w c.flux) false
      (dipClassOf p k c o (measuredYield d w c.flux).ratio) := by
  have hmade : makeRecord p k c o = measuredRecord p k c o d w := by
    unfold makeRecord
    rw [hd, hw]
    cases o with
    | faulted => exact absurd rfl ho
    | complete => rfl
    | aborted => rfl
  rw [hmade]
  unfold measuredRecord
  obtain ⟨pickup, ratio, neg, sat, small⟩ := measuredYield d w c.flux
  cases ratio <;> rfl

/-- The yield of the estimate path (R169). -/
def estimatedYield (p : Params) (k : Pku) (c : DipCtx) : Yield :=
  ⟨estimatedPickup p (drossClassOf (k.knownClass c.lot) none c.defaultClass) (immersionSeconds c.immersionTime) c.dry
    c.nominal, none, false, false, false⟩

theorem makeRecord_estimated {p : Params} {k : Pku} {c : DipCtx} {o : DipOutcome}
    (h : o = .faulted ∨ c.dry = none ∨ c.wet = none) :
    makeRecord p k c o = recordWith p k c o (estimatedYield p k c) true none := by
  have hmade : makeRecord p k c o = estimatedRecord p k c o := by
    unfold makeRecord
    rcases h with rfl | h | h
    · rfl
    · rw [h]
      cases o <;> rfl
    · rw [h]
      cases o <;> cases c.dry <;> rfl
  exact hmade

/-- Every record is one of the measured path or one of the estimate path. -/
theorem makeRecord_cases (p : Params) (k : Pku) (c : DipCtx) (o : DipOutcome) :
    ∃ y est, makeRecord p k c o = recordWith p k c o y est (dipClassOf p k c o y.ratio) ∧
      (∀ q, y.ratio = some q → q ≤ 999) ∧ (est = true ↔ o = .faulted ∨ c.dry = none ∨ c.wet = none) := by
  by_cases h : o = .faulted ∨ c.dry = none ∨ c.wet = none
  · exact ⟨estimatedYield p k c, true, makeRecord_estimated h, (fun q hq => by cases hq), by simp [h]⟩
  · have ho : o ≠ .faulted := fun ho => h (Or.inl ho)
    obtain ⟨d, hd⟩ := Option.ne_none_iff_exists'.mp fun hd => h (Or.inr (Or.inl hd))
    obtain ⟨w, hw⟩ := Option.ne_none_iff_exists'.mp fun hw => h (Or.inr (Or.inr hw))
    refine ⟨measuredYield d w c.flux, false, makeRecord_measured ho hd hw, fun q hq => ?_, by simp [h]⟩
    unfold measuredYield at hq
    split at hq
    · cases hq
    · cases hq
      exact Nat.min_le_left _ _

/-- The measured path with a dry mass of 10 or more, in the words of R162 and R163. -/
theorem measuredYield_eq {d w : Int} {flux : Nat} (h : 10 ≤ d) :
    (measuredYield d w flux).pickup = (w - d + roundNat (d.toNat * flux) 1000).toNat ∧
      (measuredYield d w flux).ratio =
        some (min 999 (roundNat ((w - d + roundNat (d.toNat * flux) 1000).toNat * 1000) d.toNat)) := by
  unfold measuredYield
  rw [if_neg (Int.not_lt.mpr h)]
  exact ⟨rfl, rfl⟩

/-! ### The class and the dross class -/

theorem eligible_iff {c : DipCtx} {o : DipOutcome} {q : Nat} :
    eligible c o (some q) = true ↔ o = .complete ∧ c.progressive = false ∧ c.quality.weighLost = false ∧
      c.quality.unsettled = false ∧ c.quality.overMark = false := by
  unfold eligible
  simp [and_assoc]

theorem dipClassOf_some {p : Params} {k : Pku} {c : DipCtx} {o : DipOutcome} {q : Nat}
    (h : eligible c o (some q) = true) :
    dipClassOf p k c o (some q) =
      some (classify p (k.candidates p c.lot) (immersionSeconds c.immersionTime) q) := if_pos h

theorem dipClassOf_eligible {p : Params} {k : Pku} {c : DipCtx} {o : DipOutcome} {ratio : Option Nat}
    (h : dipClassOf p k c o ratio ≠ none) : ∃ q, ratio = some q ∧ eligible c o (some q) = true := by
  cases ratio with
  | none => exact absurd rfl h
  | some q => exact ⟨q, rfl, by_contra fun hno => h (if_neg hno)⟩

theorem candidates_eq {p : Params} {k : Pku} {tag : Nat} {mask : BitVec 5}
    (h : (tag = 0 ∧ mask = p.mask) ∨ (tag ≠ 0 ∧ (k.lotOf tag).map Lot.mask = some mask)) :
    k.candidates p tag = mask := by
  unfold Pku.candidates
  rcases h with ⟨h0, rfl⟩ | ⟨h0, hm⟩
  · exact if_pos h0
  · rw [if_neg h0, hm]
    rfl

/-- A lot is known by its class where it is LOCKED or FIXED. -/
theorem knownClass_iff {k : Pku} {tag : Nat} {x : SteelClass} :
    k.knownClass tag = some x ↔ tag ≠ 0 ∧ ∃ l, k.lotOf tag = some l ∧
      (l.classifier = .fixed x ∨ ∃ n, l.classifier = .locked x n) := by
  have hclass (c : Classifier) : c.knownClass = some x ↔ c = .fixed x ∨ ∃ n, c = .locked x n := by
    cases c <;> simp [Classifier.knownClass]
  unfold Pku.knownClass
  by_cases h0 : tag = 0
  · simp [h0]
  · simp [h0, Option.bind_eq_some_iff, hclass]

theorem drossClassOf_known {x : SteelClass} {dip : Option DipClass} {deflt : SteelClass} :
    drossClassOf (some x) dip deflt = x := by
  cases dip <;> rfl

theorem drossClassOf_unknown {deflt : SteelClass} {dip : Option DipClass} :
    (∀ x, dip = some (.cls x) → drossClassOf none dip deflt = x) ∧
      (dip = none ∨ dip = some .noMatch → drossClassOf none dip deflt = deflt) := by
  refine ⟨fun x h => by rw [h]; rfl, fun h => ?_⟩
  rcases h with h | h <;> rw [h] <;> rfl

/-- Settles O59: every record is one of the measured or the estimate path, and both take their dross class alike. -/
theorem recordArithmetic : Obligations.RecordArithmetic := by
  unfold Obligations.RecordArithmetic
  intro p k c o
  obtain ⟨y, est, hr, hsat, hest⟩ := makeRecord_cases p k c o
  intro r
  have hr : r = _ := hr
  have measured (d w : Int) (ho : o ≠ .faulted) (hd : c.dry = some d) (hw : c.wet = some w) :
      r = recordWith p k c o (measuredYield d w c.flux) false (dipClassOf p k c o (measuredYield d w c.flux).ratio) :=
    makeRecord_measured ho hd hw
  have estimated (h : o = .faulted) : r = recordWith p k c o (estimatedYield p k c) true none :=
    makeRecord_estimated (Or.inl h)
  clear_value r
  refine ⟨?_, ?_, ?_, ?_, ?_, ?_, ?_, ?_, ?_⟩
  · rw [hr]
    rfl
  · rw [hr]
    rfl
  · rw [hr]
    exact hsat
  · intro hclass
    rw [hr] at hclass ⊢
    obtain ⟨q, hq, he⟩ := dipClassOf_eligible hclass
    obtain ⟨ho, hprog, hlost, hunsettled, hover⟩ := eligible_iff.mp he
    have hratio : y.ratio ≠ none := by rw [hq]; exact Option.some_ne_none q
    exact ⟨ho, hratio, hlost, hunsettled, hover, hprog⟩
  · intro q mask hq ho hlost hunsettled hover hprog hmask off
    have hoff (x : SteelClass) : classDistance p (immersionSeconds c.immersionTime) q x = off x := classDistance_eq _ _ _ _
    have hclass : r.dipClass = some (classify p mask (immersionSeconds c.immersionTime) q) := by
      rw [hr] at hq ⊢
      have hq : y.ratio = some q := hq
      have h := dipClassOf_some (p := p) (k := k) (eligible_iff.mpr ⟨ho, hprog, hlost, hunsettled, hover⟩ :
        eligible c o (some q) = true)
      rw [candidates_eq hmask, ← hq] at h
      exact h
    rw [hclass]
    refine ⟨fun x hx hband hleast => ?_, fun hout => ?_⟩
    · exact congrArg some (classify_nearest hx (by rw [hoff]; exact hband) fun y hy => by
        rw [hoff, hoff]; exact hleast y hy)
    · exact congrArg some (classify_outside fun x hx => by rw [hoff]; exact hout x hx)
  · intro known
    rw [hr]
    refine ⟨fun x hx => ?_, fun hnone => ?_⟩
    · show drossClassOf (k.knownClass c.lot) _ _ = x
      rw [knownClass_iff.mpr hx]
      exact drossClassOf_known
    · have hk : k.knownClass c.lot = none := by
        cases hk : k.knownClass c.lot with
        | none => rfl
        | some x => exact absurd (knownClass_iff.mp hk) (hnone x)
      show (∀ x, _ → drossClassOf (k.knownClass c.lot) _ _ = x) ∧ (_ → drossClassOf (k.knownClass c.lot) _ _ = _)
      rw [hk]
      exact drossClassOf_unknown
  · rw [hr]
    exact hest
  · intro d w ho hd hw h10
    obtain ⟨hpickup, hratio⟩ := measuredYield_eq (w := w) (flux := c.flux) h10
    rw [measured d w ho hd hw]
    refine ⟨hpickup, ?_⟩
    show (measuredYield d w c.flux).ratio = some (min 999 (roundNat ((measuredYield d w c.flux).pickup * 1000) d.toNat))
    rw [hpickup, hratio]
  · intro ho d hd hn
    rw [estimated ho]
    show estimatedPickup _ _ _ c.dry c.nominal = _
    rw [hd, hn]
    rfl

end Sys2Proof.Machine
end

section
/-! PROOFS. The receiver of the station port, and the requests that do not fit (R194, R196, R211; statement O10). -/

namespace Sys2Proof.Machine

/-! ### The row of a request -/

/-- The row a tag and a code are read into has that tag and that code. -/
theorem requestHead_requestCommand (tag code : Byte) (body : List Byte) :
    requestHead (requestCommand tag code body) = some (tag, code) := by
  have codeIs {n : Nat} (h : code.toNat = n) : code = BitVec.ofNat 8 n := by
    rw [← h, BitVec.ofNat_toNat, BitVec.setWidth_eq]
  unfold requestCommand
  split
  case h_27 => rfl
  all_goals
    rename_i h
    rw [codeIs h]
    rfl

/-! ### The receiver -/

theorem afterStart_skipped {start : Byte} {skipped : List Byte} (h : ∀ b ∈ skipped, b ≠ start) (bs : List Byte) :
    afterStart start (skipped ++ bs) = afterStart start bs := by
  induction skipped with
  | nil => rfl
  | cons b rest ih =>
    have hb : b ≠ start := h b List.mem_cons_self
    show (if b = start then some (rest ++ bs) else afterStart start (rest ++ bs)) = _
    rw [if_neg hb]
    exact ih fun x hx => h x (List.mem_cons_of_mem _ hx)

/-- What the receiver makes of a frame from its length on. -/
def receiveHeld (a b : Byte) (held : List Byte) : Received :=
  if held.length < beNat [a, b] + 2 then .incomplete
  else .command (requestOf ((a :: b :: held).take (beNat [a, b] + 4)) (held.take (beNat [a, b])))
    (held.drop (beNat [a, b] + 2))

theorem receiveRequest_held (a b : Byte) (held : List Byte) :
    receiveRequest (0xA5 :: a :: b :: held) = receiveHeld a b held := rfl

theorem receiveHeld_incomplete {a b : Byte} {held : List Byte} (h : held.length < beNat [a, b] + 2) :
    receiveHeld a b held = .incomplete := if_pos h

/-- A complete frame is the request of its counted bytes; the bytes after it stay. -/
theorem receiveHeld_complete {a b : Byte} {counted crc : List Byte} (rest : List Byte) (hcrc : crc.length = 2)
    (hlen : counted.length = beNat [a, b]) :
    receiveHeld a b (counted ++ crc ++ rest) = .command (requestOf (a :: b :: (counted ++ crc)) counted) rest := by
  have hframe : (counted ++ crc).length = beNat [a, b] + 2 := by rw [List.length_append, hcrc, hlen]
  have hlong : ¬(counted ++ crc ++ rest).length < beNat [a, b] + 2 := by
    rw [List.length_append]
    omega
  have htaken : (a :: b :: (counted ++ crc ++ rest)).take (beNat [a, b] + 4) = a :: b :: (counted ++ crc) := by
    rw [show beNat [a, b] + 4 = (beNat [a, b] + 2) + 2 by omega, List.take_succ_cons, List.take_succ_cons,
      List.take_left' hframe]
  have hcounted : (counted ++ crc ++ rest).take (beNat [a, b]) = counted := by
    rw [List.append_assoc, List.take_left' hlen]
  unfold receiveHeld
  rw [if_neg hlong, htaken, hcounted, List.drop_left' hframe]

theorem requestOf_unchecked {frame counted : List Byte} (h : crc16 frame ≠ 0) :
    requestOf frame counted = .requestCheckFail := by
  have hno : checks frame = false := beq_eq_false_iff_ne.mpr h
  unfold requestOf
  rw [hno]
  rfl

theorem requestOf_checked {frame : List Byte} {tag code : Byte} {body : List Byte} (h : crc16 frame = 0) :
    requestOf frame (tag :: code :: body) = requestCommand tag code body := by
  have hyes : checks frame = true := beq_iff_eq.mpr h
  unfold requestOf
  rw [hyes]
  rfl

/-- Settles O10: what drops a frame has no response, and the decoder answers a request before any owner sees it. -/
theorem unfittingRequestsHaveNoEffect : Obligations.UnfittingRequestsHaveNoEffect := by
  unfold Obligations.UnfittingRequestsHaveNoEffect
  refine ⟨fun s => ⟨rfl, rfl⟩, fun s tag code body hfresh => ?_,
    fun s c tag code hc hfresh hlen => exec_badLength s hc hfresh hlen,
    fun skipped bs hskip => ⟨?_, ?_⟩, fun a b counted crc rest hcrc hlen => ⟨fun n hn => ?_, fun hbad => ?_, ?_⟩⟩
  · exact congrArg Host.Outcome.next (takeRequest_fresh s tag code (fun t => (t, respBadArg)) hfresh)
  · have h := afterStart_skipped hskip []
    rw [List.append_nil] at h
    unfold receiveRequest
    rw [show afterStart requestStart skipped = none from h]
  · have h : afterStart requestStart (skipped ++ 0xA5 :: bs) = afterStart requestStart (0xA5 :: bs) :=
      afterStart_skipped hskip (0xA5 :: bs)
    unfold receiveRequest
    rw [h]
  · rw [receiveRequest_held]
    refine receiveHeld_incomplete ?_
    rw [List.length_take]
    omega
  · rw [receiveRequest_held, receiveHeld_complete rest hcrc hlen, requestOf_unchecked hbad]
  · intro tag code body hgood hcounted
    refine ⟨requestCommand tag code body, ?_, requestHead_requestCommand tag code body⟩
    rw [receiveRequest_held, receiveHeld_complete rest hcrc hlen, hcounted, requestOf_checked (hcounted ▸ hgood)]

end Sys2Proof.Machine
end

section
/-! PROOFS. The steps a dip takes when its dwell timer ends, the END step and its record, the classifier of a lot, and
the end of the abort drain (sections 5.3 to 5.6, 9.5; statement O50). -/

namespace Sys2Proof.Machine

/-! ### The timers and the steps that wait -/

theorem takeStep_raise {s : State} {c : DipCtx} {v : Nat} (hc : s.dsq.ctx = some c) :
    s.takeStep (.raise v) = ({ s with
      dsq := { s.dsq with state := .raising, immersionSince := none,
                          ctx := some (c.outOfZinc s.dsq.immersionSince s.now) },
      mpt := s.mpt.handed (.raise v) }, .waits) := by
  unfold State.takeStep
  simp only []
  rw [stopImmersion_is hc]
  rfl

theorem takeStep_travel {s : State} {cell : Nat} (hp : s.dsq.position ≠ .below) :
    s.takeStep (.travel cell) = ((s.sendMotion (.move cell)).toDsq .traveling, .waits) := if_neg hp

/-- A lot of no known class does not shorten a DWELL (R111, R177). -/
theorem dwellTime_uncapped {s : State} {c : DipCtx} {d : Nat} (hc : s.dsq.ctx = some c)
    (h : c.lot = 0 ∨ s.pku.lotOf c.lot = none ∨ ∃ x, s.pku.lotOf c.lot = some x ∧
      (x.classifier = .search ∨ ∃ k n, x.classifier = .tentative k n)) : s.dwellTime d = d := by
  have hk : s.pku.knownClass c.lot = none := by
    cases hk : s.pku.knownClass c.lot with
    | none => rfl
    | some k =>
      obtain ⟨h0, l, hl, hknown⟩ := knownClass_iff.mp hk
      rcases h with h | h | ⟨x, hx, hsearch⟩
      · exact absurd h h0
      · rw [h] at hl
        cases hl
      · obtain rfl : x = l := Option.some.inj (hx.symm.trans hl)
        rcases hsearch with hs | ⟨_, _, hs⟩ <;> rcases hknown with hf | ⟨_, hf⟩ <;> cases hs.symm.trans hf
  unfold State.dwellTime
  rw [hc]
  show (match s.pku.knownClass c.lot with | some k => min d (s.cfg.params.row k).cap | none => d) = d
  rw [hk]

/-- The class a lot is LOCKED or FIXED at caps a DWELL (R111, R177). -/
theorem dwellTime_capped {s : State} {c : DipCtx} {d : Nat} {x : Lot} {k : SteelClass} (hc : s.dsq.ctx = some c)
    (h0 : c.lot ≠ 0) (hx : s.pku.lotOf c.lot = some x) (h : x.classifier = .fixed k ∨ ∃ n, x.classifier = .locked k n) :
    s.dwellTime d = min d (s.cfg.params.row k).cap := by
  have hk : s.pku.knownClass c.lot = some k := knownClass_iff.mpr ⟨h0, x, hx, h⟩
  unfold State.dwellTime
  rw [hc]
  show (match s.pku.knownClass c.lot with | some k => min d (s.cfg.params.row k).cap | none => d) = _
  rw [hk]

/-! ### The RELEASE step -/

/-- A RELEASE that ends as it is taken, and the WEIGH_DRY after it. -/
theorem endStep_ends_weighDry {s t : State} {c : DipCtx} {st : DipStep} {n : Nat} (hc : s.dsq.ctx = some c)
    (hn : s.nextStep c = some st) (ht : (s.atNext c).takeStep st = (t, .ends)) (hct : t.dsq.ctx = some c.next)
    (hnt : t.nextStep c.next = some (.weighDry n)) :
    s.endStep = { t with
      dsq := { t.dsq with state := .weighingDry, ctx := some c.next.next },
      wch := t.wch.settling t.now n } := by
  rw [endStep_ends s t c st hc hn ht, advance_eq t c.next hct]
  exact runSteps_waits (t.atNext c.next) _ 94 (.weighDry n) hnt rfl

theorem takeStep_release {s : State} (hp : s.dsq.position ≠ .below) : s.takeStep .release = s.takeRelease := if_neg hp

theorem takeRelease_held {s : State} (h : s.scu.state.isHeld = true) :
    s.takeRelease = (s.releaseSpan.toDsq .awaitRelease, .waits) := if_pos h

theorem takeRelease_none {s : State} (h : s.scu.state = .none) : s.takeRelease = (s.setPosition .clear, .ends) := by
  unfold State.takeRelease
  rw [h]
  rfl

/-- A BLOCKED claim and one in RETRY end where no request is held (R56). -/
theorem cancelClaim_ends {s : State} (h : s.scu.state = .blocked ∨ s.scu.state = .retry) (hh : s.scu.held = none) :
    ∃ x : Scu, s.cancelClaim = s.withScu x ∧ x.state = .none ∧ x.own = none ∧ x.wanted = none ∧ x.blockedSince = none ∧
      x.retryEnd = none := by
  have hend : s.cancelClaim = s.endClaim := by
    unfold State.cancelClaim
    rcases h with h | h <;> rw [h]
  refine ⟨_, hend.trans (by unfold State.endClaim; rw [hh]), rfl, rfl, rfl, ?_, rfl⟩
  exact stopBlocked_since s.scu s.now

theorem takeRelease_ended {s : State} (h : s.scu.state = .blocked ∨ s.scu.state = .retry) (hh : s.scu.held = none) :
    s.takeRelease = (s.cancelClaim, .ends) := by
  have hheld : ¬ s.scu.state.isHeld = true := by rcases h with h | h <;> rw [h] <;> decide
  have hopen : s.scu.state.isOpen = true := by rcases h with h | h <;> rw [h] <;> rfl
  have hnone : s.cancelClaim.scu.state = .none := by
    obtain ⟨x, hx, hstate, -⟩ := cancelClaim_ends h hh
    rw [hx]
    exact hstate
  unfold State.takeRelease
  rw [if_neg hheld, if_pos hopen, if_pos hnone]

/-- The release of a span that is not on its way out yet: with room its FREE is offered, and no frame is dropped (R55). -/
theorem releaseSpan_room {s : State} {own : OwnEntry} (ho : s.scu.own = some own)
    (hs : s.scu.state = .claimingHoldQueued ∨ s.scu.state = .guard ∨ s.scu.state = .firm) (hroom : s.lif.places < 8) :
    s.releaseSpan.dsq = s.dsq ∧ s.releaseSpan.scu.state = .releasing ∧ s.releaseSpan.scu.own = some own ∧
      s.releaseSpan.lif.holds (· == .free own.claim) = true := by
  obtain ⟨hstate, hown, -, hfree⟩ := releaseSpan_held s own ho hs
  have hdsq : s.releaseSpan.dsq = s.dsq := by
    have e : s.releaseSpan = s.startRelease := by unfold State.releaseSpan; rcases hs with h | h | h <;> rw [h]
    rw [e]
    exact offer_dsq_room hroom (by simp)
  exact ⟨hdsq, hstate, hown, hfree hroom⟩

/-! ### The END step -/

/-- What the record of an END is made in: the timer stopped, an open claim cancelled (R118). -/
def State.atEnd (s : State) : State :=
  if s.stopImmersion.scu.state.isOpen then s.stopImmersion.cancelClaim else s.stopImmersion

theorem takeEnd_eq (s : State) : s.takeEnd =
    if s.atEnd.scu.state.isHeld then ((s.atEnd.createRecord .complete).toDsq .parked).raise .parkedEv
    else (s.atEnd.createRecord .complete).returnIdle.raise .dipDone := rfl

/-- Before its record an END moves the claim and the queue alone, beside the immersion timer. -/
theorem atEnd_aside {s : State} : Aside s.stopImmersion s.atEnd ∧ s.atEnd.lif.places ≤ s.lif.places + 2 ∧
    (s.scu.state.isOpen = false → s.atEnd = s.stopImmersion) ∧
    (s.scu.state.isHeld = false → s.atEnd.scu.state.isHeld = false) ∧
    (s.scu.state = .blocked ∨ s.scu.state = .retry ∨ s.scu.state = .claimingWindow → s.scu.held = none →
      s.atEnd.scu.state = .none) := by
  have hscu : s.stopImmersion.scu = s.scu ∧ s.stopImmersion.lif = s.lif := by
    rw [(stopImmersion_eq s).1]
    exact ⟨rfl, rfl⟩
  obtain ⟨hscu, hlif⟩ := hscu
  cases hopen : s.scu.state.isOpen
  · have hat : s.atEnd = s.stopImmersion := if_neg (by rw [hscu, hopen]; decide)
    rw [hat, hscu, hlif]
    refine ⟨Aside.refl _, by omega, fun _ => rfl, id, fun h _ => ?_⟩
    rcases h with h | h | h <;> rw [h] at hopen <;> cases hopen
  · have hat : s.atEnd = s.stopImmersion.cancelClaim := if_pos (by rw [hscu, hopen])
    have hplaces := cancelClaim_places s.stopImmersion (by rw [hscu]; exact hopen)
    rw [hlif] at hplaces
    rw [hat]
    exact ⟨aside_cancelClaim _, hplaces, (fun h => by cases h),
      fun _ => cancelClaim_open s.stopImmersion (by rw [hscu]; exact hopen),
      fun h hh => cancelClaim_none s.stopImmersion (by rw [hscu]; exact h) (by rw [hscu]; exact hh)⟩

/-- What an END leaves of the state it is taken in, the context of its record being `d` (R118). -/
structure Ended (s : State) (d : DipCtx) (t : State) : Prop where
  now : t.now = s.now
  mpt : t.mpt = s.mpt
  wch : t.wch = s.wch
  hwn : t.hwn = s.hwn
  parks : s.scu.state.isHeld = true →
    t.dsq = { s.dsq with state := .parked, immersionSince := none, ctx := some d } ∧ t.scu = s.scu ∧
      t.spt.isRaised .parkedEv = true
  returns : s.scu.state.isHeld = false →
    t.dsq = Dsq.reset ∧ t.pku.lots.any Lot.inUse = false ∧ t.scu.requestTime = none ∧ t.scu.blockedLongMark = false ∧
      t.spt.isRaised .dipDone = true ∧
      (s.scu.state = .blocked ∨ s.scu.state = .retry ∨ s.scu.state = .claimingWindow → s.scu.held = none →
        t.scu.state = .none)
  dry : d.immersions = 0 →
    t.zbr.nextNumber = s.zbr.nextNumber ∧ t.zbr.z = s.zbr.z ∧ t.zbr.ownSeq = s.zbr.ownSeq
  record : ∀ a : State, a.cfg = s.cfg → a.pku = s.pku → a.zbr = s.zbr → d.immersions ≠ 0 →
    RecordMade a d .complete (s.lif.places < 5) t

/-- A record made after moves of the claim and the queue alone: what it and the move leave. -/
theorem createRecord_after {s u : State} {d : DipCtx} (o : DipOutcome) (haside : Aside s u) (hd : s.dsq.ctx = some d) :
    Quiet u (u.createRecord o) ∧ (u.createRecord o).hwn = s.hwn ∧
      (d.immersions = 0 → u.createRecord o = u) ∧
      ∀ a : State, a.cfg = s.cfg → a.pku = s.pku → a.zbr = s.zbr → d.immersions ≠ 0 → ∀ placed : Prop,
        (placed → u.lif.places < 7) → RecordMade a d o placed (u.createRecord o) := by
  have hctx : u.dsq.ctx.map DipCtx.unmarked = some d.unmarked := by
    rw [haside.ctx, hd]
    rfl
  refine ⟨quiet_createRecord u o, (createRecord_hwn u o).trans haside.hwn, fun h0 => ?_,
    fun a hcfg hpku hzbr h0 placed hroom => ?_⟩
  · obtain ⟨c, hc, hmarks⟩ := Option.map_eq_some_iff.mp hctx
    have hcd := unmarked_eq (c := d) (d := c) hmarks.symm
    exact createRecord_dry u o hc (by rw [hcd]; exact h0)
  · refine createRecord_made a u d o placed (haside.cfg.trans hcfg.symm) (haside.pku.trans hpku.symm) ?_ ?_ hctx h0 hroom
    · rw [hzbr]
      exact haside.zbr
    · rw [hzbr]
      exact haside.ring

theorem ClaimState.isOpen_of_isHeld {x : ClaimState} (h : x.isHeld = true) : x.isOpen = false := by
  cases x <;> simp [ClaimState.isHeld, ClaimState.isOpen] at h ⊢

theorem takeEnd_ended {s : State} {c : DipCtx} (hc : s.dsq.ctx = some c) :
    Ended s (c.outOfZinc s.dsq.immersionSince s.now) s.takeEnd := by
  have hstop := stopImmersion_is hc
  obtain ⟨haside, hplaces, hstands, hunheld, hnone⟩ := atEnd_aside (s := s)
  obtain ⟨hquiet, hhwn, hdry, hmade⟩ := createRecord_after (d := c.outOfZinc s.dsq.immersionSince s.now) .complete haside
    (by rw [hstop]; rfl)
  have hnow : s.stopImmersion.now = s.now := by rw [hstop]; rfl
  have hmpt : s.stopImmersion.mpt = s.mpt := by rw [hstop]; rfl
  have hwch : s.stopImmersion.wch = s.wch := by rw [hstop]; rfl
  have hhwn' : s.stopImmersion.hwn = s.hwn := by rw [hstop]; rfl
  have hzbr : s.stopImmersion.zbr = s.zbr := by rw [hstop]; rfl
  have hcfg : s.stopImmersion.cfg = s.cfg := by rw [hstop]; rfl
  have hpku : s.stopImmersion.pku = s.pku := by rw [hstop]; rfl
  have unmoved (h0 : (c.outOfZinc s.dsq.immersionSince s.now).immersions = 0) :
      (s.atEnd.createRecord .complete).zbr.nextNumber = s.zbr.nextNumber ∧
        (s.atEnd.createRecord .complete).zbr.z = s.zbr.z ∧ (s.atEnd.createRecord .complete).zbr.ownSeq = s.zbr.ownSeq := by
    rw [hdry h0, haside.zbr, hzbr]
    exact ⟨rfl, rfl, rfl⟩
  have recorded (a : State) (h1 : a.cfg = s.cfg) (h2 : a.pku = s.pku) (h3 : a.zbr = s.zbr)
      (h0 : (c.outOfZinc s.dsq.immersionSince s.now).immersions ≠ 0) :=
    hmade a (h1.trans hcfg.symm) (h2.trans hpku.symm) (h3.trans hzbr.symm) h0 (s.lif.places < 5)
      (fun h => Nat.lt_of_le_of_lt hplaces (Nat.add_lt_add_right h 2))
  have settled (h : s.scu.state.isHeld = true) : (s.atEnd.createRecord .complete).dsq = s.stopImmersion.dsq ∧
      (s.atEnd.createRecord .complete).scu = s.scu := by
    rw [hstands (ClaimState.isOpen_of_isHeld h), hstop]
    have hkept := createRecord_settled (s.withDsq { s.dsq with
      immersionSince := none, ctx := some (c.outOfZinc s.dsq.immersionSince s.now) }) .complete (Or.inl h)
    exact ⟨hkept.dsq, hkept.scu⟩
  have held (h : s.scu.state.isHeld = true) : s.atEnd.scu.state.isHeld = true := by
    rw [hstands (ClaimState.isOpen_of_isHeld h), hstop]
    exact h
  rw [takeEnd_eq]
  cases hheld : s.scu.state.isHeld
  case true =>
    obtain ⟨hdsq, hscu⟩ := settled hheld
    rw [if_pos (held hheld)]
    generalize hu : s.atEnd.createRecord .complete = u at *
    have grown : EventsGrow u.spt (u.spt.raise .parkedEv) := eventsGrow_raise _ _
    refine ⟨hquiet.now.trans (haside.now.trans hnow), hquiet.mpt.trans (haside.mpt.trans hmpt),
      hquiet.wch.trans (haside.wch.trans hwch), hhwn.trans hhwn', fun _ => ⟨?_, hscu, raise_raised u.spt .parkedEv⟩,
      (fun h => by rw [hheld] at h; cases h), unmoved,
      fun a h1 h2 h3 h0 => (recorded a h1 h2 h3 h0).after rfl rfl grown rfl⟩
    show { u.dsq with state := .parked } = _
    rw [hdsq, hstop]
    rfl
  case false =>
    have ended (h : s.scu.state = .blocked ∨ s.scu.state = .retry ∨ s.scu.state = .claimingWindow) (hh : s.scu.held = none) :
        (s.atEnd.createRecord .complete).scu.state = .none := by
      rw [(createRecord_settled s.atEnd .complete (Or.inr (hnone h hh))).scu]
      exact hnone h hh
    rw [if_neg (by rw [hunheld hheld]; decide)]
    generalize hu : s.atEnd.createRecord .complete = u at *
    have grown : EventsGrow u.spt (u.spt.raise .dipDone) := eventsGrow_raise _ _
    exact ⟨hquiet.now.trans (haside.now.trans hnow), hquiet.mpt.trans (haside.mpt.trans hmpt),
      hquiet.wch.trans (haside.wch.trans hwch), hhwn.trans hhwn', (fun h => by rw [hheld] at h; cases h),
      fun _ => ⟨rfl, returnIdle_unused u, rfl, rfl, raise_raised u.spt .dipDone, ended⟩, unmoved,
      fun a h1 h2 h3 h0 => (recorded a h1 h2 h3 h0).after rfl rfl grown (returnIdle_lots u)⟩

/-! ### The classifier and the abort drain -/

theorem exec_abortDrainExpiry {s : State} {c : DipCtx} {e : Nat} (hc : s.dsq.ctx = some c) (he : s.dsq.drainEnd = some e) :
    exec .abortDrainExpiry s = .next { s with
      now := max s.now e,
      dsq := { s.dsq with
        state := .aborting .weighing, drainEnd := none,
        ctx := some (c.addDrain (s.cfg.params.abortDrain * 10)) },
      wch := s.wch.settling (max s.now e) 30 } := by
  show execAbortDrainExpiry s = _
  unfold execAbortDrainExpiry
  simp only [he]
  rw [show some (c.addDrain (s.cfg.params.abortDrain * 10)) =
      s.dsq.ctx.map (fun c => c.addDrain (s.cfg.params.abortDrain * 10)) by rw [hc]; rfl]
  rfl

/-- Settles O50: each step's own work after the dwell timer, the END by its record, and the classifier by its table. -/
theorem dipTimersExpire : Obligations.DipTimersExpire := by
  unfold Obligations.DipTimersExpire
  refine ⟨fun s c e hc he => ?dwell, fun lock n d k y => ?classifier, fun s c e hc he => exec_abortDrainExpiry hc he⟩
  case dwell =>
    intro m takes into
    refine ⟨fun v hn => ?_, fun n hn => ?_, fun cell hn hp => ?_, fun n hn => ?_, fun n hn => ?_, fun mn mx h l q hn => ?_,
      fun d hn => ⟨fun hlot => ?_, fun x k h0 hx hk => ?_⟩, fun hn hp => ?release, fun hn => ?finish⟩
    · exact exec_dwellExpiry_waits hc he hn (takeStep_raise (s := s.afterDwell c e) (c := c.next) rfl)
    · exact exec_dwellExpiry_waits hc he hn rfl
    · exact exec_dwellExpiry_waits hc he hn (takeStep_travel (s := s.afterDwell c e) hp)
    · exact exec_dwellExpiry_waits hc he hn rfl
    · exact exec_dwellExpiry_waits hc he hn rfl
    · exact exec_dwellExpiry_waits hc he hn rfl
    · have htime := dwellTime_uncapped (s := s.afterDwell c e) (c := c.next) (d := d) rfl hlot
      have ht := exec_dwellExpiry_waits hc he hn (t := _) (rfl : (s.afterDwell c e).takeStep (.dwell d) = _)
      rw [htime] at ht
      exact ht
    · have htime := dwellTime_capped (s := s.afterDwell c e) (c := c.next) (d := d) rfl h0 hx hk
      have ht := exec_dwellExpiry_waits hc he hn (t := _) (rfl : (s.afterDwell c e).takeStep (.dwell d) = _)
      rw [htime] at ht
      exact ht
    case release =>
      have htaken := takeStep_release (s := s.afterDwell c e) hp
      refine ⟨fun own ho hs hroom => ?_, fun n hs hnext => ?_, fun n hs hh hnext => ?_⟩
      · have hheld : s.scu.state.isHeld = true := by rcases hs with h | h <;> rw [h] <;> rfl
        obtain ⟨hdsq, hstate, hown, hfree⟩ := releaseSpan_room (s := s.afterDwell c e) ho
          (by rcases hs with h | h; exacts [.inr (.inr h), .inr (.inl h)]) hroom
        refine ⟨_, exec_dwellExpiry_waits hc he hn (htaken.trans (takeRelease_held hheld)), ?_, hstate, hown, hfree⟩
        show { (s.afterDwell c e).releaseSpan.dsq with state := .awaitRelease } = _
        rw [hdsq]
        rfl
      · show exec .dwellExpiry s = _
        rw [exec_dwellExpiry he]
        exact congrArg Host.Outcome.next (endStep_ends_weighDry (s := (s.reach e).stopDwell) hc hn
          (htaken.trans (takeRelease_none hs)) rfl hnext)
      · obtain ⟨x, hx, hstate, -⟩ := cancelClaim_ends (s := s.afterDwell c e) hs hh
        have hended : (s.afterDwell c e).takeRelease = ((s.afterDwell c e).withScu x, .ends) := by
          rw [takeRelease_ended (s := s.afterDwell c e) hs hh, hx]
        refine ⟨_, (exec_dwellExpiry he).trans (congrArg Host.Outcome.next (endStep_ends_weighDry
          (s := (s.reach e).stopDwell) hc hn (htaken.trans hended) rfl hnext)), hstate, rfl, rfl⟩
    case finish =>
      intro d
      obtain ⟨hnow, hmpt, hwch, hhwn, hparks, hreturns, hdry, hrecord⟩ := takeEnd_ended (s := s.afterDwell c e) (c := c.next) rfl
      have himmersions : d.immersions = c.immersions := by
        show (DipCtx.outOfZinc _ _ _).immersions = _
        unfold DipCtx.outOfZinc
        split <;> rfl
      refine ⟨_, exec_dwellExpiry_waits hc he hn rfl, hnow, hmpt, hwch, hhwn, hparks, hreturns, fun h0 => hdry ?_,
        fun h0 => hrecord s rfl rfl rfl ?_⟩
      · exact himmersions.trans h0
      · exact fun h => h0 (himmersions.symm.trans h)
  case classifier =>
    intro run
    refine ⟨fun st => rfl, ?_, rfl, rfl, if_pos rfl, rfl, if_pos rfl, rfl, rfl, fun hother => ⟨?_, ?_, ?_⟩⟩
    · cases d <;> rfl
    · exact if_neg hother
    · exact (if_neg hother).trans (if_pos rfl)
    · exact (if_neg hother).trans (if_neg Nat.one_ne_zero)

end Sys2Proof.Machine
end

section
/-! PROOFS. Heat admission: the request of a LOWER, and the request that an expired record of the window lets in (sections
4.2 and 5.3; statement O49). -/

namespace Sys2Proof.Machine

/-! ### The admission -/

/-- What an admission of a mass leaves of the state it is given in, the window having room and the span firm (R64, R69,
R74, R75). -/
structure Granted (s : State) (m index : Nat) (beyond : Bool) (t : State) : Prop where
  cfg : t.cfg = s.cfg
  hwn : t.hwn = { s.hwn with
    request := .none, sum := s.hwn.sum + m,
    entries := s.hwn.entries ++ [{ src := s.ownId, mass := m, arrival := s.now, index := index, merges := 0 }] }
  scu : t.scu = { s.scu with lastEntry := s.ownId }
  mpt : t.mpt = s.mpt
  ctx : t.dsq.ctx.map DipCtx.heatOver = s.dsq.ctx.map DipCtx.heatOver
  state : t.dsq.state = s.dsq.state
  event : beyond = true → t.spt.isRaised .heatOver = true
  events : beyond = false → t.spt = s.spt

theorem grantEntry_granted {s : State} (m index : Nat) (beyond : Bool) (hroom : s.hwn.entries.length < 24)
    (hstill : s.scu.state.isStill = true) : Granted s m index beyond (s.grantEntry m index beyond) := by
  have htake := hwn_take_room { s.hwn with request := .none } s.ownId m index s.now hroom
  have haside := aside_offer ((s.withHwn { s.hwn with request := .none }).takeEntry s.ownId m index)
    (.entry m index ((s.dsq.ctx.map DipCtx.serial).getD 0))
  have hscu := offer_scu ((s.withHwn { s.hwn with request := .none }).takeEntry s.ownId m index)
    (.entry m index ((s.dsq.ctx.map DipCtx.serial).getD 0)) hstill
  have hctx := congrArg (Option.map DipCtx.heatOver) haside.ctx
  rw [Option.map_map, Option.map_map] at hctx
  have hoffered : s.grantEntry m index beyond =
      if beyond then (((s.withHwn { s.hwn with request := .none }).takeEntry s.ownId m index).offer
        (.entry m index ((s.dsq.ctx.map DipCtx.serial).getD 0))).raise .heatOver
      else ((s.withHwn { s.hwn with request := .none }).takeEntry s.ownId m index).offer
        (.entry m index ((s.dsq.ctx.map DipCtx.serial).getD 0)) := rfl
  rw [hoffered]
  generalize ((s.withHwn { s.hwn with request := .none }).takeEntry s.ownId m index).offer
    (.entry m index ((s.dsq.ctx.map DipCtx.serial).getD 0)) = u at haside hscu hctx
  have hstate : u.dsq.state = s.dsq.state := by rw [haside.dsq]; rfl
  cases beyond with
  | true =>
    exact ⟨haside.cfg, haside.hwn.trans htake, hscu, haside.mpt, hctx, hstate,
      fun _ => raise_raised u.spt .heatOver, (fun h => by cases h)⟩
  | false =>
    exact ⟨haside.cfg, haside.hwn.trans htake, hscu, haside.mpt, hctx, hstate, (fun h => by cases h), fun _ => haside.spt⟩

/-- DSQ's context marked with an admission over budget (R75). -/
def DipCtx.heated (c : DipCtx) (beyond : Bool) : DipCtx := { c with heatOver := c.heatOver || beyond }

/-- DSQ takes an admission while its span is firm and clear: the LOWER is issued (R108). -/
theorem takeGrant_clear {s : State} (p : LowerArgs) (beyond : Bool) (h : s.firmAndClear = true) :
    s.takeGrant p beyond = { s with
      dsq := { s.dsq with state := .lowering, ctx := s.dsq.ctx.map (DipCtx.heated · beyond) },
      mpt := s.mpt.handed (.lower p.depth p.speed) } := by
  cases beyond with
  | true =>
    have hclear : (s.modCtx (fun c => { c with heatOver := true })).firmAndClear = true := h
    have hmarks : (DipCtx.heated · true) = fun c : DipCtx => { c with heatOver := true } := by
      funext c
      unfold DipCtx.heated
      rw [Bool.or_true]
    rw [hmarks]
    exact if_pos hclear
  | false =>
    have hmarks : s.dsq.ctx.map (DipCtx.heated · false) = s.dsq.ctx := by
      have hsame : (DipCtx.heated · false) = id := by
        funext c
        unfold DipCtx.heated
        rw [Bool.or_false]
        rfl
      rw [hsame, Option.map_id, id_eq]
    rw [hmarks]
    exact if_pos h

/-- What an admission taken by DSQ leaves, the span firm and clear (R64, R69, R74, R75, R108). -/
structure Lowered (s : State) (p : LowerArgs) (m index : Nat) (beyond : Bool) (t : State) : Prop where
  request : t.hwn.request = .none
  sum : t.hwn.sum = s.hwn.sum + m
  entries : t.hwn.entries =
    s.hwn.entries ++ [{ src := s.ownId, mass := m, arrival := s.now, index := index, merges := 0 }]
  lastEntry : t.scu.lastEntry = s.ownId
  state : t.dsq.state = .lowering
  phase : t.mpt.phase = .awaitAccept (.lower p.depth p.speed) s.mpt.counter
  ctx : t.dsq.ctx.map DipCtx.heatOver = s.dsq.ctx.map (fun c => c.heatOver || beyond)
  event : beyond = true → t.spt.isRaised .heatOver = true
  events : beyond = false → t.spt = s.spt

theorem takeGrant_lowered {s t : State} {m index : Nat} {beyond : Bool} (p : LowerArgs) (h : Granted s m index beyond t)
    (hclear : s.firmAndClear = true) : Lowered s p m index beyond (t.takeGrant p beyond) := by
  have htclear : t.firmAndClear = true := by
    obtain ⟨hfirm, hover⟩ := (firmAndClear_iff s).mp hclear
    refine (firmAndClear_iff t).mpr ⟨by rw [h.scu]; exact hfirm, ?_⟩
    rw [h.scu]
    exact hover
  rw [takeGrant_clear p beyond htclear]
  refine ⟨by rw [h.hwn], by rw [h.hwn], by rw [h.hwn], by rw [h.scu], rfl, ?_, ?_, h.event, h.events⟩
  · show MptPhase.awaitAccept _ t.mpt.counter = _
    rw [h.mpt]
  · show (t.dsq.ctx.map _).map _ = _
    rw [Option.map_map]
    have hmap (o : Option DipCtx) : o.map (DipCtx.heatOver ∘ (DipCtx.heated · beyond)) =
        (o.map DipCtx.heatOver).map (· || beyond) := by
      rw [Option.map_map]
      rfl
    rw [hmap, h.ctx, Option.map_map]
    rfl

/-! ### The expiry of a record -/

/-- The state in which the oldest record has left the window (R71). -/
def State.expired (s : State) (e : HeatEntry) (rest : List HeatEntry) : State :=
  { s with
    now := max s.now (e.arrival + s.cfg.params.window * 1000),
    hwn := { s.hwn with entries := rest, sum := s.hwn.sum - e.mass } }

theorem exec_entryExpiry {s : State} {e : HeatEntry} {rest : List HeatEntry} (h : s.hwn.entries = e :: rest) :
    exec (.entryExpiry 0) s = .next ((s.reach (e.arrival + s.windowMs)).entryOver 0) := by
  have holdest : s.hwn.isOldest 0 = true := by
    unfold Hwn.isOldest
    rw [h]
    exact beq_self_eq_true _
  show execEntryExpiry 0 s = _
  unfold execEntryExpiry
  rw [show s.hwn.entries[0]? = some e by rw [h]; rfl]
  simp only [holdest, if_true]

theorem removeAt_oldest {s : State} {e : HeatEntry} {rest : List HeatEntry} (h : s.hwn.entries = e :: rest) :
    (s.reach (e.arrival + s.windowMs)).withHwn ((s.reach (e.arrival + s.windowMs)).hwn.removeAt 0) = s.expired e rest := by
  show (s.reach _).withHwn { s.hwn with
    entries := s.hwn.entries.eraseIdx 0, sum := s.hwn.sum - ((s.hwn.entries[0]?).map HeatEntry.mass).getD 0 } = _
  rw [h]
  rfl

theorem entryOver_stands {s u : State} {place : Nat} (hu : s.withHwn (s.hwn.removeAt place) = u)
    (h : u.retryHeat = (u, none)) : s.entryOver place = u := by
  unfold State.entryOver
  rw [hu, h]

theorem entryOver_grants {s u t : State} {place : Nat} {beyond : Bool} (hu : s.withHwn (s.hwn.removeAt place) = u)
    (h : u.retryHeat = (t, some beyond)) : s.entryOver place = t.takeAdmission beyond := by
  unfold State.entryOver
  rw [hu, h]

theorem retryHeat_waits {s : State} (h : s.hwn.request = .none ∨
    (∃ r, s.hwn.request = .waitSum r ∧ s.cfg.params.budget < s.hwn.sum + r.mass) ∨
    (∃ r, s.hwn.request = .waitEmpty r ∧ s.hwn.entries ≠ [])) : s.retryHeat = (s, none) := by
  unfold State.retryHeat
  rcases h with h | ⟨r, h, hsum⟩ | ⟨r, h, hentries⟩ <;> rw [h]
  · exact if_neg (Nat.not_le.mpr hsum)
  · exact if_neg hentries

theorem retryHeat_grants {s : State} {r : HeatWaiting} {beyond : Bool}
    (h : (s.hwn.request = .waitSum r ∧ s.hwn.sum + r.mass ≤ s.cfg.params.budget ∧ beyond = false) ∨
      (s.hwn.request = .waitEmpty r ∧ s.hwn.entries = [] ∧ beyond = true)) :
    s.retryHeat = (s.grantEntry r.mass r.index beyond, some beyond) := by
  unfold State.retryHeat
  rcases h with ⟨h, hsum, rfl⟩ | ⟨h, hentries, rfl⟩ <;> rw [h]
  · exact if_pos hsum
  · exact if_pos hentries

theorem takeAdmission_waiting {s : State} {p : LowerArgs} (beyond : Bool) (h : s.dsq.state = .heatWait p) :
    s.takeAdmission beyond = s.takeGrant p beyond := by
  unfold State.takeAdmission
  rw [h]

/-! ### The request of a LOWER -/

theorem takeStep_lower {s : State} {d v f : Nat} (h : s.lowerCheck = none) :
    s.takeStep (.lower d v f) = (s.tryLower ⟨d, v, f⟩, .waits) := by
  simp only [State.takeStep, h]

theorem lowerCheck_passes {s : State} {c : DipCtx} (hc : s.dsq.ctx = some c) (hp : s.dsq.position ≠ .below)
    (h : c.immersions < 2) (hn : s.scu.state ≠ .none) (hr : s.scu.state ≠ .releasing) : s.lowerCheck = none := by
  unfold State.lowerCheck
  rw [if_neg hp, hc, if_neg (show ¬ ((some c).map DipCtx.immersions).getD 0 ≥ 2 from Nat.not_le.mpr h),
    if_neg (fun hs => hs.elim hn hr)]

theorem tryLower_waits {s : State} (p : LowerArgs) (h : s.scu.state ≠ .firm ∨ s.scu.overlapped = true) :
    s.tryLower p = s.toDsq (.awaitLower p) := by
  refine if_neg fun hclear => ?_
  obtain ⟨hfirm, hover⟩ := (firmAndClear_iff s).mp hclear
  rcases h with h | h
  · exact h hfirm
  · rw [hover] at h
    cases h

/-- The mass a LOWER asks admission for, and the index of its immersion (R73). -/
def DipCtx.entering (c : DipCtx) (fraction : Nat) : Nat := enteringMass c.dry c.nominal fraction

def DipCtx.enteringIndex (c : DipCtx) : Nat := if c.immersions = 0 then 1 else 2

/-- The answer to a request, and the state that gives it, decide what DSQ does (R74, R75, R108). -/
theorem tryLower_asks {s t : State} {c : DipCtx} (p : LowerArgs) (hc : s.dsq.ctx = some c) (hclear : s.firmAndClear = true) :
    (s.requestHeat (c.entering p.fraction) c.enteringIndex = (t, .wait) → s.tryLower p = t.toDsq (.heatWait p)) ∧
      (s.requestHeat (c.entering p.fraction) c.enteringIndex = (t, .granted) → s.tryLower p = t.takeGrant p false) ∧
      (s.requestHeat (c.entering p.fraction) c.enteringIndex = (t, .grantedOver) → s.tryLower p = t.takeGrant p true) := by
  have hasks : s.tryLower p = s.askHeat p := if_pos hclear
  unfold DipCtx.entering DipCtx.enteringIndex
  rw [hasks]
  unfold State.askHeat
  rw [hc]
  refine ⟨fun h => ?_, fun h => ?_, fun h => ?_⟩ <;> simp only [h]

theorem requestHeat_waits {s : State} {m index : Nat} (hn : s.hwn.request = .none) :
    (m ≤ s.cfg.params.budget → s.cfg.params.budget < s.hwn.sum + m →
      s.requestHeat m index = (s.withHwn { s.hwn with request := .waitSum ⟨m, index, s.now⟩ }, .wait)) ∧
    (s.cfg.params.budget < m → s.hwn.entries ≠ [] →
      s.requestHeat m index = (s.withHwn { s.hwn with request := .waitEmpty ⟨m, index, s.now⟩ }, .wait)) := by
  unfold State.requestHeat
  rw [hn]
  refine ⟨fun hm hsum => ?_, fun hm hentries => ?_⟩
  · exact (if_pos hm).trans (if_neg (Nat.not_le.mpr hsum))
  · exact (if_neg (Nat.not_le.mpr hm)).trans (if_neg hentries)

theorem requestHeat_grants {s : State} {m index : Nat} (hn : s.hwn.request = .none) :
    (m ≤ s.cfg.params.budget → s.hwn.sum + m ≤ s.cfg.params.budget →
      s.requestHeat m index = (s.grantEntry m index false, .granted)) ∧
    (s.cfg.params.budget < m → s.hwn.entries = [] →
      s.requestHeat m index = (s.grantEntry m index true, .grantedOver)) := by
  unfold State.requestHeat
  rw [hn]
  refine ⟨fun hm hsum => ?_, fun hm hentries => ?_⟩
  · exact (if_pos hm).trans (if_pos hsum)
  · exact (if_neg (Nat.not_le.mpr hm)).trans (if_pos hentries)

/-- A LOWER that is let in at once (R74, R75, R108). -/
theorem tryLower_lowered {s : State} {c : DipCtx} {beyond : Bool} (p : LowerArgs) (hc : s.dsq.ctx = some c)
    (hclear : s.firmAndClear = true) (hn : s.hwn.request = .none) (hroom : s.hwn.entries.length < 24)
    (h : (c.entering p.fraction ≤ s.cfg.params.budget ∧
        s.hwn.sum + c.entering p.fraction ≤ s.cfg.params.budget ∧ beyond = false) ∨
      (s.cfg.params.budget < c.entering p.fraction ∧ s.hwn.entries = [] ∧ beyond = true)) :
    Lowered s p (c.entering p.fraction) c.enteringIndex beyond (s.tryLower p) := by
  have hstill : s.scu.state.isStill = true := by rw [((firmAndClear_iff s).mp hclear).1]; rfl
  have hgranted := grantEntry_granted (s := s) (c.entering p.fraction) c.enteringIndex beyond hroom hstill
  have htaken : s.tryLower p = (s.grantEntry (c.entering p.fraction) c.enteringIndex beyond).takeGrant p beyond := by
    rcases h with ⟨hm, hsum, rfl⟩ | ⟨hm, hentries, rfl⟩
    · exact (tryLower_asks p hc hclear).2.1 ((requestHeat_grants hn).1 hm hsum)
    · exact (tryLower_asks p hc hclear).2.2 ((requestHeat_grants hn).2 hm hentries)
  rw [htaken]
  exact takeGrant_lowered p hgranted hclear

/-- Settles O49: the record's mass leaves the sum before the waiting request is decided, and an admission is the LOWER's. -/
theorem entryExpiryAdmitsTheWaitingRequest : Obligations.EntryExpiryAdmitsTheWaitingRequest := by
  unfold Obligations.EntryExpiryAdmitsTheWaitingRequest
  refine ⟨fun s e rest hentries hroom => ?expiry, fun s c e depth speed fraction hc he hn hp himm hnone hreleasing => ?step⟩
  case expiry =>
    intro expiry
    have hremoved := removeAt_oldest hentries
    rw [exec_entryExpiry hentries]
    refine ⟨fun hwaits => ?_, fun r p beyond hgrants hd hfirm hover => ?_⟩
    · exact congrArg Host.Outcome.next (entryOver_stands hremoved (retryHeat_waits (s := s.expired e rest) hwaits))
    · have hclear : (s.expired e rest).firmAndClear = true := (firmAndClear_iff _).mpr ⟨hfirm, hover⟩
      have hstill : (s.expired e rest).scu.state.isStill = true := by
        show s.scu.state.isStill = true
        rw [hfirm]
        rfl
      have hgranted := grantEntry_granted (s := s.expired e rest) r.mass r.index beyond hroom hstill
      have hover := entryOver_grants hremoved (retryHeat_grants (s := s.expired e rest) hgrants)
      rw [takeAdmission_waiting beyond (hgranted.state.trans hd)] at hover
      obtain ⟨h1, h2, h3, h4, h5, h6, h7, h8, h9⟩ := takeGrant_lowered p hgranted hclear
      exact ⟨_, congrArg Host.Outcome.next hover, h1, h2, h3, h4, h5, h6, h7, h8, h9⟩
  case step =>
    intro base mass index asked waits
    have htaken (t : State) (ht : (s.afterDwell c e).tryLower ⟨depth, speed, fraction⟩ = t) :
        exec .dwellExpiry s = .next t :=
      exec_dwellExpiry_waits hc he hn ((takeStep_lower (lowerCheck_passes (s := s.afterDwell c e) (c := c.next) rfl hp
        himm hnone hreleasing)).trans (congrArg (·, StepEnd.waits) ht))
    refine ⟨fun hwait => ?_, fun hfirm hover hrequest => ?_⟩
    · exact htaken _ (tryLower_waits (s := s.afterDwell c e) _ hwait)
    · have hclear : (s.afterDwell c e).firmAndClear = true := (firmAndClear_iff _).mpr ⟨hfirm, hover⟩
      have hwaits := requestHeat_waits (s := s.afterDwell c e) (m := mass) (index := index) hrequest
      refine ⟨fun hm hsum => ?_, fun hm hentries => ?_, fun beyond hlets hroom => ?_⟩
      · exact htaken _ ((tryLower_asks ⟨depth, speed, fraction⟩ (c := c.next) rfl hclear).1 (hwaits.1 hm hsum))
      · exact htaken _ ((tryLower_asks ⟨depth, speed, fraction⟩ (c := c.next) rfl hclear).1 (hwaits.2 hm hentries))
      · obtain ⟨h1, h2, h3, h4, h5, h6, h7, h8, -⟩ := tryLower_lowered (s := s.afterDwell c e) (c := c.next)
          ⟨depth, speed, fraction⟩ rfl hclear hrequest hroom hlets
        exact ⟨_, htaken _ rfl, h1, h2, h3, h4, h5, h6, h7, h8⟩

end Sys2Proof.Machine
end

section
/-! PROOFS. START_DIP: the checks of R101, the lot in use, and the context of the new dip (section 5.2; statement O24). -/

namespace Sys2Proof.Machine

/-! ### The lot in use -/

/-- A lot as START_DIP opens it (R102, R172). -/
def Lot.used (tag : Nat) (mask : BitVec 5) : Lot := { Lot.opened tag mask with inUse := true }

theorem useLot_zero (k : Pku) (mask : BitVec 5) : k.useLot 0 mask = k := if_pos rfl

theorem useLot_known {k : Pku} {tag : Nat} {x : Lot} (mask : BitVec 5) (h0 : tag ≠ 0) (h : k.lotOf tag = some x) :
    k.useLot tag mask = { lots := { x with inUse := true } :: k.lots.filter (fun y => y.tag != tag) } := by
  have ht : x.tag = tag := (lotOf_tag h).2
  unfold Pku.useLot
  rw [if_neg h0, h]
  show Pku.mk ({ x with inUse := true } :: k.lots.filter (fun y => y.tag != x.tag)) = _
  rw [ht]

/-- A lot that is not of the table is opened, and it alone is in use of what stands there. -/
theorem useLot_opened {k : Pku} {tag : Nat} {mask : BitVec 5} {rest : List Lot} (h0 : tag ≠ 0) (h : k.lotOf tag = none)
    (ho : k.openLot tag mask = { lots := Lot.opened tag mask :: rest }) (hrest : ∀ y ∈ rest, y ∈ k.lots) :
    k.useLot tag mask = { lots := Lot.used tag mask :: rest } := by
  have others (y : Lot) (hy : y ∈ rest) : (if y.tag = tag then { y with inUse := true } else y) = y :=
    if_neg fun ht => lotOf_none h (List.mem_map.mpr ⟨y, hrest y hy, ht⟩)
  have hmap : rest.map (fun y => if y.tag = tag then { y with inUse := true } else y) = rest :=
    (List.map_congr_left others).trans (List.map_id rest)
  unfold Pku.useLot
  rw [if_neg h0, h]
  simp only [ho, List.map_cons]
  rw [hmap]
  simp only [Lot.opened, if_true]
  rfl

theorem evictLast_subset (ls : List Lot) : ∀ y ∈ evictLast ls, y ∈ ls := by
  induction ls with
  | nil => exact fun y hy => hy
  | cons l rest ih =>
    intro y hy
    unfold evictLast at hy
    split at hy
    · rcases List.mem_cons.mp hy with rfl | hy
      · exact List.mem_cons_self
      · exact List.mem_cons_of_mem _ (ih y hy)
    · exact List.mem_cons_of_mem _ hy

/-- A new lot stands at place 1, before the table, or before the table without the lot it has lost (R102, R172, R173). -/
theorem useLot_new {k : Pku} {tag : Nat} (mask : BitVec 5) (h0 : tag ≠ 0) (h : k.lotOf tag = none) :
    (k.lots.length < 8 → k.useLot tag mask = { lots := Lot.used tag mask :: k.lots }) ∧
      (8 ≤ k.lots.length → k.useLot tag mask = { lots := Lot.used tag mask :: evictLast k.lots }) :=
  ⟨fun hroom => useLot_opened h0 h (openLot_room mask h hroom) fun _ hy => hy,
    fun hfull => useLot_opened h0 h (openLot_full mask h hfull) (evictLast_subset k.lots)⟩

/-- The lot in use stands at place 1. -/
theorem useLot_first {k : Pku} {tag : Nat} (mask : BitVec 5) (h0 : tag ≠ 0) :
    (k.useLot tag mask).lots.head?.map (fun x => (x.tag, x.inUse)) = some (tag, true) := by
  cases h : k.lotOf tag with
  | some x =>
    rw [useLot_known mask h0 h]
    show some (x.tag, true) = _
    rw [(lotOf_tag h).2]
  | none =>
    obtain ⟨hroom, hfull⟩ := useLot_new mask h0 h
    by_cases h8 : k.lots.length < 8
    · rw [hroom h8]
      rfl
    · rw [hfull (Nat.not_lt.mp h8)]
      rfl

/-! ### The request -/

theorem exec_startDip (s : State) (tag slot a b c d : Byte) (h : s.asksReady tag 15) :
    exec (.startDip tag [slot, a, b, c, d]) s =
      .next ((s.startRequest (slot.toNat, beNat [a, b], beNat [c, d])).1.answered tag 15
        (s.startRequest (slot.toNat, beNat [a, b], beNat [c, d])).2) :=
  congrArg Host.Outcome.next (request_asksReady s tag .startDip (slot.toNat, beNat [a, b], beNat [c, d])
    State.startRequest h)

/-- The checks of R101, in their order. -/
theorem startRequest_refuses (s : State) (slot lot mass : Nat) :
    (15 < slot → s.startRequest (slot, lot, mass) = (s, [4])) ∧
      (slot ≤ 15 → s.dsq.state ≠ .idle → s.startRequest (slot, lot, mass) = (s, [2])) ∧
      (slot ≤ 15 → s.dsq.state = .idle → s.pgs.programAt slot = none → s.startRequest (slot, lot, mass) = (s, [3, 1])) := by
  unfold State.startRequest
  refine ⟨fun h => if_pos h, fun h hd => ?_, fun h hd hp => ?_⟩
  · rw [if_neg (Nat.not_lt.mpr h), if_pos hd]
    rfl
  · rw [if_neg (Nat.not_lt.mpr h), if_neg (not_not.mpr hd), hp]
    rfl

/-- A dip that may start, its nominal mass at most 8,000 kg (R101). -/
theorem startRequest_starts {s : State} {slot lot mass : Nat} {p : Program} (h : slot ≤ 15) (hd : s.dsq.state = .idle)
    (hp : s.pgs.programAt slot = some p) :
    s.startRequest (slot, lot, mass) = (s.startDip slot lot (min 8000 mass) p, [if 8000 < mass then 1 else 0]) := by
  unfold State.startRequest
  rw [if_neg (Nat.not_lt.mpr h), if_neg (not_not.mpr hd), hp]
  by_cases hm : 8000 < mass
  · rw [Nat.min_eq_left hm.le, if_pos hm]
    exact if_pos hm
  · rw [Nat.min_eq_right (Nat.not_lt.mp hm), if_neg hm]
    exact if_neg hm

/-- The state in which step 0 of a new dip is taken (R102). -/
def State.dipBegun (s : State) (slot lot mass : Nat) (p : Program) : State :=
  { s with
    zbr := { s.zbr with serial := s.zbr.serial + 1 },
    scu := { s.scu with requestTime := none, blockedLongMark := false },
    pku := s.pku.useLot lot s.cfg.params.mask,
    dsq := { s.dsq with ctx := some (newContext slot lot mass p s.wch.lost (s.zbr.serial + 1)) } }

theorem startDip_eq (s : State) (slot lot mass : Nat) (p : Program) :
    s.startDip slot lot mass p = (s.dipBegun slot lot mass p).runSteps stepFuel := rfl

theorem takeStep_weighDry (s : State) (n : Nat) :
    s.takeStep (.weighDry n) = ((s.withWch (s.wch.settling s.now n)).toDsq .weighingDry, .waits) := rfl

/-- The first step of a new dip is its WEIGH_DRY (R102, R103). -/
theorem startDip_weighDry {s : State} {slot lot mass timeout : Nat} {p : Program} (hp : s.pgs.programAt slot = some p)
    (hstep : p.steps[0]? = some (.weighDry timeout)) :
    s.startDip slot lot mass p = { s with
      zbr := { s.zbr with serial := s.zbr.serial + 1 },
      scu := { s.scu with requestTime := none, blockedLongMark := false },
      pku := s.pku.useLot lot s.cfg.params.mask,
      wch := s.wch.settling s.now timeout,
      dsq := { s.dsq with
        state := .weighingDry, ctx := some (newContext slot lot mass p s.wch.lost (s.zbr.serial + 1)) } } := by
  have hcurrent : (s.dipBegun slot lot mass p).currentStep = some (.weighDry timeout) := by
    show (s.pgs.programAt slot).bind (fun p => p.steps[0]?) = _
    rw [hp]
    exact hstep
  rw [startDip_eq]
  exact runSteps_waits (s.dipBegun slot lot mass p) _ 95 (.weighDry timeout) hcurrent (takeStep_weighDry _ timeout)

/-- Settles O24: the checks refuse in order, and a dip that starts takes its lot, its context and its first step. -/
theorem startDipCreatesTheContext : Obligations.StartDipCreatesTheContext := by
  unfold Obligations.StartDipCreatesTheContext
  intro s tag slot a b c d hasks
  rw [exec_startDip s tag slot a b c d hasks]
  obtain ⟨hslot, hbusy, hempty⟩ := startRequest_refuses s slot.toNat (beNat [a, b]) (beNat [c, d])
  refine ⟨fun h => by rw [hslot h], fun h hd => by rw [hbusy h hd], fun h hd hp => by rw [hempty h hd hp],
    fun p timeout h hd hp hstep => ?_⟩
  intro opened
  refine ⟨s.pku.useLot (beNat [a, b]) s.cfg.params.mask, fun h0 => ?_, fun h0 => ⟨useLot_first _ h0,
    fun x hx => useLot_known _ h0 hx, fun hnew => ⟨(useLot_new _ h0 hnew).1, fun before x after h8 hs hx ha => ?_⟩⟩, ?_⟩
  · rw [h0]
    exact useLot_zero _ _
  · rw [(useLot_new _ h0 hnew).2 h8, hs, evictLast_split before after x hx ha]
    rfl
  · rw [startRequest_starts h hd hp, startDip_weighDry hp hstep]
    rfl

end Sys2Proof.Machine
end

section
/-! PROOFS. ABORT_DIP: the quick abort, the abort path, and what becomes of the own claim (sections 2.5, 5.6; statement
O25). -/

namespace Sys2Proof.Machine

/-! ### The request and its rows -/

theorem exec_abortDip (s : State) (tag : Byte) (h : s.asksReady tag 16) :
    exec (.abortDip tag []) s = .next ((s.abortDip ()).1.answered tag 16 (s.abortDip ()).2) :=
  congrArg Host.Outcome.next (request_asksReady s tag .abortDip () State.abortDip h)

theorem markAbort_is {s : State} {c : DipCtx} (hc : s.dsq.ctx = some c) :
    s.markAbort = s.withDsq { s.dsq with ctx := some c.marked } := by
  unfold State.markAbort State.modCtx
  rw [hc]
  rfl

/-- A dip in work is aborted by its load (R121). -/
theorem abortDip_working {s : State} (h : s.working) : s.abortDip () = (s.abortByLoad, [0]) := by
  obtain ⟨hidle, hparked, hhalted, haborting, hrelease⟩ := h
  unfold State.abortDip
  split
  case h_1 e => exact absurd e hidle
  case h_2 p e => exact absurd e (haborting p)
  case h_3 e => exact absurd e hparked
  case h_4 e => exact absurd e hhalted
  case h_5 e =>
    rw [if_neg (by rw [hrelease e]; decide)]
    rfl
  case h_6 => rfl

/-- WCH's task ends without a result, in the words of R123 and R157. -/
theorem endWeighTask_is {s : State} {c : DipCtx} (hc : s.dsq.ctx = some c) : s.endWeighTask =
    { s with
      wch := { s.wch with task := .none },
      dsq := { s.dsq with ctx := some (c.outOfTask s.wch.task s.now) } } := by
  unfold State.endWeighTask Wch.endTask State.modCtx
  cases hw : s.wch.task with
  | none =>
    simp only []
    have hwch : { s.wch with task := WchTask.none } = s.wch := by rw [← hw]
    rw [hwch]
    show s.withWch s.wch = s.withDsq { s.dsq with ctx := some c }
    rw [← hc]
    rfl
  | settle w =>
    simp only []
    have hsame : c.outOfTask (.settle w) s.now = c := rfl
    rw [hsame, ← hc]
    rfl
  | drain w =>
    simp only [State.withWch_dsq, hc]
    rfl

/-- A STOP handed over with a request outstanding (R137). -/
theorem stopMotion_outstanding {s : State} {r : MotionRequest} {n : Byte} (p : AbortPhase)
    (h : s.mpt.phase.outstanding = some (r, n)) :
    s.stopMotion p = { s with mpt := s.mpt.stopping r n, dsq := { s.dsq with state := .aborting p } } := by
  have hstop : s.mpt.stop = s.mpt.stopping r n := by
    unfold Mpt.stop
    rw [h]
    cases r <;> rfl
  have hbusy : s.mpt.phase ≠ .idle := fun e => by rw [e] at h; cases h
  unfold State.stopMotion
  rw [hstop]
  exact if_neg hbusy

/-! ### The abort path -/

/-- The context the abort path goes on with is the one it is given. -/
theorem pathGoesOn_withCtx (s : State) (x : Option DipCtx) (c : DipCtx) :
    (s.withDsq { s.dsq with ctx := x }).pathGoesOn c = s.pathGoesOn c := by
  unfold State.pathGoesOn
  split
  · rename_i hp
    rw [if_pos (show s.dsq.position = .below from hp)]
    rfl
  · rename_i hp
    rw [if_neg (show ¬ s.dsq.position = .below from hp)]
    rfl

theorem abortByLoad_lowered {s : State} {c : DipCtx} (hc : s.dsq.ctx = some c) (h : s.lowered = true) :
    s.abortByLoad = (s.withDsq { s.dsq with ctx := some c.marked }).abortPath := by
  unfold State.abortByLoad
  rw [if_pos h, markAbort_is hc]

theorem abortByLoad_unlowered {s : State} {c : DipCtx} (hc : s.dsq.ctx = some c) (h : s.lowered = false) :
    s.abortByLoad = (s.withDsq { s.dsq with ctx := some c.marked }).quickAbort := by
  unfold State.abortByLoad
  rw [if_neg (by rw [h]; decide), markAbort_is hc]

/-- The rows of the abort path that stop the drive, the context being marked (R123). -/
theorem abortPath_stops {s : State} {c : DipCtx} (hc : s.dsq.ctx = some c) :
    (∀ d v n, s.dsq.state = .lowering → s.mpt.phase = .awaitAccept (.lower d v) n →
      s.abortPath = { s with
        dsq := { s.dsq with state := .aborting (.pathStop true), position := .below, ctx := some c.countImmersion },
        mpt := s.mpt.stopping (.lower d v) n }) ∧
    (∀ d v n, s.dsq.state = .lowering → s.mpt.phase = .running (.lower d v) n →
      s.abortPath = { s with
        dsq := { s.dsq with state := .aborting (.pathStop true), position := .below },
        mpt := s.mpt.stopping (.lower d v) n }) ∧
    (∀ r n, s.dsq.state = .vibrating ∨ s.dsq.state = .traveling → s.mpt.phase.outstanding = some (r, n) →
      s.abortPath = { s with
        dsq := { s.dsq with state := .aborting (.pathStop false) },
        mpt := s.mpt.stopping r n }) := by
  unfold State.abortPath
  refine ⟨fun d v n hd hp => ?_, fun d v n hd hp => ?_, fun r n hd hp => ?_⟩
  · have hun : s.mpt.lowerUnaccepted = true := by unfold Mpt.lowerUnaccepted; rw [hp]
    rw [hd]
    simp only [hun, if_true]
    have hcount : s.modCtx DipCtx.countImmersion = s.withDsq { s.dsq with ctx := some c.countImmersion } := by
      unfold State.modCtx
      rw [hc]
      rfl
    rw [hcount, stopMotion_outstanding (r := .lower d v) (n := n) _ (by
      show s.mpt.phase.outstanding = _
      rw [hp]
      rfl)]
    rfl
  · have hun : s.mpt.lowerUnaccepted = false := by unfold Mpt.lowerUnaccepted; rw [hp]
    rw [hd]
    simp only [hun]
    rw [if_neg (by decide), stopMotion_outstanding (r := .lower d v) (n := n) _ (by
      show s.mpt.phase.outstanding = _
      rw [hp]
      rfl)]
    rfl
  · rcases hd with hd | hd <;> rw [hd] <;> exact stopMotion_outstanding _ hp

/-- The rows of the abort path in which nothing is in flight, the context being marked (R123). -/
theorem abortPath_goesOn {s : State} {c : DipCtx} (hc : s.dsq.ctx = some c) :
    (s.dsq.state = .dwelling → s.abortPath = { s with dsq := { s.dsq with dwellEnd := none } }.pathGoesOn c) ∧
    (s.dsq.state = .draining → s.abortPath = { s with wch := { s.wch with task := .none } }.pathGoesOn
      { c.outOfTask s.wch.task s.now with quality := { c.quality with drainAborted := true } }) ∧
    (s.dsq.state = .weighingDry ∨ s.dsq.state = .weighingOut →
      s.abortPath = { s with wch := { s.wch with task := .none } }.pathGoesOn (c.outOfTask s.wch.task s.now)) ∧
    (s.dsq.state = .awaitClaim ∨ (∃ p, s.dsq.state = .awaitLower p) ∨ s.dsq.state = .awaitRelease ∨
        (∃ p, s.dsq.state = .heatWait p) →
      s.abortPath = { s with hwn := { s.hwn with request := .none } }.pathGoesOn c) := by
  have hquality : (c.outOfTask s.wch.task s.now).quality = c.quality := by
    unfold DipCtx.outOfTask
    split <;> rfl
  have hended := endWeighTask_is hc
  have goesOn (d : DipCtx) : ({ s with
      wch := { s.wch with task := .none },
      dsq := { s.dsq with ctx := some d } } : State).continueAbort =
        { s with wch := { s.wch with task := .none } }.pathGoesOn d :=
    (continueAbort_eq rfl).trans (pathGoesOn_withCtx { s with wch := { s.wch with task := .none } } (some d) d)
  unfold State.abortPath
  refine ⟨fun hd => ?_, fun hd => ?_, fun hd => ?_, fun hd => ?_⟩
  · rw [hd]
    exact continueAbort_eq (s := s.stopDwell) hc
  · rw [hd]
    simp only []
    rw [hended]
    show (State.continueAbort { s with
      wch := { s.wch with task := .none },
      dsq := { s.dsq with
        ctx := some { c.outOfTask s.wch.task s.now with
          quality := { (c.outOfTask s.wch.task s.now).quality with drainAborted := true } } } }) = _
    rw [hquality]
    exact goesOn _
  · rcases hd with hd | hd <;> rw [hd] <;> simp only [] <;> rw [hended] <;> exact goesOn _
  · rcases hd with hd | ⟨p, hd⟩ | hd | ⟨p, hd⟩ <;> rw [hd] <;> exact continueAbort_eq (s := s.withdrawHeat) hc

end Sys2Proof.Machine
end

section
/-! PROOFS. The quick abort: what it ends, what becomes of the own claim, and the record made after it (sections 2.5, 5.6;
statement O25). -/

namespace Sys2Proof.Machine

/-! ### The frame on the line -/

theorem place_current (l : Lif) (f : TxFrame) : (l.place f).1.current = l.current := by
  unfold Lif.place
  split
  · rfl
  · split
    · rfl
    · split
      · split <;> rfl
      · rfl

theorem offerBase_current {s : State} {c : Current} (f : TxFrame) (h : s.lif.current = some c) :
    (s.offerBase f).lif.current = some c := by
  have hplaced := (place_current s.lif f).trans h
  unfold State.offerBase
  split
  · rename_i l e
    rw [e] at hplaced
    exact (congrArg Lif.current (takeCurrent_current hplaced)).trans hplaced
  · rename_i l g e
    rw [e] at hplaced
    rw [reportDrop_lif]
    exact (congrArg Lif.current (takeCurrent_current hplaced)).trans hplaced

/-- No offer takes the line from the frame that has it (R18). -/
theorem offer_current {s : State} {c : Current} (f : TxFrame) (h : s.lif.current = some c) :
    (s.offer f).lif.current = some c := by
  have started (u : State) (hu : u.lif.current = some c) : u.evalStart.lif.current = some c := by
    unfold State.evalStart
    split
    · split
      · exact offerBase_current _ hu
      · exact hu
    · exact hu
  unfold State.offer
  split
  · exact started _ (offerBase_current f h)
  · exact offerBase_current f h

/-! ### A record beside a claim that no change of admission moves -/

/-- A settled claim, or one whose INTENT is to be withdrawn. -/
def State.claimRests (s : State) : Prop :=
  s.scu.state.isSettled ∨ (s.scu.state = .pending ∧ s.scu.withdrawal = .cancel)

theorem zincNotice_rests {s : State} (h : s.claimRests) : s.zincNotice = s := by
  rcases h with h | ⟨hp, hw⟩
  · exact zincNotice_settled s h
  · unfold State.zincNotice State.evalStart State.withdrawIntent
    rw [hp, hw]
    simp

/-- Beside a claim at rest a record offers its PICKUP, if it is made, and moves the claim and the queue no further. -/
theorem createRecord_rests {s : State} (o : DipOutcome) (h : s.claimRests) : (s.createRecord o).scu = s.scu ∧
    ((s.createRecord o).lif = s.lif ∨
      ∃ (v : State) (f : TxFrame), f ≠ .beacon ∧ v.lif = s.lif ∧ (s.createRecord o).lif = (v.offer f).lif) := by
  have consumed (u : State) (n : Nat) (hu : u.claimRests) : (u.consume n).scu = u.scu ∧ (u.consume n).lif = u.lif := by
    obtain ⟨l, x, -, -, hput⟩ := putZ_eq u (u.zbr.z - n)
    show (u.putZ _).scu = _ ∧ (u.putZ _).lif = _
    rcases hput with e | e <;> rw [e]
    · exact ⟨rfl, rfl⟩
    · rw [zincNotice_rests (s := (u.withZbr { u.zbr with z := u.zbr.z - n, level := l }).withSpt x) hu]
      exact ⟨rfl, rfl⟩
  have offered (u : State) (n : Nat) (k : Option SteelClass) (q : BitVec 32) (hu : u.claimRests) :
      (u.offerPickup n k q).scu = u.scu ∧ ∃ (v : State) (f : TxFrame), f ≠ .beacon ∧ v.lif = u.lif ∧
        (u.offerPickup n k q).lif = (v.offer f).lif := by
    obtain ⟨hscu, hlif⟩ := consumed u n hu
    have hkept := offerFrame_pickup ((u.consume n).withZbr { (u.consume n).zbr with ownSeq := (u.consume n).zbr.ownSeq + 1 })
      u.zbr.ownSeq n k q
    exact ⟨hkept.scu.trans hscu, (u.consume n).withZbr { (u.consume n).zbr with ownSeq := (u.consume n).zbr.ownSeq + 1 },
      .pickup u.zbr.ownSeq n k q, by simp, hlif, rfl⟩
  have appended (u : State) (r : DipRecord) (hu : u.claimRests) : (u.appendRecord r).scu = u.scu ∧
      ∃ (v : State) (f : TxFrame), f ≠ .beacon ∧ v.lif = u.lif ∧ (u.appendRecord r).lif = (v.offer f).lif := by
    obtain ⟨y, -, -, -, heq⟩ := appendRecord_eq u r
    rw [heq]
    exact offered ((u.withZbr { u.zbr with
      ring := ringAppend u.zbr.ring { r with number := u.zbr.nextNumber },
      nextNumber := u.zbr.nextNumber + 1 }).withSpt y) _ _ _ hu
  unfold State.createRecord
  split
  · split
    · exact ⟨rfl, Or.inl rfl⟩
    · rename_i c _ _
      obtain ⟨x, hraise, -, -⟩ := raiseAll_eq (s.withPku (s.pku.afterRecord s.cfg.params.lockCount c.lot
        (makeRecord s.cfg.params s.pku c o).dipClass))
        (s.pku.recordEvents s.cfg.params.lockCount c.lot (makeRecord s.cfg.params s.pku c o).dipClass)
      unfold State.recordDip
      simp only []
      rw [hraise]
      obtain ⟨hscu, hlif⟩ := appended ((s.withPku (s.pku.afterRecord s.cfg.params.lockCount c.lot
        (makeRecord s.cfg.params s.pku c o).dipClass)).withSpt x) (makeRecord s.cfg.params s.pku c o) h
      exact ⟨hscu, Or.inr hlif⟩
  · exact ⟨rfl, Or.inl rfl⟩

/-- Beside a claim at rest a record leaves the frame on the line, and with room every frame of the queue. -/
theorem createRecord_queue {s : State} (o : DipOutcome) (h : s.claimRests) :
    (∀ c, s.lif.current = some c → (s.createRecord o).lif.current = some c) ∧
      (∀ p, s.lif.places < 8 → s.lif.holds p = true → (s.createRecord o).lif.holds p = true) := by
  rcases (createRecord_rests o h).2 with hl | ⟨v, f, hf, hv, hl⟩ <;> rw [hl]
  · exact ⟨fun _ hc => hc, fun _ _ hp => hp⟩
  · refine ⟨fun c hc => offer_current f (by rw [hv]; exact hc), fun p hroom hp => ?_⟩
    rw [offer_holds v f p (by rw [hv]; exact hroom) hf, hv, hp, Bool.or_true]

/-! ### Giving the span back -/

theorem releaseSpan_unheld {s : State} (h : s.scu.state.isHeld = false) : s.releaseSpan = s := by
  unfold State.releaseSpan
  cases hs : s.scu.state <;> simp only [hs, ClaimState.isHeld] at h ⊢ <;> cases h

/-- An open claim is cancelled, and nothing is left to release (R56). -/
theorem giveBack_open {s : State} (h : s.scu.state.isOpen = true) : s.giveBack = s.cancelClaim := by
  have hcancel : s.cancelUnheld = s.cancelClaim := if_pos (Or.inl h)
  unfold State.giveBack
  rw [hcancel]
  exact releaseSpan_unheld (cancelClaim_open s h)

theorem giveBack_none {s : State} (h : s.scu.state = .none) : s.giveBack = s := by
  have hkept : s.cancelUnheld = s := by
    unfold State.cancelUnheld
    split
    · unfold State.cancelClaim
      rw [h]
    · rfl
  unfold State.giveBack
  rw [hkept]
  exact releaseSpan_stands s (Or.inr h)

/-- A span held and not on its way out yet is released, whatever request waits for it (R55, R56). -/
theorem giveBack_held {s : State} (h : s.scu.state.isHeld = true) (hr : s.scu.state ≠ .releasing) :
    s.giveBack = s.startRelease := by
  have hopen : s.scu.state.isOpen = false := ClaimState.isOpen_of_isHeld h
  have hcancel : s.cancelClaim = s.startRelease := by
    unfold State.cancelClaim
    cases hs : s.scu.state <;> simp only [hs, ClaimState.isHeld] at h ⊢
    case releasing => exact absurd hs hr
    all_goals cases h
  have hrelease : s.releaseSpan = s.startRelease := by
    unfold State.releaseSpan
    cases hs : s.scu.state <;> simp only [hs, ClaimState.isHeld] at h ⊢
    case releasing => exact absurd hs hr
    all_goals cases h
  have hdone : s.startRelease.releaseSpan = s.startRelease := releaseSpan_stands _ (Or.inl rfl)
  unfold State.giveBack State.cancelUnheld
  rw [hopen]
  split
  · rw [hcancel, hdone]
  · exact hrelease

/-- A span already on its way out loses a held request only (R55, R56). -/
theorem giveBack_releasing {s : State} (h : s.scu.state = .releasing) : s.giveBack = s.withScu { s.scu with held := none } := by
  have hcancel : s.cancelUnheld = s.withScu { s.scu with held := none } := by
    unfold State.cancelUnheld
    split
    · unfold State.cancelClaim
      rw [h]
    · rename_i hno
      have hh : s.scu.held = none := by
        cases hh : s.scu.held with
        | none => rfl
        | some w => exact absurd (Or.inr (by rw [hh]; rfl)) hno
      rw [← hh]
      rfl
  unfold State.giveBack
  rw [hcancel]
  exact releaseSpan_stands _ (Or.inl h)

theorem startRelease_places {s : State} (h : s.scu.state.isSettled) : s.startRelease.lif.places ≤ s.lif.places + 1 := by
  have hoffer := offer_settled s (.free s.ownClaim) h (by simp)
  show (s.offer _).lif.places ≤ _
  rw [hoffer]
  exact offerBase_places s _

/-- Giving the span back fills at most two places of the queue. -/
theorem giveBack_places (s : State) : s.giveBack.lif.places ≤ s.lif.places + 2 := by
  by_cases hopen : s.scu.state.isOpen = true
  · rw [giveBack_open hopen]
    exact cancelClaim_places s hopen
  by_cases hnone : s.scu.state = .none
  · rw [giveBack_none hnone]
    exact Nat.le_add_right _ 2
  by_cases hreleasing : s.scu.state = .releasing
  · rw [giveBack_releasing hreleasing]
    exact Nat.le_add_right _ 2
  have hheld : s.scu.state.isHeld = true := by
    cases hs : s.scu.state <;> simp [hs, ClaimState.isOpen] at hopen hnone hreleasing <;> rfl
  rw [giveBack_held hheld hreleasing]
  exact Nat.le_succ_of_le (startRelease_places (Or.inl hheld))

/-! ### The claim once it is given back -/

theorem ownClaim_is {s : State} {own : OwnEntry} (h : s.scu.own = some own) : s.ownClaim = own.claim := by
  unfold State.ownClaim
  rw [h]
  rfl

theorem takeFirst_finds {p : TxFrame → Bool} {q : List TxFrame} (h : q.any p = true) : ∃ r, takeFirst p q = some r := by
  induction q with
  | nil => cases h
  | cons g rest ih =>
    unfold takeFirst
    by_cases hg : p g = true
    · exact ⟨_, if_pos hg⟩
    · rw [List.any_cons, Bool.eq_false_iff.mpr hg, Bool.false_or] at h
      obtain ⟨r, hr⟩ := ih h
      rw [if_neg hg, hr]
      exact ⟨_, rfl⟩

/-- A waiting INTENT is withdrawn, and its claim ends (R45, R56). -/
theorem giveBack_withdrawn {s : State} {own : OwnEntry} (hs : s.scu.state = .pending) (hw : s.scu.withdrawal = .none)
    (ho : s.scu.own = some own) (hq : s.lif.waiting.any (TxFrame.isIntentOf own.claim) = true) (hh : s.scu.held = none) :
    s.giveBack.scu.state = .none ∧ s.giveBack.scu.own = none ∧ s.giveBack.scu.blockedSince = none := by
  have hclaim := ownClaim_is ho
  have hdone : (s.lif.withdraw own.claim).2 = .done := by
    obtain ⟨r, hr⟩ := takeFirst_finds hq
    unfold Lif.withdraw
    rw [hr]
  have hcancel : s.cancelClaim = (s.withLif (s.lif.withdraw own.claim).1).endClaim := by
    unfold State.cancelClaim
    rw [hs, hw, hclaim]
    generalize hr : s.lif.withdraw own.claim = r at hdone
    obtain ⟨l, a⟩ := r
    obtain rfl : a = .done := hdone
    rfl
  obtain ⟨x, hended, hstate, hown, -, hsince⟩ := endClaim_unheld (s := s.withLif (s.lif.withdraw own.claim).1) hh
  rw [giveBack_open (by rw [hs]; rfl), hcancel, hended]
  exact ⟨hstate, hown, hsince⟩

/-- The INTENT on the line is marked to be withdrawn, and its claim waits for that (R45, R56, R57). -/
theorem giveBack_heldBack {s : State} {own : OwnEntry} {cur : Current} {bytes : List Byte} (hs : s.scu.state = .pending)
    (hw : s.scu.withdrawal = .none) (ho : s.scu.own = some own)
    (hq : s.lif.waiting.any (TxFrame.isIntentOf own.claim) = false) (hcur : s.lif.current = some cur)
    (hf : cur.frame.isIntentOf own.claim = true) (hp : cur.phase = .onLine bytes) :
    s.giveBack = (s.withLif { s.lif with current := some { cur with withdrawHeld := true } }).awaitCancel := by
  have hclaim := ownClaim_is ho
  have hnone : takeFirst (TxFrame.isIntentOf own.claim) s.lif.waiting = none :=
    takeFirst_none fun g hg => by
      have := List.any_eq_false.mp hq g hg
      simpa using this
  have hheld : s.lif.withdraw own.claim =
      ({ s.lif with current := some { cur with withdrawHeld := true } }, .heldBack) := by
    unfold Lif.withdraw
    simp only [hnone, hcur, hf, hp, if_true]
  rw [giveBack_open (by rw [hs]; rfl)]
  unfold State.cancelClaim
  rw [hs, hw, hclaim, hheld]

theorem awaitCancel_scu (s : State) : s.awaitCancel.scu.state = s.scu.state ∧ s.awaitCancel.scu.own = s.scu.own ∧
    s.awaitCancel.scu.withdrawal = .cancel ∧ s.awaitCancel.scu.blockedSince = none := by
  have hsince := stopBlocked_since s.scu s.now
  have hkept : (s.scu.stopBlocked s.now).state = s.scu.state ∧ (s.scu.stopBlocked s.now).own = s.scu.own := by
    unfold Scu.stopBlocked
    split <;> exact ⟨rfl, rfl⟩
  exact ⟨hkept.1, hkept.2, rfl, hsince⟩

/-- A claim in its window yields and ends (R48, R56). -/
theorem giveBack_window {s : State} {own : OwnEntry} (hs : s.scu.state = .claimingWindow) (ho : s.scu.own = some own)
    (hh : s.scu.held = none) :
    s.giveBack.scu.state = .none ∧ s.giveBack.scu.own = none ∧ s.giveBack.scu.windowEnd = none ∧
      s.giveBack.scu.blockedSince = none ∧ (s.lif.places < 8 → s.giveBack.lif.holds (· == .yield own.claim) = true) := by
  have hclaim := ownClaim_is ho
  have hcancel : s.cancelClaim = (s.offer (.yield own.claim)).endClaim := by
    unfold State.cancelClaim
    rw [hs, hclaim]
  have hheld : (s.offer (.yield own.claim)).scu.held = none := (offer_held s _).trans hh
  rw [giveBack_open (by rw [hs]; rfl), hcancel]
  have hended : (s.offer (.yield own.claim)).endClaim = (s.offer (.yield own.claim)).withScu
      { (s.offer (.yield own.claim)).scu.stopBlocked (s.offer (.yield own.claim)).now with
        state := .none, wanted := none, own := none, withdrawal := .none, windowEnd := none, guardEnd := none,
        retryEnd := none, lastAge := none } := by
    unfold State.endClaim
    rw [hheld]
  rw [hended]
  refine ⟨rfl, rfl, rfl, stopBlocked_since _ _, fun hroom => ?_⟩
  show (s.offer (.yield own.claim)).lif.holds _ = true
  rw [offer_holds s _ _ hroom (by simp)]
  simp

/-- A held span is on its way out (R55). -/
theorem giveBack_freed {s : State} {own : OwnEntry} (h : s.scu.state.isHeld = true) (hr : s.scu.state ≠ .releasing)
    (ho : s.scu.own = some own) :
    s.giveBack.scu.state = .releasing ∧ s.giveBack.scu.own = some own ∧ s.giveBack.scu.blockedSince = none ∧
      (s.lif.places < 8 → s.giveBack.lif.holds (· == .free own.claim) = true) := by
  have hs : s.scu.state = .claimingHoldQueued ∨ s.scu.state = .guard ∨ s.scu.state = .firm := by
    cases hs : s.scu.state <;> simp [hs, ClaimState.isHeld] at h hr ⊢
  have hrelease : s.releaseSpan = s.startRelease := by
    unfold State.releaseSpan
    rcases hs with hs | hs | hs <;> rw [hs]
  obtain ⟨hstate, hown, -, hfree⟩ := releaseSpan_held s own ho hs
  rw [giveBack_held h hr, ← hrelease]
  refine ⟨hstate, hown, ?_, hfree⟩
  rw [hrelease]
  exact stopBlocked_since (s.offer (.free s.ownClaim)).scu (s.offer (.free s.ownClaim)).now

/-! ### The quick abort -/

/-- The state once the admission, WCH's task and the dwell of a dip have ended (R122). -/
def State.workEnded (s : State) (c : DipCtx) : State :=
  { s with
    hwn := { s.hwn with request := .none },
    wch := { s.wch with task := .none },
    dsq := { s.dsq with ctx := some (c.outOfTask s.wch.task s.now), dwellEnd := none } }

theorem quickAbort_stops {s : State} {c : DipCtx} {r : MotionRequest} {n : Byte} (hc : s.dsq.ctx = some c)
    (h : s.mpt.phase.outstanding = some (r, n)) :
    s.quickAbort = (s.workEnded c).giveBack.stopMotion .quickStop := by
  have hended : s.withdrawHeat.endWeighTask.stopDwell = s.workEnded c := by
    rw [endWeighTask_is (s := s.withdrawHeat) hc]
    rfl
  have hmpt : (s.workEnded c).giveBack.mpt = s.mpt := (aside_giveBack (s.workEnded c)).mpt
  unfold State.quickAbort
  rw [hended]
  simp only [hmpt, h]

theorem quickAbort_completes {s : State} {c : DipCtx} (hc : s.dsq.ctx = some c) (h : s.mpt.phase.outstanding = none) :
    s.quickAbort = ((s.workEnded c).giveBack.createRecord .aborted).returnIdle := by
  have hended : s.withdrawHeat.endWeighTask.stopDwell = s.workEnded c := by
    rw [endWeighTask_is (s := s.withdrawHeat) hc]
    rfl
  have hmpt : (s.workEnded c).giveBack.mpt = s.mpt := (aside_giveBack (s.workEnded c)).mpt
  unfold State.quickAbort
  rw [hended]
  simp only [hmpt, h]
  rfl

/-- A claim that rests once it is given back stays so over the record and the return to IDLE. -/
theorem returnedIdle_claim {s : State} (o : DipOutcome) (h : s.claimRests) :
    (s.createRecord o).returnIdle.scu = { s.scu with requestTime := none, blockedLongMark := false } ∧
      (∀ c, s.lif.current = some c → (s.createRecord o).returnIdle.lif.current = some c) ∧
      (∀ p, s.lif.places < 8 → s.lif.holds p = true → (s.createRecord o).returnIdle.lif.holds p = true) := by
  have hscu := (createRecord_rests o h).1
  refine ⟨?_, createRecord_queue o h⟩
  show { (s.createRecord o).scu with requestTime := none, blockedLongMark := false } = _
  rw [hscu]

/-- The own claim after a quick abort that completes at once, by the row of its state (R55, R56, R57, R122). -/
theorem quickAbort_claim {s u t : State} (hu : u = s.giveBack) (ht : t = (u.createRecord .aborted).returnIdle) :
    (s.scu.state = .blocked ∨ s.scu.state = .retry → s.scu.held = none →
      t.scu.state = .none ∧ t.scu.wanted = none ∧ t.scu.retryEnd = none ∧ t.scu.blockedSince = none) ∧
    (∀ own, s.scu.state = .pending → s.scu.withdrawal = .none → s.scu.own = some own →
      (s.lif.waiting.any (TxFrame.isIntentOf own.claim) = true → s.scu.held = none →
        t.scu.state = .none ∧ t.scu.own = none ∧ t.scu.blockedSince = none) ∧
      (∀ cur bytes, s.lif.waiting.any (TxFrame.isIntentOf own.claim) = false → s.lif.current = some cur →
        cur.frame.isIntentOf own.claim = true → cur.phase = .onLine bytes →
        t.scu.state = .pending ∧ t.scu.own = some own ∧ t.scu.withdrawal = .cancel ∧ t.scu.blockedSince = none ∧
          t.lif.current = some { cur with withdrawHeld := true })) ∧
    (∀ own, s.scu.own = some own →
      (s.scu.state = .claimingWindow → s.scu.held = none →
        t.scu.state = .none ∧ t.scu.own = none ∧ t.scu.windowEnd = none ∧ t.scu.blockedSince = none ∧
          (s.lif.places < 6 → t.lif.holds (· == .yield own.claim) = true)) ∧
      (s.scu.state.isHeld = true → s.scu.state ≠ .releasing →
        t.scu.state = .releasing ∧ t.scu.own = some own ∧ t.scu.blockedSince = none ∧
          (s.lif.places < 6 → t.lif.holds (· == .free own.claim) = true))) ∧
    (s.scu.state = .releasing → t.scu.state = .releasing ∧ t.scu.own = s.scu.own ∧ t.scu.held = none) := by
  have places : u.lif.places ≤ s.lif.places + 2 := by
    rw [hu]
    exact giveBack_places s
  have settled (h : u.scu.state = .none ∨ u.scu.state = .releasing) := returnedIdle_claim (s := u) .aborted
    (Or.inl (by rcases h with h | h <;> rw [h]; exacts [Or.inr rfl, Or.inl rfl]))
  rw [← ht] at settled
  refine ⟨fun hs hh => ?ended, fun own hs hw ho => ⟨fun hq hh => ?waits, fun cur bytes hq hcur hf hp => ?line⟩,
    fun own ho => ⟨fun hs hh => ?window, fun hs hr => ?held⟩, fun hs => ?releasing⟩
  case ended =>
    obtain ⟨x, hx, hstate, -, hwanted, hsince, hretry⟩ := cancelClaim_ends hs hh
    rw [giveBack_open (by rcases hs with h | h <;> rw [h] <;> rfl), hx] at hu
    subst hu
    rw [(settled (Or.inl hstate)).1]
    exact ⟨hstate, hwanted, hretry, hsince⟩
  case waits =>
    obtain ⟨hstate, hown, hsince⟩ := giveBack_withdrawn hs hw ho hq hh
    rw [← hu] at hstate hown hsince
    rw [(settled (Or.inl hstate)).1]
    exact ⟨hstate, hown, hsince⟩
  case line =>
    rw [giveBack_heldBack hs hw ho hq hcur hf hp] at hu
    obtain ⟨hstate, hown, hcancel, hsince⟩ := awaitCancel_scu (s.withLif { s.lif with
      current := some { cur with withdrawHeld := true } })
    rw [← hu] at hstate hown hcancel hsince
    obtain ⟨hscu, hline, -⟩ := returnedIdle_claim (s := u) .aborted (Or.inr ⟨hstate.trans hs, hcancel⟩)
    rw [← ht] at hscu hline
    rw [hscu]
    exact ⟨hstate.trans hs, hown.trans ho, hcancel, hsince, hline _ (by rw [hu]; rfl)⟩
  case window =>
    obtain ⟨hstate, hown, hwindow, hsince, hyield⟩ := giveBack_window hs ho hh
    rw [← hu] at hstate hown hwindow hsince hyield
    obtain ⟨hscu, -, hholds⟩ := settled (Or.inl hstate)
    rw [hscu]
    exact ⟨hstate, hown, hwindow, hsince, fun h6 => hholds _ (by omega) (hyield (by omega))⟩
  case held =>
    obtain ⟨hstate, hown, hsince, hfree⟩ := giveBack_freed hs hr ho
    rw [← hu] at hstate hown hsince hfree
    obtain ⟨hscu, -, hholds⟩ := settled (Or.inr hstate)
    rw [hscu]
    exact ⟨hstate, hown, hsince, fun h6 => hholds _ (by omega) (hfree (by omega))⟩
  case releasing =>
    rw [giveBack_releasing hs] at hu
    subst hu
    rw [(settled (Or.inr hs)).1]
    exact ⟨hs, rfl, rfl⟩

/-! ### The statement -/

/-- The rows of R121 in which a request for an abort does nothing to the dip but mark it. -/
theorem abortDip_rows (s : State) :
    (s.dsq.state = .idle → s.abortDip () = (s, [3, 2])) ∧ (∀ p, s.dsq.state = .aborting p → s.abortDip () = (s, [2])) ∧
      (s.dsq.state = .parked → s.abortDip () = (s, [2])) ∧ (s.dsq.state = .halted → s.abortDip () = (s, [0])) ∧
      (s.dsq.state = .awaitRelease → s.scu.state.isHeld = true → s.abortDip () = (s.markAbort, [0])) := by
  unfold State.abortDip
  refine ⟨fun h => ?_, fun p h => ?_, fun h => ?_, fun h => ?_, fun h hheld => ?_⟩ <;> rw [h]
  · rfl
  · rfl
  · rfl
  · rfl
  · exact if_pos hheld

/-- The answer to a request raises and clears no event, so a record stays made. -/
theorem RecordMade.answered {s t : State} {d : DipCtx} {o : DipOutcome} {placed : Prop} (h : RecordMade s d o placed t)
    (tag code : Byte) (body : List Byte) : RecordMade s d o placed (t.answered tag code body) := by
  have kept (e : Event) (he : t.spt.isRaised e = true) : (t.answered tag code body).spt.isRaised e = true := he
  obtain ⟨h1, h2, h3, h4, h5, h6, h7, h8, h9, h10⟩ := h
  exact ⟨h1, h2, h3, kept _ h4, fun h => kept _ (h5 h), h6, h7, h8, h9, fun x h0 hx e hm => kept e (h10 x h0 hx e hm)⟩

/-- Settles O25: the request by the row of its state, an abort by the load, and a quick abort's claim by its table. -/
theorem abortDipByItsRows : Obligations.AbortDipByItsRows := by
  unfold Obligations.AbortDipByItsRows
  refine ⟨fun s tag hasks => ?rows, fun s tag c hasks hc hworks hload => ?quick, fun s tag c hasks hc hworks hload => ?path⟩
  case rows =>
    obtain ⟨hidle, haborting, hparked, hhalted, hrelease⟩ := abortDip_rows s
    rw [exec_abortDip s tag hasks]
    refine ⟨fun h => by rw [hidle h], fun p h => by rw [haborting p h], fun h => by rw [hparked h],
      fun h => by rw [hhalted h], fun c h hheld hc => ?_⟩
    rw [hrelease h hheld, markAbort_is hc]
    rfl
  case quick =>
    have hexec : exec (.abortDip tag []) s =
        .next ((s.withDsq { s.dsq with ctx := some c.marked }).quickAbort.answered tag 16 [0]) := by
      rw [exec_abortDip s tag hasks, abortDip_working hworks, abortByLoad_unlowered hc hload]
    have himmersions : (c.marked.outOfTask s.wch.task s.now).immersions = c.immersions := by
      unfold DipCtx.outOfTask
      split <;> rfl
    rw [hexec]
    refine ⟨fun r n hout hs hh => ?_, fun hout hs hh h0 => ?_, fun hout => ?_⟩
    · rw [quickAbort_stops (s := s.withDsq { s.dsq with ctx := some c.marked }) rfl hout,
        giveBack_none (s := (s.withDsq { s.dsq with ctx := some c.marked }).workEnded c.marked) hs,
        stopMotion_outstanding (s := (s.withDsq { s.dsq with ctx := some c.marked }).workEnded c.marked) _ hout]
      rfl
    · rw [quickAbort_completes (s := s.withDsq { s.dsq with ctx := some c.marked }) rfl hout,
        giveBack_none (s := (s.withDsq { s.dsq with ctx := some c.marked }).workEnded c.marked) hs,
        createRecord_dry ((s.withDsq { s.dsq with ctx := some c.marked }).workEnded c.marked) .aborted rfl
          (himmersions.trans h0)]
      rfl
    · have hdone := quickAbort_completes (s := s.withDsq { s.dsq with ctx := some c.marked }) (c := c.marked) rfl hout
      have haside := aside_giveBack ((s.withDsq { s.dsq with ctx := some c.marked }).workEnded c.marked)
      have hplaces := giveBack_places ((s.withDsq { s.dsq with ctx := some c.marked }).workEnded c.marked)
      obtain ⟨hquiet, hhwn, hdry, hmade⟩ := createRecord_after (d := c.marked.outOfTask s.wch.task s.now) .aborted haside rfl
      have hclaim := quickAbort_claim (s := (s.withDsq { s.dsq with ctx := some c.marked }).workEnded c.marked) rfl rfl
      rw [hdone]
      generalize ((s.withDsq { s.dsq with ctx := some c.marked }).workEnded c.marked).giveBack = u at *
      generalize hv : u.createRecord .aborted = v at *
      obtain ⟨hopen, hpending, hown, hreleasing⟩ := hclaim
      refine ⟨_, rfl, rfl, hhwn, hquiet.wch.trans haside.wch, hquiet.mpt.trans haside.mpt, rfl, fun h0 => ?_, fun h0 => ?_,
        hopen, hpending, hown, hreleasing⟩
      · have made := hmade s rfl rfl rfl (fun h => h0 (himmersions.symm.trans h)) (s.lif.places < 5)
          (fun h => Nat.lt_of_le_of_lt hplaces (Nat.add_lt_add_right h 2))
        exact (made.after (v := v.returnIdle) rfl rfl (EventsGrow.refl _) (returnIdle_lots v)).answered tag 16 [0]
      · have hzbr : v.zbr = u.zbr := by rw [hdry (himmersions.trans h0)]
        show v.zbr.nextNumber = _ ∧ v.zbr.z = _
        rw [hzbr, haside.zbr]
        exact ⟨rfl, rfl⟩
  case path =>
    have hexec : exec (.abortDip tag []) s =
        .next ((s.withDsq { s.dsq with ctx := some c.marked }).abortPath.answered tag 16 [0]) := by
      rw [exec_abortDip s tag hasks, abortDip_working hworks, abortByLoad_lowered hc hload]
    have answers {t : State} (h : (s.withDsq { s.dsq with ctx := some c.marked }).abortPath = t) :
        exec (.abortDip tag []) s = .next (t.answered tag 16 [0]) := by rw [hexec, h]
    obtain ⟨hunaccepted, hrunning, hstops⟩ := abortPath_stops (s := s.withDsq { s.dsq with ctx := some c.marked })
      (c := c.marked) rfl
    obtain ⟨hdwelling, hdraining, hweighing, hwaits⟩ := abortPath_goesOn
      (s := s.withDsq { s.dsq with ctx := some c.marked }) (c := c.marked) rfl
    refine ⟨fun d v n hd hp => ?_, fun d v n hd hp => ?_, fun hd => ?_, fun hd => ?_, fun hd => ?_, fun r n hd hp => ?_,
      fun hd => ?_, fun hd => ?_⟩
    · exact answers (hunaccepted d v n hd hp)
    · exact answers (hrunning d v n hd hp)
    · exact answers ((hdwelling hd).trans
        (pathGoesOn_withCtx { s with dsq := { s.dsq with dwellEnd := none } } (some c.marked) c.marked))
    · refine answers ?_
      unfold State.abortPath
      rw [show (s.withDsq { s.dsq with ctx := some c.marked }).dsq.state = .raising from hd]
      rfl
    · exact answers ((hdraining hd).trans
        (pathGoesOn_withCtx { s with wch := { s.wch with task := .none } } (some c.marked) _))
    · exact answers (hstops r n hd hp)
    · exact answers ((hweighing hd).trans
        (pathGoesOn_withCtx { s with wch := { s.wch with task := .none } } (some c.marked) _))
    · exact answers ((hwaits hd).trans
        (pathGoesOn_withCtx { s with hwn := { s.hwn with request := .none } } (some c.marked) _))

end Sys2Proof.Machine
end
